-- ==== Sys2Proof/Word.lean ====
section
/-!
DEFINITION. The word types of the module: registers are 64 bits wide (R18), memory is addressed by the byte (R17, R35),
physical addresses have 48 bits (R35), commands and ticks of an image 32 bits (R137).
-/
namespace Sys2Proof

abbrev Byte := BitVec 8
abbrev Half := BitVec 16
abbrev Word32 := BitVec 32
/-- A control-space register, R18, and Tense, R264. -/
abbrev Word := BitVec 64
/-- A module physical address, R35. -/
abbrev Addr := BitVec 48

/-- Unit numbers of Table 1.1 (R23). -/
abbrev Tile := Fin 512
abbrev Slice := Fin 128
abbrev Stack := Fin 12
abbrev Channel := Fin 8
abbrev Port := Fin 24
abbrev Hart := Fin 16
/-- A rank of the synchronous domain, R11. -/
abbrev Rank := BitVec 14

end Sys2Proof
end

