-- ==== Sys2Proof/Syntax.lean ====
section
/-!
DEFINITION. The commands of the module: one constructor of `Instr` for each row of spec/opcode_table.json, in the
table's order. The table gives its rows no bits and no operands; the operands here are those the rule of each row
gives it: for a command of a tile the fields of Table 4.2 and its arguments of Tables 4.3, 4.4 and 4.7; for a register
write the value written; for a received flit the flit (Tables 6.3, 6.4, 6.7); for what only the outside or chance
decides (an error code's finding, a sampled voltage, a timestamp of the lane) that finding.
-/
namespace Sys2Proof

/-- The engines of a tile, with the codes of Table 4.1 (R131). -/
inductive Engine where
  | access | execute | vector | conversion | statistics
deriving DecidableEq, Repr

/-- What an error code finds in a word or burst that is read: R133, R189, R203. -/
inductive Ecc where
  | clean | corrected | uncorrectable
deriving DecidableEq, Repr

/-- The SECDED-protected memories of a tile, R133. -/
inductive TileMem where
  | memory | descriptors | summary
deriving DecidableEq, Repr

/-- An error that SECDED finds in an 8-byte word that a command reads (R133): the memory, the index of the word in it, and
whether it is uncorrectable. -/
structure EccFind where
  mem : TileMem
  word : Half
  unc : Bool
deriving DecidableEq, Repr

/-- A descriptor number, R138. -/
abbrev DescNo := BitVec 10

/-- The command header of Table 4.2 (R137) with the command's tag of R139; engine and opcode are the row's own. `found` is
no field of the command: it is what SECDED finds in the words of the tile that the command reads (R133). -/
structure Cmd where
  launch : Word32
  deadline : Word32
  wait : Bool
  post : Bool
  trace : Bool
  stats : Bool
  waitCh : BitVec 4
  postCh : BitVec 4
  unit : BitVec 3
  hslot : BitVec 4
  tag : Word32
  found : List EccFind
deriving DecidableEq, Repr

/-- MMUL arguments, Table 4.4. -/
structure MmulArgs where
  a : DescNo
  w : DescNo
  init : DescNo
  out : DescNo
  m : BitVec 10
  n : BitVec 7
  k : Word32
  rtz : Bool
  transposed : Bool
  initMode : BitVec 2
  hold : Bool
  wA : BitVec 9
  wW : BitVec 9
deriving DecidableEq, Repr

/-- What befalls one array command: for each tick from its start, the feeders and drains that do not get their access in that
tick (R115): 0 to 31 the streaming feeders, 32 to 63 the feeders of the load buses, 64 to 95 the drains; and what SECDED finds
in the edge accumulator store (R120). -/
structure ArrayTiming where
  lags : List (List (Fin 96))
  store : Ecc
deriving DecidableEq, Repr

/-- Vector Engine arguments, arithmetic layout of Table 4.7. -/
structure ArithArgs where
  dst : DescNo
  a : DescNo
  b : DescNo
  c : DescNo
  bScalar : Bool
  cScalar : Bool
  rtz : Bool
  opfmt : BitVec 2
deriving DecidableEq, Repr

/-- Vector Engine arguments, generator layout of Table 4.7. -/
structure GenArgs where
  dst : DescNo
  a : DescNo
  key : Half
  inverse : Bool
  rtz : Bool
  opfmt : BitVec 2
  base : BitVec 40
  thr : BitVec 24
deriving DecidableEq, Repr

/-- A flit: header of Table 6.4, message field of Table 6.7 (96 bits), 224 data bytes (R227, R228). -/
structure Flit where
  cls : BitVec 2
  mtype : BitVec 6
  dst : Rank
  src : Rank
  job : Byte
  gen : Half
  lseq : Half
  lack : Half
  cred : BitVec 10
  stamp : Byte
  len : Byte
  first : Bool
  last : Bool
  msg : BitVec 96
  data : BitVec 1792
deriving DecidableEq, Repr

/-- What the controller and the device find in a 128-byte request: R203 (T1), R207 (T2). -/
inductive DramFinding where
  | clean | corrected | uncorrectable | parity
deriving DecidableEq, Repr

/-- Who sends a request to the tiered range, Table 5.9. -/
inductive Requester where
  | access (t : Tile) (ch : BitVec 2) (req : Word32)
  | update (d : Stack)
  | migration (lane : Channel)
  | hart (h : Hart)
  | debug
  | management
deriving DecidableEq, Repr

/-- A requester of a non-scheduled access (R40, R391): a hart's fetch, load or store, the debug port, management. -/
inductive Outsider where
  | fetch (h : Hart)
  | load (h : Hart)
  | store (h : Hart)
  | debug
  | management
deriving DecidableEq, Repr

/-- What a non-scheduled access does: a read, a write, or one of the cache-block operations of Zicbom on the core caches
(R387, R388). -/
inductive AccessOp where
  | read | write (v : Word) | clean | flush | inval
deriving DecidableEq, Repr

/-- What a core accesses through (R39, R387): its mode (0 user, 1 supervisor, 3 machine), the root page number of satp where it
translates by Sv48 below machine mode, the SUM and MXR bits of its status register, and its PMP entries in their order, pmpcfg and
pmpaddr each. -/
structure Paging where
  mode : BitVec 2
  root : Option (BitVec 44)
  sum : Bool
  mxr : Bool
  pmp : List (Byte × BitVec 54)
deriving DecidableEq, Repr

/-- Machine mode, no translation, no PMP entry: after reset. PRESUMED: assumption 90. -/
def Paging.bare : Paging := ⟨3, none, false, false, []⟩

/-- A mode that is one of the three, and at most 16 PMP entries (R387). -/
def Paging.ok (p : Paging) : Bool := decide (p.mode ≠ 2) && decide (p.pmp.length ≤ 16)

/-- The atomic operations of the RISC-V A extension that R188 names. -/
inductive Amo where
  | lr | sc | swap | add | xor | and | or | min | max | minu | maxu
deriving DecidableEq, Repr

/-- The clocks of Table 7.2 and the lane groups of R260. -/
inductive ClockSource where
  | crystal | reference | rootPll | nethenLanes | ethernetLanes | hbmLanes | lpddrLanes
deriving DecidableEq, Repr

/-- The interface of a lane FIFO, R260. -/
inductive LaneInterface where
  | port (p : Port) | ethernet (i : Fin 2) | stack (d : Stack) | channel (c : Channel)
deriving DecidableEq, Repr

/-- How a training stage ends (R224, R225): done, with precoding and polarity per lane; failed or over its duration;
or with lanes found open, shorted or dead. -/
inductive StageEnd where
  | done (precode inverted : Byte)
  | failed
  | laneFault (lanesOpen lanesShort lanesDead : Byte)
deriving DecidableEq, Repr

/-- Why a link is lost (R255); the codes of event 0x46 (Table 12.4). -/
inductive LinkLoss where
  | framing | codewords | resends
deriving DecidableEq, Repr

/-- How flits were lost to an error (R253): the uncorrectable codeword's number, or a CRC failure of the flit in a slot; with it
which of the flits, in slot order, were of class 2. -/
inductive Corruption where
  | codeword (k : Fin 50) (class2 : List Bool)
  | crc (slot : Fin 125) (class2 : Bool)
deriving DecidableEq, Repr

/-- The header of an MMP request (Table 11.12) as it stands after the UDP layer, and whether its tag is right (R413). -/
structure MmpHeader where
  session : Word32
  seq : Word
  tagged : Bool
  tagRight : Bool
deriving DecidableEq, Repr

/-- A certificate of R402. -/
structure Cert where
  key : BitVec 776
  role : Byte
  serial : Word
  sig : BitVec 768
deriving DecidableEq, Repr

/-- What the power controller finds in one 1 µs sample (R457 to R462): input in mV and mA at the module, the remote
sense reading in mV, the hot-swap limit condition, a short or overvoltage found on a rail, a rail whose sense fell back. -/
structure PowerReading where
  localMv : BitVec 17
  senseMv : BitVec 17
  ma : BitVec 17
  hotSwapLimit : Bool
  railShort : Option (Fin 15)
  railOver : Option (Fin 15)
  railSenseLost : Option (Fin 15)
deriving DecidableEq, Repr

/-- One temperature sensor's raw reading in sixteenths of a degree; none: open or shorted (R468). -/
abbrev SensorReading := Option (BitVec 16)

/-- What a JTAG user asks of the harts' debug module (R455). -/
inductive DebugOp where
  | halt (h : Hart) | resume (h : Hart) | resetHart (h : Hart) | resetModule
deriving DecidableEq, Repr

/-- The commands of the module, one constructor per row of spec/opcode_table.json. -/
inductive Instr where
  /- the tile and its engines -/
  | slotBoundary
  | nop (t : Tile) (e : Engine) (c : Cmd)
  | copy (t : Tile) (c : Cmd) (src dst : DescNo)
  | fill (t : Tile) (c : Cmd) (dst : DescNo) (pattern : Word)
  | acc (t : Tile) (c : Cmd) (src dst : DescNo) (op : BitVec 4) (slice bridge : Ecc)
  | rwrite (t : Tile) (c : Cmd) (src : DescNo) (rank : Rank) (addr : Addr)
  | rread (t : Tile) (c : Cmd) (dst : DescNo) (rank : Rank) (addr : Addr)
  | racc (t : Tile) (c : Cmd) (src : DescNo) (rank : Rank) (slot : Half) (bseq : Word32)
  | mmul (t : Tile) (c : Cmd) (x : MmulArgs) (w : ArrayTiming)
  | escapeTableFill (t : Tile) (c : Cmd) (x : MmulArgs)
  | convert (t : Tile) (c : Cmd) (src dst : DescNo)
  | expand (t : Tile) (c : Cmd) (src dst : DescNo)
  | add (t : Tile) (c : Cmd) (x : ArithArgs)
  | sub (t : Tile) (c : Cmd) (x : ArithArgs)
  | mul (t : Tile) (c : Cmd) (x : ArithArgs)
  | fma (t : Tile) (c : Cmd) (x : ArithArgs)
  | max (t : Tile) (c : Cmd) (x : ArithArgs)
  | min (t : Tile) (c : Cmd) (x : ArithArgs)
  | abs (t : Tile) (c : Cmd) (x : ArithArgs)
  | neg (t : Tile) (c : Cmd) (x : ArithArgs)
  | cmplt (t : Tile) (c : Cmd) (x : ArithArgs)
  | cmpeq (t : Tile) (c : Cmd) (x : ArithArgs)
  | sel (t : Tile) (c : Cmd) (x : ArithArgs)
  | cvt (t : Tile) (c : Cmd) (x : ArithArgs)
  | div (t : Tile) (c : Cmd) (x : ArithArgs)
  | sqrt (t : Tile) (c : Cmd) (x : ArithArgs)
  | rsqrt (t : Tile) (c : Cmd) (x : ArithArgs)
  | recip (t : Tile) (c : Cmd) (x : ArithArgs)
  | exp2 (t : Tile) (c : Cmd) (x : ArithArgs)
  | log2 (t : Tile) (c : Cmd) (x : ArithArgs)
  | rsum (t : Tile) (c : Cmd) (x : ArithArgs)
  | rmax (t : Tile) (c : Cmd) (x : ArithArgs)
  | draw (t : Tile) (c : Cmd) (x : GenArgs)
  | mask (t : Tile) (c : Cmd) (x : GenArgs)
  | rot (t : Tile) (c : Cmd) (x : GenArgs)
  | opn (t : Tile) (c : Cmd) (slot : BitVec 4) (layer : BitVec 10) (backward : Bool)
  | close (t : Tile) (c : Cmd) (slot : BitVec 4) (write : Bool) (dst : DescNo)
  | send (t : Tile) (c : Cmd) (first : BitVec 10) (count : BitVec 11) (bridge : List (BitVec 10 × Bool))
  | commandCompletion (t : Tile) (e : Engine) (unit : BitVec 3)
  | deadlineMiss (t : Tile) (e : Engine) (unit : BitVec 3)
  | epochAnswer (t : Tile) (eslot : Byte) (bridge : Ecc)
  | accessResponse (t : Tile) (ch : BitVec 2) (req : Word32) (found bridge : Ecc)
  /- the memory tiers -/
  | tieredRequest (r : Requester) (addr : Addr) (write : Option (BitVec 1024)) (found : DramFinding) (bridge : Ecc)
  | requestLate (r : Requester) (addr : Addr)
  | bankTagFree (addr : Addr)
  | hbmRefresh (bank : BitVec 5)
  | lpddrRefresh (bank : BitVec 4)
  | driftMeasurement (c : Channel) (sub : BitVec 2) (exceeds : Bool)
  | subchannelRetrain (c : Channel) (sub : BitVec 2)
  | retrainEnd (c : Channel) (sub : BitVec 2) (restored : Bool)
  | atomicMemoryOperation (h : Hart) (op : Amo) (addr : Word) (double : Bool) (v : Word) (paging : Option Paging) (found : Ecc)
  | nonscheduledAccess (r : Outsider) (addr : Word) (width : BitVec 4) (op : AccessOp) (paging : Option Paging) (found : Ecc)
  | writebackError (line : Addr)
  | segmentConfigWrite (s : Slice) (v : Half)
  | quotaWrite (v : Word)
  | migCmd (v : Word)
  | exchangeStart (entry : Half)
  | policyExchange (q : BitVec 19)
  | exchangeComplete (lane : Channel) (uncorrectable : Bool)
  /- reduction and update -/
  | localAccDelivery (k : Half) (found bridge : Ecc)
  | stagingDeadline (slot : BitVec 12)
  | updateEntry (entry : BitVec 12) (ended : List (Addr × Bool))
  | updateEntryComplete (d : Stack)
  | updateEntryDeadline (d : Stack)
  /- the step -/
  | uncleanCauseSignal (k : Half)
  | fullStopLaunch
  | fsDown (p : Port) (f : Flit)
  | verdict
  | treeTimeout
  | commit
  | snapshotShareComplete
  | resultsCapture (found : Ecc)
  | successorSwitch
  | jobStart
  | admissionComplete
  | restoreShare
  /- the ports -/
  | flitSlotTransmit (p : Port)
  | corruptFlit (p : Port) (x : Corruption)
  | idle (p : Port) (f : Flit)
  | write (p : Port) (f : Flit) (ended : List (Addr × Bool)) (bridge : Ecc)
  | readReq (p : Port) (f : Flit) (found : Ecc) (ended : List (Addr × Bool)) (bridge : Ecc)
  | readRsp (p : Port) (f : Flit) (bridge : Ecc)
  | accFlit (p : Port) (f : Flit) (found bridge : Ecc)
  | done (p : Port) (f : Flit)
  | barDown (p : Port) (f : Flit)
  | faultDeliver (p : Port) (f : Flit)
  | resetMessage (p : Port) (f : Flit)
  | globalReset (flashError : Option (Fin 3))
  | trainVer (p : Port) (f : Flit)
  | alignPing (p : Port) (f : Flit) (received : Word)
  | alignEcho (p : Port) (f : Flit) (received : Word)
  | retryReq (p : Port) (f : Flit)
  | mgmt (p : Port) (f : Flit)
  | retryTimeout (p : Port)
  | tallyClose (p : Port)
  | linkLost (p : Port) (why : LinkLoss)
  | portTrainStart (p : Port)
  | trainingStageEnd (p : Port) (r : StageEnd)
  | uqTailWrite (p : Port) (tail : Half)
  | urHeadWrite (p : Port) (head : Half)
  | intervalMarker (p : Port) (offset corrected : BitVec 16)
  /- clocks and Tense -/
  | alignArm
  | syncPulse
  | fineCorrection
  | alignComplete (p : Port) (f : Flit)
  | alignTimeout
  | refWindow (count : Half)
  | pllSlip
  | tenseDivergence
  | laneFifoFault (i : LaneInterface)
  | clockRelease (c : ClockSource) (flashError : Option (Fin 3)) (untrained : List (Fin 20))
  | peripheralEnable (v : Half)
  | tnsNowRead (r : Outsider) (part : BitVec 2)
  | ingestFill
  /- inflection control and register writes -/
  | stageCommit
  | snapshotRequest
  | stopRequest
  | stagedTableWrite (entry : Bool) (i : BitVec 10) (v : Word)
  | fwHoldWrite (v : BitVec 10)
  | registerWrite (r : Outsider) (addr : Addr) (wide : Bool) (v : Word)
  /- the Morruna Management Protocol -/
  | hello (vmin vmax : Byte) (limit : Half) (hostKey : BitVec 776)
  | auth (h : MmpHeader) (cert : Cert) (sig : BitVec 768)
  | bye (h : MmpHeader)
  | sessionTimeout (session : Word32)
  | status (h : MmpHeader)
  | results (h : MmpHeader) (step : Word)
  | regRead (h : MmpHeader) (addrs : List Addr)
  | regWrite (h : MmpHeader) (writes : List (Addr × Word))
  | memRead (h : MmpHeader) (addr : Addr) (len : Half) (found : Ecc)
  | memWrite (h : MmpHeader) (addr : Addr) (data : List Byte)
  | imagePut (h : MmpHeader) (off : Word32) (data : List Byte)
  | admitJob (h : MmpHeader)
  | start (h : MmpHeader) (t0 restore : Word) (resAddr : Addr) (resCount : BitVec 4)
  | stop (h : MmpHeader)
  | snapshot (h : MmpHeader) (dest : Addr) (request : Bool)
  | release (h : MmpHeader)
  | successor (h : MmpHeader)
  | quota (h : MmpHeader) (job : Byte) (v : Word)
  | attest (h : MmpHeader) (nonce : BitVec 256)
  | certs (h : MmpHeader)
  | dumpQuery (h : MmpHeader)
  | dumpTake (h : MmpHeader)
  | dumpRead (h : MmpHeader) (slot : Fin 2) (off : Word) (count : Word32)
  | dumpRelease (h : MmpHeader) (slot : Fin 2)
  | dumpBuildComplete (slot : Fin 2)
  | flashPut (h : MmpHeader) (firmware : Bool) (off : Word32) (data : List Byte)
  | flashCommit (h : MmpHeader)
  | mmpReset (h : MmpHeader) (recovery : Bool)
  | provision (h : MmpHeader) (key : BitVec 776)
  | proxy (h : MmpHeader) (rank : Rank) (inner : List Byte)
  | unacceptedDatagram
  | icmpv6Message (port : Fin 2) (echo : Bool) (body : List Byte)
  /- Xofisel -/
  | xofHash (data : List Byte)
  | xofVerify (key : BitVec 776) (digest : BitVec 384) (sig : BitVec 768)
  | xofAttest (nonce : BitVec 256)
  | sessionKey (hostKey : BitVec 776) (nonce : BitVec 256)
  | sessionHello (hostKey : BitVec 776) (session : Word32)
  | tag (key : BitVec 384) (data : List Byte)
  | measure (slot : BitVec 4) (kind : Byte) (extra : BitVec 48) (addr : Addr) (len : Word32)
  | clear (slot : BitVec 4)
  | flashOpen (firmware : Bool)
  | raiseSvn
  | xofProvision (digest : BitVec 384)
  | random (count : BitVec 10)
  | xofCommandDone
  /- Fliuf -/
  | wdtKick (i : Fin 4) (v : Byte)
  | watchdogExpiry (i : Fin 4)
  | timerExpiry (i : Fin 4)
  | mtimeCompare (h : Hart)
  | uartDataWrite (i : Fin 4) (v : Byte)
  | uartDataRead (i : Fin 4)
  | uartReceive (i : Fin 4) (v : Byte) (parity stopHigh lineLow : Bool)
  | uartTransmit (i : Fin 4)
  | i2cStart (i : Fin 4)
  | i2cStop (i : Fin 4)
  | i2cByte (i : Fin 4) (ack arbLost pecRight : Bool) (received : Byte)
  | spiExchange (i : Fin 2)
  | spiDone (i : Fin 2) (received : BitVec 128)
  | gpioEdge (line : BitVec 5) (level : Bool)
  | plicClaim (ctx : BitVec 5)
  | plicComplete (ctx : BitVec 5) (source : BitVec 6)
  /- debug -/
  | captureRequest
  | captureRelease
  | collectorClear
  | traceClear (t : Tile)
  | traceControlWrite (t : Tile) (v : BitVec 5)
  | debugBusAccess (addr : Addr) (width : BitVec 4) (write : Option Word) (found : Ecc)
  | firmwareEntry (untrained : List (Fin 20))
  /- power -/
  | powerSample (x : PowerReading)
  | railGroupOff
  | temperatureSample (readings : List SensorReading)
  | pwrEnChange (high : Bool)
  | powerUp
  | powerUpStage
  | automaticRestart
  | resetN (high : Bool)
  | clearFaults
  | statusWord
  | statusVout
  | statusInput
  | statusTemperature
  | readVin
  | readIin
  | readPin
  | readTemperature1
  | readTemperature2
  | mfrLastOff
  | pmbusRelay (code : Byte)
  | debugModuleAccess (op : DebugOp)
  | managementLinkTraining (i : Fin 2) (up : Bool)
  | releaseComplete
  | flashCommitComplete
  | alwaysOnSupplyLoss
deriving DecidableEq, Repr

end Sys2Proof
end

