-- ==== Sys2Proof/Decode.lean ====
section
/-!
DEFINITION. Decoding. spec/opcode_table.json gives none of its rows any bits (every row's `fields` is empty), so no word
spells a row. The 32-byte form in which an image holds the commands of tiles (R137, R138, Tables 4.2 to 4.4 and 4.7) is decoded
here; its encoder stands in Machine/Operands.lean.
-/
namespace Sys2Proof

/-- The command that a word of `nbits` bits spells by the table's bits: none, for no row gives bits. -/
def decodeTableWord (_nbits _w : Nat) : Option Instr := none

/-- The engine of a code of Table 4.1. -/
def engineOfCode (code : Nat) : Option Engine :=
  match code with
  | 0 => some .access
  | 1 => some .execute
  | 2 => some .vector
  | 3 => some .conversion
  | 4 => some .statistics
  | _ => none

/-- Bit `k` of a command. -/
def cmdBit (w : BitVec 256) (k : Nat) : Bool := decide (w.toNat / 2 ^ k % 2 = 1)

/-- `n` bits of a command from bit `lo`. -/
def cmdField (w : BitVec 256) (lo n : Nat) : BitVec n := BitVec.ofNat n (w.toNat / 2 ^ lo)

/-- Bits of the arguments, words 2 and 3. -/
def argField (w : BitVec 256) (lo n : Nat) : BitVec n := cmdField w (128 + lo) n

/-- The header of Table 4.2 with the tag of R139, of a command that meets no memory error. -/
def decodeHeader (tag : Word32) (w : BitVec 256) : Cmd where
  launch := cmdField w 0 32
  deadline := cmdField w 32 32
  wait := cmdBit w 76
  post := cmdBit w 77
  trace := cmdBit w 78
  stats := cmdBit w 79
  waitCh := cmdField w 80 4
  postCh := cmdField w 84 4
  unit := cmdField w 88 3
  hslot := cmdField w 92 4
  tag := tag
  found := []

/-- Table 4.4. -/
def decodeMmul (w : BitVec 256) : MmulArgs where
  a := argField w 0 10
  w := argField w 10 10
  init := argField w 20 10
  out := argField w 30 10
  m := argField w 40 10
  n := argField w 50 7
  k := argField w 57 32
  rtz := cmdBit w (128 + 89)
  transposed := cmdBit w (128 + 90)
  initMode := argField w 91 2
  hold := cmdBit w (128 + 93)
  wA := argField w 94 9
  wW := argField w 103 9

/-- The arithmetic layout of Table 4.7. -/
def decodeArith (w : BitVec 256) : ArithArgs where
  dst := argField w 0 10
  a := argField w 10 10
  b := argField w 20 10
  c := argField w 30 10
  bScalar := cmdBit w (128 + 40)
  cScalar := cmdBit w (128 + 41)
  rtz := cmdBit w (128 + 42)
  opfmt := argField w 43 2

/-- The generator layout of Table 4.7. -/
def decodeGen (w : BitVec 256) : GenArgs where
  dst := argField w 0 10
  a := argField w 10 10
  key := argField w 20 16
  inverse := cmdBit w (128 + 36)
  rtz := cmdBit w (128 + 38)
  opfmt := argField w 39 2
  base := argField w 64 40
  thr := argField w 104 24

/-- Argument bits that Tables 4.3, 4.4 and 4.7 name for an opcode of an engine; none where the engine has no such opcode (R138). -/
def namedArgs (e : Engine) (opcode : Nat) : Option Nat :=
  match e, opcode with
  | _, 0 => some 0
  | .access, 0x01 => some (2 ^ 20 - 1)
  | .access, 0x02 => some ((2 ^ 64 - 1) * 2 ^ 64 + (2 ^ 10 - 1) * 2 ^ 10)
  | .access, 0x03 => some (2 ^ 24 - 1)
  | .access, 0x04 => some (2 ^ 72 - 1)
  | .access, 0x05 => some (2 ^ 72 - 1)
  | .access, 0x06 => some (2 ^ 72 - 1)
  | .execute, 0x01 => some (2 ^ 112 - 1)
  | .vector, op =>
    if op = 0x30 ∨ op = 0x31 ∨ op = 0x38 then some ((2 ^ 64 - 1) * 2 ^ 64 + (2 ^ 41 - 1 - 2 ^ 37))
    else if (1 ≤ op ∧ op ≤ 0x0C) ∨ (0x10 ≤ op ∧ op ≤ 0x15) ∨ op = 0x20 ∨ op = 0x21 then some (2 ^ 45 - 1)
    else none
  | .conversion, 0x01 => some (2 ^ 20 - 1)
  | .conversion, 0x02 => some (2 ^ 20 - 1)
  | .statistics, 0x01 => some (2 ^ 15 - 1)
  | .statistics, 0x02 => some (2 ^ 15 - 1)
  | .statistics, 0x03 => some (2 ^ 21 - 1)
  | _, _ => none

/-- The vector command of an opcode (Table 4.8). -/
def decodeVector (t : Tile) (c : Cmd) (opcode : Nat) (x : ArithArgs) (g : GenArgs) : Option Instr :=
  match opcode with
  | 0x01 => some (.add t c x)
  | 0x02 => some (.sub t c x)
  | 0x03 => some (.mul t c x)
  | 0x04 => some (.fma t c x)
  | 0x05 => some (.max t c x)
  | 0x06 => some (.min t c x)
  | 0x07 => some (.abs t c x)
  | 0x08 => some (.neg t c x)
  | 0x09 => some (.cmplt t c x)
  | 0x0A => some (.cmpeq t c x)
  | 0x0B => some (.sel t c x)
  | 0x0C => some (.cvt t c x)
  | 0x10 => some (.div t c x)
  | 0x11 => some (.sqrt t c x)
  | 0x12 => some (.rsqrt t c x)
  | 0x13 => some (.recip t c x)
  | 0x14 => some (.exp2 t c x)
  | 0x15 => some (.log2 t c x)
  | 0x20 => some (.rsum t c x)
  | 0x21 => some (.rmax t c x)
  | 0x30 => some (.draw t c g)
  | 0x31 => some (.mask t c g)
  | 0x38 => some (.rot t c g)
  | _ => none

/-- The command that 32 bytes of a stream spell for a tile, with the tag that its place gives it (R139), when no error and no
stall befalls it; none for an opcode its engine does not have, an engine code above 4 or a nonzero reserved field (R138). -/
def decodeCommand (t : Tile) (tag : Word32) (w : BitVec 256) : Option Instr :=
  let c := decodeHeader tag w
  let op := (cmdField w 68 8).toNat
  match engineOfCode (cmdField w 64 4).toNat with
  | none => none
  | some e =>
    match namedArgs e op with
    | none => none
    | some mask =>
      if cmdBit w 91 = true ∨ (cmdField w 96 32).toNat ≠ 0 ∨ (w.toNat / 2 ^ 128) &&& mask ≠ w.toNat / 2 ^ 128 then none
      else if op = 0 then some (.nop t e c)
      else
        match e, op with
        | .access, 0x01 => some (.copy t c (argField w 0 10) (argField w 10 10))
        | .access, 0x02 => some (.fill t c (argField w 10 10) (argField w 64 64))
        | .access, 0x03 => some (.acc t c (argField w 0 10) (argField w 10 10) (argField w 20 4) .clean .clean)
        | .access, 0x04 => some (.rwrite t c (argField w 0 10) (argField w 10 14) (argField w 24 48))
        | .access, 0x05 => some (.rread t c (argField w 0 10) (argField w 10 14) (argField w 24 48))
        | .access, 0x06 => some (.racc t c (argField w 0 10) (argField w 10 14) (argField w 24 16) (argField w 40 32))
        | .execute, 0x01 => some (.mmul t c (decodeMmul w) ⟨[], .clean⟩)
        | .vector, op => decodeVector t c op (decodeArith w) (decodeGen w)
        | .conversion, 0x01 => some (.convert t c (argField w 0 10) (argField w 10 10))
        | .conversion, 0x02 => some (.expand t c (argField w 0 10) (argField w 10 10))
        | .statistics, 0x01 => some (.opn t c (argField w 0 4) (argField w 4 10) (cmdBit w (128 + 14)))
        | .statistics, 0x02 => some (.close t c (argField w 0 4) (cmdBit w (128 + 4)) (argField w 5 10))
        | .statistics, 0x03 => some (.send t c (argField w 0 10) (argField w 10 11) [])
        | _, _ => none

end Sys2Proof
end

