-- ==== Sys2Proof/Config.lean ====
section
/-!
DEFINITION. What an implementation fixes and what the spec leaves open. The constants are the figures of the spec; the
`opaque` functions have no body: nothing in Lean can evaluate them, and every statement holds whatever they are.
-/
namespace Sys2Proof.Config

/-! ### Figures of the spec -/

/-- Ticks in an interval, R221. -/
def intervalTicks : Nat := 128
/-- Flit slots in an interval, R221. -/
def slotsPerInterval : Nat := 125
/-- Lag of the receive tally, R234. -/
def tallyLag : Nat := 2048
/-- An exchange takes 49,280 ticks, R196. -/
def exchangeTicks : Nat := 49280
/-- Latency limits of R208. -/
def lateLimitT1 : Nat := 640
def lateLimitT2 : Nat := 1600
/-- Pages of the tiered range, R190, and T1 frames. -/
def tierPages : Nat := 409600
def tierT1 : Nat := 147456
def tierT2 : Nat := 262144
/-- Class 2 credits and replay entries, R235, R236. -/
def credits : Nat := 512
/-- Refresh period, R202. -/
def refreshPeriod : Nat := 1536
/-- Bytes of MMP payload by default, R412. -/
def mmpPayload : Nat := 1192
/-- Most MMP sessions, R414. -/
def maxSessions : Nat := 8

/-! ### Values the spec leaves open (assumptions 4, 5 and 6) -/

/-- A value the spec leaves open after a command; applied to the counter `State.free`. -/
opaque freeWord : Nat → Word
opaque freeByte : Nat → Byte
opaque freeSecret : Nat → BitVec 384
opaque freeNonce : Nat → BitVec 256

/-! ### Functions named by external standards (assumption 5)

SHA-384, ECDSA P-384 (R279), ECDH with HKDF-SHA-384 and HMAC-SHA-384 (R413), as uninterpreted functions. -/

opaque sha384 : List Byte → BitVec 384
opaque ecdsaVerify : BitVec 776 → BitVec 384 → BitVec 768 → Bool
opaque ecdsaSign : BitVec 384 → BitVec 384 → BitVec 768
opaque publicKey : BitVec 384 → BitVec 776
opaque ecdhKey : BitVec 384 → BitVec 776 → BitVec 256 → BitVec 384
opaque hmac : BitVec 384 → List Byte → BitVec 384
/-- The identity private key derived inside Xofisel from the device secret, R426. -/
opaque identityKey : BitVec 384 → BitVec 384
/-- The four Morruna manufacturing keys whose SHA-384 digests the boot ROM holds, R400. -/
opaque morrunaKeys : List (BitVec 776)

/-- The exponent that the power controller uses in the linear format of a PMBus command (R474); the spec names the format
alone. -/
opaque linearExponent : Nat → BitVec 5

/-- The bytes of the boot ROM, which the spec does not give (Table 11.3). -/
opaque bootRom : Nat → Byte

/-! ### What the spec does not give of the schedule that admission models (assumption 6)

R292 has admission model every command, port, bank and link. The spec gives neither the route of a mesh transfer over the links
of its die nor a link's capacity, and for the arrays and the Vector Engine it does not say in which ticks of a command which lines
of tile memory are asked for. -/

/-- Whether a transfer of the k-th command of a plan variant needs a mesh link beyond its capacity (R30), of an image and the ingest
buffer held. -/
opaque meshFull : List Byte → Nat → Nat → Nat → Bool

/-- The 64-byte lines of tile memory that a command asks for in its k-th tick, beside those that R160 places; for an array, with
each line whether it is a drain's. -/
opaque tileAccess : BitVec 256 → Nat → List (Bool × Nat)

/-- The k-th flit that a receive tally counts with the stamp of an interval, of an image, a plan variant, a port and the interval: the
address where its data land, the cycle from the step base at which the port delivers it, and its blocks if it is a contribution (what
peers send stands in their images). -/
opaque arriving : List Byte → Nat → Nat → Nat → Nat → Nat × Nat × Nat

/-- Bytes that peers request in a step of the k-th response window of a port's calendar, of an image, a plan variant and the port: the
requests stand in the peers' images (R242). -/
opaque requested : List Byte → Nat → Nat → Nat → Nat

/-- Ticks from the start of an RREAD to the last byte of its data; the response window lies in the peer's image (R242). -/
opaque remoteTicks : BitVec 256 → Nat

end Sys2Proof.Config
end

