-- ==== Sys2Proof/Machine/Bits.lean ====
section
/-!
DEFINITION. Bit fields, byte order and checksums: the small arithmetic every layout of the spec is written in.
Bit ranges are [high:low] with bit 0 the least significant (00_scope, Conventions); bytes are little-endian (R17).
-/
namespace Sys2Proof.Machine

/-- Bits [hi:lo] of a 64-bit word, as a number. -/
def bitsOf (w : Word) (hi lo : Nat) : Nat := (w.toNat >>> lo) % 2 ^ (hi + 1 - lo)

/-- `w` with bits [hi:lo] replaced by the low bits of `v`. -/
def withBits (w : Word) (hi lo v : Nat) : Word :=
  let m := BitVec.ofNat 64 ((2 ^ (hi + 1 - lo) - 1) <<< lo)
  (w &&& ~~~m) ||| (BitVec.ofNat 64 ((v % 2 ^ (hi + 1 - lo)) <<< lo))

def bitOf (w : Word) (i : Nat) : Bool := w.getLsbD i

/-- The number of a flag. -/
def flagNat (b : Bool) : Nat := if b then 1 else 0

/-- `n` read in two's complement over `bits` bits. -/
def signed (bits n : Nat) : Int :=
  if n % 2 ^ bits < 2 ^ (bits - 1) then Int.ofNat (n % 2 ^ bits) else Int.ofNat (n % 2 ^ bits) - Int.ofNat (2 ^ bits)

/-- The two's-complement code of `i` over `bits` bits. -/
def unsigned (bits : Nat) (i : Int) : Nat := (i % Int.ofNat (2 ^ bits)).toNat

/-- `n` held at `top`: a saturating count. -/
def satNat (top n : Nat) : Nat := if n ≤ top then n else top

/-- An integer clamped to a range. -/
def clampInt (lo hi x : Int) : Int := if x < lo then lo else if hi < x then hi else x

/-- Ceiling division. -/
def ceilDiv (a b : Nat) : Nat := if b = 0 then 0 else (a + b - 1) / b

/-- The little-endian number of a list of bytes, R17. -/
def leNat : List Byte → Nat
  | [] => 0
  | b :: bs => b.toNat + 256 * leNat bs

/-- `n` as `k` little-endian bytes, R17. -/
def leBytes : Nat → Nat → List Byte
  | 0, _ => []
  | k + 1, n => BitVec.ofNat 8 n :: leBytes k (n / 256)

/-- The big-endian number of a list of bytes: fields of an external standard keep that standard's order (R17). -/
def beNat (bs : List Byte) : Nat := leNat bs.reverse

def beBytes (k n : Nat) : List Byte := (leBytes k n).reverse

/-- `k` bytes of `bs` from offset `off`. -/
def sub (bs : List Byte) (off k : Nat) : List Byte := (bs.drop off).take k

/-- The little-endian field of `k` bytes at offset `off`. -/
def leAt (bs : List Byte) (off k : Nat) : Nat := leNat (sub bs off k)

/-- The 64-bit words of a list of bytes, little-endian. -/
def wordAt (bs : List Byte) (i : Nat) : Word := BitVec.ofNat 64 (leAt bs (8 * i) 8)

/-- `f k` applied `n` times in ascending `k` from `i`. -/
def iterFrom {α : Type} (f : Nat → α → α) : Nat → Nat → α → α
  | _, 0, x => x
  | i, n + 1, x => iterFrom f (i + 1) n (f i x)

/-- `for i := 0 to n - 1`. -/
def forUpTo {α : Type} (n : Nat) (x : α) (f : Nat → α → α) : α := iterFrom f 0 n x

/-- The least i below n for which `p i`. -/
def findBelow (n : Nat) (p : Nat → Bool) : Option Nat := (List.range n).find? p

/-- Exclusive OR of bytes (the parity byte of Table 2.7). -/
def xorBytes (bs : List Byte) : Byte := bs.foldl (fun a b => a ^^^ b) 0

/-- One bit of the reflected CRC of R229 (0xEDB8_8320 is 0x04C1_1DB7 reflected). -/
def crcBit (c : Word32) : Word32 :=
  if c.getLsbD 0 then (c >>> 1) ^^^ 0xEDB88320#32 else c >>> 1

def crcByte (c : Word32) (b : Byte) : Word32 :=
  let x := c ^^^ b.zeroExtend 32
  crcBit (crcBit (crcBit (crcBit (crcBit (crcBit (crcBit (crcBit x)))))))

/-- The CRC-32 of R229: initial value and final exclusive OR 0xFFFF_FFFF, reflected input and output. -/
def crc32 (bs : List Byte) : Word32 := (bs.foldl crcByte 0xFFFFFFFF#32) ^^^ 0xFFFFFFFF#32

/-- ceil(log2(n + 1)) steps of a binary search, and floor(log2 n) for n > 0. -/
def log2Floor (n : Nat) : Nat := Nat.log2 n

def log2Ceil (n : Nat) : Nat := if n ≤ 1 then 0 else Nat.log2 (n - 1) + 1

end Sys2Proof.Machine
end

