-- ==== Sys2Proof/Machine/RegMap.lean ====
section
/-!
DEFINITION. The control-space registers of the spec, table by table: the place of every field (`Fld`) under the spec's own
register and field names, and for every register its offset, count and stride, its reset word and the access type of each
field (Table 0.7). Sources: Tables 1.9 to 1.15 (R53), 3.7 to 3.12 (R127), 4.12 to 4.20 (R175), 5.11 to 5.21 (R214 to R216),
6.13 to 6.19 (R256), 7.15 to 7.19 (R301), 8.14 to 8.18 (R337), 9.15 to 9.21 (R378, R379), 11.4, 11.5, 11.13, 11.16, 11.20,
11.21 (R396, R397, R421, R430, R431), 12.2, 12.5, 12.9, 12.18 (R433 to R439, R454), 13.11 to 13.14 (R475).
A reset entry that the tables give as BCR, record, fuse, straps, kept or a live measurement stands here as 0
(assumption 3); a unit letter (t, s, d, p) is the unit's own number, placed at the bit the last option names.
-/
namespace Sys2Proof.Machine

/-- A register field: offset of its register within its block, high bit, low bit. -/
structure Fld where
  off : Nat
  hi : Nat
  lo : Nat
deriving DecidableEq, Repr

/-- Access types of Table 0.7, R19. -/
inductive Access where
  | ro | rw | wo | w1c | w1s | rc
deriving DecidableEq, Repr

structure FieldDef where
  hi : Nat
  lo : Nat
  acc : Access
deriving DecidableEq, Repr

/-- One row of an offset map: `count` registers from `off`, `stride` apart. -/
structure RegDef where
  off : Nat
  count : Nat
  stride : Nat
  reset : Word
  unitBit : Option Nat
  fields : List FieldDef
deriving DecidableEq, Repr

/-- The kinds of control-space window, Table 1.4. -/
inductive Win where
  | tile | slice | stack | lpd | port | bridge | clk | infl | power | xof | fliuf | debug
deriving DecidableEq, Repr

namespace Fld

def INFL_COMMIT_STEP.step : Fld := ⟨0x0, 63, 0⟩
def INFL_COMMIT_STATE.plan : Fld := ⟨0x8, 3, 0⟩
def INFL_COMMIT_STATE.valid : Fld := ⟨0x8, 4, 4⟩
def INFL_COMMIT_STATE.job : Fld := ⟨0x8, 15, 8⟩
def INFL_COMMIT_STATE.layout_gen : Fld := ⟨0x8, 31, 16⟩
def INFL_COMMIT_TICK.tick : Fld := ⟨0x10, 63, 0⟩
def INFL_RUN_STATE.plan : Fld := ⟨0x18, 3, 0⟩
def INFL_RUN_STATE.replay : Fld := ⟨0x18, 7, 4⟩
def INFL_RUN_STATE.replay_limit : Fld := ⟨0x18, 11, 8⟩
def INFL_RUN_STATE.phase : Fld := ⟨0x18, 15, 12⟩
def INFL_STEP_BASE.tick : Fld := ⟨0x20, 63, 0⟩
def INFL_VERDICT.code : Fld := ⟨0x28, 1, 0⟩
def INFL_VERDICT.ready : Fld := ⟨0x28, 2, 2⟩
def INFL_VERDICT.snapshot : Fld := ⟨0x28, 3, 3⟩
def INFL_VERDICT.unclean_count : Fld := ⟨0x28, 63, 32⟩
def ARR_STATUS.enabled : Fld := ⟨0x0, 0, 0⟩
def ARR_STATUS.busy : Fld := ⟨0x0, 1, 1⟩
def ARR_STATUS.transposed : Fld := ⟨0x0, 2, 2⟩
def ARR_STATUS.stalled : Fld := ⟨0x0, 3, 3⟩
def ARR_STATUS.fmt_a : Fld := ⟨0x0, 7, 4⟩
def ARR_STATUS.fmt_w : Fld := ⟨0x0, 11, 8⟩
def ARR_STATUS.k : Fld := ⟨0x0, 15, 12⟩
def ARR_STATUS.skew : Fld := ⟨0x0, 20, 16⟩
def ARR_STATUS.cmd : Fld := ⟨0x0, 63, 32⟩
def ARR_FLAGS.deadline : Fld := ⟨0x8, 0, 0⟩
def ARR_FLAGS.wide_stall : Fld := ⟨0x8, 1, 1⟩
def ARR_FLAGS.nan_made : Fld := ⟨0x8, 2, 2⟩
def ARR_FLAGS.acc_ovf : Fld := ⟨0x8, 3, 3⟩
def ARR_FLAGS.ecc_corr : Fld := ⟨0x8, 4, 4⟩
def ARR_FLAGS.ecc_unc : Fld := ⟨0x8, 5, 5⟩
def ARR_CNT_TIME.deadline : Fld := ⟨0x10, 31, 0⟩
def ARR_CNT_TIME.wide_stall : Fld := ⟨0x10, 63, 32⟩
def ARR_CNT_NUM.nan_made : Fld := ⟨0x18, 31, 0⟩
def ARR_CNT_NUM.acc_ovf : Fld := ⟨0x18, 63, 32⟩
def ARR_CNT_ECC.ecc_corr : Fld := ⟨0x20, 31, 0⟩
def ARR_CNT_ECC.ecc_unc : Fld := ⟨0x20, 63, 32⟩
def ARR_BUSY_TICKS.ticks : Fld := ⟨0x28, 63, 0⟩
def ARR_STALL_TICKS.ticks : Fld := ⟨0x30, 63, 0⟩
def ARR_PRODUCTS.count : Fld := ⟨0x38, 63, 0⟩
def ARR_GATED_FRAG.count : Fld := ⟨0x40, 63, 0⟩
def ARR_LAST_END.tick : Fld := ⟨0x48, 63, 0⟩
def TILE_STATUS.admitted : Fld := ⟨0x0, 0, 0⟩
def TILE_STATUS.running : Fld := ⟨0x0, 1, 1⟩
def TILE_STATUS.unclean : Fld := ⟨0x0, 2, 2⟩
def TILE_STATUS.update : Fld := ⟨0x0, 3, 3⟩
def TILE_STATUS.plan : Fld := ⟨0x0, 7, 4⟩
def TILE_STATUS.busy : Fld := ⟨0x0, 12, 8⟩
def TILE_STATUS.tile : Fld := ⟨0x0, 24, 16⟩
def TILE_FLAGS.deadline : Fld := ⟨0x8, 0, 0⟩
def TILE_FLAGS.hazard : Fld := ⟨0x8, 1, 1⟩
def TILE_FLAGS.agreement : Fld := ⟨0x8, 2, 2⟩
def TILE_FLAGS.lost_escape : Fld := ⟨0x8, 3, 3⟩
def TILE_FLAGS.nonfinite : Fld := ⟨0x8, 4, 4⟩
def TILE_FLAGS.tier_err : Fld := ⟨0x8, 5, 5⟩
def TILE_FLAGS.ecc_corr : Fld := ⟨0x8, 6, 6⟩
def TILE_FLAGS.ecc_unc : Fld := ⟨0x8, 7, 7⟩
def TILE_FLAGS.bus_err : Fld := ⟨0x8, 8, 8⟩
def TILE_CNT_A.deadline : Fld := ⟨0x10, 31, 0⟩
def TILE_CNT_A.hazard : Fld := ⟨0x10, 63, 32⟩
def TILE_CNT_B.agreement : Fld := ⟨0x18, 31, 0⟩
def TILE_CNT_B.lost_escape : Fld := ⟨0x18, 63, 32⟩
def TILE_CNT_C.nonfinite : Fld := ⟨0x20, 31, 0⟩
def TILE_CNT_C.tier_err : Fld := ⟨0x20, 63, 32⟩
def TILE_CNT_D.ecc_corr : Fld := ⟨0x28, 31, 0⟩
def TILE_CNT_D.ecc_unc : Fld := ⟨0x28, 63, 32⟩
def TILE_CNT_E.bus_err : Fld := ⟨0x30, 31, 0⟩
def TILE_CNT_E.late_start : Fld := ⟨0x30, 63, 32⟩
def TILE_TOKENS.ch : Fld := ⟨0x38, 63, 0⟩
def TILE_ENG_STATUS.busy : Fld := ⟨0x40, 0, 0⟩
def TILE_ENG_STATUS.waiting : Fld := ⟨0x40, 1, 1⟩
def TILE_ENG_STATUS.late : Fld := ⟨0x40, 2, 2⟩
def TILE_ENG_STATUS.queued : Fld := ⟨0x40, 15, 8⟩
def TILE_ENG_STATUS.tag : Fld := ⟨0x40, 63, 32⟩
def AE_REQ.outstanding : Fld := ⟨0x100, 9, 0⟩
def AE_REQ.peak : Fld := ⟨0x100, 25, 16⟩
def AE_ERR_ADDR.addr : Fld := ⟨0x108, 47, 0⟩
def AE_ERR_ADDR.status : Fld := ⟨0x108, 51, 48⟩
def AE_BYTES.bytes : Fld := ⟨0x110, 63, 0⟩
def VE_ELEMS.count : Fld := ⟨0x300, 63, 0⟩
def VE_BUSY_TICKS.ticks : Fld := ⟨0x308, 63, 0⟩
def CU_ELEMS.count : Fld := ⟨0x400, 63, 0⟩
def CU_BUSY_TICKS.ticks : Fld := ⟨0x408, 63, 0⟩
def SU_SEL.layer : Fld := ⟨0x500, 9, 0⟩
def SU_SEL.role : Fld := ⟨0x500, 10, 10⟩
def SU_DATA.word : Fld := ⟨0x508, 63, 0⟩
def SLC_STATUS.admitted : Fld := ⟨0x0, 0, 0⟩
def SLC_STATUS.slice : Fld := ⟨0x0, 14, 8⟩
def SLC_SEG_CFG.cache : Fld := ⟨0x8, 15, 0⟩
def SLC_FLAGS.ecc_corr : Fld := ⟨0x10, 0, 0⟩
def SLC_FLAGS.ecc_unc : Fld := ⟨0x10, 1, 1⟩
def SLC_FLAGS.bus_err : Fld := ⟨0x10, 2, 2⟩
def SLC_FLAGS.acc_nan : Fld := ⟨0x10, 3, 3⟩
def SLC_CNT_A.ecc_corr : Fld := ⟨0x18, 31, 0⟩
def SLC_CNT_A.ecc_unc : Fld := ⟨0x18, 63, 32⟩
def SLC_CNT_B.bus_err : Fld := ⟨0x20, 31, 0⟩
def SLC_CNT_B.acc_nan : Fld := ⟨0x20, 63, 32⟩
def SLC_ACC_OPS.count : Fld := ⟨0x28, 63, 0⟩
def SLC_CACHE_HIT.count : Fld := ⟨0x30, 63, 0⟩
def SLC_CACHE_MISS.count : Fld := ⟨0x38, 63, 0⟩
def SLC_EPOCH.epoch : Fld := ⟨0x4000, 15, 0⟩
def SLC_EPOCH.region : Fld := ⟨0x4000, 31, 16⟩
def STK_STATUS.state : Fld := ⟨0x0, 1, 0⟩
def STK_STATUS.stack : Fld := ⟨0x0, 11, 8⟩
def STK_FLAGS.ecc_corr : Fld := ⟨0x8, 0, 0⟩
def STK_FLAGS.ecc_unc : Fld := ⟨0x8, 1, 1⟩
def STK_FLAGS.ca_parity : Fld := ⟨0x8, 2, 2⟩
def STK_FLAGS.late : Fld := ⟨0x8, 3, 3⟩
def STK_FLAGS.lost : Fld := ⟨0x8, 4, 4⟩
def STK_CNT_A.ecc_corr : Fld := ⟨0x10, 31, 0⟩
def STK_CNT_A.ecc_unc : Fld := ⟨0x10, 63, 32⟩
def STK_CNT_B.late : Fld := ⟨0x18, 31, 0⟩
def STK_CNT_B.ca_parity : Fld := ⟨0x18, 63, 32⟩
def STK_TAGS.outstanding : Fld := ⟨0x20, 13, 0⟩
def STK_TAGS.peak : Fld := ⟨0x20, 29, 16⟩
def STK_TAGS.bank_full : Fld := ⟨0x20, 63, 32⟩
def STK_ERR_ADDR.addr : Fld := ⟨0x28, 47, 0⟩
def STK_ERR_ADDR.status : Fld := ⟨0x28, 51, 48⟩
def STK_RD_BYTES.bytes : Fld := ⟨0x30, 63, 0⟩
def STK_WR_BYTES.bytes : Fld := ⟨0x38, 63, 0⟩
def LPD_STATUS.state : Fld := ⟨0x0, 15, 0⟩
def LPD_FLAGS.link_corr : Fld := ⟨0x8, 0, 0⟩
def LPD_FLAGS.link_unc : Fld := ⟨0x8, 1, 1⟩
def LPD_FLAGS.late : Fld := ⟨0x8, 2, 2⟩
def LPD_FLAGS.retrain : Fld := ⟨0x8, 3, 3⟩
def LPD_FLAGS.lost : Fld := ⟨0x8, 4, 4⟩
def LPD_CNT_A.link_corr : Fld := ⟨0x10, 31, 0⟩
def LPD_CNT_A.link_unc : Fld := ⟨0x10, 63, 32⟩
def LPD_CNT_B.late : Fld := ⟨0x18, 31, 0⟩
def LPD_CNT_B.retrain : Fld := ⟨0x18, 63, 32⟩
def LPD_CNT_C.bank_full : Fld := ⟨0x20, 31, 0⟩
def LPD_ERR_ADDR.addr : Fld := ⟨0x28, 47, 0⟩
def LPD_ERR_ADDR.status : Fld := ⟨0x28, 51, 48⟩
def LPD_ERR_ADDR.channel : Fld := ⟨0x28, 54, 52⟩
def LPD_ERR_ADDR.subchannel : Fld := ⟨0x28, 56, 55⟩
def LPD_BYTES.bytes : Fld := ⟨0x30, 63, 0⟩
def TIER_SEL.page : Fld := ⟨0x8000, 18, 0⟩
def TIER_ENTRY.entry : Fld := ⟨0x8008, 31, 0⟩
def TIER_QSEL.job : Fld := ⟨0x8010, 7, 0⟩
def TIER_QUOTA.t0 : Fld := ⟨0x8018, 11, 0⟩
def TIER_QUOTA.t1 : Fld := ⟨0x8018, 31, 14⟩
def TIER_QUOTA.t2 : Fld := ⟨0x8018, 50, 32⟩
def TIER_USE.t0 : Fld := ⟨0x8020, 11, 0⟩
def TIER_USE.t1 : Fld := ⟨0x8020, 31, 14⟩
def TIER_USE.t2 : Fld := ⟨0x8020, 50, 32⟩
def TIER_QSTATUS.pending : Fld := ⟨0x8028, 0, 0⟩
def TIER_QSTATUS.rejected : Fld := ⟨0x8028, 1, 1⟩
def MIG_CMD.p : Fld := ⟨0x8030, 18, 0⟩
def MIG_CMD.q : Fld := ⟨0x8030, 38, 20⟩
def MIG_CMD.go : Fld := ⟨0x8030, 63, 63⟩
def MIG_STATUS.busy : Fld := ⟨0x8038, 0, 0⟩
def MIG_STATUS.done : Fld := ⟨0x8038, 1, 1⟩
def MIG_STATUS.failed : Fld := ⟨0x8038, 2, 2⟩
def MIG_STATUS.refused : Fld := ⟨0x8038, 5, 3⟩
def MIG_POLICY.enable : Fld := ⟨0x8040, 0, 0⟩
def MIG_POLICY.window : Fld := ⟨0x8040, 5, 1⟩
def MIG_POLICY.threshold : Fld := ⟨0x8040, 63, 32⟩
def MIG_CNT.exchanges : Fld := ⟨0x8048, 31, 0⟩
def MIG_CNT.policy : Fld := ⟨0x8048, 63, 32⟩
def PORT_STATUS.state : Fld := ⟨0x0, 2, 0⟩
def PORT_STATUS.sched : Fld := ⟨0x0, 3, 3⟩
def PORT_STATUS.port : Fld := ⟨0x0, 12, 8⟩
def PORT_TRAIN.enable : Fld := ⟨0x8, 0, 0⟩
def PORT_TRAIN.start : Fld := ⟨0x8, 1, 1⟩
def PORT_TRAIN.lane_open : Fld := ⟨0x8, 9, 2⟩
def PORT_TRAIN.lane_short : Fld := ⟨0x8, 17, 10⟩
def PORT_TRAIN.lane_dead : Fld := ⟨0x8, 25, 18⟩
def PORT_TRAIN.attempts : Fld := ⟨0x8, 27, 26⟩
def PORT_TRAIN.precode : Fld := ⟨0x8, 35, 28⟩
def PORT_TRAIN.inverted : Fld := ⟨0x8, 43, 36⟩
def PORT_VER.local_ : Fld := ⟨0x10, 7, 0⟩
def PORT_VER.peer : Fld := ⟨0x10, 15, 8⟩
def PORT_VER.link : Fld := ⟨0x10, 23, 16⟩
def PORT_VER.domain : Fld := ⟨0x10, 31, 24⟩
def PORT_VER.peer_kind : Fld := ⟨0x10, 33, 32⟩
def PORT_FLAGS.fec_unc : Fld := ⟨0x18, 0, 0⟩
def PORT_FLAGS.crc : Fld := ⟨0x18, 1, 1⟩
def PORT_FLAGS.sched_loss : Fld := ⟨0x18, 2, 2⟩
def PORT_FLAGS.sched_late : Fld := ⟨0x18, 3, 3⟩
def PORT_FLAGS.misroute : Fld := ⟨0x18, 4, 4⟩
def PORT_FLAGS.retry : Fld := ⟨0x18, 5, 5⟩
def PORT_FLAGS.link_down : Fld := ⟨0x18, 6, 6⟩
def PORT_FLAGS.lane_fault : Fld := ⟨0x18, 7, 7⟩
def PORT_FLAGS.rejected : Fld := ⟨0x18, 8, 8⟩
def PORT_FLAGS.bad_type : Fld := ⟨0x18, 9, 9⟩
def PORT_CNT_A.fec_unc : Fld := ⟨0x20, 31, 0⟩
def PORT_CNT_A.crc : Fld := ⟨0x20, 63, 32⟩
def PORT_CNT_B.sched_loss : Fld := ⟨0x28, 31, 0⟩
def PORT_CNT_B.sched_late : Fld := ⟨0x28, 63, 32⟩
def PORT_CNT_C.misroute : Fld := ⟨0x30, 31, 0⟩
def PORT_CNT_C.retry : Fld := ⟨0x30, 63, 32⟩
def PORT_CNT_D.link_down : Fld := ⟨0x38, 31, 0⟩
def PORT_CNT_D.lane_fault : Fld := ⟨0x38, 63, 32⟩
def PORT_CNT_E.rejected : Fld := ⟨0x40, 31, 0⟩
def PORT_CNT_E.bad_type : Fld := ⟨0x40, 63, 32⟩
def PORT_FEC_CORR.symbols : Fld := ⟨0x48, 63, 0⟩
def PORT_TX_FLITS.count : Fld := ⟨0x50, 63, 0⟩
def PORT_RX_FLITS.count : Fld := ⟨0x58, 63, 0⟩
def PORT_LINK.credits : Fld := ⟨0x60, 9, 0⟩
def PORT_LINK.replay : Fld := ⟨0x60, 25, 16⟩
def PORT_ERR_INFO.rank : Fld := ⟨0x68, 13, 0⟩
def PORT_ERR_INFO.mtype : Fld := ⟨0x68, 19, 14⟩
def PORT_ERR_INFO.stamp : Fld := ⟨0x68, 27, 20⟩
def PORT_ERR_INFO.cause : Fld := ⟨0x68, 31, 28⟩
def PORT_ERR_INFO.tick : Fld := ⟨0x68, 63, 32⟩
def PORT_UQ_BASE.base : Fld := ⟨0x70, 47, 0⟩
def PORT_UQ_BASE.size : Fld := ⟨0x70, 51, 48⟩
def PORT_UR_BASE.base : Fld := ⟨0x80, 47, 0⟩
def PORT_UR_BASE.size : Fld := ⟨0x80, 51, 48⟩
def PORT_UQ_PTR.head : Fld := ⟨0x78, 15, 0⟩
def PORT_UQ_PTR.tail : Fld := ⟨0x78, 31, 16⟩
def PORT_UR_PTR.head : Fld := ⟨0x88, 15, 0⟩
def PORT_UR_PTR.tail : Fld := ⟨0x88, 31, 16⟩
def CLK_STATUS.xtal : Fld := ⟨0x0, 0, 0⟩
def CLK_STATUS.ref : Fld := ⟨0x0, 1, 1⟩
def CLK_STATUS.root : Fld := ⟨0x0, 2, 2⟩
def CLK_STATUS.holdover : Fld := ⟨0x0, 3, 3⟩
def CLK_STATUS.lanes : Fld := ⟨0x0, 7, 4⟩
def CLK_FLAGS.ref_lost : Fld := ⟨0x8, 0, 0⟩
def CLK_FLAGS.pll_unlock : Fld := ⟨0x8, 1, 1⟩
def CLK_FLAGS.tense_div : Fld := ⟨0x8, 2, 2⟩
def CLK_FLAGS.drift : Fld := ⟨0x8, 3, 3⟩
def CLK_FLAGS.align_fail : Fld := ⟨0x8, 4, 4⟩
def CLK_FLAGS.fifo : Fld := ⟨0x8, 5, 5⟩
def CLK_CNT_A.ref_lost : Fld := ⟨0x10, 31, 0⟩
def CLK_CNT_A.pll_unlock : Fld := ⟨0x10, 63, 32⟩
def CLK_CNT_B.tense_div : Fld := ⟨0x18, 31, 0⟩
def CLK_CNT_B.drift : Fld := ⟨0x18, 63, 32⟩
def CLK_CNT_C.align_fail : Fld := ⟨0x20, 31, 0⟩
def CLK_CNT_C.fifo : Fld := ⟨0x20, 63, 32⟩
def CLK_PERI_EN.uart : Fld := ⟨0x28, 3, 0⟩
def CLK_PERI_EN.i2c : Fld := ⟨0x28, 7, 4⟩
def CLK_PERI_EN.spi : Fld := ⟨0x28, 9, 8⟩
def CLK_PERI_EN.gpio : Fld := ⟨0x28, 10, 10⟩
def CLK_PERI_EN.timer : Fld := ⟨0x28, 11, 11⟩
def CLK_PERI_EN.wdt : Fld := ⟨0x28, 12, 12⟩
def CLK_PERI_EN.eth : Fld := ⟨0x28, 14, 13⟩
def CLK_PERI_EN.qspi : Fld := ⟨0x28, 15, 15⟩
def TNS_NOW.tick : Fld := ⟨0x100, 63, 0⟩
def TNS_ALIGN.arm : Fld := ⟨0x108, 0, 0⟩
def TNS_ALIGN.state : Fld := ⟨0x108, 3, 1⟩
def TNS_ALIGN.plane : Fld := ⟨0x108, 8, 4⟩
def TNS_ALIGN.root : Fld := ⟨0x108, 9, 9⟩
def TNS_ALIGN.hops : Fld := ⟨0x108, 12, 10⟩
def TNS_ALIGN.cause : Fld := ⟨0x108, 19, 16⟩
def TNS_SYNC.value : Fld := ⟨0x110, 63, 0⟩
def TNS_OFFSET.correction : Fld := ⟨0x118, 31, 0⟩
def TNS_OFFSET.residual : Fld := ⟨0x118, 47, 32⟩
def TNS_OFFSET.rtt : Fld := ⟨0x118, 63, 48⟩
def TNS_DRIFT.sixteenths : Fld := ⟨0x120, 15, 0⟩
def TNS_DRIFT.port : Fld := ⟨0x120, 20, 16⟩
def TNS_DRIFT.late : Fld := ⟨0x120, 21, 21⟩
def TNS_START.tick : Fld := ⟨0x128, 63, 0⟩
def TNS_INGEST.next_fill : Fld := ⟨0x130, 3, 0⟩
def TNS_INGEST.held : Fld := ⟨0x130, 7, 4⟩
def TNS_INGEST.holding : Fld := ⟨0x130, 8, 8⟩
def TNS_INGEST.filled : Fld := ⟨0x130, 13, 9⟩
def TNS_INGEST.fill : Fld := ⟨0x130, 16, 16⟩
def INFL_STATUS.layers : Fld := ⟨0x100, 10, 0⟩
def INFL_STATUS.parts : Fld := ⟨0x100, 19, 11⟩
def INFL_STATUS.gen : Fld := ⟨0x100, 35, 20⟩
def INFL_STATUS.staged : Fld := ⟨0x100, 51, 36⟩
def INFL_FLAGS.unclean_local : Fld := ⟨0x108, 0, 0⟩
def INFL_FLAGS.skip : Fld := ⟨0x108, 1, 1⟩
def INFL_FLAGS.alarm : Fld := ⟨0x108, 2, 2⟩
def INFL_FLAGS.halt : Fld := ⟨0x108, 3, 3⟩
def INFL_CNT_A.unclean_local : Fld := ⟨0x110, 31, 0⟩
def INFL_CNT_A.skip : Fld := ⟨0x110, 63, 32⟩
def INFL_CNT_B.alarm : Fld := ⟨0x118, 31, 0⟩
def INFL_CNT_B.halt : Fld := ⟨0x118, 63, 32⟩
def INFL_SKIP.total : Fld := ⟨0x120, 31, 0⟩
def INFL_SKIP.run : Fld := ⟨0x120, 39, 32⟩
def INFL_SKIP.limit : Fld := ⟨0x120, 47, 40⟩
def INFL_CAUSE.causes : Fld := ⟨0x128, 15, 0⟩
def INFL_CAUSE.halt : Fld := ⟨0x128, 23, 16⟩
def INFL_CAUSE.unclean_ranks : Fld := ⟨0x128, 37, 24⟩
def INFL_FIRST.tick : Fld := ⟨0x130, 63, 0⟩
def INFL_LOCAL.causes : Fld := ⟨0x138, 15, 0⟩
def INFL_LOCAL.halt : Fld := ⟨0x138, 23, 16⟩
def INFL_STAGE.commit : Fld := ⟨0x140, 0, 0⟩
def INFL_STAGE.snapshot : Fld := ⟨0x140, 1, 1⟩
def INFL_STAGE.stop : Fld := ⟨0x140, 2, 2⟩
def INFL_STAGE.snap_pending : Fld := ⟨0x140, 3, 3⟩
def INFL_SEL.layer : Fld := ⟨0x200, 9, 0⟩
def INFL_ENTRY.entry : Fld := ⟨0x208, 63, 0⟩
def INFL_LSTATE.req : Fld := ⟨0x210, 2, 0⟩
def INFL_LSTATE.wreq : Fld := ⟨0x210, 5, 3⟩
def INFL_LSTATE.up : Fld := ⟨0x210, 13, 6⟩
def INFL_LSTATE.dn : Fld := ⟨0x210, 29, 14⟩
def INFL_LSTATE.silent : Fld := ⟨0x210, 45, 30⟩
def INFL_LSTATE.uw : Fld := ⟨0x210, 61, 46⟩
def INFL_LSTATE.silent_alarm : Fld := ⟨0x210, 62, 62⟩
def INFL_LSTATE.uw_alarm : Fld := ⟨0x210, 63, 63⟩
def INFL_VINF.infl : Fld := ⟨0x218, 47, 0⟩
def INFL_LREC.word : Fld := ⟨0x220, 63, 0⟩
def INFL_STGP.word : Fld := ⟨0x1000, 63, 0⟩
def INFL_STGE.entry : Fld := ⟨0x2000, 63, 0⟩
def SLC_STG_STATUS.slots : Fld := ⟨0x1000, 12, 0⟩
def SLC_STG_STATUS.pool : Fld := ⟨0x1000, 32, 16⟩
def SLC_STG_STATUS.peak : Fld := ⟨0x1000, 49, 33⟩
def SLC_STG_FLAGS.job : Fld := ⟨0x1008, 0, 0⟩
def SLC_STG_FLAGS.gen : Fld := ⟨0x1008, 1, 1⟩
def SLC_STG_FLAGS.malformed : Fld := ⟨0x1008, 2, 2⟩
def SLC_STG_FLAGS.agreement : Fld := ⟨0x1008, 3, 3⟩
def SLC_STG_FLAGS.duplicate : Fld := ⟨0x1008, 4, 4⟩
def SLC_STG_FLAGS.pool_full : Fld := ⟨0x1008, 5, 5⟩
def SLC_STG_FLAGS.incomplete : Fld := ⟨0x1008, 6, 6⟩
def SLC_STG_FLAGS.nonfinite : Fld := ⟨0x1008, 7, 7⟩
def SLC_STG_CNT_A.job : Fld := ⟨0x1010, 31, 0⟩
def SLC_STG_CNT_A.gen : Fld := ⟨0x1010, 63, 32⟩
def SLC_STG_CNT_B.malformed : Fld := ⟨0x1018, 31, 0⟩
def SLC_STG_CNT_B.agreement : Fld := ⟨0x1018, 63, 32⟩
def SLC_STG_CNT_C.duplicate : Fld := ⟨0x1020, 31, 0⟩
def SLC_STG_CNT_C.pool_full : Fld := ⟨0x1020, 63, 32⟩
def SLC_STG_CNT_D.incomplete : Fld := ⟨0x1028, 31, 0⟩
def SLC_STG_CNT_D.nonfinite : Fld := ⟨0x1028, 63, 32⟩
def SLC_STG_LATE.count : Fld := ⟨0x1030, 63, 0⟩
def SLC_STG_BLOCKS.count : Fld := ⟨0x1038, 63, 0⟩
def SLC_STG_ERR.rank : Fld := ⟨0x1040, 13, 0⟩
def SLC_STG_ERR.slot : Fld := ⟨0x1040, 25, 14⟩
def SLC_STG_ERR.cause : Fld := ⟨0x1040, 28, 26⟩
def SLC_STG_ERR.bseq : Fld := ⟨0x1040, 63, 32⟩
def SLC_DIG_SENT.digest : Fld := ⟨0x1048, 63, 0⟩
def SLC_DIG_RECV.digest : Fld := ⟨0x1050, 63, 0⟩
def SLC_DIG_LAST_SENT.digest : Fld := ⟨0x1058, 63, 0⟩
def SLC_DIG_LAST_RECV.digest : Fld := ⟨0x1060, 63, 0⟩
def SLC_DIG_STEP.step : Fld := ⟨0x1068, 55, 0⟩
def SLC_DIG_STEP.replay : Fld := ⟨0x1068, 59, 56⟩
def SLC_DIG_STEP.idle : Fld := ⟨0x1068, 60, 60⟩
def SLC_STG_SEL.slot : Fld := ⟨0x1080, 11, 0⟩
def SLC_STG_SLOT.word : Fld := ⟨0x1088, 63, 0⟩
def SLC_STG_PROG.complete : Fld := ⟨0x10A8, 31, 0⟩
def SLC_STG_PROG.held : Fld := ⟨0x10A8, 48, 32⟩
def UPE_STATUS.busy : Fld := ⟨0x8000, 0, 0⟩
def UPE_STATUS.entry : Fld := ⟨0x8000, 12, 1⟩
def UPE_STATUS.layer : Fld := ⟨0x8000, 22, 13⟩
def UPE_STATUS.engine : Fld := ⟨0x8000, 26, 23⟩
def UPE_FLAGS.deadline : Fld := ⟨0x8008, 0, 0⟩
def UPE_FLAGS.mem_err : Fld := ⟨0x8008, 1, 1⟩
def UPE_FLAGS.nonfinite : Fld := ⟨0x8008, 2, 2⟩
def UPE_FLAGS.sat : Fld := ⟨0x8008, 3, 3⟩
def UPE_CNT_A.deadline : Fld := ⟨0x8010, 31, 0⟩
def UPE_CNT_A.mem_err : Fld := ⟨0x8010, 63, 32⟩
def UPE_CNT_B.nonfinite : Fld := ⟨0x8018, 31, 0⟩
def UPE_CNT_B.sat : Fld := ⟨0x8018, 63, 32⟩
def UPE_ELEMS.count : Fld := ⟨0x8020, 63, 0⟩
def UPE_ROWS.count : Fld := ⟨0x8028, 63, 0⟩
def UPE_BUSY_TICKS.ticks : Fld := ⟨0x8030, 63, 0⟩
def UPE_LSEL.layer : Fld := ⟨0x8038, 9, 0⟩
def UPE_LSTATE.o_state : Fld := ⟨0x8040, 7, 0⟩
def UPE_LSTATE.o_cur : Fld := ⟨0x8040, 15, 8⟩
def UPE_LSTATE.u : Fld := ⟨0x8040, 23, 16⟩
def UPE_LSTATE.active : Fld := ⟨0x8040, 24, 24⟩
def UART_CTL.tx_en : Fld := ⟨0x0, 0, 0⟩
def UART_CTL.rx_en : Fld := ⟨0x0, 1, 1⟩
def UART_CTL.parity : Fld := ⟨0x0, 2, 2⟩
def UART_CTL.odd : Fld := ⟨0x0, 3, 3⟩
def UART_CTL.stop2 : Fld := ⟨0x0, 4, 4⟩
def UART_CTL.loop : Fld := ⟨0x0, 5, 5⟩
def UART_CTL.rx_level : Fld := ⟨0x0, 14, 8⟩
def UART_CTL.tx_level : Fld := ⟨0x0, 22, 16⟩
def UART_CTL.ien : Fld := ⟨0x0, 26, 24⟩
def UART_STATUS.rx_count : Fld := ⟨0x8, 6, 0⟩
def UART_STATUS.tx_count : Fld := ⟨0x8, 14, 8⟩
def UART_STATUS.tx_idle : Fld := ⟨0x8, 15, 15⟩
def UART_STATUS.overrun : Fld := ⟨0x8, 16, 16⟩
def UART_STATUS.parity_err : Fld := ⟨0x8, 17, 17⟩
def UART_STATUS.frame_err : Fld := ⟨0x8, 18, 18⟩
def UART_STATUS.brk : Fld := ⟨0x8, 19, 19⟩
def UART_DATA.data : Fld := ⟨0x10, 7, 0⟩
def UART_BAUD.whole : Fld := ⟨0x18, 15, 0⟩
def UART_BAUD.frac : Fld := ⟨0x18, 19, 16⟩
def I2C_CTL.ctl : Fld := ⟨0x0, 0, 0⟩
def I2C_CTL.tgt : Fld := ⟨0x0, 1, 1⟩
def I2C_CTL.speed : Fld := ⟨0x0, 3, 2⟩
def I2C_CTL.pec : Fld := ⟨0x0, 4, 4⟩
def I2C_CTL.start : Fld := ⟨0x0, 5, 5⟩
def I2C_CTL.stop : Fld := ⟨0x0, 6, 6⟩
def I2C_CTL.ien : Fld := ⟨0x0, 15, 8⟩
def I2C_STATUS.busy : Fld := ⟨0x8, 0, 0⟩
def I2C_STATUS.nack : Fld := ⟨0x8, 1, 1⟩
def I2C_STATUS.arb_lost : Fld := ⟨0x8, 2, 2⟩
def I2C_STATUS.rx_ready : Fld := ⟨0x8, 3, 3⟩
def I2C_STATUS.tx_empty : Fld := ⟨0x8, 4, 4⟩
def I2C_STATUS.pec_err : Fld := ⟨0x8, 5, 5⟩
def I2C_DATA.data : Fld := ⟨0x10, 7, 0⟩
def I2C_ADDR.peer : Fld := ⟨0x18, 6, 0⟩
def I2C_ADDR.read : Fld := ⟨0x18, 7, 7⟩
def I2C_ADDR.own : Fld := ⟨0x18, 14, 8⟩
def SPI_CTL.div : Fld := ⟨0x0, 7, 0⟩
def SPI_CTL.mode : Fld := ⟨0x0, 9, 8⟩
def SPI_CTL.go : Fld := ⟨0x0, 10, 10⟩
def SPI_CTL.len : Fld := ⟨0x0, 14, 11⟩
def SPI_STATUS.done : Fld := ⟨0x8, 0, 0⟩
def SPI_DATA.data : Fld := ⟨0x10, 63, 0⟩
def GPIO_IN.level : Fld := ⟨0x0, 31, 0⟩
def GPIO_OUT.drive : Fld := ⟨0x8, 31, 0⟩
def GPIO_DIR.out : Fld := ⟨0x10, 31, 0⟩
def GPIO_EDGE.edge : Fld := ⟨0x18, 31, 0⟩
def GPIO_IEN.ien : Fld := ⟨0x20, 31, 0⟩
def TMR_LOAD.ticks : Fld := ⟨0x0, 63, 0⟩
def TMR_CTL.run : Fld := ⟨0x8, 0, 0⟩
def TMR_STATUS.expired : Fld := ⟨0x10, 0, 0⟩
def WDT_CTL.enable : Fld := ⟨0x0, 0, 0⟩
def WDT_CTL.action : Fld := ⟨0x0, 2, 1⟩
def WDT_CTL.period : Fld := ⟨0x0, 63, 32⟩
def WDT_KICK.kick : Fld := ⟨0x8, 7, 0⟩
def WDT_STATUS.first : Fld := ⟨0x10, 0, 0⟩
def WDT_STATUS.bad_kicks : Fld := ⟨0x10, 63, 32⟩
def SYS_JSW.state : Fld := ⟨0x40, 3, 0⟩
def SYS_JSW.op : Fld := ⟨0x40, 7, 4⟩
def SYS_JSW.progress : Fld := ⟨0x40, 15, 8⟩
def SYS_JSW.code : Fld := ⟨0x40, 23, 16⟩
def SYS_JSW.plan : Fld := ⟨0x40, 27, 24⟩
def SYS_JSW.replay : Fld := ⟨0x40, 31, 28⟩
def SYS_JSW.job : Fld := ⟨0x40, 39, 32⟩
def SYS_JSW.last_op : Fld := ⟨0x40, 43, 40⟩
def SYS_JSW.last_result : Fld := ⟨0x40, 47, 44⟩
def SYS_JSW.changes : Fld := ⟨0x40, 63, 48⟩
def XOF_STATUS.owned : Fld := ⟨0x0, 0, 0⟩
def XOF_STATUS.debug_open : Fld := ⟨0x0, 1, 1⟩
def XOF_STATUS.locked : Fld := ⟨0x0, 2, 2⟩
def XOF_STATUS.svn : Fld := ⟨0x0, 14, 8⟩
def XOF_FLAGS.verify_fail : Fld := ⟨0x8, 0, 0⟩
def XOF_FLAGS.cmd_err : Fld := ⟨0x8, 1, 1⟩
def XOF_CNT.verify_fail : Fld := ⟨0x10, 31, 0⟩
def XOF_CNT.cmd_err : Fld := ⟨0x10, 63, 32⟩
def XOF_CMD.op : Fld := ⟨0x18, 7, 0⟩
def XOF_CMD.go : Fld := ⟨0x18, 63, 63⟩
def XOF_CMD_STATUS.busy : Fld := ⟨0x20, 0, 0⟩
def XOF_CMD_STATUS.done : Fld := ⟨0x20, 1, 1⟩
def XOF_CMD_STATUS.result : Fld := ⟨0x20, 15, 8⟩
def XOF_MBOX.word : Fld := ⟨0x100, 63, 0⟩
def XOF_MEAS.word : Fld := ⟨0x400, 63, 0⟩
def XOF_ID.word : Fld := ⟨0x800, 63, 0⟩
def XOF_OWNER.word : Fld := ⟨0x808, 63, 0⟩
def XOF_SERIAL.word : Fld := ⟨0x840, 63, 0⟩
def SYS_STATUS.stage : Fld := ⟨0x0, 2, 0⟩
def SYS_STATUS.owned : Fld := ⟨0x0, 3, 3⟩
def SYS_STATUS.reason : Fld := ⟨0x0, 7, 4⟩
def SYS_STATUS.fw_restarts : Fld := ⟨0x0, 15, 8⟩
def SYS_FLAGS.wb_err : Fld := ⟨0x8, 0, 0⟩
def SYS_FLAGS.jsw : Fld := ⟨0x8, 1, 1⟩
def SYS_FLAGS.verdict : Fld := ⟨0x8, 2, 2⟩
def SYS_FLAGS.result : Fld := ⟨0x8, 3, 3⟩
def SYS_FLAGS.align : Fld := ⟨0x8, 4, 4⟩
def SYS_CNT_A.wb_err : Fld := ⟨0x10, 31, 0⟩
def SYS_CNT_A.auth_fail : Fld := ⟨0x10, 63, 32⟩
def SYS_CNT_B.bad_tag : Fld := ⟨0x18, 31, 0⟩
def SYS_CNT_B.dropped : Fld := ⟨0x18, 63, 32⟩
def SYS_RESET_CAUSE.cause : Fld := ⟨0x20, 5, 0⟩
def SYS_FW_ENTRY.entry : Fld := ⟨0x28, 47, 0⟩
def SYS_FW_HOLD.segments : Fld := ⟨0x30, 9, 0⟩
def SYS_WB_ADDR.addr : Fld := ⟨0x38, 47, 0⟩
def SYS_RES_CFG.addr : Fld := ⟨0x48, 47, 0⟩
def SYS_RES_CFG.count : Fld := ⟨0x48, 51, 48⟩
def SYS_RES_CFG.enable : Fld := ⟨0x48, 52, 52⟩
def SYS_RES_LAST.step : Fld := ⟨0x50, 63, 0⟩
def RING_STAT.next : Fld := ⟨0xD000, 7, 0⟩
def RING_STAT.full : Fld := ⟨0xD000, 8, 8⟩
def RING_STAT.lost : Fld := ⟨0xD000, 31, 16⟩
def RING_STAT.written : Fld := ⟨0xD000, 63, 32⟩
def RING_CTL.view : Fld := ⟨0xD008, 0, 0⟩
def RING_CTL.held : Fld := ⟨0xD008, 1, 1⟩
def TRC_CTL.enable : Fld := ⟨0xD080, 0, 0⟩
def TRC_CTL.all : Fld := ⟨0xD080, 1, 1⟩
def TRC_CTL.wrap : Fld := ⟨0xD080, 2, 2⟩
def TRC_CTL.clear : Fld := ⟨0xD080, 3, 3⟩
def TRC_CTL.view : Fld := ⟨0xD080, 4, 4⟩
def TRC_STAT.next : Fld := ⟨0xD088, 9, 0⟩
def TRC_STAT.full : Fld := ⟨0xD088, 10, 10⟩
def TRC_STAT.lost : Fld := ⟨0xD088, 31, 16⟩
def TRC_STAT.written : Fld := ⟨0xD088, 63, 32⟩
def DBG_STATUS.held : Fld := ⟨0x0, 0, 0⟩
def DBG_STATUS.trigger : Fld := ⟨0x0, 3, 1⟩
def DBG_STATUS.building : Fld := ⟨0x0, 5, 4⟩
def DBG_FLAGS.cap_over : Fld := ⟨0x8, 0, 0⟩
def DBG_FLAGS.cap_refused : Fld := ⟨0x8, 1, 1⟩
def DBG_FLAGS.flt_bad : Fld := ⟨0x8, 2, 2⟩
def DBG_CNT_A.captures : Fld := ⟨0x10, 31, 0⟩
def DBG_CNT_A.cap_refused : Fld := ⟨0x10, 63, 32⟩
def DBG_CNT_B.sent : Fld := ⟨0x18, 31, 0⟩
def DBG_CNT_B.dropped : Fld := ⟨0x18, 63, 32⟩
def DBG_CAPTURE.request : Fld := ⟨0x20, 0, 0⟩
def DBG_CAPTURE.release : Fld := ⟨0x20, 1, 1⟩
def DBG_CAP_TICK.tick : Fld := ⟨0x28, 63, 0⟩
def FLT_STAT.next : Fld := ⟨0x30, 7, 0⟩
def FLT_STAT.full : Fld := ⟨0x30, 8, 8⟩
def FLT_STAT.delivered : Fld := ⟨0x30, 63, 32⟩
def FLT_CTL.clear : Fld := ⟨0x38, 0, 0⟩
def PWR_STATUS.state : Fld := ⟨0x0, 2, 0⟩
def PWR_STATUS.vin_ok : Fld := ⟨0x0, 3, 3⟩
def PWR_STATUS.en : Fld := ⟨0x0, 4, 4⟩
def PWR_STATUS.modid : Fld := ⟨0x0, 9, 5⟩
def PWR_STATUS.local_vin : Fld := ⟨0x0, 10, 10⟩
def PWR_STATUS.rail_local : Fld := ⟨0x0, 11, 11⟩
def PWR_STATUS.coolant_local : Fld := ⟨0x0, 12, 12⟩
def PWR_FAULT.vin_warn : Fld := ⟨0x8, 0, 0⟩
def PWR_FAULT.over_model : Fld := ⟨0x8, 1, 1⟩
def PWR_FAULT.over_model_10us : Fld := ⟨0x8, 2, 2⟩
def PWR_FAULT.temp_warn : Fld := ⟨0x8, 3, 3⟩
def PWR_FAULT.coolant_warn : Fld := ⟨0x8, 4, 4⟩
def PWR_FAULT.sense : Fld := ⟨0x8, 5, 5⟩
def PWR_FAULT.sensor : Fld := ⟨0x8, 6, 6⟩
def PWR_CNT_A.over_model : Fld := ⟨0x10, 31, 0⟩
def PWR_CNT_A.over_model_10us : Fld := ⟨0x10, 63, 32⟩
def PWR_CNT_B.temp_warn : Fld := ⟨0x18, 31, 0⟩
def PWR_CNT_B.coolant_warn : Fld := ⟨0x18, 63, 32⟩
def PWR_CNT_C.vin_warn : Fld := ⟨0x20, 15, 0⟩
def PWR_CNT_C.sense : Fld := ⟨0x20, 31, 16⟩
def PWR_CNT_C.sensor : Fld := ⟨0x20, 63, 32⟩
def PWR_LAST.cause : Fld := ⟨0x28, 3, 0⟩
def PWR_LAST.index : Fld := ⟨0x28, 7, 4⟩
def PWR_LAST.valid : Fld := ⟨0x28, 8, 8⟩
def PWR_LAST.latched : Fld := ⟨0x28, 9, 9⟩
def PWR_LAST.others : Fld := ⟨0x28, 25, 16⟩
def PWR_LAST.time : Fld := ⟨0x28, 63, 32⟩
def PWR_VIN.mv : Fld := ⟨0x30, 15, 0⟩
def PWR_VIN.ma : Fld := ⟨0x30, 48, 32⟩
def PWR_AVG.p10us : Fld := ⟨0x38, 15, 0⟩
def PWR_AVG.p1ms : Fld := ⟨0x38, 31, 16⟩
def PWR_PEAK.p10us : Fld := ⟨0x40, 15, 0⟩
def PWR_PEAK.p1ms : Fld := ⟨0x40, 31, 16⟩
def PWR_RAIL_SEL.rail : Fld := ⟨0x48, 3, 0⟩
def PWR_RAIL.mv : Fld := ⟨0x50, 15, 0⟩
def PWR_RAIL.amps : Fld := ⟨0x50, 31, 16⟩
def PWR_RAIL.good : Fld := ⟨0x50, 32, 32⟩
def PWR_RAIL.local_ : Fld := ⟨0x50, 33, 33⟩
def PWR_TEMP_SEL.sensor : Fld := ⟨0x58, 5, 0⟩
def PWR_TEMP.temp : Fld := ⟨0x60, 15, 0⟩
def PWR_TEMP.invalid : Fld := ⟨0x60, 16, 16⟩
def PWR_TEMP.zone : Fld := ⟨0x60, 19, 17⟩
def SPI_DATA1.data : Fld := ⟨0x18, 63, 0⟩
def STK_EPOCH.epoch : Fld := ⟨0x4000, 15, 0⟩
def STK_EPOCH.region : Fld := ⟨0x4000, 31, 16⟩

end Fld

def regsTile0 : List RegDef :=
  [⟨0x0, 1, 0x8, 0x0#64, some 16, [⟨0, 0, .ro⟩, ⟨1, 1, .ro⟩, ⟨2, 2, .ro⟩, ⟨3, 3, .ro⟩, ⟨7, 4, .ro⟩, ⟨12, 8, .ro⟩, ⟨24, 16, .ro⟩]⟩,
   ⟨0x8, 1, 0x8, 0x0#64, none, [⟨0, 0, .w1c⟩, ⟨1, 1, .w1c⟩, ⟨2, 2, .w1c⟩, ⟨3, 3, .w1c⟩, ⟨4, 4, .w1c⟩, ⟨5, 5, .w1c⟩, ⟨6, 6, .w1c⟩, ⟨7, 7, .w1c⟩, ⟨8, 8, .w1c⟩]⟩,
   ⟨0x10, 1, 0x8, 0x0#64, none, [⟨31, 0, .ro⟩, ⟨63, 32, .ro⟩]⟩,
   ⟨0x18, 1, 0x8, 0x0#64, none, [⟨31, 0, .ro⟩, ⟨63, 32, .ro⟩]⟩,
   ⟨0x20, 1, 0x8, 0x0#64, none, [⟨31, 0, .ro⟩, ⟨63, 32, .ro⟩]⟩,
   ⟨0x28, 1, 0x8, 0x0#64, none, [⟨31, 0, .ro⟩, ⟨63, 32, .ro⟩]⟩,
   ⟨0x30, 1, 0x8, 0x0#64, none, [⟨31, 0, .ro⟩, ⟨63, 32, .ro⟩]⟩,
   ⟨0x38, 1, 0x8, 0x0#64, none, [⟨63, 0, .ro⟩]⟩,
   ⟨0x40, 5, 0x8, 0x0#64, none, [⟨0, 0, .ro⟩, ⟨1, 1, .ro⟩, ⟨2, 2, .ro⟩, ⟨15, 8, .ro⟩, ⟨63, 32, .ro⟩]⟩,
   ⟨0x100, 1, 0x8, 0x0#64, none, [⟨9, 0, .ro⟩, ⟨25, 16, .ro⟩]⟩,
   ⟨0x108, 1, 0x8, 0x0#64, none, [⟨47, 0, .ro⟩, ⟨51, 48, .ro⟩]⟩,
   ⟨0x110, 1, 0x8, 0x0#64, none, [⟨63, 0, .ro⟩]⟩,
   ⟨0x300, 1, 0x8, 0x0#64, none, [⟨63, 0, .ro⟩]⟩,
   ⟨0x308, 1, 0x8, 0x0#64, none, [⟨63, 0, .ro⟩]⟩,
   ⟨0x400, 1, 0x8, 0x0#64, none, [⟨63, 0, .ro⟩]⟩,
   ⟨0x408, 1, 0x8, 0x0#64, none, [⟨63, 0, .ro⟩]⟩,
   ⟨0x500, 1, 0x8, 0x0#64, none, [⟨9, 0, .rw⟩, ⟨10, 10, .rw⟩]⟩,
   ⟨0x508, 4, 0x8, 0x0#64, none, [⟨63, 0, .ro⟩]⟩,
   ⟨0x4000, 8, 0x200, 0x0#64, none, [⟨0, 0, .ro⟩, ⟨1, 1, .ro⟩, ⟨2, 2, .ro⟩, ⟨3, 3, .ro⟩, ⟨7, 4, .ro⟩, ⟨11, 8, .ro⟩, ⟨15, 12, .ro⟩, ⟨20, 16, .ro⟩, ⟨63, 32, .ro⟩]⟩,
   ⟨0x4008, 8, 0x200, 0x0#64, none, [⟨0, 0, .w1c⟩, ⟨1, 1, .w1c⟩, ⟨2, 2, .w1c⟩, ⟨3, 3, .w1c⟩, ⟨4, 4, .w1c⟩, ⟨5, 5, .w1c⟩]⟩,
   ⟨0x4010, 8, 0x200, 0x0#64, none, [⟨31, 0, .ro⟩, ⟨63, 32, .ro⟩]⟩,
   ⟨0x4018, 8, 0x200, 0x0#64, none, [⟨31, 0, .ro⟩, ⟨63, 32, .ro⟩]⟩,
   ⟨0x4020, 8, 0x200, 0x0#64, none, [⟨31, 0, .ro⟩, ⟨63, 32, .ro⟩]⟩,
   ⟨0x4028, 8, 0x200, 0x0#64, none, [⟨63, 0, .ro⟩]⟩]

def regsTile1 : List RegDef :=
  [⟨0x4030, 8, 0x200, 0x0#64, none, [⟨63, 0, .ro⟩]⟩,
   ⟨0x4038, 8, 0x200, 0x0#64, none, [⟨63, 0, .ro⟩]⟩,
   ⟨0x4040, 8, 0x200, 0x0#64, none, [⟨63, 0, .ro⟩]⟩,
   ⟨0x4048, 8, 0x200, 0x0#64, none, [⟨63, 0, .ro⟩]⟩,
   ⟨0xD000, 5, 0x10, 0x0#64, none, [⟨7, 0, .ro⟩, ⟨8, 8, .ro⟩, ⟨31, 16, .ro⟩, ⟨63, 32, .ro⟩]⟩,
   ⟨0xD008, 5, 0x10, 0x0#64, none, [⟨0, 0, .rw⟩, ⟨1, 1, .ro⟩]⟩,
   ⟨0xD080, 1, 0x8, 0x0#64, none, [⟨0, 0, .rw⟩, ⟨1, 1, .rw⟩, ⟨2, 2, .rw⟩, ⟨3, 3, .wo⟩, ⟨4, 4, .rw⟩]⟩,
   ⟨0xD088, 1, 0x8, 0x0#64, none, [⟨9, 0, .ro⟩, ⟨10, 10, .ro⟩, ⟨31, 16, .ro⟩, ⟨63, 32, .ro⟩]⟩]

/-- The registers of a tile window. -/
def regsTile : List RegDef := regsTile0 ++ regsTile1

def regsSlice0 : List RegDef :=
  [⟨0x0, 1, 0x8, 0x0#64, some 8, [⟨0, 0, .ro⟩, ⟨14, 8, .ro⟩]⟩,
   ⟨0x8, 1, 0x8, 0x0#64, none, [⟨15, 0, .rw⟩]⟩,
   ⟨0x10, 1, 0x8, 0x0#64, none, [⟨0, 0, .w1c⟩, ⟨1, 1, .w1c⟩, ⟨2, 2, .w1c⟩, ⟨3, 3, .w1c⟩]⟩,
   ⟨0x18, 1, 0x8, 0x0#64, none, [⟨31, 0, .ro⟩, ⟨63, 32, .ro⟩]⟩,
   ⟨0x20, 1, 0x8, 0x0#64, none, [⟨31, 0, .ro⟩, ⟨63, 32, .ro⟩]⟩,
   ⟨0x28, 1, 0x8, 0x0#64, none, [⟨63, 0, .ro⟩]⟩,
   ⟨0x30, 1, 0x8, 0x0#64, none, [⟨63, 0, .ro⟩]⟩,
   ⟨0x38, 1, 0x8, 0x0#64, none, [⟨63, 0, .ro⟩]⟩,
   ⟨0x1000, 1, 0x8, 0x0#64, none, [⟨12, 0, .ro⟩, ⟨32, 16, .ro⟩, ⟨49, 33, .ro⟩]⟩,
   ⟨0x1008, 1, 0x8, 0x0#64, none, [⟨0, 0, .w1c⟩, ⟨1, 1, .w1c⟩, ⟨2, 2, .w1c⟩, ⟨3, 3, .w1c⟩, ⟨4, 4, .w1c⟩, ⟨5, 5, .w1c⟩, ⟨6, 6, .w1c⟩, ⟨7, 7, .w1c⟩]⟩,
   ⟨0x1010, 1, 0x8, 0x0#64, none, [⟨31, 0, .ro⟩, ⟨63, 32, .ro⟩]⟩,
   ⟨0x1018, 1, 0x8, 0x0#64, none, [⟨31, 0, .ro⟩, ⟨63, 32, .ro⟩]⟩,
   ⟨0x1020, 1, 0x8, 0x0#64, none, [⟨31, 0, .ro⟩, ⟨63, 32, .ro⟩]⟩,
   ⟨0x1028, 1, 0x8, 0x0#64, none, [⟨31, 0, .ro⟩, ⟨63, 32, .ro⟩]⟩,
   ⟨0x1030, 1, 0x8, 0x0#64, none, [⟨63, 0, .ro⟩]⟩,
   ⟨0x1038, 1, 0x8, 0x0#64, none, [⟨63, 0, .ro⟩]⟩,
   ⟨0x1040, 1, 0x8, 0x0#64, none, [⟨13, 0, .ro⟩, ⟨25, 14, .ro⟩, ⟨28, 26, .ro⟩, ⟨63, 32, .ro⟩]⟩,
   ⟨0x1048, 1, 0x8, 0x0#64, none, [⟨63, 0, .ro⟩]⟩,
   ⟨0x1050, 1, 0x8, 0x0#64, none, [⟨63, 0, .ro⟩]⟩,
   ⟨0x1058, 1, 0x8, 0x0#64, none, [⟨63, 0, .ro⟩]⟩,
   ⟨0x1060, 1, 0x8, 0x0#64, none, [⟨63, 0, .ro⟩]⟩,
   ⟨0x1068, 1, 0x8, 0x0#64, none, [⟨55, 0, .ro⟩, ⟨59, 56, .ro⟩, ⟨60, 60, .ro⟩]⟩,
   ⟨0x1080, 1, 0x8, 0x0#64, none, [⟨11, 0, .rw⟩]⟩,
   ⟨0x1088, 4, 0x8, 0x0#64, none, [⟨63, 0, .ro⟩]⟩]

def regsSlice1 : List RegDef :=
  [⟨0x10A8, 1, 0x8, 0x0#64, none, [⟨31, 0, .ro⟩, ⟨48, 32, .ro⟩]⟩,
   ⟨0x4000, 256, 0x8, 0x0#64, none, [⟨15, 0, .ro⟩, ⟨31, 16, .ro⟩]⟩,
   ⟨0x9000, 1, 0x8, 0x0#64, none, [⟨7, 0, .ro⟩, ⟨8, 8, .ro⟩, ⟨31, 16, .ro⟩, ⟨63, 32, .ro⟩]⟩,
   ⟨0x9008, 1, 0x8, 0x0#64, none, [⟨0, 0, .rw⟩, ⟨1, 1, .ro⟩]⟩]

/-- The registers of a slice window. -/
def regsSlice : List RegDef := regsSlice0 ++ regsSlice1

def regsStack0 : List RegDef :=
  [⟨0x0, 1, 0x8, 0x0#64, some 8, [⟨1, 0, .ro⟩, ⟨11, 8, .ro⟩]⟩,
   ⟨0x8, 1, 0x8, 0x0#64, none, [⟨0, 0, .w1c⟩, ⟨1, 1, .w1c⟩, ⟨2, 2, .w1c⟩, ⟨3, 3, .w1c⟩, ⟨4, 4, .w1c⟩]⟩,
   ⟨0x10, 1, 0x8, 0x0#64, none, [⟨31, 0, .ro⟩, ⟨63, 32, .ro⟩]⟩,
   ⟨0x18, 1, 0x8, 0x0#64, none, [⟨31, 0, .ro⟩, ⟨63, 32, .ro⟩]⟩,
   ⟨0x20, 1, 0x8, 0x0#64, none, [⟨13, 0, .ro⟩, ⟨29, 16, .ro⟩, ⟨63, 32, .ro⟩]⟩,
   ⟨0x28, 1, 0x8, 0x0#64, none, [⟨47, 0, .ro⟩, ⟨51, 48, .ro⟩]⟩,
   ⟨0x30, 1, 0x8, 0x0#64, none, [⟨63, 0, .ro⟩]⟩,
   ⟨0x38, 1, 0x8, 0x0#64, none, [⟨63, 0, .ro⟩]⟩,
   ⟨0x4000, 256, 0x8, 0x0#64, none, [⟨15, 0, .ro⟩, ⟨31, 16, .ro⟩]⟩,
   ⟨0x7000, 1, 0x8, 0x0#64, none, [⟨7, 0, .ro⟩, ⟨8, 8, .ro⟩, ⟨31, 16, .ro⟩, ⟨63, 32, .ro⟩]⟩,
   ⟨0x7008, 1, 0x8, 0x0#64, none, [⟨0, 0, .rw⟩, ⟨1, 1, .ro⟩]⟩,
   ⟨0x8000, 1, 0x8, 0x0#64, some 23, [⟨0, 0, .ro⟩, ⟨12, 1, .ro⟩, ⟨22, 13, .ro⟩, ⟨26, 23, .ro⟩]⟩,
   ⟨0x8008, 1, 0x8, 0x0#64, none, [⟨0, 0, .w1c⟩, ⟨1, 1, .w1c⟩, ⟨2, 2, .w1c⟩, ⟨3, 3, .w1c⟩]⟩,
   ⟨0x8010, 1, 0x8, 0x0#64, none, [⟨31, 0, .ro⟩, ⟨63, 32, .ro⟩]⟩,
   ⟨0x8018, 1, 0x8, 0x0#64, none, [⟨31, 0, .ro⟩, ⟨63, 32, .ro⟩]⟩,
   ⟨0x8020, 1, 0x8, 0x0#64, none, [⟨63, 0, .ro⟩]⟩,
   ⟨0x8028, 1, 0x8, 0x0#64, none, [⟨63, 0, .ro⟩]⟩,
   ⟨0x8030, 1, 0x8, 0x0#64, none, [⟨63, 0, .ro⟩]⟩,
   ⟨0x8038, 1, 0x8, 0x0#64, none, [⟨9, 0, .rw⟩]⟩,
   ⟨0x8040, 1, 0x8, 0x800000#64, none, [⟨7, 0, .ro⟩, ⟨15, 8, .ro⟩, ⟨23, 16, .ro⟩, ⟨24, 24, .ro⟩]⟩,
   ⟨0xD000, 1, 0x8, 0x0#64, none, [⟨7, 0, .ro⟩, ⟨8, 8, .ro⟩, ⟨31, 16, .ro⟩, ⟨63, 32, .ro⟩]⟩,
   ⟨0xD008, 1, 0x8, 0x0#64, none, [⟨0, 0, .rw⟩, ⟨1, 1, .ro⟩]⟩]

/-- The registers of a stack window. -/
def regsStack : List RegDef := regsStack0

def regsLpd0 : List RegDef :=
  [⟨0x0, 1, 0x8, 0x0#64, none, [⟨15, 0, .ro⟩]⟩,
   ⟨0x8, 1, 0x8, 0x0#64, none, [⟨0, 0, .w1c⟩, ⟨1, 1, .w1c⟩, ⟨2, 2, .w1c⟩, ⟨3, 3, .w1c⟩, ⟨4, 4, .w1c⟩]⟩,
   ⟨0x10, 1, 0x8, 0x0#64, none, [⟨31, 0, .ro⟩, ⟨63, 32, .ro⟩]⟩,
   ⟨0x18, 1, 0x8, 0x0#64, none, [⟨31, 0, .ro⟩, ⟨63, 32, .ro⟩]⟩,
   ⟨0x20, 1, 0x8, 0x0#64, none, [⟨31, 0, .ro⟩]⟩,
   ⟨0x28, 1, 0x8, 0x0#64, none, [⟨47, 0, .ro⟩, ⟨51, 48, .ro⟩, ⟨54, 52, .ro⟩, ⟨56, 55, .ro⟩]⟩,
   ⟨0x30, 1, 0x8, 0x0#64, none, [⟨63, 0, .ro⟩]⟩,
   ⟨0x7000, 1, 0x8, 0x0#64, none, [⟨7, 0, .ro⟩, ⟨8, 8, .ro⟩, ⟨31, 16, .ro⟩, ⟨63, 32, .ro⟩]⟩,
   ⟨0x7008, 1, 0x8, 0x0#64, none, [⟨0, 0, .rw⟩, ⟨1, 1, .ro⟩]⟩,
   ⟨0x8000, 1, 0x8, 0x0#64, none, [⟨18, 0, .rw⟩]⟩,
   ⟨0x8008, 1, 0x8, 0x0#64, none, [⟨31, 0, .ro⟩]⟩,
   ⟨0x8010, 1, 0x8, 0x0#64, none, [⟨7, 0, .rw⟩]⟩,
   ⟨0x8018, 1, 0x8, 0x0#64, none, [⟨11, 0, .rw⟩, ⟨31, 14, .rw⟩, ⟨50, 32, .rw⟩]⟩,
   ⟨0x8020, 1, 0x8, 0x0#64, none, [⟨11, 0, .ro⟩, ⟨31, 14, .ro⟩, ⟨50, 32, .ro⟩]⟩,
   ⟨0x8028, 1, 0x8, 0x0#64, none, [⟨0, 0, .ro⟩, ⟨1, 1, .w1c⟩]⟩,
   ⟨0x8030, 1, 0x8, 0x0#64, none, [⟨18, 0, .wo⟩, ⟨38, 20, .wo⟩, ⟨63, 63, .wo⟩]⟩,
   ⟨0x8038, 1, 0x8, 0x0#64, none, [⟨0, 0, .ro⟩, ⟨1, 1, .w1c⟩, ⟨2, 2, .w1c⟩, ⟨5, 3, .ro⟩]⟩,
   ⟨0x8040, 1, 0x8, 0x100000000028#64, none, [⟨0, 0, .rw⟩, ⟨5, 1, .rw⟩, ⟨63, 32, .rw⟩]⟩,
   ⟨0x8048, 1, 0x8, 0x0#64, none, [⟨31, 0, .ro⟩, ⟨63, 32, .ro⟩]⟩]

/-- The registers of a lpd window. -/
def regsLpd : List RegDef := regsLpd0

def regsPort0 : List RegDef :=
  [⟨0x0, 1, 0x8, 0x0#64, some 8, [⟨2, 0, .ro⟩, ⟨3, 3, .ro⟩, ⟨12, 8, .ro⟩]⟩,
   ⟨0x8, 1, 0x8, 0x0#64, none, [⟨0, 0, .rw⟩, ⟨1, 1, .wo⟩, ⟨9, 2, .ro⟩, ⟨17, 10, .ro⟩, ⟨25, 18, .ro⟩, ⟨27, 26, .ro⟩, ⟨35, 28, .ro⟩, ⟨43, 36, .ro⟩]⟩,
   ⟨0x10, 1, 0x8, 0x21#64, none, [⟨7, 0, .ro⟩, ⟨15, 8, .ro⟩, ⟨23, 16, .ro⟩, ⟨31, 24, .ro⟩, ⟨33, 32, .ro⟩]⟩,
   ⟨0x18, 1, 0x8, 0x0#64, none, [⟨0, 0, .w1c⟩, ⟨1, 1, .w1c⟩, ⟨2, 2, .w1c⟩, ⟨3, 3, .w1c⟩, ⟨4, 4, .w1c⟩, ⟨5, 5, .w1c⟩, ⟨6, 6, .w1c⟩, ⟨7, 7, .w1c⟩, ⟨8, 8, .w1c⟩, ⟨9, 9, .w1c⟩]⟩,
   ⟨0x20, 1, 0x8, 0x0#64, none, [⟨31, 0, .ro⟩, ⟨63, 32, .ro⟩]⟩,
   ⟨0x28, 1, 0x8, 0x0#64, none, [⟨31, 0, .ro⟩, ⟨63, 32, .ro⟩]⟩,
   ⟨0x30, 1, 0x8, 0x0#64, none, [⟨31, 0, .ro⟩, ⟨63, 32, .ro⟩]⟩,
   ⟨0x38, 1, 0x8, 0x0#64, none, [⟨31, 0, .ro⟩, ⟨63, 32, .ro⟩]⟩,
   ⟨0x40, 1, 0x8, 0x0#64, none, [⟨31, 0, .ro⟩, ⟨63, 32, .ro⟩]⟩,
   ⟨0x48, 1, 0x8, 0x0#64, none, [⟨63, 0, .ro⟩]⟩,
   ⟨0x50, 1, 0x8, 0x0#64, none, [⟨63, 0, .ro⟩]⟩,
   ⟨0x58, 1, 0x8, 0x0#64, none, [⟨63, 0, .ro⟩]⟩,
   ⟨0x60, 1, 0x8, 0x0#64, none, [⟨9, 0, .ro⟩, ⟨25, 16, .ro⟩]⟩,
   ⟨0x68, 1, 0x8, 0x0#64, none, [⟨13, 0, .ro⟩, ⟨19, 14, .ro⟩, ⟨27, 20, .ro⟩, ⟨31, 28, .ro⟩, ⟨63, 32, .ro⟩]⟩,
   ⟨0x70, 1, 0x8, 0x4000000000000#64, none, [⟨47, 0, .rw⟩, ⟨51, 48, .rw⟩]⟩,
   ⟨0x78, 1, 0x8, 0x0#64, none, [⟨15, 0, .ro⟩, ⟨31, 16, .rw⟩]⟩,
   ⟨0x80, 1, 0x8, 0x4000000000000#64, none, [⟨47, 0, .rw⟩, ⟨51, 48, .rw⟩]⟩,
   ⟨0x88, 1, 0x8, 0x0#64, none, [⟨15, 0, .rw⟩, ⟨31, 16, .ro⟩]⟩,
   ⟨0x9000, 1, 0x8, 0x0#64, none, [⟨7, 0, .ro⟩, ⟨8, 8, .ro⟩, ⟨31, 16, .ro⟩, ⟨63, 32, .ro⟩]⟩,
   ⟨0x9008, 1, 0x8, 0x0#64, none, [⟨0, 0, .rw⟩, ⟨1, 1, .ro⟩]⟩]

/-- The registers of a port window. -/
def regsPort : List RegDef := regsPort0

def regsClk0 : List RegDef :=
  [⟨0x0, 1, 0x8, 0x0#64, none, [⟨0, 0, .ro⟩, ⟨1, 1, .ro⟩, ⟨2, 2, .ro⟩, ⟨3, 3, .ro⟩, ⟨7, 4, .ro⟩]⟩,
   ⟨0x8, 1, 0x8, 0x0#64, none, [⟨0, 0, .w1c⟩, ⟨1, 1, .w1c⟩, ⟨2, 2, .w1c⟩, ⟨3, 3, .w1c⟩, ⟨4, 4, .w1c⟩, ⟨5, 5, .w1c⟩]⟩,
   ⟨0x10, 1, 0x8, 0x0#64, none, [⟨31, 0, .ro⟩, ⟨63, 32, .ro⟩]⟩,
   ⟨0x18, 1, 0x8, 0x0#64, none, [⟨31, 0, .ro⟩, ⟨63, 32, .ro⟩]⟩,
   ⟨0x20, 1, 0x8, 0x0#64, none, [⟨31, 0, .ro⟩, ⟨63, 32, .ro⟩]⟩,
   ⟨0x28, 1, 0x8, 0x0#64, none, [⟨3, 0, .rw⟩, ⟨7, 4, .rw⟩, ⟨9, 8, .rw⟩, ⟨10, 10, .rw⟩, ⟨11, 11, .rw⟩, ⟨12, 12, .rw⟩, ⟨14, 13, .rw⟩, ⟨15, 15, .rw⟩]⟩,
   ⟨0x100, 1, 0x8, 0x0#64, none, [⟨63, 0, .ro⟩]⟩,
   ⟨0x108, 1, 0x8, 0x0#64, none, [⟨0, 0, .wo⟩, ⟨3, 1, .ro⟩, ⟨8, 4, .rw⟩, ⟨9, 9, .ro⟩, ⟨12, 10, .ro⟩, ⟨19, 16, .ro⟩]⟩,
   ⟨0x110, 1, 0x8, 0x0#64, none, [⟨63, 0, .rw⟩]⟩,
   ⟨0x118, 1, 0x8, 0x0#64, none, [⟨31, 0, .ro⟩, ⟨47, 32, .ro⟩, ⟨63, 48, .ro⟩]⟩,
   ⟨0x120, 1, 0x8, 0x0#64, none, [⟨15, 0, .ro⟩, ⟨20, 16, .ro⟩, ⟨21, 21, .ro⟩]⟩,
   ⟨0x128, 1, 0x8, 0x0#64, none, [⟨63, 0, .ro⟩]⟩,
   ⟨0x130, 1, 0x8, 0x0#64, none, [⟨3, 0, .ro⟩, ⟨7, 4, .ro⟩, ⟨8, 8, .ro⟩, ⟨13, 9, .ro⟩, ⟨16, 16, .wo⟩]⟩]

/-- The registers of a clk window. -/
def regsClk : List RegDef := regsClk0

def regsInfl0 : List RegDef :=
  [⟨0x0, 1, 0x8, 0x0#64, none, [⟨63, 0, .ro⟩]⟩,
   ⟨0x8, 1, 0x8, 0x0#64, none, [⟨3, 0, .ro⟩, ⟨4, 4, .ro⟩, ⟨15, 8, .ro⟩, ⟨31, 16, .ro⟩]⟩,
   ⟨0x10, 1, 0x8, 0x0#64, none, [⟨63, 0, .ro⟩]⟩,
   ⟨0x18, 1, 0x8, 0x300#64, none, [⟨3, 0, .ro⟩, ⟨7, 4, .ro⟩, ⟨11, 8, .ro⟩, ⟨15, 12, .ro⟩]⟩,
   ⟨0x20, 1, 0x8, 0x0#64, none, [⟨63, 0, .ro⟩]⟩,
   ⟨0x28, 1, 0x8, 0x0#64, none, [⟨1, 0, .ro⟩, ⟨2, 2, .ro⟩, ⟨3, 3, .ro⟩, ⟨63, 32, .ro⟩]⟩,
   ⟨0x100, 1, 0x8, 0x0#64, none, [⟨10, 0, .ro⟩, ⟨19, 11, .ro⟩, ⟨35, 20, .ro⟩, ⟨51, 36, .ro⟩]⟩,
   ⟨0x108, 1, 0x8, 0x0#64, none, [⟨0, 0, .w1c⟩, ⟨1, 1, .w1c⟩, ⟨2, 2, .w1c⟩, ⟨3, 3, .w1c⟩]⟩,
   ⟨0x110, 1, 0x8, 0x0#64, none, [⟨31, 0, .ro⟩, ⟨63, 32, .ro⟩]⟩,
   ⟨0x118, 1, 0x8, 0x0#64, none, [⟨31, 0, .ro⟩, ⟨63, 32, .ro⟩]⟩,
   ⟨0x120, 1, 0x8, 0x0#64, none, [⟨31, 0, .ro⟩, ⟨39, 32, .ro⟩, ⟨47, 40, .ro⟩]⟩,
   ⟨0x128, 1, 0x8, 0x0#64, none, [⟨15, 0, .ro⟩, ⟨23, 16, .ro⟩, ⟨37, 24, .ro⟩]⟩,
   ⟨0x130, 1, 0x8, 0xFFFFFFFFFFFFFFFF#64, none, [⟨63, 0, .ro⟩]⟩,
   ⟨0x138, 1, 0x8, 0x0#64, none, [⟨15, 0, .ro⟩, ⟨23, 16, .ro⟩]⟩,
   ⟨0x140, 1, 0x8, 0x0#64, none, [⟨0, 0, .wo⟩, ⟨1, 1, .wo⟩, ⟨2, 2, .wo⟩, ⟨3, 3, .ro⟩]⟩,
   ⟨0x200, 1, 0x8, 0x0#64, none, [⟨9, 0, .rw⟩]⟩,
   ⟨0x208, 1, 0x8, 0x0#64, none, [⟨63, 0, .ro⟩]⟩,
   ⟨0x210, 1, 0x8, 0x0#64, none, [⟨2, 0, .ro⟩, ⟨5, 3, .ro⟩, ⟨13, 6, .ro⟩, ⟨29, 14, .ro⟩, ⟨45, 30, .ro⟩, ⟨61, 46, .ro⟩, ⟨62, 62, .ro⟩, ⟨63, 63, .ro⟩]⟩,
   ⟨0x218, 1, 0x8, 0x0#64, none, [⟨47, 0, .ro⟩]⟩,
   ⟨0x220, 4, 0x8, 0x0#64, none, [⟨63, 0, .ro⟩]⟩,
   ⟨0x1000, 128, 0x8, 0x0#64, none, [⟨63, 0, .rw⟩]⟩,
   ⟨0x2000, 1024, 0x8, 0x0#64, none, [⟨63, 0, .rw⟩]⟩]

/-- The registers of a infl window. -/
def regsInfl : List RegDef := regsInfl0

def regsPower0 : List RegDef :=
  [⟨0x0, 1, 0x8, 0x1B#64, none, [⟨2, 0, .ro⟩, ⟨3, 3, .ro⟩, ⟨4, 4, .ro⟩, ⟨9, 5, .ro⟩, ⟨10, 10, .ro⟩, ⟨11, 11, .ro⟩, ⟨12, 12, .ro⟩]⟩,
   ⟨0x8, 1, 0x8, 0x0#64, none, [⟨0, 0, .w1c⟩, ⟨1, 1, .w1c⟩, ⟨2, 2, .w1c⟩, ⟨3, 3, .w1c⟩, ⟨4, 4, .w1c⟩, ⟨5, 5, .w1c⟩, ⟨6, 6, .w1c⟩]⟩,
   ⟨0x10, 1, 0x8, 0x0#64, none, [⟨31, 0, .ro⟩, ⟨63, 32, .ro⟩]⟩,
   ⟨0x18, 1, 0x8, 0x0#64, none, [⟨31, 0, .ro⟩, ⟨63, 32, .ro⟩]⟩,
   ⟨0x20, 1, 0x8, 0x0#64, none, [⟨15, 0, .ro⟩, ⟨31, 16, .ro⟩, ⟨63, 32, .ro⟩]⟩,
   ⟨0x28, 1, 0x8, 0x0#64, none, [⟨3, 0, .ro⟩, ⟨7, 4, .ro⟩, ⟨8, 8, .ro⟩, ⟨9, 9, .ro⟩, ⟨25, 16, .ro⟩, ⟨63, 32, .ro⟩]⟩,
   ⟨0x30, 1, 0x8, 0x0#64, none, [⟨15, 0, .ro⟩, ⟨48, 32, .ro⟩]⟩,
   ⟨0x38, 1, 0x8, 0x0#64, none, [⟨15, 0, .ro⟩, ⟨31, 16, .ro⟩]⟩,
   ⟨0x40, 1, 0x8, 0x0#64, none, [⟨15, 0, .ro⟩, ⟨31, 16, .ro⟩]⟩,
   ⟨0x48, 1, 0x8, 0x0#64, none, [⟨3, 0, .rw⟩]⟩,
   ⟨0x50, 1, 0x8, 0x0#64, none, [⟨15, 0, .ro⟩, ⟨31, 16, .ro⟩, ⟨32, 32, .ro⟩, ⟨33, 33, .ro⟩]⟩,
   ⟨0x58, 1, 0x8, 0x0#64, none, [⟨5, 0, .rw⟩]⟩,
   ⟨0x60, 1, 0x8, 0x0#64, none, [⟨15, 0, .ro⟩, ⟨16, 16, .ro⟩, ⟨19, 17, .ro⟩]⟩]

/-- The registers of a power window. -/
def regsPower : List RegDef := regsPower0

def regsXof0 : List RegDef :=
  [⟨0x0, 1, 0x8, 0x0#64, none, [⟨0, 0, .ro⟩, ⟨1, 1, .ro⟩, ⟨2, 2, .ro⟩, ⟨14, 8, .ro⟩]⟩,
   ⟨0x8, 1, 0x8, 0x0#64, none, [⟨0, 0, .w1c⟩, ⟨1, 1, .w1c⟩]⟩,
   ⟨0x10, 1, 0x8, 0x0#64, none, [⟨31, 0, .ro⟩, ⟨63, 32, .ro⟩]⟩,
   ⟨0x18, 1, 0x8, 0x0#64, none, [⟨7, 0, .rw⟩, ⟨63, 63, .wo⟩]⟩,
   ⟨0x20, 1, 0x8, 0x0#64, none, [⟨0, 0, .ro⟩, ⟨1, 1, .w1c⟩, ⟨15, 8, .ro⟩]⟩,
   ⟨0x100, 64, 0x8, 0x0#64, none, [⟨63, 0, .rw⟩]⟩,
   ⟨0x400, 128, 0x8, 0x0#64, none, [⟨63, 0, .ro⟩]⟩,
   ⟨0x800, 1, 0x8, 0x0#64, none, [⟨63, 0, .ro⟩]⟩,
   ⟨0x808, 6, 0x8, 0x0#64, none, [⟨63, 0, .ro⟩]⟩,
   ⟨0x840, 2, 0x8, 0x0#64, none, [⟨63, 0, .ro⟩]⟩]

/-- The registers of a xof window. -/
def regsXof : List RegDef := regsXof0

def regsFliuf0 : List RegDef :=
  [⟨0x410000, 4, 0x1000, 0x100#64, none, [⟨0, 0, .rw⟩, ⟨1, 1, .rw⟩, ⟨2, 2, .rw⟩, ⟨3, 3, .rw⟩, ⟨4, 4, .rw⟩, ⟨5, 5, .rw⟩, ⟨14, 8, .rw⟩, ⟨22, 16, .rw⟩, ⟨26, 24, .rw⟩]⟩,
   ⟨0x410008, 4, 0x1000, 0x8000#64, none, [⟨6, 0, .ro⟩, ⟨14, 8, .ro⟩, ⟨15, 15, .ro⟩, ⟨16, 16, .w1c⟩, ⟨17, 17, .w1c⟩, ⟨18, 18, .w1c⟩, ⟨19, 19, .w1c⟩]⟩,
   ⟨0x410010, 4, 0x1000, 0x0#64, none, [⟨7, 0, .rw⟩]⟩,
   ⟨0x410018, 4, 0x1000, 0x8006C#64, none, [⟨15, 0, .rw⟩, ⟨19, 16, .rw⟩]⟩,
   ⟨0x420000, 4, 0x1000, 0x0#64, none, [⟨0, 0, .rw⟩, ⟨1, 1, .rw⟩, ⟨3, 2, .rw⟩, ⟨4, 4, .rw⟩, ⟨5, 5, .wo⟩, ⟨6, 6, .wo⟩, ⟨15, 8, .rw⟩]⟩,
   ⟨0x420008, 4, 0x1000, 0x10#64, none, [⟨0, 0, .ro⟩, ⟨1, 1, .w1c⟩, ⟨2, 2, .w1c⟩, ⟨3, 3, .ro⟩, ⟨4, 4, .ro⟩, ⟨5, 5, .w1c⟩]⟩,
   ⟨0x420010, 4, 0x1000, 0x0#64, none, [⟨7, 0, .rw⟩]⟩,
   ⟨0x420018, 4, 0x1000, 0x0#64, none, [⟨6, 0, .rw⟩, ⟨7, 7, .rw⟩, ⟨14, 8, .rw⟩]⟩,
   ⟨0x430000, 2, 0x1000, 0x4#64, none, [⟨7, 0, .rw⟩, ⟨9, 8, .rw⟩, ⟨10, 10, .wo⟩, ⟨14, 11, .rw⟩]⟩,
   ⟨0x430008, 2, 0x1000, 0x0#64, none, [⟨0, 0, .w1c⟩]⟩,
   ⟨0x430010, 2, 0x1000, 0x0#64, none, [⟨63, 0, .rw⟩]⟩,
   ⟨0x430018, 2, 0x1000, 0x0#64, none, [⟨63, 0, .rw⟩]⟩,
   ⟨0x440000, 1, 0x8, 0x0#64, none, [⟨31, 0, .ro⟩]⟩,
   ⟨0x440008, 1, 0x8, 0x0#64, none, [⟨31, 0, .rw⟩]⟩,
   ⟨0x440010, 1, 0x8, 0x0#64, none, [⟨31, 0, .rw⟩]⟩,
   ⟨0x440018, 1, 0x8, 0x0#64, none, [⟨31, 0, .w1c⟩]⟩,
   ⟨0x440020, 1, 0x8, 0x0#64, none, [⟨31, 0, .rw⟩]⟩,
   ⟨0x450000, 4, 0x20, 0x0#64, none, [⟨63, 0, .rw⟩]⟩,
   ⟨0x450008, 4, 0x20, 0x0#64, none, [⟨0, 0, .rw⟩]⟩,
   ⟨0x450010, 4, 0x20, 0x0#64, none, [⟨0, 0, .w1c⟩]⟩,
   ⟨0x460000, 4, 0x1000, 0xBEC00000000#64, none, [⟨0, 0, .rw⟩, ⟨2, 1, .rw⟩, ⟨63, 32, .rw⟩]⟩,
   ⟨0x460008, 4, 0x1000, 0x0#64, none, [⟨7, 0, .wo⟩]⟩,
   ⟨0x460010, 4, 0x1000, 0x0#64, none, [⟨0, 0, .w1c⟩, ⟨63, 32, .ro⟩]⟩,
   ⟨0x4A0000, 1, 0x8, 0x0#64, none, [⟨2, 0, .ro⟩, ⟨3, 3, .ro⟩, ⟨7, 4, .ro⟩, ⟨15, 8, .ro⟩]⟩]

def regsFliuf1 : List RegDef :=
  [⟨0x4A0008, 1, 0x8, 0x0#64, none, [⟨0, 0, .w1c⟩, ⟨1, 1, .w1c⟩, ⟨2, 2, .w1c⟩, ⟨3, 3, .w1c⟩, ⟨4, 4, .w1c⟩]⟩,
   ⟨0x4A0010, 1, 0x8, 0x0#64, none, [⟨31, 0, .ro⟩, ⟨63, 32, .ro⟩]⟩,
   ⟨0x4A0018, 1, 0x8, 0x0#64, none, [⟨31, 0, .ro⟩, ⟨63, 32, .ro⟩]⟩,
   ⟨0x4A0020, 1, 0x8, 0x0#64, none, [⟨5, 0, .ro⟩]⟩,
   ⟨0x4A0028, 1, 0x8, 0x0#64, none, [⟨47, 0, .ro⟩]⟩,
   ⟨0x4A0030, 1, 0x8, 0x0#64, none, [⟨9, 0, .rw⟩]⟩,
   ⟨0x4A0038, 1, 0x8, 0x0#64, none, [⟨47, 0, .ro⟩]⟩,
   ⟨0x4A0040, 1, 0x8, 0x0#64, none, [⟨3, 0, .rw⟩, ⟨7, 4, .rw⟩, ⟨15, 8, .rw⟩, ⟨23, 16, .rw⟩, ⟨27, 24, .ro⟩, ⟨31, 28, .ro⟩, ⟨39, 32, .ro⟩, ⟨43, 40, .rw⟩, ⟨47, 44, .rw⟩, ⟨63, 48, .ro⟩]⟩,
   ⟨0x4A0048, 1, 0x8, 0x0#64, none, [⟨47, 0, .rw⟩, ⟨51, 48, .rw⟩, ⟨52, 52, .rw⟩]⟩,
   ⟨0x4A0050, 1, 0x8, 0x0#64, none, [⟨63, 0, .ro⟩]⟩]

/-- The registers of a fliuf window. -/
def regsFliuf : List RegDef := regsFliuf0 ++ regsFliuf1

def regsDebug0 : List RegDef :=
  [⟨0x0, 1, 0x8, 0x0#64, none, [⟨0, 0, .ro⟩, ⟨3, 1, .ro⟩, ⟨5, 4, .ro⟩]⟩,
   ⟨0x8, 1, 0x8, 0x0#64, none, [⟨0, 0, .w1c⟩, ⟨1, 1, .w1c⟩, ⟨2, 2, .w1c⟩]⟩,
   ⟨0x10, 1, 0x8, 0x0#64, none, [⟨31, 0, .ro⟩, ⟨63, 32, .ro⟩]⟩,
   ⟨0x18, 1, 0x8, 0x0#64, none, [⟨31, 0, .ro⟩, ⟨63, 32, .ro⟩]⟩,
   ⟨0x20, 1, 0x8, 0x0#64, none, [⟨0, 0, .wo⟩, ⟨1, 1, .wo⟩]⟩,
   ⟨0x28, 1, 0x8, 0x0#64, none, [⟨63, 0, .ro⟩]⟩,
   ⟨0x30, 1, 0x8, 0x0#64, none, [⟨7, 0, .ro⟩, ⟨8, 8, .ro⟩, ⟨63, 32, .ro⟩]⟩,
   ⟨0x38, 1, 0x8, 0x0#64, none, [⟨0, 0, .wo⟩]⟩,
   ⟨0x11000, 1, 0x8, 0x0#64, none, [⟨7, 0, .ro⟩, ⟨8, 8, .ro⟩, ⟨31, 16, .ro⟩, ⟨63, 32, .ro⟩]⟩,
   ⟨0x11008, 1, 0x8, 0x0#64, none, [⟨0, 0, .rw⟩, ⟨1, 1, .ro⟩]⟩,
   ⟨0x13000, 1, 0x8, 0x0#64, none, [⟨7, 0, .ro⟩, ⟨8, 8, .ro⟩, ⟨31, 16, .ro⟩, ⟨63, 32, .ro⟩]⟩,
   ⟨0x13008, 1, 0x8, 0x0#64, none, [⟨0, 0, .rw⟩, ⟨1, 1, .ro⟩]⟩]

/-- The registers of a debug window. -/
def regsDebug : List RegDef := regsDebug0

/-- The registers of each window. The die bridge has a window (Table 1.4) and no register of the spec lies in it. -/
def regTable : Win → List RegDef
  | .tile => regsTile
  | .slice => regsSlice
  | .stack => regsStack
  | .lpd => regsLpd
  | .port => regsPort
  | .bridge => []
  | .clk => regsClk
  | .infl => regsInfl
  | .power => regsPower
  | .xof => regsXof
  | .fliuf => regsFliuf
  | .debug => regsDebug

end Sys2Proof.Machine
end

