-- ==== Sys2Proof/Machine/Num.lean ====
section
/-!
DEFINITION. Element formats and exact arithmetic: a value is NaN, an infinity, or a sign with an exact binary magnitude;
every operation forms the exact result and rounds it once (R56 to R60, R72, R80, R101, R102, R163).
-/
namespace Sys2Proof.Machine

/-! ### Formats, Tables 2.1 and 2.2 -/

def fmtBits (c : Nat) : Nat :=
  match c with
  | 0 => 4
  | 1 => 8
  | 2 => 8
  | 3 => 16
  | 4 => 16
  | 5 => 32
  | 6 => 64
  | _ => 8

/-- Mantissa bits. -/
def fmtMan (c : Nat) : Nat :=
  match c with
  | 0 => 1
  | 1 => 3
  | 2 => 2
  | 3 => 7
  | 4 => 10
  | 5 => 23
  | 6 => 52
  | _ => 0

def fmtBias (c : Nat) : Nat :=
  match c with
  | 0 => 1
  | 1 => 7
  | 2 => 15
  | 3 => 127
  | 4 => 15
  | 5 => 127
  | 6 => 1023
  | _ => 0

/-- Formats with infinities: E5M2, BF16, FP16, FP32, FP64. -/
def fmtHasInf (c : Nat) : Bool := decide (2 ≤ c ∧ c ≤ 6)

/-- Formats with one zero (R60), and INT8. -/
def fmtOneZero (c : Nat) : Bool := decide (c = 0 ∨ c = 1 ∨ 7 ≤ c)

/-- The weight of the lowest bit of a subnormal: 2 to this exponent. INT8 counts in ones. -/
def fmtEmin (c : Nat) : Int := if 7 ≤ c then 0 else 1 - Int.ofNat (fmtBias c) - Int.ofNat (fmtMan c)

/-- A value of a format or of an exact computation: magnitude m × 2^e. -/
inductive Val where
  | nan
  | inf (neg : Bool)
  | fin (neg : Bool) (m : Nat) (e : Int)
deriving DecidableEq, Repr

/-- +0. -/
def Val.zero : Val := .fin false 0 0

def Val.isNan : Val → Bool
  | .nan => true
  | _ => false

def Val.isFin : Val → Bool
  | .fin _ _ _ => true
  | _ => false

def Val.isZero : Val → Bool
  | .fin _ m _ => decide (m = 0)
  | _ => false

def Val.negative : Val → Bool
  | .nan => false
  | .inf n => n
  | .fin n _ _ => n

def Val.neg : Val → Val
  | .nan => .nan
  | .inf n => .inf (!n)
  | .fin n m e => .fin (!n) m e

def Val.abs : Val → Val
  | .nan => .nan
  | .inf _ => .inf false
  | .fin _ m e => .fin false m e

/-- The largest finite value of a format as m × 2^e, Table 2.1; 127 for INT8. -/
def fmtMax (c : Nat) : Nat × Int :=
  match c with
  | 0 => (3, 1)
  | 1 => (14, 5)
  | 2 => (7, 13)
  | 3 => (255, 120)
  | 4 => (2047, 5)
  | 5 => (2 ^ 24 - 1, 104)
  | 6 => (2 ^ 53 - 1, 971)
  | _ => (127, 0)

/-- The NaN code that the module writes, Table 2.2. -/
def fmtNan (c : Nat) : Nat :=
  match c with
  | 0 => 0
  | 1 => 0x7F
  | 2 => 0x7E
  | 3 => 0x7FC0
  | 4 => 0x7E00
  | 5 => 0x7FC00000
  | 6 => 0x7FF8000000000000
  | _ => 0

/-- The escape codes of E2M1 and E4M3. -/
def isEscape (c code : Nat) : Bool := decide (c = 0 ∧ code % 16 = 8) || decide (c = 1 ∧ code % 256 = 0x80)

/-- R57: the value of a code; an escape code decodes as +0 here (its value is its list entry's, R78). -/
def decodeVal (c code : Nat) : Val :=
  if 7 ≤ c then
    let i := signed 8 code
    .fin (decide (i < 0)) i.natAbs 0
  else
    let b := fmtBits c
    let w := fmtMan c
    let top := 2 ^ (b - 1 - w) - 1
    let neg := decide (code / 2 ^ (b - 1) % 2 = 1)
    let e := code / 2 ^ w % (top + 1)
    let m := code % 2 ^ w
    if isEscape c code then .zero
    else if decide (c = 1 ∧ e = top ∧ m = 7) then .nan
    else if fmtHasInf c && decide (e = top) then (if m = 0 then .inf neg else .nan)
    else if e = 0 then .fin neg m (fmtEmin c)
    else .fin neg (m + 2 ^ w) (Int.ofNat e - Int.ofNat (fmtBias c) - Int.ofNat w)

/-! ### Exact ratios and one rounding -/

/-- m × 2^e with a nonnegative exponent is a number; the pair (numerator, denominator) of m × 2^e / d. -/
def ratioOf (n d : Nat) (e : Int) : Nat × Nat :=
  if 0 ≤ e then (n * 2 ^ e.toNat, d) else (n, d * 2 ^ (-e).toNat)

/-- floor(log2(n / d)) for n, d > 0. -/
def ratioLog (n d : Nat) : Int :=
  let k := Int.ofNat (Nat.log2 n) - Int.ofNat (Nat.log2 d)
  let p := ratioOf d 1 k
  if p.1 ≤ n * p.2 then k else k - 1

/-- How the part cut off stands to half a unit: 0 nothing, 1 below half, 2 half, 3 above half. -/
def cutOf (rest unit : Nat) : Nat :=
  if rest = 0 then 0 else if 2 * rest < unit then 1 else if 2 * rest = unit then 2 else 3

/-- R80: round to nearest even, or toward zero. -/
def roundCut (rtz : Bool) (q cut : Nat) : Nat :=
  if rtz then q
  else
    match cut with
    | 0 => q
    | 1 => q
    | 2 => q + q % 2
    | _ => q + 1

/-- The weight of the last place of a magnitude with floor(log2) k in a format: subnormals below (R59), no bound above. -/
def lastPlace (c : Nat) (k : Int) : Int :=
  if 7 ≤ c then 0
  else
    let l := k - Int.ofNat (fmtMan c)
    if l < fmtEmin c then fmtEmin c else l

/-- The magnitude n / d rounded once to a format's precision, exponent unbounded above: q × 2^l. -/
def roundRatio (c : Nat) (rtz : Bool) (n d : Nat) : Nat × Int :=
  if n = 0 then (0, 0)
  else
    let l := lastPlace c (ratioLog n d)
    let p := ratioOf n d (-l)
    (roundCut rtz (p.1 / p.2) (cutOf (p.1 % p.2) p.2), l)

/-- q × 2^l > m × 2^e. -/
def magGt (q : Nat) (l : Int) (m : Nat) (e : Int) : Bool :=
  if l ≤ e then decide (m * 2 ^ (e - l).toNat < q) else decide (m < q * 2 ^ (l - e).toNat)

/-- The code of a rounded magnitude that the format holds. -/
def codeOf (c : Nat) (neg : Bool) (q : Nat) (l : Int) : Nat :=
  if 7 ≤ c then unsigned 8 (if neg then - Int.ofNat q else Int.ofNat q)
  else
    let w := fmtMan c
    let sgn := if neg then 2 ^ (fmtBits c - 1) else 0
    if q = 0 then (if fmtOneZero c then 0 else sgn)
    else
      -- bring the significand to w + 1 bits, or to the subnormal grid
      let k := Int.ofNat (Nat.log2 q) + l
      let l' := lastPlace c k
      let q' := if l' ≤ l then q * 2 ^ (l - l').toNat else q / 2 ^ (l' - l).toNat
      if q' < 2 ^ w then sgn + q'
      else sgn + ((l' - fmtEmin c).toNat + 1) * 2 ^ w + (q' - 2 ^ w)

/-- The code of an infinity. -/
def infCode (c : Nat) (neg : Bool) : Nat :=
  let w := fmtMan c
  (if neg then 2 ^ (fmtBits c - 1) else 0) + (2 ^ (fmtBits c - 1 - w) - 1) * 2 ^ w

/-- The code of the largest finite value of a sign; −128 for INT8 (R72). -/
def maxCode (c : Nat) (neg : Bool) : Nat :=
  if 7 ≤ c then (if neg then 0x80 else 0x7F) else codeOf c neg (fmtMax c).1 (fmtMax c).2

/-- R72: whether a rounded magnitude overflows; an INT8 result may be −128. -/
def overflows (c : Nat) (neg : Bool) (q : Nat) (l : Int) : Bool :=
  if 7 ≤ c && neg then magGt q l 128 0 else magGt q l (fmtMax c).1 (fmtMax c).2

/-- The code of a value that a format holds exactly. -/
def encodeVal (c : Nat) : Val → Nat
  | .nan => fmtNan c
  | .inf neg => if fmtHasInf c then infCode c neg else maxCode c neg
  | .fin neg m e => codeOf c neg m e

/-! ### IEEE arithmetic in a format, R102 and R163 -/

/-- A result and whether a finite result overflowed. -/
abbrev Res := Val × Bool

/-- A signed exact ratio rounded once under IEEE 754: overflow gives an infinity to nearest even, the largest finite value
toward zero (R102). -/
def ieeeRatio (c : Nat) (rtz neg : Bool) (n d : Nat) : Res :=
  let r := roundRatio c rtz n d
  if overflows c neg r.1 r.2 then
    (if rtz then .fin neg (fmtMax c).1 (fmtMax c).2 else .inf neg, true)
  else (.fin neg r.1 r.2, false)

/-- An exact value rounded once to a format. -/
def roundVal (c : Nat) (rtz : Bool) : Val → Res
  | .nan => (.nan, false)
  | .inf s => (.inf s, false)
  | .fin s m e =>
    let p := ratioOf m 1 e
    ieeeRatio c rtz s p.1 p.2

/-- Exact product; infinity × 0 is NaN. -/
def exactMul : Val → Val → Val
  | .nan, _ => .nan
  | _, .nan => .nan
  | .inf a, b => if b.isZero then .nan else .inf (a != b.negative)
  | a, .inf b => if a.isZero then .nan else .inf (a.negative != b)
  | .fin a m e, .fin b n f => .fin (a != b) (m * n) (e + f)

/-- Exact sum; infinity − infinity is NaN; x + (−x) is +0, and −0 + −0 is −0. -/
def exactAdd : Val → Val → Val
  | .nan, _ => .nan
  | _, .nan => .nan
  | .inf a, .inf b => if a = b then .inf a else .nan
  | .inf a, _ => .inf a
  | _, .inf b => .inf b
  | .fin a m e, .fin b n f =>
    let l := if e ≤ f then e else f
    let x := Int.ofNat (m * 2 ^ (e - l).toNat)
    let y := Int.ofNat (n * 2 ^ (f - l).toNat)
    let s := (if a then -x else x) + (if b then -y else y)
    if s = 0 then .fin (a && b) 0 l else .fin (decide (s < 0)) s.natAbs l

def fpMul (c : Nat) (rtz : Bool) (a b : Val) : Res := roundVal c rtz (exactMul a b)
def fpAdd (c : Nat) (rtz : Bool) (a b : Val) : Res := roundVal c rtz (exactAdd a b)
def fpFma (c : Nat) (rtz : Bool) (a b x : Val) : Res := roundVal c rtz (exactAdd (exactMul a b) x)

/-- Division under IEEE 754. -/
def fpDiv (c : Nat) (rtz : Bool) : Val → Val → Res
  | .nan, _ => (.nan, false)
  | _, .nan => (.nan, false)
  | .inf _, .inf _ => (.nan, false)
  | .inf a, .fin b _ _ => (.inf (a != b), false)
  | .fin a _ _, .inf b => (.fin (a != b) 0 0, false)
  | .fin a m e, .fin b n f =>
    if n = 0 then (if m = 0 then .nan else .inf (a != b), false)
    else
      let p := ratioOf m n (e - f)
      ieeeRatio c rtz (a != b) p.1 p.2

/-- Bits i − 1 to 0 of the integer square root. -/
def isqrtFrom (n : Nat) : Nat → Nat → Nat
  | 0, r => r
  | i + 1, r => if (r + 2 ^ i) * (r + 2 ^ i) ≤ n then isqrtFrom n i (r + 2 ^ i) else isqrtFrom n i r

/-- floor of the square root. -/
def isqrt (n : Nat) : Nat := isqrtFrom n (Nat.log2 n / 2 + 1) 0

/-- The square root of n / d rounded once: its integer part in units of the last place, and the cut compared exactly. -/
def sqrtRatio (c : Nat) (rtz : Bool) (n d : Nat) : Res :=
  if n = 0 then (.zero, false)
  else
    let l := lastPlace c (ratioLog n d / 2)
    let p := ratioOf n d (-(2 * l))
    let q := isqrt (p.1 / p.2)
    let cut :=
      if p.1 = q * q * p.2 then 0
      else if 4 * p.1 < (2 * q + 1) * (2 * q + 1) * p.2 then 1
      else if 4 * p.1 = (2 * q + 1) * (2 * q + 1) * p.2 then 2 else 3
    let r := roundCut rtz q cut
    if overflows c false r l then (if rtz then .fin false (fmtMax c).1 (fmtMax c).2 else .inf false, true)
    else (.fin false r l, false)

/-- Square root: −0 stays −0, other negative values give NaN. -/
def fpSqrt (c : Nat) (rtz : Bool) : Val → Res
  | .nan => (.nan, false)
  | .inf s => (if s then .nan else .inf false, false)
  | .fin s m e =>
    if m = 0 then (.fin s 0 0, false)
    else if s then (.nan, false)
    else
      let p := ratioOf m 1 e
      sqrtRatio c rtz p.1 p.2

/-- rSqrt of IEEE 754: ±0 gives an infinity of its sign, +infinity gives +0. -/
def fpRsqrt (c : Nat) (rtz : Bool) : Val → Res
  | .nan => (.nan, false)
  | .inf s => (if s then .nan else .zero, false)
  | .fin s m e =>
    if m = 0 then (.inf s, false)
    else if s then (.nan, false)
    else
      let p := ratioOf m 1 e
      sqrtRatio c rtz p.2 p.1

/-! ### 2^a and log2 a, correctly rounded (R163)

Both results are irrational except at exact cases. A lower bound with far more places than a format has decides the rounding:
the result lies strictly above the bound and below the next place of it. -/

/-- The product over the bits of a fraction f = 0.b1 b2 … bj of the powers 2^(2^−i), rounded down at n places. `r` holds
2^(2^−i), and each call takes its square root; `f` holds the remaining bits, `j` of them. -/
def exp2Frac (n f : Nat) : Nat → Nat → Nat → Nat
  | 0, _, acc => acc
  | j + 1, r, acc =>
    let r' := isqrt (r * 2 ^ n)
    exp2Frac n f j r' (if f / 2 ^ j % 2 = 1 then acc * r' / 2 ^ n else acc)

/-- A magnitude strictly above the bound b / 2^n × 2^k, rounded once. -/
def boundRound (c : Nat) (rtz neg : Bool) (b n : Nat) (k : Int) : Res :=
  let p := ratioOf b (2 ^ n) k
  let l := lastPlace c (ratioLog p.1 p.2)
  let x := ratioOf p.1 p.2 (-l)
  let q := x.1 / x.2
  let cut := if 2 * (x.1 % x.2) < x.2 then 1 else 3
  let r := roundCut rtz q cut
  if overflows c neg r l then (if rtz then .fin neg (fmtMax c).1 (fmtMax c).2 else .inf neg, true)
  else (.fin neg r l, false)

/-- 2^a: exact at integers; 2^±infinity is +infinity or +0. Beyond ±16384 every format overflows or underflows. -/
def fpExp2 (c : Nat) (rtz : Bool) : Val → Res
  | .nan => (.nan, false)
  | .inf s => (if s then .zero else .inf false, false)
  | .fin s m e =>
    if m = 0 then (.fin false 1 0, false)
    else if magGt m e 16384 0 then
      if s then (.zero, false)
      else (if rtz then .fin false (fmtMax c).1 (fmtMax c).2 else .inf false, true)
    else if 0 ≤ e then
      let i := Int.ofNat (m * 2 ^ e.toNat)
      roundVal c rtz (.fin false 1 (if s then -i else i))
    else
      let j := (-e).toNat
      let i := if s then - Int.ofNat m else Int.ofNat m
      let k := i / Int.ofNat (2 ^ j)
      let f := (i % Int.ofNat (2 ^ j)).toNat
      if f = 0 then roundVal c rtz (.fin false 1 k)
      else boundRound c rtz false (exp2Frac (j + 192) f j (2 * 2 ^ (j + 192)) (2 ^ (j + 192))) (j + 192) k

/-- `j` further bits of log2 of a value in [1, 2) bracketed by its lower bound x / 2^n: square, take the integer bit. -/
def log2Bits (n : Nat) : Nat → Nat → Nat → Nat
  | 0, _, acc => acc
  | j + 1, x, acc =>
    let y := x * x / 2 ^ n
    if 2 * 2 ^ n ≤ y then log2Bits n j (y / 2) (2 * acc + 1) else log2Bits n j y (2 * acc)

/-- log2 a: exact at powers of two; ±0 gives −infinity, negative values NaN. -/
def fpLog2 (c : Nat) (rtz : Bool) : Val → Res
  | .nan => (.nan, false)
  | .inf s => (if s then .nan else .inf false, false)
  | .fin s m e =>
    if m = 0 then (.inf true, false)
    else if s then (.nan, false)
    else
      let b := Nat.log2 m
      let k := Int.ofNat b + e
      if m = 2 ^ b then roundVal c rtz (.fin (decide (k < 0)) k.natAbs 0)
      else
        let j := 240
        let n := 2 * j + 128
        let frac := log2Bits n j (m * 2 ^ n / 2 ^ b) 0
        -- k + frac / 2^j, strictly between this and the next place: the sign is that of k
        if 0 ≤ k then
          boundRound c rtz false (k.toNat * 2 ^ j + frac) j 0
        else boundRound c rtz true ((-k).toNat * 2 ^ j - frac - 1) j 0

/-! ### Comparison and selection, Table 4.8 -/

/-- The exact order of two finite values. -/
def valLt (a b : Val) : Bool :=
  match a, b with
  | .fin sa m e, .fin sb n f =>
    let l := if e ≤ f then e else f
    let x := Int.ofNat (m * 2 ^ (e - l).toNat)
    let y := Int.ofNat (n * 2 ^ (f - l).toNat)
    decide ((if sa then -x else x) < (if sb then -y else y))
  | .inf true, .inf true => false
  | .inf true, .nan => false
  | .inf true, _ => true
  | .fin _ _ _, .inf false => true
  | _, _ => false

def valEq (a b : Val) : Bool := !a.isNan && !b.isNan && !valLt a b && !valLt b a

/-- Larger of a and b; NaN if either is NaN; +0 above −0. -/
def fpMax (a b : Val) : Val :=
  if a.isNan || b.isNan then .nan
  else if valLt a b then b
  else if valLt b a then a
  else if a.negative then b else a

def fpMin (a b : Val) : Val :=
  if a.isNan || b.isNan then .nan
  else if valLt a b then a
  else if valLt b a then b
  else if a.negative then a else b

/-! ### Conversion of one element, R71 to R74 and Table 2.5 -/

/-- What a conversion of one element wrote and which events it had. -/
structure Conv where
  code : Nat
  sat : Bool
  und : Bool
  nonfin : Bool
deriving DecidableEq, Repr

/-- A non-finite source element that is not escaped, Table 2.5. -/
def convNonFin (c : Nat) (infMode : Bool) : Val → Conv
  | .inf s =>
    let keeps := decide (c = 5 ∨ c = 6) || (infMode && decide (c = 2 ∨ c = 3))
    if keeps then ⟨infCode c s, false, false, true⟩ else ⟨maxCode c s, true, false, false⟩
  | _ => ⟨fmtNan c, false, false, decide (c ≠ 0 ∧ c < 7)⟩

/-- R72: the code of a rounded magnitude with its overflow rule, and R74's underflow. -/
def convRounded (c : Nat) (infMode rtz neg : Bool) (zeroSrc : Bool) (q : Nat) (l : Int) : Conv :=
  if overflows c neg q l then
    let toInf := (decide (c = 5 ∨ c = 6) || (infMode && decide (c = 2 ∨ c = 3))) && !rtz
    if toInf then ⟨infCode c neg, true, false, true⟩ else ⟨maxCode c neg, true, false, false⟩
  else ⟨codeOf c neg q l, false, decide (q = 0) && !zeroSrc, false⟩

/-- R71: a finite element divided by d = s × 2^t, rounded once (stochastically with 16 random bits under R81). The scale is
sm × 2^se. -/
def convFin (c : Nat) (infMode rtz : Bool) (random : Option Nat) (neg : Bool) (m : Nat) (e : Int) (sm : Nat) (st : Int) :
    Conv :=
  if sm = 0 then ⟨codeOf c neg 0 0, false, decide (m ≠ 0), false⟩
  else
    let p := ratioOf m sm (e - st)
    match random with
    | none =>
      let r := roundRatio c rtz p.1 p.2
      convRounded c infMode rtz neg (decide (m = 0)) r.1 r.2
    | some bits =>
      if m = 0 then ⟨codeOf c neg 0 0, false, false, false⟩
      else
        let l := lastPlace c (ratioLog p.1 p.2)
        let x := ratioOf p.1 p.2 (-l)
        let lo := x.1 / x.2
        let f := 2 ^ 16 * (x.1 % x.2) / x.2
        convRounded c infMode rtz neg false (if 2 ^ 16 ≤ f + bits % 2 ^ 16 then lo + 1 else lo) l

/-- An element converted with no scale and shift `t` (mode 0, R69). -/
def convPlain (c : Nat) (infMode rtz : Bool) (t : Int) : Val → Conv
  | .fin s m e => convFin c infMode rtz none s m e 1 t
  | v => convNonFin c infMode v

/-- A UE4M3 scale code as sm × 2^se, R63; an invalid code has no value. -/
def scaleVal (code : Nat) : Option (Nat × Int) :=
  if 0x7F ≤ code then none
  else if code < 8 then some (code, -9)
  else some (code % 8 + 8, Int.ofNat (code / 8) - 10)

/-- The smallest UE4M3 code whose value is at least n / d, at most 0x7E (R70). -/
def scaleCodeFor (n d : Nat) : Nat :=
  match findBelow 0x7E (fun code =>
      match scaleVal code with
      | none => false
      | some (m, e) =>
        let p := ratioOf m 1 e
        decide (n * p.2 ≤ p.1 * d)) with
  | some code => code
  | none => 0x7E

end Sys2Proof.Machine
end

