-- ==== Sys2Proof/Machine/SMap.lean ====
section
/-!
DEFINITION. Sparse state as plain data: a list of (key, value) pairs, keys strictly rising, no value equal to what an
unlisted key reads as. Memory, the units of Table 1.1 and every per-unit store are kept in this one canonical form, so
that equal machines are equal data.
-/
namespace Sys2Proof.Machine

abbrev SMap (α : Type) := List (Nat × α)

/-- The value listed for `k`, if any. -/
def SMap.find? {α : Type} (m : SMap α) (k : Nat) : Option α :=
  match m with
  | [] => none
  | (j, v) :: t => if j = k then some v else SMap.find? t k

/-- What `k` holds: the listed value, else `d`. -/
def SMap.get {α : Type} (m : SMap α) (d : α) (k : Nat) : α := (m.find? k).getD d

/-- `m` with no entry for `k`. -/
def SMap.erase {α : Type} (m : SMap α) (k : Nat) : SMap α :=
  match m with
  | [] => []
  | (j, v) :: t => if j = k then SMap.erase t k else (j, v) :: SMap.erase t k

/-- `m` with `v` listed for `k`, in its place. -/
def SMap.insert {α : Type} (m : SMap α) (k : Nat) (v : α) : SMap α :=
  match m with
  | [] => [(k, v)]
  | (j, w) :: t =>
    if k < j then (k, v) :: (j, w) :: t
    else if k = j then (k, v) :: t
    else (j, w) :: SMap.insert t k v

/-- `k` now holds `v`; writing what an unlisted key reads as removes the entry. -/
def SMap.set {α : Type} [DecidableEq α] (m : SMap α) (d : α) (k : Nat) (v : α) : SMap α :=
  if v = d then m.erase k else m.insert k v

/-- `k` updated by `f`. -/
def SMap.upd {α : Type} [DecidableEq α] (m : SMap α) (d : α) (k : Nat) (f : α → α) : SMap α :=
  m.set d k (f (m.get d k))

/-- Every listed value changed by `f` of its key. -/
def SMap.mapVals {α : Type} [DecidableEq α] (m : SMap α) (d : α) (f : Nat → α → α) : SMap α :=
  match m with
  | [] => []
  | (k, v) :: t => if f k v = d then SMap.mapVals t d f else (k, f k v) :: SMap.mapVals t d f

/-- Keys strictly rising from `lo`. -/
def SMap.rising {α : Type} : Nat → SMap α → Bool
  | _, [] => true
  | lo, (j, _) :: t => decide (lo ≤ j) && SMap.rising (j + 1) t

/-- The canonical form: keys strictly rising, no entry equal to what its key reads as when unlisted. -/
def SMap.wf {α : Type} [DecidableEq α] (m : SMap α) (d : Nat → α) : Bool :=
  SMap.rising 0 m && m.all (fun e => decide (e.2 ≠ d e.1))

end Sys2Proof.Machine
end

