-- ==== Sys2Proof/Machine/Types.lean ====
section
/-!
DEFINITION. The shapes of the module's state, unit by unit: what each unit of Table 1.1 holds beside its control-space
registers, and the parts of a Luano image. Plain data throughout.
-/
namespace Sys2Proof.Machine

/-! ### Descriptors, commands and statistics of a tile -/

/-- A descriptor, Table 4.5 (R146). -/
structure Desc where
  base : Addr
  fmt : BitVec 4
  scaled : Bool
  listed : Bool
  epoch : Bool
  eslot : Byte
  stride : Word32
  klen : Word32
  row0 : Word32
  col0 : Word32
  rows : Word32
  cols : Word32
  scale : Addr
  region : Half
  list : Addr
  attr : Word
deriving DecidableEq, Repr

/-- What an unloaded entry of the descriptor store holds. -/
def Desc.blank : Desc := ⟨0, 0, false, false, false, 0, 0, 0, 0, 0, 0, 0, 0, 0, 0, 0⟩

/-- A command waiting in a stream or queue: its tag (R139) and its 32 bytes (R137). -/
structure QCmd where
  tag : Word32
  bits : BitVec 256
deriving DecidableEq, Repr

/-- How a 128-byte request of the Access Engine stands (R148, R149, R208): it waits at its channel, `holding` with the bytes
of a FILL; it has been issued; its bytes have been read, with the epoch of its source region at the home (R151); it has been
written; it ended late or failed. -/
inductive ReqState where
  | waiting | holding (data : List Byte) | issued (tick : Word) | served (data : List Byte) (epoch : Half) (tick : Word)
  | written | late | failed
deriving DecidableEq, Repr

/-- One request of a COPY or RREAD: bytes from `src` (at the other rank for an RREAD) go to `dst`. -/
structure Req where
  src : Addr
  dst : Addr
  len : Nat
  st : ReqState
deriving DecidableEq, Repr

/-- The counts a command reports (Table 2.12, R169, R170): `outlier` and `escaped` are the escape codes written for outliers
and for non-finite elements, `nonfinite` the non-finite source values. Bins 0 to 63, 64 overflow, 65 underflow (R171). -/
structure Report where
  bins : SMap Nat
  elements : Nat
  zeros : Nat
  underflow : Nat
  saturation : Nat
  outlier : Nat
  escaped : Nat
  nonfinite : Nat
  lost : Nat
  agreement : Nat
  maxD : Int
  minD : Int
deriving DecidableEq, Repr

/-- No report: max_d and min_d as Table 4.10 gives them when none. -/
def Report.none : Report := ⟨[], 0, 0, 0, 0, 0, 0, 0, 0, 0, -128, 127⟩

/-- A histogram slot bound by OPEN (R169). -/
structure HistSlot where
  layer : Nat
  backward : Bool
  rep : Report
deriving DecidableEq, Repr

/-- A summary record, Table 4.10 (R172). -/
structure SumRec where
  elements : Nat
  zeros : Nat
  underflow : Nat
  saturation : Nat
  outlier : Nat
  nonfinite : Nat
  lost : Nat
  agreement : Nat
  top : Nat
  low : Nat
  maxD : Int
  minD : Int
deriving DecidableEq, Repr

def SumRec.none : SumRec := ⟨0, 0, 0, 0, 0, 0, 0, 0, 0, 0, -128, 127⟩

/-- What a command that runs will write when it completes (R143 discards it when the command is stopped): the values for
its destination view and the step counter of their slot; what its report holds beside the conversion's counts: agreement
faults and lost escapes raised so far; whether it reports source values, and whether it reports at all. -/
structure Output where
  dst : Desc
  vals : List Val
  step : Nat
  faults : Nat
  lost : Nat
  sources : Bool
  silent : Bool
deriving DecidableEq, Repr

/-- A 128-byte transfer of a SEND on its way to inflection control (R480): the tick it arrives, the layers' records by key;
whether the die bridge discards it (R33). -/
structure Transfer where
  due : Word
  recs : SMap SumRec
  lost : Bool
deriving DecidableEq, Repr

/-- A command that has started and not completed (R140). For an RREAD, `region` holds its message number and `remote` the
address at the other rank. `output` is what it still has to write, `sends` the transfers of a SEND still on their way.
`mute`: its histogram slot was closed while it ran, and its report is discarded (R171). -/
structure Running where
  cmd : Cmd
  opcode : Nat
  started : Word
  late : Bool
  reqs : SMap Req
  region : Half
  remote : Addr
  firstEpoch : Option Half
  lastEpoch : Half
  record : Option Byte
  touches : List Nat
  wrote : Bool
  output : Option Output
  sends : List Transfer
  mute : Bool
deriving DecidableEq, Repr

/-- A command as it starts. -/
def Running.start (c : Cmd) (opcode : Nat) (tick : Word) (late : Bool) : Running :=
  ⟨c, opcode, tick, late, [], 0, 0, none, 0, none, [], false, none, [], false⟩

/-- Accumulators a holding command left in the edge store (R107): extents, accumulator width and values. -/
structure Held where
  m : Nat
  n : Nat
  fmtA : Nat
  fmtW : Nat
  acc : List Word
deriving DecidableEq, Repr

/-- One bank of an escape table for one operand (R155): the tag of the MMUL it was filled for, the entries kept (element
index and value), whether escape codes without an entry raise no fault (ovf, an invalid header, entries not kept), and the
agreement faults and lost escapes the fill raised. -/
structure EscTable where
  tag : Option Word32
  entries : List (Nat × Half)
  quiet : Bool
  faults : Nat
  lost : Nat
deriving DecidableEq, Repr

def EscTable.empty : EscTable := ⟨none, [], false, 0, 0⟩

/-- An epoch query on its way (R152): the slot, the recorded region and epoch, the command's engine and tag. -/
structure Query where
  eslot : Byte
  region : Half
  epoch : Half
  engine : Engine
  tag : Word32
deriving DecidableEq, Repr

/-- A stationary register of a cell (R93): a sign, an exponent of up to 11 bits, and the fragment fields frag_row and
frag_col. -/
structure StatReg where
  sign : Bool
  exp : BitVec 11
  fragRow : BitVec 4
  fragCol : BitVec 4
deriving DecidableEq, Repr

/-- A compounding array beside its registers of Table 3.7. A cell (r, c) has key 32 r + c. `active` and `shadow` are the
stationary registers (R93; two elements in FP4, R98, one otherwise), `stream` the streaming register's fragments, `psum` the
partial sums that the cell's compound passes on, as accumulator codes, lane by lane. `left`: core steps of the occupancy that
remain (R125). `fill`: entries in the elastic register of each feeder and drain, numbered as in `ArrayTiming` (R115); `lags`
what lags in the ticks to come; `wide`: every feeder and drain waits for the lagging one (R116). -/
structure ArrSt where
  active : SMap (List StatReg)
  shadow : SMap (List StatReg)
  stream : SMap (List (BitVec 4))
  psum : SMap (List Word)
  left : Nat
  fill : SMap Nat
  lags : List (List (Fin 96))
  wide : Bool
deriving DecidableEq, Repr

def ArrSt.empty : ArrSt := ⟨[], [], [], [], 0, [], [], false⟩

/-- What a tile holds beside its registers and its memory. Queues are numbered 0 to 3 for the issue channels, 4 to 11 for
the arrays, 12 Vector Engine, 13 convert section, 14 Statistics Unit (Table 4.1). `running` holds the commands of each queue
that have started and not completed, oldest first: an array may start one while the last results of others are still to come
(R125). `missed` names the commands whose deadline miss was signalled (R142), by queue and tag. -/
structure TileSt where
  desc : SMap Desc
  streams : SMap (List QCmd)
  queues : SMap (List QCmd)
  running : SMap (List Running)
  arrays : SMap ArrSt
  epochs : SMap (Half × Half)
  hist : SMap HistSlot
  summary : SMap SumRec
  held : SMap Held
  escTab : SMap EscTable
  escBank : SMap Nat
  queries : List Query
  missed : List (Nat × Word32)
deriving DecidableEq, Repr

def TileSt.empty : TileSt := ⟨[], [], [], [], [], [], [], [], [], [], [], [], []⟩

/-! ### Slices, controllers, tiers -/

/-- A line of a slice cache (R181). -/
structure CacheLine where
  line : Nat
  dirty : Bool
  data : List Byte
deriving DecidableEq, Repr

/-- A slice beside its registers and bytes: cache lines, most recently used first; LR reservations (R188); hold-pool
entries in use, as (slot, entry) (R346). -/
structure SliceSt where
  cache : List CacheLine
  reserve : List (Hart × Addr)
  pool : List (Nat × Nat)
deriving DecidableEq, Repr

def SliceSt.empty : SliceSt := ⟨[], [], []⟩

/-- A request to the tiered range that waits: refused and held at its requester (R210), or, `since` it took its tag, at its
controller for a bank, a subchannel or a page (R199, R202, R206). -/
structure HeldReq where
  r : Requester
  addr : Addr
  write : Option (BitVec 1024)
  found : DramFinding
  since : Word
deriving DecidableEq, Repr

/-- A tag of a controller in use (R209): for whom, and for which address. -/
structure TagUse where
  r : Requester
  addr : Addr
deriving DecidableEq, Repr

/-- A stack controller or LPDDR5X channel: tags in use, requests that wait in it, consecutive parity errors (R211), the tick
at which each bank's refresh ends (R202), drifted subchannels with the tick of their measurement, and retraining ones (R206);
writes from outside refused because their region is closed (R40, R290). -/
structure CtlSt where
  tags : List TagUse
  held : List HeldReq
  parityRun : Nat
  refresh : SMap Word
  drifted : SMap Word
  retrain : SMap Word
  refusedWrites : Nat
deriving DecidableEq, Repr

def CtlSt.empty : CtlSt := ⟨[], [], 0, [], [], [], 0⟩

/-- Who asked for an exchange (R197 to R199). -/
inductive ExchangeKind where
  | scheduled | policy | command
deriving DecidableEq, Repr

/-- An exchange in progress on a lane (R196). -/
structure Exchange where
  p : Nat
  q : Nat
  start : Word
  kind : ExchangeKind
deriving DecidableEq, Repr

/-- The Tier Map, quotas and the Migration Engine (R190, R193, R196, R198). `paused` holds the policy exchange that a scheduled
one displaced from its lane, with the ticks it has run in place of its start; `touched` the pages that something other than
Fliuf software has touched; `refused` the requests held at their requesters, oldest first (R210); `waiting` the accesses from
outside that wait for an exchange (R199). -/
structure TierSt where
  map : SMap Word
  savedCacheable : List Nat
  quota : SMap Word
  pendingQuota : SMap Word
  rejected : List Nat
  lanes : SMap Exchange
  counts : SMap Nat
  lastCounts : SMap Nat
  windowStart : Word
  firmware : Nat × Nat
  bridgeCorr : Nat
  bridgeUncFlag : Bool
  bridgeUnc : Nat
  ctls : SMap CtlSt
  poison : List Nat
  paused : SMap Exchange
  touched : List Nat
  refused : List HeldReq
  waiting : List Instr
deriving DecidableEq, Repr

def TierSt.empty : TierSt := ⟨[], [], [], [], [], [], [], [], 0, (0, 0), 0, false, 0, [], [], [], [], [], []⟩

/-! ### Ports -/

/-- A class 1 flit and the slot it is assigned (R233); `ready` is the tick its last byte reaches the port's slice. -/
structure TxFlit where
  slot : Nat
  ready : Word
  flit : Flit
deriving DecidableEq, Repr

/-- An unacknowledged class 2 flit (R236): how often it was sent and since when it waits. -/
structure Unacked where
  flit : Flit
  sends : Nat
  since : Word
deriving DecidableEq, Repr

/-- Stages of Table 6.2. -/
inductive TrainStage where
  | off | laneCheck | training | framing | version | up | down
deriving DecidableEq, Repr

/-- A port beside its registers: class 1, class 2 and class 3 flits to send, the replay buffer, sequence numbers, credits
owed, class 2 flits waiting for the receive ring, the last flit sent, messages with a part that failed (source, message
number, status), receive counts by interval, the marker baseline of R273. `slotUsed`: the flit slot, counted from Tense 0, that
the last transmission took. `badMarker`: the interval whose marker stood in an uncorrectable codeword (R221). -/
structure PortSt where
  c1 : List TxFlit
  c2 : List Flit
  c3 : List Flit
  replay : List Unacked
  nextSeq : Half
  lastRx : Half
  retryAsked : Bool
  owed : Nat
  rxHeld : List Flit
  counts : SMap Nat
  baseline : Option Int
  stage : TrainStage
  resending : List Flit
  lastTx : Option Flit
  failing : List (Nat × Nat × Nat)
  slotUsed : Option Nat
  badMarker : Option Nat
deriving DecidableEq, Repr

def PortSt.empty : PortSt := ⟨[], [], [], [], 0, 0xFFFF, false, 0, [], [], none, .off, [], none, [], none, none⟩

/-! ### Luano images -/

/-- A region entry, Table 7.9 (R282). -/
structure Region where
  number : Nat
  kind : Nat
  space : Nat
  base : Nat
  length : Nat
deriving DecidableEq, Repr

/-- A transmit calendar entry, Table 6.5 (R232). -/
structure CalEntry where
  slot0 : Nat
  count : Nat
  tile : Nat
  chan : Nat
  resp : Bool
  tree : Bool
deriving DecidableEq, Repr

/-- A stream key entry, Table 2.10 (R84). -/
structure KeyEntry where
  key : Nat
  purpose : Nat
  tensor : Nat
deriving DecidableEq, Repr

/-- A migration list entry, Table 7.7 (R197). -/
structure MigEntry where
  launch : Nat
  deadline : Nat
  p : Nat
  q : Nat
deriving DecidableEq, Repr

/-- A staging slot entry, Table 9.3 (R345), with its contributor list. -/
structure SlotEntry where
  base : Nat
  rot : Bool
  sparse : Bool
  watched : Bool
  efmts : Nat
  blocks : Nat
  valid : Nat
  pool : Nat
  deadline : Nat
  worst : Nat
  contributors : List Nat
  words : List Word
deriving DecidableEq, Repr

/-- An update entry, Table 9.8 (R360). -/
structure UpdEntry where
  launch : Nat
  deadline : Nat
  engine : Nat
  kind : Nat
  mom : Bool
  rot : Bool
  layer : Nat
  slot0 : Nat
  nslots : Nat
  rows : Nat
  cols : Nat
  row0 : Nat
  group : Nat
  baseW : Nat
  baseM : Nat
  baseS : Nat
  copy0 : Nat
  copy1 : Nat
deriving DecidableEq, Repr

/-- A layer parameter entry, Table 9.9 (R361). The FP32 fields are codes. -/
structure LayerParam where
  lr : Nat
  eps : Nat
  beta1 : Nat
  beta2 : Nat
  decay : Nat
  oInit : Int
  key : Nat
  lrRegion : Nat
  lrOff : Nat
deriving DecidableEq, Repr

/-- A copy entry, Table 9.10 (R362). -/
structure CopyEntry where
  elements : Nat
  scale : Nat
  list : Nat
  attr : Word
deriving DecidableEq, Repr

/-- A hand-over entry, Table 9.13 (R376). -/
structure HandEntry where
  src : Nat
  dst : Nat
  rank : Nat
  length : Nat
deriving DecidableEq, Repr

/-- A command stream section (R278): variant, tile, engine, target region and its commands. -/
structure StreamSec where
  variant : Nat
  tile : Nat
  engine : Nat
  region : Nat
  cmds : List (BitVec 256)
deriving DecidableEq, Repr

/-- A preload record (Table 7.7). -/
structure Preload where
  region : Nat
  offset : Nat
  bytes : List Byte
deriving DecidableEq, Repr

/-- The staging section (R344). -/
structure StagingSec where
  rotFrom : Nat
  switchStep : Nat
  handin : Nat
  slots : List SlotEntry
  updates : List UpdEntry
  params : List LayerParam
  copies : List CopyEntry
  handovers : List HandEntry
deriving DecidableEq, Repr

def StagingSec.none : StagingSec := ⟨0xFFFF, 0, 0, [], [], [], [], []⟩

/-- A Luano image, parsed (R275 to R283). -/
structure Image where
  feature : Nat
  seed : Nat
  rank : Nat
  domain : Nat
  job : Nat
  levels : Nat
  planeB : Nat
  planes : Nat
  collector : Nat
  gen : Nat
  replayLimit : Nat
  variants : Nat
  micro : Nat
  ingestK : Nat
  digest : Nat
  slot : Nat
  fsLaunch : Nat
  updLaunch : Nat
  commit : Nat
  fsParts : Nat
  plans : List (List Nat)
  streams : List StreamSec
  descs : List (Nat × List Desc)
  calendars : List (Nat × Nat × List CalEntry)
  tallies : List (Nat × Nat × List Byte)
  regions : List Region
  quotas : Nat × Nat × Nat
  keys : List KeyEntry
  layers : Nat
  skipLimit : Nat
  profiles : List Word
  entries : List Word
  migrations : List (Nat × List MigEntry)
  ingestStride : Nat
  ingestRegions : List Nat
  lists : List (Nat × Nat)
  inbound : List (Nat × Nat × Nat)
  staging : StagingSec
  preloads : List Preload
deriving DecidableEq, Repr

/-! ### The running job -/

/-- What a slot runs (R45, R143, R375). -/
inductive SlotKind where
  | idle | step | replay | handover
deriving DecidableEq, Repr

/-- Verdicts, Table 1.6. -/
inductive Verdict where
  | clean | unclean | skip | halt
deriving DecidableEq, Repr

/-- A fault report being formed (R441). -/
structure FaultReport where
  kinds : Nat
  first : Word
deriving DecidableEq, Repr

/-- No report. -/
def FaultReport.none : FaultReport := ⟨0, 0xFFFFFFFFFFFFFFFF#64⟩

/-- The report with a kind bit of Table 12.6 seen at a tick: the OR of the kinds, the earliest tick (R441). -/
def FaultReport.seen (r : FaultReport) (kind : Nat) (tick : Word) : FaultReport :=
  ⟨r.kinds ||| 2 ^ kind, if tick.toNat < r.first.toNat then tick else r.first⟩

/-- The admitted job on this rank: its image, its present slot and what the Full Stop of the slot holds. `committed`: the
commit tick of the slot is done. `behind`: this halted rank missed a commit that its peers made. `slotPlan` and
`slotReplay`: the plan variant and the replay count that the slot runs with. `prev`: the intervals of the slot before and
what its receive tallies expected, by port. `resultsDue`: the replays of a Clean commit whose results are still to be captured.
`handSent`, `handOpen`: bytes of hand-over WRITEs sent, and their messages not yet answered.
`cleanCommit`: a Clean commit since the last step began (R52).
`switchAt`: the switch step of a successor that was asked for (R374). -/
structure Job where
  img : Image
  t0 : Word
  started : Bool
  running : Bool
  kind : SlotKind
  launched : Bool
  parts : SMap (BitVec 1792)
  result : Option Verdict
  allReady : Bool
  snapshotCarried : Bool
  nextPlan : Nat
  halted : Bool
  faultClean : Bool
  first : Word
  reports : SMap FaultReport
  carried : Nat
  carriedFirst : Word
  carriedReports : SMap FaultReport
  snapDest : Option Addr
  snapBit : Bool
  stopBit : Bool
  sharePending : Bool
  shareTick : Word
  lastHeld : Nat
  produced : SMap Nat
  respSent : SMap Nat
  homes : SMap Nat
  successor : Option Image
  handSent : Nat
  handOpen : Nat
  handFailed : Bool
  handReceived : Nat
  hazardDump : Bool
  captured : Bool
  diverge : Nat
  resultsDue : Option Nat
  restore : Option Addr
  mid : Half
  released : List Region
  committed : Bool
  behind : Bool
  slotPlan : Nat
  slotReplay : Nat
  prev : Option (Nat × List (Nat × List Byte))
  cleanCommit : Bool
  switchAt : Option Nat
deriving DecidableEq, Repr

/-! ### Inflection control and Update Engines -/

/-- The Inflection Table state of one layer (R313). -/
structure LayerSt where
  req : Nat
  up : Nat
  dn : Nat
  silent : Nat
  uw : Nat
  silentAlarm : Bool
  uwAlarm : Bool
deriving DecidableEq, Repr

def LayerSt.none : LayerSt := ⟨0, 0, 0, 0, 0, false, false⟩

/-- A copy of the Inflection Table state (R313). -/
structure TableSt where
  layers : List LayerSt
  gen : Nat
  skipRun : Nat
  skipTotal : Nat
deriving DecidableEq, Repr

def TableSt.empty : TableSt := ⟨[], 0, 0, 0⟩

/-- A signal on its way to inflection control (R480): an unclean cause bit of Table 8.7 or a halt cause of Table 8.9, the
tick of the event, and the suspect and kind of Table 12.6 it gives, if any. -/
structure Signal where
  halt : Bool
  code : Nat
  tick : Word
  suspect : Option (Rank × Nat)
deriving DecidableEq, Repr

/-- Inflection control beside its registers: installed and staged profiles and entries (R335), both copies of the table
state (R313), the summary records received from SEND (R173), the merged layer records of the last Full Stop, the
signals on their way, the update alarm and silent alarm counts kept with the layers. -/
structure InflSt where
  profiles : List Word
  entries : List Word
  stagedP : List Word
  stagedE : List Word
  stagedGen : Nat
  committed : TableSt
  working : TableSt
  records : SMap SumRec
  merged : List Word
  signals : List Signal
  skipLimit : Nat
deriving DecidableEq, Repr

def InflSt.empty : InflSt := ⟨[], [], [], [], 0, TableSt.empty, TableSt.empty, [], [], [], 0⟩

/-- A layer record of an Update Engine (R366): committed offsets and exponent, and the step's running values (FP codes). -/
structure UpeLayer where
  oState : Int
  oCur : Int
  u : Int
  active : Bool
  gmax : Nat
  su : Nat
  sw : Nat
  ran : Bool
deriving DecidableEq, Repr

def UpeLayer.none : UpeLayer := ⟨0, 0, -128, false, 0, 0, 0, false⟩

/-- An Update Engine: its layer table, the entry that runs, the entries started in this slot, and
those whose deadline miss was raised (R359). -/
structure UpeSt where
  layers : SMap UpeLayer
  running : Option Nat
  ran : List Nat
  missed : List Nat
deriving DecidableEq, Repr

def UpeSt.empty : UpeSt := ⟨[], none, [], []⟩

/-! ### Event rings, traces, dumps -/

/-- An event record, Table 12.3. -/
structure EventRec where
  w0 : Word
  w1 : Word
deriving DecidableEq, Repr

/-- A ring (R433 to R436): the live copy, oldest first, its queue and counts; the captured copy. -/
structure Ring where
  live : List EventRec
  queue : List EventRec
  qtick : Nat
  lost : Nat
  written : Nat
  capLive : List EventRec
  capLost : Nat
  capWritten : Nat
deriving DecidableEq, Repr

def Ring.empty : Ring := ⟨[], [], 0, 0, 0, [], 0, 0⟩

/-- A trace buffer (R437, R438) and the settings that wait for the slot boundary (R439). Records were lost before the next one
queued (`afterLoss`, the queue full) or before the next one stored (`fullLoss`, the buffer full). -/
structure Trace where
  live : List EventRec
  queue : List EventRec
  qtick : Nat
  lost : Nat
  afterLoss : Bool
  fullLoss : Bool
  next : Nat
  written : Nat
  capLive : List EventRec
  capLost : Nat
  capNext : Nat
  capWritten : Nat
  pending : Option (BitVec 5)
deriving DecidableEq, Repr

def Trace.empty : Trace := ⟨[], [], 0, 0, false, false, 0, 0, [], 0, 0, 0, none⟩

/-- A dump slot (R447): the container's kind, capture tick and bytes; whether it is being built or ready. -/
structure DumpSlot where
  kind : Nat
  trigger : Nat
  tick : Word
  building : Bool
  ready : Bool
  bytes : List Byte
deriving DecidableEq, Repr

def DumpSlot.empty : DumpSlot := ⟨0, 0, 0, false, false, []⟩

/-- The debug unit beside its registers: rings, traces, the collector table, dump slots, and whether a capture by register is
due in the next tick (Table 12.7, row 5). -/
structure DebugSt where
  rings : SMap Ring
  traces : SMap Trace
  collector : SMap (List Byte)
  dump0 : DumpSlot
  dump1 : DumpSlot
  asked : Bool
deriving DecidableEq, Repr

/-- DEDUCED: assumption 23. -/
def DebugSt.empty : DebugSt := ⟨[], [], [], DumpSlot.empty, DumpSlot.empty, false⟩

/-! ### Clocks, Fliuf, management, Xofisel, power -/

/-- The clocks beside their registers: good reference windows in a row, whether the root PLL runs from the crystal and the
core clocks are stopped (R261, R262); the alignment procedure: ports whose framing is locked again, whether the completion
message has been sent, the exchanges as (2 theta, delta) in sixteenths, the pings sent that may still give one, by their t1
(R267 to R271); whether Tense has been aligned since it was last loaded (R273); rank, domain size and vmax of the Boot
Configuration Record (Table 11.8); the latched high halves of TNS_NOW by requester (R265); the tick of a RESET message (R246). -/
structure ClkSt where
  goodWindows : Nat
  fromCrystal : Bool
  coresStopped : Bool
  locked : List Nat
  completing : Bool
  pings : List (Int × Int)
  sent : List Word
  aligned : Bool
  rank : Nat
  domain : Nat
  vmax : Nat
  latch : SMap Word32
  resetAt : Option Word
deriving DecidableEq, Repr

def ClkSt.empty : ClkSt := ⟨0, false, false, [], false, [], [], false, 0, 0, 0x21, [], none⟩

/-- A hart as the commands of this table see it (R387, R391, R405, R455). -/
inductive HartRun where
  | held | running | halted
deriving DecidableEq, Repr

structure HartSt where
  run : HartRun
  view : Paging
  pc : Word
  mcause : Word
  mtval : Word
  mtimecmp : Word
  mtip : Bool
  msip : Bool
deriving DecidableEq, Repr

/-- After reset a hart is held, in machine mode (3), its pc at the reset vector 0x0F00_7080_0000 (Table 11.3, R405).
DESIGN CHOICE: assumption 3. -/
def HartSt.reset : HartSt := ⟨.held, Paging.bare, 0x0F0070800000#64, 0, 0, 0xFFFFFFFFFFFFFFFF#64, false, false⟩

/-- A UART beside its registers: FIFOs, oldest first, and the shift register (R396). -/
structure Uart where
  rx : List Byte
  tx : List Byte
  shift : Option Byte
deriving DecidableEq, Repr

/-- An I2C controller beside its registers: bytes to send, whether STOP waits (R396). -/
structure I2c where
  sending : Option Byte
  stopAsked : Bool
  addressing : Bool
deriving DecidableEq, Repr

/-- A 64-byte line of the core caches (R388, Table 11.1). -/
structure CoreLine where
  line : Nat
  dirty : Bool
  data : List Byte
deriving DecidableEq, Repr

/-- Fliuf beside its registers: harts, mtime, the PLIC's priorities, enables and thresholds (R392), UARTs and I2C
controllers, SPI controllers that exchange, the levels of the GPIO lines, watchdogs that have expired once since their last
kick (R397), management ports with a pending event, the QSPI controller's completion, the counts of the timers (R396) and of
the watchdogs (R397), in array-clock ticks; the lines of the core caches, most recently used first, which are coherent among the
cores and so hold one value each, the lines that each core's instruction and data cache holds a copy of (R388), and the
write-backs that wait for an exchange (R199). -/
structure FliufSt where
  harts : SMap HartSt
  mtime : Word
  plicPriority : SMap Nat
  plicEnable : SMap Word
  plicThreshold : SMap Nat
  uarts : SMap Uart
  i2cs : SMap I2c
  spiBusy : List Nat
  gpioLevel : Word32
  wdtFirst : List Nat
  ethEvent : List Nat
  qspiDone : Bool
  tmrLeft : SMap Word
  wdtLeft : SMap Word
  lines : List CoreLine
  icaches : SMap (List Nat)
  dcaches : SMap (List Nat)
  writing : List CoreLine
deriving DecidableEq, Repr

def Uart.empty : Uart := ⟨[], [], none⟩
def I2c.empty : I2c := ⟨none, false, false⟩

/-- Lines 1, 2, 8 and 9 stand high (Table 13.16): PWR_EN, RESET_N, ALERT_N, FAULT_N. DESIGN CHOICE: assumption 3. -/
def FliufSt.empty : FliufSt := ⟨[], 0, [], [], [], [], [], [], 0x306, [], [], false, [], [], [], [], [], []⟩

/-- An MMP session (R413, R414); `lastAt`: mtime at its last request. -/
structure Session where
  authorised : Bool
  version : Nat
  limit : Nat
  lastSeq : Option Word
  cachedStatus : Nat
  cachedData : List Byte
  digest : BitVec 384
  ephemeral : BitVec 384
  hostKey : BitVec 776
  nonce : BitVec 256
  key : BitVec 384
  lastAt : Word
deriving DecidableEq, Repr

/-- What the module keeps of the Boot Configuration Record (Table 11.8) beside the registers it sets. -/
structure Bcr where
  ownerKey : BitVec 776
  certs : List Cert
  revoked : List Nat
  fwPage0 : Nat
  fwPages : Nat
  periEn : Nat
  lanes : Nat
  mmpPort : Nat
  addrA : BitVec 128
  addrB : BitVec 128
  gateway : BitVec 128
  allow : BitVec 128
  plenA : Nat
  plenB : Nat
  plenAllow : Nat
deriving DecidableEq, Repr

/-- DESIGN CHOICE: assumption 3. -/
def Bcr.blank : Bcr := ⟨0, [], [], 0, 0, 0, 0, 0, 0, 0, 0, 0, 0, 0, 0⟩

/-- What the module keeps of the device record (Table 11.7). -/
structure DevRecord where
  grade : Nat
  enabled : Nat
  energy : List Nat
  map : BitVec 4096
  identity : BitVec 776
deriving DecidableEq, Repr

/-- DESIGN CHOICE: assumption 3. -/
def DevRecord.blank : DevRecord := ⟨0, 0, [], 0, 0⟩

/-- Management beside the system block's registers: sessions, the staged image, staged flash content, the last refusal
record, the results window, whether the admission that runs is a successor's, the session and request that asked for it, flash
and its open write window, whether the next boot enters recovery, the management links that are up, the records applied at
boot. -/
structure MgmtSt where
  sessions : SMap Session
  nextSession : Nat
  image : SMap Byte
  imageLen : Nat
  flashTarget : Option Bool
  flashStage : SMap Byte
  flashLen : Nat
  refusal : BitVec 256
  window : SMap (List Byte)
  successorOp : Bool
  asker : Option (Nat × Word)
  flash : SMap Byte
  flashWindow : Option Bool
  recoveryAsked : Bool
  linksUp : List Nat
  bcr : Bcr
  record : DevRecord
deriving DecidableEq, Repr

def MgmtSt.empty : MgmtSt :=
  ⟨[], 1, [], 0, none, [], 0, 0, [], false, none, [], none, false, [], Bcr.blank, DevRecord.blank⟩

/-- A measurement slot, Table 11.18. -/
structure Measure where
  kind : Nat
  extra : BitVec 48
  digest : BitVec 384
  tick : Word
deriving DecidableEq, Repr

/-- A command that Xofisel runs: its op, its result code, the bytes for the mailbox, the slot it writes. -/
structure XofRun where
  op : Nat
  result : Nat
  out : List Byte
  slot : Option (Nat × Measure)
deriving DecidableEq, Repr

/-- Xofisel: its fuses (R427), whether the module is owned since its last boot (R410), measurement slots (R428), the command
it runs (R430), the svn of the running firmware and the last ephemeral key made (R413). -/
structure XofSt where
  secret : BitVec 384
  serial : BitVec 128
  macs : BitVec 96
  owner : Option (BitVec 384)
  owned : Bool
  svn : Nat
  debugOpen : Bool
  locked : Bool
  slots : SMap Measure
  running : Option XofRun
  fwSvn : Nat
  ephemeral : Option (BitVec 384)
deriving DecidableEq, Repr

/-- DESIGN CHOICE: assumption 3. -/
def XofSt.blank : XofSt := ⟨0, 0, 0, none, false, 0, false, false, [], none, 0, none⟩

/-- The power controller and the pins of Table 13.15 beside the power registers: the last 1,000 samples' power in milliwatts,
newest first (R457), runs of samples with a sense mismatch, with an input below 33.0 V, with PWR_EN low, and with an input
within 35.0 V to 46.0 V while PWR_EN is high (R458, R462, R463, Table 13.1), rails and sensors that fell back or are excluded, the latest readings and how often in a row each was above its trip limit
(R468), rail groups that are on, the stage of Table 13.8 (0 none; 1 always-on converter starting; 2 debounce; 3 charging;
4 input power good; 4 + g group g good), the latch of R463, the cause of the last protective off, microseconds since group 0
was good, the PMBus status bits (STATUS_VOUT, STATUS_INPUT, STATUS_TEMPERATURE, a byte each). -/
structure PowerSt where
  samples : List Nat
  senseRun : Nat
  underRun : Nat
  enLow : Nat
  goodRun : Nat
  railsLocal : List Nat
  invalid : List Nat
  temps : SMap (BitVec 16)
  hot : SMap Nat
  groupsOn : Nat
  stage : Nat
  latched : Bool
  offCause : Nat
  enHigh : Bool
  resetHigh : Bool
  faultN : Bool
  usUp : Nat
  status : Nat
  modid : BitVec 5
deriving DecidableEq, Repr

/-- DESIGN CHOICE: assumption 3. -/
def PowerSt.on : PowerSt where
  samples := []
  senseRun := 0
  underRun := 0
  enLow := 0
  goodRun := 0
  railsLocal := []
  invalid := []
  temps := []
  hot := []
  groupsOn := 6
  stage := 10
  latched := false
  offCause := 0
  enHigh := true
  resetHigh := true
  faultN := true
  usUp := 0
  status := 0
  modid := 0

/-- The last answer a requester received: the model's own output (not a state of the spec). -/
structure Resp where
  busError : Bool
  status : Nat
  value : Word
  data : List Byte
deriving DecidableEq, Repr

def Resp.none : Resp := ⟨false, 0, 0, []⟩

end Sys2Proof.Machine
end

