-- ==== Sys2Proof/Machine/State.lean ====
section
/-!
DEFINITION. The state of the module: the queue of commands that wait, the running hardware (`Hw`: clocks, registers,
memory, tiles, slices, tiers, ports, the admitted job, inflection control, Update Engines, the debug unit), the Fliuf
complex, management, Xofisel, the power controller, and the last answer a requester received. Plain data throughout.
-/
namespace Sys2Proof.Machine

/-- The hardware that a running job uses. `regs` holds the control-space registers by physical address (Table 1.4), each
at its reset word when unlisted; `mem` holds the bytes of the tiered range, shared memory, tile memories and the boot
SRAM by physical address (Table 1.3). `free` counts the values the spec leaves open that were used so far: it is the
model's own (assumption 4). `localAcc` holds the RACC flits of this rank on their way over the mesh, each with its tile (R343). -/
structure Hw where
  free : Nat
  tense0 : Word
  tense1 : Word
  regs : SMap Word
  mem : SMap Byte
  tiles : SMap TileSt
  slices : SMap SliceSt
  tier : TierSt
  ports : SMap PortSt
  localAcc : List (Nat × Flit)
  job : Option Job
  infl : InflSt
  upes : SMap UpeSt
  dbg : DebugSt
  clk : ClkSt
deriving DecidableEq, Repr

/-- The module's state. `pending` is the queue of commands that wait, first in, first out. `stalled` holds the control-space
accesses that wait while the core clocks are stopped (R262), oldest first. -/
structure State where
  pending : List Instr
  stalled : List Instr
  hw : Hw
  fliuf : FliufSt
  mgmt : MgmtSt
  xof : XofSt
  power : PowerSt
  resp : Resp
deriving DecidableEq, Repr

/-- Reasons to stop with a fault. The spec gives every command of the table an effect, so there is none; an error of the
module is a flag, a bus error or a halted job, all in State. -/
inductive Fault where
deriving DecidableEq, Repr

/-- Reasons to have no meaning. -/
inductive Refusal where
  /-- Raised by an arm of `exec` whose command has no meaning yet. Safe: nothing can be proved about what follows. -/
  | notModelled (mnemonic : String)
deriving DecidableEq, Repr

/-- The hardware right after a module reset that restarts the clocks (R22, R274): every register at its reset word, every
memory with nothing written (assumption 2), no job. -/
def Hw.reset : Hw where
  free := 0
  tense0 := 0
  tense1 := 0
  regs := []
  mem := []
  tiles := []
  slices := []
  tier := TierSt.empty
  ports := []
  localAcc := []
  job := none
  infl := InflSt.empty
  upes := []
  dbg := DebugSt.empty
  clk := ClkSt.empty

/-- The module right after reset: nothing waits, the rails are on (Table 13.12), Xofisel's fuses are blank
(assumption 3). -/
def State.reset : State where
  pending := []
  stalled := []
  hw := Hw.reset
  fliuf := FliufSt.empty
  mgmt := MgmtSt.empty
  xof := XofSt.blank
  power := PowerSt.on
  resp := Resp.none

end Sys2Proof.Machine
end

