-- ==== Sys2Proof/Machine/Ops.lean ====
section
/-!
DEFINITION. The named operations over the registers and the memory of the hardware: windows of the control space
(Table 1.4), registers and their fields by the spec's names, memory by the byte (Table 1.3), per-unit stores, Tense.
-/
namespace Sys2Proof.Machine

/-! ### Windows of the control space, Table 1.4 -/

def tileBase (t : Nat) : Nat := 0x0F0000000000 + t * 0x10000
def arrBase (t u : Nat) : Nat := tileBase t + 0x4000 + u * 0x200
def sliceBase (s : Nat) : Nat := 0x0F0020000000 + s * 0x10000
def stackBase (d : Nat) : Nat := 0x0F0030000000 + d * 0x10000
def lpdBase : Nat := 0x0F0031000000
def portBase (p : Nat) : Nat := 0x0F0040000000 + p * 0x10000
def bridgeBase : Nat := 0x0F0041000000
def clkBase : Nat := 0x0F0050000000
def inflBase : Nat := 0x0F0051000000
def pwrBase : Nat := 0x0F0052000000
def xofBase : Nat := 0x0F0060000000
def fliufBase : Nat := 0x0F0070000000
def sysBase : Nat := fliufBase + 0x4A0000
def dbgBase : Nat := 0x0F0080000000
def uartBase (i : Nat) : Nat := fliufBase + 0x410000 + i * 0x1000
def i2cBase (i : Nat) : Nat := fliufBase + 0x420000 + i * 0x1000
def spiBase (i : Nat) : Nat := fliufBase + 0x430000 + i * 0x1000
def gpioBase : Nat := fliufBase + 0x440000
def tmrBase (i : Nat) : Nat := fliufBase + 0x450000 + i * 0x20
def wdtBase (i : Nat) : Nat := fliufBase + 0x460000 + i * 0x1000

/-- The window, unit number and offset of a control-space address, Table 1.4; none outside every window (R38). -/
def locate (a : Nat) : Option (Win × Nat × Nat) :=
  if a < 0x0F0000000000 then none
  else
    let o := a - 0x0F0000000000
    if o < 512 * 0x10000 then some (.tile, o / 0x10000, o % 0x10000)
    else if 0x20000000 ≤ o && o < 0x20000000 + 128 * 0x10000 then
      some (.slice, (o - 0x20000000) / 0x10000, o % 0x10000)
    else if 0x30000000 ≤ o && o < 0x30000000 + 12 * 0x10000 then
      some (.stack, (o - 0x30000000) / 0x10000, o % 0x10000)
    else if 0x31000000 ≤ o && o < 0x31010000 then some (.lpd, 0, o % 0x10000)
    else if 0x40000000 ≤ o && o < 0x40000000 + 24 * 0x10000 then
      some (.port, (o - 0x40000000) / 0x10000, o % 0x10000)
    else if 0x41000000 ≤ o && o < 0x41010000 then some (.bridge, 0, o % 0x10000)
    else if 0x50000000 ≤ o && o < 0x50010000 then some (.clk, 0, o % 0x10000)
    else if 0x51000000 ≤ o && o < 0x51010000 then some (.infl, 0, o % 0x10000)
    else if 0x52000000 ≤ o && o < 0x52010000 then some (.power, 0, o % 0x10000)
    else if 0x60000000 ≤ o && o < 0x60010000 then some (.xof, 0, o % 0x10000)
    else if 0x70000000 ≤ o && o < 0x71000000 then some (.fliuf, 0, o - 0x70000000)
    else if 0x80000000 ≤ o && o < 0x90000000 then some (.debug, 0, o - 0x80000000)
    else none

/-- Whether the register row holds offset `o`. -/
def RegDef.covers (r : RegDef) (o : Nat) : Bool :=
  decide (r.off ≤ o) && decide ((o - r.off) % r.stride = 0) && decide ((o - r.off) / r.stride < r.count)

/-- The register row at an offset of a window. -/
def regAt (w : Win) (o : Nat) : Option RegDef := (regTable w).find? (fun r => r.covers o)

/-- What a register holds at reset, Table 0.7's Reset columns (R22); 0 at a reserved offset (R21).
DESIGN CHOICE: assumption 3. -/
def regReset (a : Nat) : Word :=
  match locate a with
  | none => 0
  | some (w, u, o) =>
    match regAt w o with
    | none => 0
    | some r =>
      match r.unitBit with
      | none => r.reset
      | some b => r.reset ||| BitVec.ofNat 64 (u <<< b)

/-- The register at a control-space address. -/
def Hw.reg (h : Hw) (a : Nat) : Word := h.regs.get (regReset a) a

/-- The register now holds `v`. -/
def Hw.setReg (h : Hw) (a : Nat) (v : Word) : Hw := { h with regs := h.regs.set (regReset a) a v }

/-- A register field, by the spec's name, of the unit whose block starts at `base`. -/
def Hw.fld (h : Hw) (base : Nat) (f : Fld) : Nat := bitsOf (h.reg (base + f.off)) f.hi f.lo

def Hw.flag (h : Hw) (base : Nat) (f : Fld) : Bool := decide (h.fld base f ≠ 0)

/-- The field now holds the low bits of `v`. -/
def Hw.setFld (h : Hw) (base : Nat) (f : Fld) (v : Nat) : Hw :=
  h.setReg (base + f.off) (withBits (h.reg (base + f.off)) f.hi f.lo v)

/-- The fields of a list, in order. -/
def Hw.setFlds (h : Hw) (base : Nat) (fs : List (Fld × Nat)) : Hw :=
  fs.foldl (fun h fv => h.setFld base fv.1 fv.2) h

/-- A counter field, wrapping at its width. -/
def Hw.count (h : Hw) (base : Nat) (f : Fld) (n : Nat) : Hw := h.setFld base f (h.fld base f + n)

/-- A counter field that saturates at its width. -/
def Hw.countSat (h : Hw) (base : Nat) (f : Fld) (n : Nat) : Hw :=
  h.setFld base f (satNat (2 ^ (f.hi + 1 - f.lo) - 1) (h.fld base f + n))

/-- A peak field: the larger of what it holds and `n`. -/
def Hw.peak (h : Hw) (base : Nat) (f : Fld) (n : Nat) : Hw :=
  if h.fld base f < n then h.setFld base f n else h

/-! ### Tense -/

/-- Tense, the one logical counter of Table 1.1 (die 0's copy). -/
def Hw.now (h : Hw) : Nat := h.tense0.toNat

/-- Both copies of Tense loaded on one common edge (R27, R264). -/
def Hw.loadTense (h : Hw) (v : Word) : Hw := { h with tense0 := v, tense1 := v }

/-- TNS_ALIGN.state is 4 (Table 7.3). -/
def Hw.aligned (h : Hw) : Bool := decide (h.fld clkBase Fld.TNS_ALIGN.state = 4)

/-! ### Values the spec leaves open (assumption 4) -/

/-- A value the spec leaves open, never the same twice. DESIGN CHOICE: assumption 4. -/
def Hw.freeWord (h : Hw) : Word × Hw := (Config.freeWord h.free, { h with free := h.free + 1 })

/-! ### Memory, Table 1.3 -/

/-- What a byte that nothing has written reads as (DESIGN CHOICE: assumption 2). -/
def blankByte : Byte := 0

/-- The canonical form of the memory. DESIGN CHOICE: assumption 2. -/
abbrev Memory.wf (m : SMap Byte) : Bool := SMap.wf m (fun _ => blankByte)

def sharedBase : Nat := 0x010000000000
def sharedEnd : Nat := 0x010020000000
def tileMemBase : Nat := 0x010040000000
def tileMemEnd : Nat := 0x010050000000
def tieredEnd : Nat := 0x00C800000000

/-- The ranges of Table 1.3. -/
inductive Space where
  | tiered | shared | tileMem | control | outside
deriving DecidableEq, Repr

def spaceOf (a : Nat) : Space :=
  if a < tieredEnd then .tiered
  else if sharedBase ≤ a && a < sharedEnd then .shared
  else if tileMemBase ≤ a && a < tileMemEnd then .tileMem
  else if 0x0F0000000000 ≤ a && a < 0x0F0100000000 then .control
  else .outside

/-- The slice of a shared-memory address, R36. -/
def sliceOf (a : Nat) : Nat := (a - sharedBase) / 0x400000

/-- The tile of a tile-memory address. -/
def tileOf (a : Nat) : Nat := (a - tileMemBase) / 0x80000

/-- DESIGN CHOICE: assumption 2. -/
def Hw.byte (h : Hw) (a : Nat) : Byte := h.mem.get blankByte a

def Hw.setByte (h : Hw) (a : Nat) (b : Byte) : Hw := { h with mem := h.mem.set blankByte a b }

/-- `n` bytes from `a`, ascending. -/
def Hw.read (h : Hw) (a n : Nat) : List Byte := (List.range n).map (fun i => h.byte (a + i))

/-- The bytes written from `a`, ascending. -/
def Hw.write (h : Hw) : Nat → List Byte → Hw
  | _, [] => h
  | a, b :: bs => (h.setByte a b).write (a + 1) bs

/-- The little-endian number of `n` bytes at `a`, R17. -/
def Hw.readNat (h : Hw) (a n : Nat) : Nat := leNat (h.read a n)

def Hw.writeNat (h : Hw) (a n v : Nat) : Hw := h.write a (leBytes n v)

/-! ### Per-unit stores -/

def Hw.tile (h : Hw) (t : Nat) : TileSt := h.tiles.get TileSt.empty t
def Hw.setTile (h : Hw) (t : Nat) (x : TileSt) : Hw := { h with tiles := h.tiles.set TileSt.empty t x }
def Hw.slice (h : Hw) (s : Nat) : SliceSt := h.slices.get SliceSt.empty s
def Hw.setSlice (h : Hw) (s : Nat) (x : SliceSt) : Hw := { h with slices := h.slices.set SliceSt.empty s x }
def Hw.port (h : Hw) (p : Nat) : PortSt := h.ports.get PortSt.empty p
def Hw.setPort (h : Hw) (p : Nat) (x : PortSt) : Hw := { h with ports := h.ports.set PortSt.empty p x }
def Hw.upe (h : Hw) (d : Nat) : UpeSt := h.upes.get UpeSt.empty d
def Hw.setUpe (h : Hw) (d : Nat) (x : UpeSt) : Hw := { h with upes := h.upes.set UpeSt.empty d x }
def Hw.ctl (h : Hw) (c : Nat) : CtlSt := h.tier.ctls.get CtlSt.empty c
def Hw.setCtl (h : Hw) (c : Nat) (x : CtlSt) : Hw :=
  { h with tier := { h.tier with ctls := h.tier.ctls.set CtlSt.empty c x } }

/-! ### The Tier Map, R190 and R191 -/

/-- The entry a page has at module reset (R191): frame, tier; nothing else set. -/
def tierReset (n : Nat) : Word :=
  if n < Config.tierT1 then BitVec.ofNat 64 n else BitVec.ofNat 64 ((n - Config.tierT1) + 2 ^ 18)

/-- The Tier Map entry of a page, Table 5.3. -/
def Hw.tierEntry (h : Hw) (n : Nat) : Word := h.tier.map.get (tierReset n) n

def Hw.setTierEntry (h : Hw) (n : Nat) (w : Word) : Hw :=
  { h with tier := { h.tier with map := h.tier.map.set (tierReset n) n w } }

/-! ### The job -/

/-- The admitted job changed by `f`, if there is one. -/
def Hw.onJob (h : Hw) (f : Job → Job) : Hw := { h with job := h.job.map f }

/-- The domain version of R249, held alike in PORT_VER.domain of every port; 0 before alignment. -/
def Hw.domainVer (h : Hw) : Nat := h.fld (portBase 0) Fld.PORT_VER.domain

/-- This module's rank, from the Boot Configuration Record (Table 11.8). -/
def Hw.rank (h : Hw) : Nat := h.clk.rank

/-! ### The whole module -/

/-- A command that changes the hardware alone. -/
def State.onHw (s : State) (f : Hw → Hw) : State := { s with hw := f s.hw }

/-- The last answer a requester received. -/
def State.answer (s : State) (r : Resp) : State := { s with resp := r }

/-- A bus error to the requester. -/
def Resp.bus : Resp := ⟨true, 0, 0, []⟩

/-- A good answer with a value. -/
def Resp.ok (v : Word) : Resp := ⟨false, 0, v, []⟩

/-- The core clocks run: the root PLL is released (Table 7.2) and not stopped for a new release (R262). -/
def Hw.clocked (h : Hw) : Bool := h.flag clkBase Fld.CLK_STATUS.root && !h.clk.coresStopped

/-- An access of the control space, `i`, from outside the schedule. While the core clocks stop it waits and is then served
(R262). While a module reset lasts no unit answers: every field holds its reset value (R22), and the access is given a bus
error. DESIGN CHOICE: assumption 88. -/
def State.onAccess (s : State) (i : Instr) (go : State → State) : State :=
  if s.hw.clocked then go s
  else if s.hw.clk.coresStopped then { s with stalled := s.stalled ++ [i] }
  else s.answer Resp.bus

end Sys2Proof.Machine
end

