-- ==== Sys2Proof/Machine/Flags.lean ====
section
/-!
DEFINITION. What an event does: its flag and counter (R20), its ring record (R434, R435), its signal to inflection control
(R325, R480), the trace records of commands (R437, R438), the capture of all rings and traces (R445, R446), the Job Status
Word (R421, R422) and the halt of a rank (R47, R326).
-/
namespace Sys2Proof.Machine

/-! ### Ring numbers, Table 12.2 -/

def ringTile (t e : Nat) : Nat := 5 * t + e
def ringSlice (s : Nat) : Nat := 2560 + s
def ringStack (d : Nat) : Nat := 2688 + d
def ringLpd : Nat := 2700
def ringPort (p : Nat) : Nat := 2701 + p
def ringUpe (d : Nat) : Nat := 2725 + d
def ringModule : Nat := 2737
def ringFliuf : Nat := 2738

/-! ### Rings -/

/-- A record of Table 12.3. -/
def EventRec.make (tick code detail : Nat) (unaligned : Bool) : EventRec :=
  ⟨BitVec.ofNat 64 (tick % 2 ^ 56 + (code % 128) * 2 ^ 56 + flagNat unaligned * 2 ^ 63), BitVec.ofNat 64 detail⟩

def EventRec.tick (e : EventRec) : Nat := bitsOf e.w0 55 0
def EventRec.code (e : EventRec) : Nat := bitsOf e.w0 62 56

/-- The order of records queued in one cycle: ascending code, then ascending detail (R435). -/
def EventRec.before (a b : EventRec) : Bool :=
  decide (a.code < b.code) || (decide (a.code = b.code) && decide (a.w1.toNat ≤ b.w1.toNat))

/-- `e` put into a queue behind every record of an earlier tick, in the order of R435 among those of its own.
DEDUCED: assumption 73. -/
def queueRec (e : EventRec) : List EventRec → List EventRec
  | [] => [e]
  | x :: xs => if decide (x.tick = e.tick) && EventRec.before e x then e :: x :: xs else x :: queueRec e xs

/-- `e` stored; a ring that holds 256 records overwrites its oldest (R435). -/
def Ring.store (r : Ring) (e : EventRec) : Ring :=
  { r with
    live := (if r.live.length < 256 then r.live else r.live.drop 1) ++ [e]
    written := (r.written + 1) % 2 ^ 32 }

/-- The records that the queue has stored by tick `now`: one each tile-engine cycle, two each tick (R435).
DEDUCED: assumption 73. -/
def Ring.drain (r : Ring) (now : Nat) : Ring :=
  let n := if now < r.qtick then r.queue.length else 2 * (now - r.qtick)
  { (r.queue.take n).foldl Ring.store r with queue := r.queue.drop n, qtick := now }

/-- `e` queued; a record that finds the 16-entry queue full is lost and counted (R435). DEDUCED: assumption 73. -/
def Ring.push (r : Ring) (now : Nat) (e : EventRec) : Ring :=
  let r := r.drain now
  if r.queue.length < 16 then { r with queue := queueRec e r.queue }
  else { r with lost := satNat 0xFFFF (r.lost + 1) }

/-- The ring with its captured copy taken: every record at or before the capture tick, queued ones included (R445). -/
def Ring.capture (r : Ring) : Ring :=
  let full := r.queue.foldl Ring.store r
  { r with capLive := full.live, capLost := r.lost, capWritten := full.written }

/-- The ring with no captured copy (R446). -/
def Ring.release (r : Ring) : Ring := { r with capLive := [], capLost := 0, capWritten := 0 }

def Hw.ring (h : Hw) (n : Nat) : Ring := h.dbg.rings.get Ring.empty n

def Hw.setRing (h : Hw) (n : Nat) (r : Ring) : Hw :=
  { h with dbg := { h.dbg with rings := h.dbg.rings.set Ring.empty n r } }

/-- A unit writes one event record (R434, R435). -/
def Hw.event (h : Hw) (ring code detail : Nat) : Hw :=
  h.setRing ring ((h.ring ring).push h.now (EventRec.make h.now code detail (!h.aligned)))

/-- A setting event of a W1C flag: the flag is set and its counter counts, even if it was set already (R20). -/
def Hw.mark (h : Hw) (base : Nat) (flag cnt : Fld) : Hw := (h.setFld base flag 1).count base cnt 1

/-- A setting event with its ring record (R435). -/
def Hw.raise (h : Hw) (base : Nat) (flag cnt : Fld) (ring code detail : Nat) : Hw :=
  (h.mark base flag cnt).event ring code detail

/-! ### Signals to inflection control, R480 -/

/-- An unclean cause of Table 8.7 on its way to inflection control, with the suspect and kind bit of Table 12.6.
DEDUCED: assumption 71. -/
def Hw.signal (h : Hw) (bit : Nat) (suspect : Option (Rank × Nat)) : Hw :=
  match h.job with
  | none => h
  | some _ =>
    { h with infl := { h.infl with
        signals := h.infl.signals ++ [⟨false, bit, h.tense0, suspect⟩] } }

/-- A fault of the module's own unit (kind 4 of Table 12.6). -/
def Hw.signalOwn (h : Hw) (bit : Nat) : Hw := h.signal bit (some (BitVec.ofNat 14 h.rank, 4))

/-- A halting fault on its way to inflection control. DEDUCED: assumption 71. -/
def Hw.signalHalt (h : Hw) (cause : Nat) : Hw :=
  match h.job with
  | none => h
  | some _ =>
    { h with infl := { h.infl with signals := h.infl.signals ++ [⟨true, cause, h.tense0, none⟩] } }

/-! ### Traces, R437 to R439 -/

/-- The record with after_loss set where records were lost just before it (Table 12.8). -/
def EventRec.afterLoss (e : EventRec) (lost : Bool) : EventRec := if lost then { e with w0 := withBits e.w0 59 59 1 } else e

/-- A trace record stored under TRC_CTL.wrap; one that finds the buffer full is lost, and the next one stored has after_loss
set (R438). -/
def Trace.store (wrap : Bool) (x : Trace) (e : EventRec) : Trace :=
  if x.live.length < 640 ∨ wrap = true then
    { x with
      live := (if x.live.length < 640 then x.live else x.live.drop 1) ++ [e.afterLoss x.fullLoss]
      next := (x.next + 1) % 640
      written := (x.written + 1) % 2 ^ 32
      fullLoss := false }
  else { x with lost := satNat 0xFFFF (x.lost + 1), fullLoss := true }

/-- The queue stores two records each tile-engine cycle, four each tick (R438). DEDUCED: assumption 73. -/
def Trace.drain (wrap : Bool) (x : Trace) (now : Nat) : Trace :=
  let n := if now < x.qtick then x.queue.length else 4 * (now - x.qtick)
  { (x.queue.take n).foldl (Trace.store wrap) x with queue := x.queue.drop n, qtick := now }

/-- The place of a trace record among those of its tick: engine code, then unit, then begin before end (R438). -/
def EventRec.place (e : EventRec) : Nat := bitsOf e.w0 62 60 * 16 + bitsOf e.w1 34 32 * 2 + bitsOf e.w0 56 56

/-- `e` put into a queue behind every record of an earlier tick, and among those of its own behind each that comes no later
(R438). DEDUCED: assumption 73. -/
def queueTrace (e : EventRec) : List EventRec → List EventRec
  | [] => [e]
  | x :: xs => if x.tick = e.tick ∧ e.place < x.place then e :: x :: xs else x :: queueTrace e xs

/-- A record queued; one that finds the 32-entry queue full is lost, and the next one has after_loss set (R438).
DEDUCED: assumption 73. -/
def Trace.push (wrap : Bool) (x : Trace) (now : Nat) (e : EventRec) : Trace :=
  let x := x.drain wrap now
  if x.queue.length < 32 then
    { x with queue := queueTrace (e.afterLoss x.afterLoss) x.queue, afterLoss := false }
  else { x with lost := satNat 0xFFFF (x.lost + 1), afterLoss := true }

/-- The trace buffer with its captured copy taken. -/
def Trace.capture (wrap : Bool) (x : Trace) : Trace :=
  let full := x.queue.foldl (Trace.store wrap) x
  { x with capLive := full.live, capLost := full.lost, capNext := full.next, capWritten := full.written }

def Trace.release (x : Trace) : Trace := { x with capLive := [], capLost := 0, capNext := 0, capWritten := 0 }

def Hw.trace (h : Hw) (t : Nat) : Trace := h.dbg.traces.get Trace.empty t

def Hw.setTrace (h : Hw) (t : Nat) (x : Trace) : Hw :=
  { h with dbg := { h.dbg with traces := h.dbg.traces.set Trace.empty t x } }

def Hw.traceWrap (h : Hw) (t : Nat) : Bool := h.flag (tileBase t) Fld.TRC_CTL.wrap

/-- The trace buffer as it stands now. -/
def Hw.traceNow (h : Hw) (t : Nat) : Trace := (h.trace t).drain (h.traceWrap t) h.now

/-- Whether a command of tile `t` is traced (R437). -/
def Hw.traced (h : Hw) (t : Nat) (bit : Bool) : Bool :=
  h.flag (tileBase t) Fld.TRC_CTL.enable && (bit || h.flag (tileBase t) Fld.TRC_CTL.all)

/-- A trace record of Table 12.8, written if the command is traced. -/
def Hw.traceRec (h : Hw) (t : Nat) (bit : Bool) (engine unit tag : Nat) (atEnd late stopped : Bool) : Hw :=
  if h.traced t bit then
    let plan := h.fld (tileBase t) Fld.TILE_STATUS.plan
    let replay := h.fld inflBase Fld.INFL_RUN_STATE.replay
    let idle := decide (h.fld inflBase Fld.INFL_RUN_STATE.phase = 4)
    let step := h.fld inflBase Fld.INFL_COMMIT_STEP.step
    let w0 := h.now % 2 ^ 56 + flagNat atEnd * 2 ^ 56 + flagNat late * 2 ^ 57 + flagNat stopped * 2 ^ 58
      + engine * 2 ^ 60 + flagNat (!h.aligned) * 2 ^ 63
    let w1 := tag + unit * 2 ^ 32 + plan * 2 ^ 35 + replay * 2 ^ 39 + flagNat idle * 2 ^ 43
      + (step % 2 ^ 20) * 2 ^ 44
    h.setTrace t ((h.trace t).push (h.traceWrap t) h.now ⟨BitVec.ofNat 64 w0, BitVec.ofNat 64 w1⟩)
  else h

/-! ### The Job Status Word, R421 -/

/-- The word with the fields of `fs` written and its read-only fields mirrored from inflection control. -/
def Hw.jswNext (h : Hw) (fs : List (Fld × Nat)) : Hw :=
  h.setFlds sysBase (fs ++
    [(Fld.SYS_JSW.plan, h.fld inflBase Fld.INFL_RUN_STATE.plan),
     (Fld.SYS_JSW.replay, h.fld inflBase Fld.INFL_RUN_STATE.replay),
     (Fld.SYS_JSW.job, h.fld inflBase Fld.INFL_COMMIT_STATE.job)])

/-- Fields of the Job Status Word written in one cycle: `changes` adds one if any other field changes, and source 48's
flag is set (R421, Table 11.2). -/
def Hw.jsw (h : Hw) (fs : List (Fld × Nat)) : Hw :=
  let h' := h.jswNext fs
  if h'.reg (sysBase + 0x40) = h.reg (sysBase + 0x40) then h'
  else (h'.count sysBase Fld.SYS_JSW.changes 1).setFld sysBase Fld.SYS_FLAGS.jsw 1

def Hw.jswState (h : Hw) : Nat := h.fld sysBase Fld.SYS_JSW.state
/-- DEDUCED: assumption 76. -/
def Hw.jswOp (h : Hw) : Nat := h.fld sysBase Fld.SYS_JSW.op

/-- A long operation ended, with its result; op returns to 0 unless it shows another operation that runs (R422).
DEDUCED: assumption 76. -/
def Hw.opEnd (h : Hw) (op result : Nat) : List (Fld × Nat) :=
  (if h.jswOp = op then [(Fld.SYS_JSW.op, 0), (Fld.SYS_JSW.progress, 0)] else [])
    ++ [(Fld.SYS_JSW.last_op, op), (Fld.SYS_JSW.last_result, result)]

/-! ### Captures, R445 and R446 -/

/-- Every ring and trace buffer copied in one tick, with the record 0x6B of the module ring (R445). -/
def Hw.captureNow (h : Hw) (row : Nat) : Hw :=
  let h := h.event ringModule 0x6B row
  let h := { h with dbg := { h.dbg with
    rings := h.dbg.rings.mapVals Ring.empty (fun _ r => r.capture)
    traces := h.dbg.traces.mapVals Trace.empty (fun t x => x.capture (h.traceWrap t)) } }
  (h.setFlds dbgBase [(Fld.DBG_STATUS.held, 1), (Fld.DBG_STATUS.trigger, row), (Fld.DBG_CAP_TICK.tick, h.now)]).count
    dbgBase Fld.DBG_CNT_A.captures 1

/-- A dump slot starts being built: 1 a halt dump, 2 a capture dump (R447). DESIGN CHOICE: assumption 72. -/
def Hw.startDump (h : Hw) (kind row : Nat) : Hw :=
  let d : DumpSlot := ⟨kind, row, h.tense0, true, false, []⟩
  let h := if kind = 1 then { h with dbg := { h.dbg with dump0 := d } }
    else { h with dbg := { h.dbg with dump1 := d } }
  let b := h.fld dbgBase Fld.DBG_STATUS.building
  (h.setFld dbgBase Fld.DBG_STATUS.building (b ||| kind)).jsw [(Fld.SYS_JSW.op, 4), (Fld.SYS_JSW.progress, 0)]

/-- A capture trigger of Table 12.7 while copies may be held (R446): rows 1 and 2 replace them, rows 3 and 5 are refused. -/
def Hw.capture (h : Hw) (row : Nat) : Hw :=
  let held := h.flag dbgBase Fld.DBG_STATUS.held
  if decide (row = 3 ∨ row = 5) && held then h.mark dbgBase Fld.DBG_FLAGS.cap_refused Fld.DBG_CNT_A.cap_refused
  else
    let h := if held then h.setFld dbgBase Fld.DBG_FLAGS.cap_over 1 else h
    let h := h.captureNow row
    if row = 5 then h else h.startDump (if row = 3 then 2 else 1) row

/-- DBG_CAPTURE.release: every captured copy and held bit cleared (R446). -/
def Hw.releaseCapture (h : Hw) : Hw :=
  let h := { h with dbg := { h.dbg with
    rings := h.dbg.rings.mapVals Ring.empty (fun _ r => r.release)
    traces := h.dbg.traces.mapVals Trace.empty (fun _ x => x.release) } }
  h.setFld dbgBase Fld.DBG_STATUS.held 0

/-- The slot that runs has deadlines: it is a step or a replay (R353). -/
def Job.steps (j : Job) : Bool := decide (j.kind = .step) || decide (j.kind = .replay)

/-! ### Halting, R47 and R326 -/

/-- An event of Table 12.6 noted for the rank's fault reports: those of the slot, or of the next one once the Full Stop has
been launched (R317, R441). -/
def Job.report (j : Job) (suspect kind : Nat) (tick : Word) : Job :=
  if j.launched then
    { j with carriedReports := j.carriedReports.upd FaultReport.none suspect (fun r => r.seen kind tick) }
  else { j with reports := j.reports.upd FaultReport.none suspect (fun r => r.seen kind tick) }

/-- A halting fault reached on this rank: no command that has not started starts any more; the phase and the rank's halt
cause show it (the highest code wins, R326); a row 2 capture is made once; the fault report of kind 5 is noted (R440). After
the job has ended nothing is left to halt. DEDUCED: assumptions 67, 71. -/
def Hw.haltFault (h : Hw) (cause : Nat) : Hw :=
  match h.job with
  | none => h
  | some j =>
    if j.result = some .halt then h
    else
    let top := Nat.max cause (h.fld inflBase Fld.INFL_LOCAL.halt)
    let h := h.setFlds inflBase [(Fld.INFL_LOCAL.halt, top), (Fld.INFL_RUN_STATE.phase, 5)]
    let h := if cause = 9 then h.setFld inflBase Fld.INFL_COMMIT_STATE.valid 0 else h
    let h := { h with job := some { (j.report h.rank 5 h.tense0) with halted := true, captured := true } }
    if j.captured then h else h.capture 2

/-- R182: scheduled cleared and cacheable restored. -/
def Hw.unschedulePage (h : Hw) (n : Nat) : Hw :=
  let e := withBits (h.tierEntry n) 20 20 0
  let h' := h.setTierEntry n (if h.tier.savedCacheable.contains n then withBits e 19 19 1 else e)
  { h' with tier := { h'.tier with savedCacheable := h'.tier.savedCacheable.erase n } }

/-- R182: when the job ends, no page is scheduled any more. -/
def Hw.endSchedule (h : Hw) : Hw :=
  ((h.tier.map.filter (fun e => bitOf e.2 20)).map (fun e => e.1)).foldl Hw.unschedulePage h

/-- The job ends on this rank, by a Halt verdict (row 1) or for want of one (row 2): INFL_CAUSE.halt, the halt flag, the
Job Status Word in state 5, a capture unless this halt has made one (Table 8.8a, R422, R446). DEDUCED: assumption 74. -/
def Hw.haltFinal (h : Hw) (cause row : Nat) : Hw :=
  match h.job with
  | none => h
  | some j =>
    let h := h.setFlds inflBase [(Fld.INFL_RUN_STATE.phase, 5), (Fld.INFL_CAUSE.halt, cause)]
    let h := h.raise inflBase Fld.INFL_FLAGS.halt Fld.INFL_CNT_B.halt ringModule 0x65 (cause % 256)
    let h := { h with job := some { j with halted := true, captured := true, running := false, result := some .halt } }
    let h := (if j.captured then h else h.capture row).endSchedule
    h.jsw [(Fld.SYS_JSW.state, 5), (Fld.SYS_JSW.code, cause)]

end Sys2Proof.Machine
end

