-- ==== Sys2Proof/Machine/Gen.lean ====
section
/-!
DEFINITION. The counter generator (R82, R83) and the rotation of a segment (R88, R89).
-/
namespace Sys2Proof.Machine

def rotl32 (x : Word32) (n : Nat) : Word32 := (x <<< n) ||| (x >>> (32 - n))
def rotr32 (x : Word32) (n : Nat) : Word32 := (x >>> n) ||| (x <<< (32 - n))

/-- Rounds i to i + n − 1 of R82. -/
def genRounds (k0 k1 : Word32) : Nat → Nat → Word32 → Word32 → Word32 × Word32
  | _, 0, x, y => (x, y)
  | i, n + 1, x, y =>
    let rk := (if i % 2 = 0 then k0 else k1) + BitVec.ofNat 32 ((i + 1) * 0x9E3779B9)
    let x' := (rotr32 x 8 + y) ^^^ rk
    let y' := rotl32 y 3 ^^^ x'
    genRounds k0 k1 (i + 1) n x' y'

/-- R82: 64 bits from a job seed, a stream key, a step and an index. -/
def generate (seed key step index : Nat) : Nat :=
  let k0 := BitVec.ofNat 32 seed ^^^ BitVec.ofNat 32 (step / 2 ^ 24)
  let k1 := BitVec.ofNat 32 (seed / 2 ^ 32) ^^^ BitVec.ofNat 32 (key * 2 ^ 16) ^^^ BitVec.ofNat 32 key
  let x := BitVec.ofNat 32 index
  let y := BitVec.ofNat 32 ((step % 2 ^ 24) * 2 ^ 8) ||| BitVec.ofNat 32 (index / 2 ^ 32 % 2 ^ 8)
  let r := genRounds k0 k1 0 8 x y
  r.2.toNat * 2 ^ 32 + r.1.toNat

/-- A rotation sign: r[0] (Table 2.9). -/
def genSign (seed key step index : Nat) : Bool := decide (generate seed key step index % 2 = 1)

/-- The value at position i of a list, +0 beyond it. -/
def valAt (v : List Val) (i : Nat) : Val := (v[i]?).getD .zero

/-- One butterfly stage of R88 with distance `s`: a + b at i, a − b at i + s, each rounded to FP32. -/
def butterfly (v : List Val) (s : Nat) : List Val :=
  (List.range v.length).map (fun i =>
    if i / s % 2 = 0 then (fpAdd 5 false (valAt v i) (valAt v (i + s))).1
    else (fpAdd 5 false (valAt v (i - s)) (valAt v i).neg).1)

/-- The eight stages, in ascending distance, and the factor 2^−4. -/
def butterflies (v : List Val) : List Val :=
  ([1, 2, 4, 8, 16, 32, 64, 128].foldl butterfly v).map (fun x => (fpMul 5 false x (.fin false 1 (-4))).1)

/-- The positions whose sign bit is 1 negated. -/
def applySigns (signs : Nat → Bool) (v : List Val) : List Val :=
  (List.range v.length).map (fun i => if signs i then (valAt v i).neg else valAt v i)

/-- R88: the forward rotation of one segment of 256 elements. -/
def rotateSeg (signs : Nat → Bool) (v : List Val) : List Val := butterflies (applySigns signs v)

/-- R89: the inverse rotation of one segment. -/
def unrotateSeg (signs : Nat → Bool) (v : List Val) : List Val := applySigns signs (butterflies v)

end Sys2Proof.Machine
end

