-- ==== Sys2Proof/Machine/Operands.lean ====
section
/-!
DEFINITION. Operand forms: the 32-byte command of an image (Tables 4.2 to 4.4, 4.7), descriptors and their views (Table 4.5,
R147), the conversion attribute word (Table 2.4), scale words (R64), shift words (R341) and parenthesis lists (R76).
-/
namespace Sys2Proof.Machine

/-! ### The command, Table 4.2 -/

/-- Engine codes, Table 4.1. -/
def engineCode : Engine → Nat
  | .access => 0
  | .execute => 1
  | .vector => 2
  | .conversion => 3
  | .statistics => 4

/-- The queue of a command: 0 to 3 issue channels, 4 to 11 arrays, 12 Vector Engine, 13 convert section, 14 Statistics
Unit (Table 4.1). -/
def queueOf (e : Engine) (unit : Nat) : Nat :=
  match e with
  | .access => unit % 4
  | .execute => 4 + unit
  | .vector => 12
  | .conversion => 13
  | .statistics => 14

/-- Entries of a queue, Table 4.1. -/
def queueDepth (q : Nat) : Nat := if q = 12 then 32 else 16

/-- The engine of a queue. -/
def queueEngine (q : Nat) : Engine :=
  if q < 4 then .access else if q < 12 then .execute else if q = 12 then .vector
  else if q = 13 then .conversion else .statistics

/-- The four words of a command, Table 4.2. -/
def encodeCmd (e : Engine) (opcode : Nat) (c : Cmd) (args : Nat) : BitVec 256 :=
  let w0 := c.launch.toNat + c.deadline.toNat * 2 ^ 32
  let w1 := engineCode e + opcode * 2 ^ 4 + flagNat c.wait * 2 ^ 12 + flagNat c.post * 2 ^ 13 + flagNat c.trace * 2 ^ 14
    + flagNat c.stats * 2 ^ 15 + c.waitCh.toNat * 2 ^ 16 + c.postCh.toNat * 2 ^ 20 + c.unit.toNat * 2 ^ 24
    + c.hslot.toNat * 2 ^ 28
  BitVec.ofNat 256 (w0 + w1 * 2 ^ 64 + args * 2 ^ 128)

/-- Two descriptors: source and destination (Table 4.3). -/
def argsSrcDst (src dst : DescNo) : Nat := src.toNat + dst.toNat * 2 ^ 10

/-- MMUL arguments, Table 4.4. -/
def argsMmul (x : MmulArgs) : Nat :=
  x.a.toNat + x.w.toNat * 2 ^ 10 + x.init.toNat * 2 ^ 20 + x.out.toNat * 2 ^ 30 + x.m.toNat * 2 ^ 40
    + x.n.toNat * 2 ^ 50 + x.k.toNat * 2 ^ 57 + flagNat x.rtz * 2 ^ 89 + flagNat x.transposed * 2 ^ 90
    + x.initMode.toNat * 2 ^ 91 + flagNat x.hold * 2 ^ 93 + x.wA.toNat * 2 ^ 94 + x.wW.toNat * 2 ^ 103

/-- Arithmetic layout of Table 4.7. -/
def argsArith (x : ArithArgs) : Nat :=
  x.dst.toNat + x.a.toNat * 2 ^ 10 + x.b.toNat * 2 ^ 20 + x.c.toNat * 2 ^ 30 + flagNat x.bScalar * 2 ^ 40
    + flagNat x.cScalar * 2 ^ 41 + flagNat x.rtz * 2 ^ 42 + x.opfmt.toNat * 2 ^ 43

/-- Generator layout of Table 4.7. -/
def argsGen (x : GenArgs) : Nat :=
  x.dst.toNat + x.a.toNat * 2 ^ 10 + x.key.toNat * 2 ^ 20 + flagNat x.inverse * 2 ^ 36 + flagNat x.rtz * 2 ^ 38
    + x.opfmt.toNat * 2 ^ 39 + x.base.toNat * 2 ^ 64 + x.thr.toNat * 2 ^ 104

/-- The 32 bytes that spell a command of a tile in an image (R137, Tables 4.2 to 4.4, 4.7); none for what no image holds. -/
def commandWord (i : Instr) : Option (BitVec 256) :=
  match i with
  | .nop _ e c => some (encodeCmd e 0 c 0)
  | .copy _ c s d => some (encodeCmd .access 0x01 c (argsSrcDst s d))
  | .fill _ c d v => some (encodeCmd .access 0x02 c (d.toNat * 2 ^ 10 + v.toNat * 2 ^ 64))
  | .acc _ c s d op _ _ => some (encodeCmd .access 0x03 c (argsSrcDst s d + op.toNat * 2 ^ 20))
  | .rwrite _ c s r a => some (encodeCmd .access 0x04 c (s.toNat + r.toNat * 2 ^ 10 + a.toNat * 2 ^ 24))
  | .rread _ c d r a => some (encodeCmd .access 0x05 c (d.toNat + r.toNat * 2 ^ 10 + a.toNat * 2 ^ 24))
  | .racc _ c s r k b => some (encodeCmd .access 0x06 c (s.toNat + r.toNat * 2 ^ 10 + k.toNat * 2 ^ 24 + b.toNat * 2 ^ 40))
  | .mmul _ c x _ => some (encodeCmd .execute 0x01 c (argsMmul x))
  | .convert _ c s d => some (encodeCmd .conversion 0x01 c (argsSrcDst s d))
  | .expand _ c s d => some (encodeCmd .conversion 0x02 c (argsSrcDst s d))
  | .add _ c x => some (encodeCmd .vector 0x01 c (argsArith x))
  | .sub _ c x => some (encodeCmd .vector 0x02 c (argsArith x))
  | .mul _ c x => some (encodeCmd .vector 0x03 c (argsArith x))
  | .fma _ c x => some (encodeCmd .vector 0x04 c (argsArith x))
  | .max _ c x => some (encodeCmd .vector 0x05 c (argsArith x))
  | .min _ c x => some (encodeCmd .vector 0x06 c (argsArith x))
  | .abs _ c x => some (encodeCmd .vector 0x07 c (argsArith x))
  | .neg _ c x => some (encodeCmd .vector 0x08 c (argsArith x))
  | .cmplt _ c x => some (encodeCmd .vector 0x09 c (argsArith x))
  | .cmpeq _ c x => some (encodeCmd .vector 0x0A c (argsArith x))
  | .sel _ c x => some (encodeCmd .vector 0x0B c (argsArith x))
  | .cvt _ c x => some (encodeCmd .vector 0x0C c (argsArith x))
  | .div _ c x => some (encodeCmd .vector 0x10 c (argsArith x))
  | .sqrt _ c x => some (encodeCmd .vector 0x11 c (argsArith x))
  | .rsqrt _ c x => some (encodeCmd .vector 0x12 c (argsArith x))
  | .recip _ c x => some (encodeCmd .vector 0x13 c (argsArith x))
  | .exp2 _ c x => some (encodeCmd .vector 0x14 c (argsArith x))
  | .log2 _ c x => some (encodeCmd .vector 0x15 c (argsArith x))
  | .rsum _ c x => some (encodeCmd .vector 0x20 c (argsArith x))
  | .rmax _ c x => some (encodeCmd .vector 0x21 c (argsArith x))
  | .draw _ c x => some (encodeCmd .vector 0x30 c (argsGen x))
  | .mask _ c x => some (encodeCmd .vector 0x31 c (argsGen x))
  | .rot _ c x => some (encodeCmd .vector 0x38 c (argsGen x))
  | .opn _ c k l b => some (encodeCmd .statistics 0x01 c (k.toNat + l.toNat * 2 ^ 4 + flagNat b * 2 ^ 14))
  | .close _ c k w d => some (encodeCmd .statistics 0x02 c (k.toNat + flagNat w * 2 ^ 4 + d.toNat * 2 ^ 5))
  | .send _ c l n _ => some (encodeCmd .statistics 0x03 c (l.toNat + n.toNat * 2 ^ 10))
  | _ => none

/-! ### Descriptors, Table 4.5 -/

/-- The 64 bytes of a descriptor, as a number of 512 bits. -/
def Desc.ofNat (n : Nat) : Desc :=
  let w := fun (i hi lo : Nat) => n / 2 ^ (64 * i + lo) % 2 ^ (hi + 1 - lo)
  { base := BitVec.ofNat 48 (w 0 47 0), fmt := BitVec.ofNat 4 (w 0 51 48)
    scaled := decide (w 0 52 52 = 1), listed := decide (w 0 53 53 = 1), epoch := decide (w 0 54 54 = 1)
    eslot := BitVec.ofNat 8 (w 0 63 56)
    stride := BitVec.ofNat 32 (w 1 31 0), klen := BitVec.ofNat 32 (w 1 63 32)
    row0 := BitVec.ofNat 32 (w 2 31 0), col0 := BitVec.ofNat 32 (w 2 63 32)
    rows := BitVec.ofNat 32 (w 3 31 0), cols := BitVec.ofNat 32 (w 3 63 32)
    scale := BitVec.ofNat 48 (w 4 47 0), region := BitVec.ofNat 16 (w 4 63 48)
    list := BitVec.ofNat 48 (w 5 47 0), attr := BitVec.ofNat 64 (w 6 63 0) }

def Hw.desc (h : Hw) (t : Nat) (d : DescNo) : Desc := (h.tile t).desc.get Desc.blank d.toNat

def Desc.count (d : Desc) : Nat := d.rows.toNat * d.cols.toNat
def Desc.f (d : Desc) : Nat := d.fmt.toNat

/-- R147: the element index within the shard. -/
def Desc.index (d : Desc) (i j : Nat) : Nat := (d.row0.toNat + i) * d.klen.toNat + d.col0.toNat + j

/-- R147: the block index. -/
def Desc.block (d : Desc) (i j : Nat) : Nat :=
  (d.row0.toNat + i) * ceilDiv d.klen.toNat 32 + (d.col0.toNat + j) / 32

/-- Whether the view holds an element index. -/
def Desc.holds (d : Desc) (idx : Nat) : Bool :=
  let k := d.klen.toNat
  if k = 0 then false
  else decide (d.row0.toNat ≤ idx / k ∧ idx / k < d.row0.toNat + d.rows.toNat
    ∧ d.col0.toNat ≤ idx % k ∧ idx % k < d.col0.toNat + d.cols.toNat)

/-- The address of the byte that holds view element (i, j), R147. -/
def Desc.addr (d : Desc) (i j : Nat) : Nat :=
  d.base.toNat + (i * d.stride.toNat + j) * fmtBits d.f / 8

/-- The code of view element (i, j); in FP4 the element with the even position holds bits [3:0] (R147). -/
def Hw.elem (h : Hw) (d : Desc) (i j : Nat) : Nat :=
  if d.f = 0 then
    let b := (h.byte (d.addr i j)).toNat
    if (i * d.stride.toNat + j) % 2 = 0 then b % 16 else b / 16
  else h.readNat (d.addr i j) (fmtBits d.f / 8)

/-- View element (i, j) written. -/
def Hw.setElem (h : Hw) (d : Desc) (i j code : Nat) : Hw :=
  if d.f = 0 then
    let a := d.addr i j
    let b := (h.byte a).toNat
    let v := if (i * d.stride.toNat + j) % 2 = 0 then b / 16 * 16 + code % 16 else code % 16 * 16 + b % 16
    h.setByte a (BitVec.ofNat 8 v)
  else h.writeNat (d.addr i j) (fmtBits d.f / 8) code

/-- The places of a view in element order. -/
def Desc.places (d : Desc) : List (Nat × Nat) :=
  (List.range d.rows.toNat).flatMap (fun i => (List.range d.cols.toNat).map (fun j => (i, j)))

/-- The byte runs of a view, one a row: address and length (for COPY, RWRITE and the like). -/
def Desc.runs (d : Desc) : List (Nat × Nat) :=
  (List.range d.rows.toNat).map (fun i => (d.addr i 0, d.cols.toNat * fmtBits d.f / 8))

/-- The view displaced by `n` bytes (R287: base, scale and list addresses). -/
def Desc.displace (d : Desc) (n : Nat) : Desc :=
  { d with base := BitVec.ofNat 48 (d.base.toNat + n), scale := BitVec.ofNat 48 (d.scale.toNat + n),
           list := BitVec.ofNat 48 (d.list.toNat + n) }

/-! ### The conversion attribute word, Table 2.4 -/

structure Attr where
  fmt : Nat
  mode : Nat
  rtz : Bool
  sr : Bool
  inf : Bool
  esc : Bool
  h : Nat
  watched : Bool
  shift : Int
  cap : Nat
  key : Nat
deriving DecidableEq, Repr

def Attr.ofWord (w : Word) : Attr where
  fmt := bitsOf w 3 0
  mode := bitsOf w 5 4
  rtz := bitOf w 6
  sr := bitOf w 7
  inf := bitOf w 8
  esc := bitOf w 9
  h := bitsOf w 13 10
  watched := bitOf w 14
  shift := signed 8 (bitsOf w 23 16)
  cap := bitsOf w 47 24
  key := bitsOf w 63 48

/-- The formats that carry a shift word, R61 and R341. -/
def hasShift (c : Nat) : Bool := decide (c ≤ 2 ∨ 7 ≤ c)

/-- R341: the tensor shift t, from bits [7:0] of the 8 bytes below the scale address; 0 where the format carries none. -/
def Hw.shiftOf (h : Hw) (c scale : Nat) : Int := if hasShift c then signed 8 (h.byte (scale - 8)).toNat else 0

/-- Block words of the shard up to the last block of a view. -/
def Desc.blocksTo (d : Desc) : Nat := d.block (d.rows.toNat - 1) (d.cols.toNat - 1) + 1

/-- R341: the shift word of a view in E2M1, E4M3, E5M2 or INT8. -/
def Desc.shiftRun (d : Desc) : List (Nat × Nat) := if hasShift d.f then [(d.scale.toNat - 8, 8)] else []

/-- The bytes that a unit reads with a view: elements, scale words, the shift word, the parenthesis list up to its cap. -/
def Desc.sourceRuns (d : Desc) : List (Nat × Nat) :=
  d.runs ++ (if d.scaled then [(d.scale.toNat, 2 * d.blocksTo)] else []) ++ d.shiftRun
    ++ (if d.listed then [(d.list.toNat, 8 + 8 * (Attr.ofWord d.attr).cap)] else [])

/-- The bytes that a conversion writes with a destination view whose list takes `entries` entries: what its attribute word asks
for, whatever `scaled` and `listed` say. -/
def Desc.destRuns (d : Desc) (entries : Nat) : List (Nat × Nat) :=
  let a := Attr.ofWord d.attr
  d.runs ++ (if a.mode = 2 then [(d.scale.toNat, 2 * d.blocksTo)] else []) ++ d.shiftRun
    ++ (if a.esc then [(d.list.toNat, 8 + 8 * entries)] else [])

/-- R154: the scale of block `b` as m × 2^e, and whether the word is an agreement fault: bits [15:8] are not the index's low
byte, or the code is invalid (R63). A faulty block has scale 0. -/
def Hw.blockScale (h : Hw) (scale b : Nat) : (Nat × Int) × Bool :=
  let w := h.readNat (scale + 2 * b) 2
  if w / 256 = b % 256 then
    match scaleVal (w % 256) with
    | some s => (s, false)
    | none => ((0, 0), true)
  else ((0, 0), true)

/-! ### Parenthesis lists, Tables 2.6 and 2.7 -/

structure ListHead where
  count : Nat
  ovf : Bool
  valid : Bool
deriving DecidableEq, Repr

/-- R78: the header of a list, invalid when its count exceeds `cap` or its reserved bits are nonzero. -/
def Hw.listHead (h : Hw) (list cap : Nat) : ListHead :=
  let w := BitVec.ofNat 64 (h.readNat list 8)
  ⟨bitsOf w 31 0, bitOf w 32, decide (bitsOf w 31 0 ≤ cap ∧ bitsOf w 39 33 = 0)⟩

/-- Entry k of a list. -/
def Hw.listEntry (h : Hw) (list k : Nat) : Word := BitVec.ofNat 64 (h.readNat (list + 8 + 8 * k) 8)

def entryIndex (w : Word) : Nat := bitsOf w 31 0
def entryValue (w : Word) : Nat := bitsOf w 47 32
def entryTag (w : Word) : Nat := bitsOf w 55 48

/-- The parity byte is the exclusive OR of bytes 0 to 6. -/
def entryParityOk (w : Word) : Bool :=
  decide (xorBytes ((leBytes 8 w.toNat).take 7) = BitVec.ofNat 8 (bitsOf w 63 56))

/-- An entry of Table 2.7. -/
def makeEntry (idx value step : Nat) : Word :=
  let w := BitVec.ofNat 64 (idx + value * 2 ^ 32 + step % 256 * 2 ^ 48)
  w ||| BitVec.ofNat 64 ((xorBytes ((leBytes 8 w.toNat).take 7)).toNat * 2 ^ 56)

/-- The first of `n` entries whose index is at least `x`, by binary search between lo and hi. -/
def lowerBound (idx : Nat → Nat) (x : Nat) : Nat → Nat → Nat → Nat
  | 0, lo, _ => lo
  | fuel + 1, lo, hi =>
    if hi ≤ lo then lo
    else
      let mid := (lo + hi) / 2
      if idx mid < x then lowerBound idx x fuel (mid + 1) hi else lowerBound idx x fuel lo mid

/-- The entries a unit reads for a view: from the first whose index reaches the view's smallest (R155, R159). -/
def Hw.listFrom (h : Hw) (list count smallest : Nat) : List Word :=
  let k := lowerBound (fun i => entryIndex (h.listEntry list i)) smallest 33 0 count
  (List.range (count - k)).map (fun i => h.listEntry list (k + i))

end Sys2Proof.Machine
end

