-- ==== Sys2Proof/Machine/Conv.lean ====
section
/-!
DEFINITION. Conversion of a shard or view (R67 to R78), the counts it reports (R91, R170), and the decoding of a narrow view
(R61, R78, R154, R159).
-/
namespace Sys2Proof.Machine

/-! ### Reports, Table 2.12 and R170 -/

/-- A count of a report added with saturation at 32 bits (R171). -/
def addBin (bins : SMap Nat) (k n : Nat) : SMap Nat := bins.upd 0 k (fun v => satNat 0xFFFFFFFF (v + n))

/-- One report added to another (R169). -/
def Report.add (a b : Report) : Report where
  bins := b.bins.foldl (fun m kv => addBin m kv.1 kv.2) a.bins
  elements := a.elements + b.elements
  zeros := a.zeros + b.zeros
  underflow := a.underflow + b.underflow
  saturation := a.saturation + b.saturation
  outlier := a.outlier + b.outlier
  escaped := a.escaped + b.escaped
  nonfinite := a.nonfinite + b.nonfinite
  lost := a.lost + b.lost
  agreement := a.agreement + b.agreement
  maxD := if a.maxD < b.maxD then b.maxD else a.maxD
  minD := if b.minD < a.minD then b.minD else a.minD

/-- R170: a source value placed in its bin under the reference exponent. -/
def Report.source (r : Report) (eref : Int) (v : Val) : Report :=
  match v with
  | .fin _ m e =>
    if m = 0 then { r with zeros := r.zeros + 1 }
    else
      let d := Int.ofNat (Nat.log2 m) + e - eref
      let bin := if 0 < d then 64 else if d < -63 then 65 else (-d).toNat
      let hi := clampInt (-127) 127 d
      let lo := clampInt (-128) 126 d
      { r with
        bins := addBin r.bins bin 1
        maxD := if r.maxD < hi then hi else r.maxD
        minD := if lo < r.minD then lo else r.minD }
  | _ => { r with nonfinite := r.nonfinite + 1 }

/-- R170: the reference exponent of a conversion. -/
def refExponent (fmt mode : Nat) (t : Int) : Int :=
  let m := fmtMax fmt
  let e := Int.ofNat (Nat.log2 m.1) + m.2 + (if hasShift fmt then t else 0)
  if mode = 2 then e + 8 else e

/-! ### Two-pass conversion -/

/-- An element to convert: its index in the shard, its block, its exact value. -/
structure Elem where
  idx : Nat
  blk : Nat
  v : Val
deriving DecidableEq, Repr

/-- Largest and second largest finite magnitude of a block, as m × 2^e, and how many finite elements it has (R67). -/
structure BlockMax where
  m1 : Nat
  e1 : Int
  m2 : Nat
  e2 : Int
  finite : Nat
deriving DecidableEq, Repr

def BlockMax.none : BlockMax := ⟨0, 0, 0, 0, 0⟩

def BlockMax.see (b : BlockMax) (m : Nat) (e : Int) : BlockMax :=
  if magGt m e b.m1 b.e1 then ⟨m, e, b.m1, b.e1, b.finite + 1⟩
  else if magGt m e b.m2 b.e2 then ⟨b.m1, b.e1, m, e, b.finite + 1⟩
  else { b with finite := b.finite + 1 }

/-- R68: an outlier block. -/
def BlockMax.outlier (b : BlockMax) (a : Attr) : Bool :=
  a.esc && decide (0 < a.h) && decide (2 ≤ b.finite) && magGt b.m1 b.e1 b.m2 (b.e2 + Int.ofNat a.h)

/-- R68: the working maximum of a block. -/
def BlockMax.working (b : BlockMax) (a : Attr) : Nat × Int :=
  if b.outlier a then (b.m2, b.e2) else (b.m1, b.e1)

/-- Pass 1: the maxima of every block. -/
def passOne (xs : List Elem) : SMap BlockMax :=
  xs.foldl (fun bs x =>
    match x.v with
    | .fin _ m e => bs.upd BlockMax.none x.blk (fun b => b.see m e)
    | _ => bs) []

/-- The tensor maximum A (R68). -/
def tensorMax (a : Attr) (bs : SMap BlockMax) : Nat × Int :=
  bs.foldl (fun acc kb => let w := kb.2.working a; if magGt w.1 w.2 acc.1 acc.2 then w else acc) (0, 0)

/-- R69: the tensor shift. -/
def tensorShift (a : Attr) (big : Nat × Int) : Int :=
  if a.mode = 0 then a.shift
  else if big.1 = 0 then 0
  else
    let m := fmtMax a.fmt
    let p := ratioOf big.1 m.1 (big.2 - m.2)
    let e := ratioLog p.1 p.2
    if a.mode = 2 then clampInt (-128) 127 (e - 7)
    else
      let q := ratioOf p.1 p.2 (-e)
      clampInt (-128) 127 (if q.1 = q.2 then e else e + 1)

/-- R70: the scale code of a block in mode 2. -/
def blockCode (a : Attr) (t : Int) (b : BlockMax) : Nat :=
  let w := b.working a
  let m := fmtMax a.fmt
  if w.1 = 0 then 0
  else
    let p := ratioOf w.1 m.1 (w.2 - m.2 - t)
    scaleCodeFor p.1 p.2

/-- What pass 2 has written so far; codes and entries newest first. -/
structure ConvSt where
  codes : List Nat
  entries : List (Nat × Nat)
  lost : Nat
  watched : Bool
  rep : Report
deriving DecidableEq, Repr

/-- What a conversion writes: the elements' codes in order, the scale code of each block, the tensor shift, the list's
entries (index, BF16 value), the escapes lost, whether a non-finite output was seen, and the counts. -/
structure ConvOut where
  codes : List Nat
  scales : SMap Nat
  shift : Int
  entries : List (Nat × Nat)
  lost : Nat
  watched : Bool
  rep : Report
deriving DecidableEq, Repr

/-- R77: the element written for an escape that finds the list full. -/
def lostCode (fmt : Nat) : Val → Nat
  | .nan => fmtNan fmt
  | .inf s => maxCode fmt s
  | .fin s _ _ => maxCode fmt s

/-- Pass 2 of one element (R71 to R77). `random`, where it is given, gives the 16 bits of R81. The list value of a finite
element that passes the largest finite BF16 when it is rounded is a BF16 infinity. DESIGN CHOICE: assumption 80. -/
def passTwo (a : Attr) (t : Int) (bs : SMap BlockMax) (scales : SMap Nat) (random : Option (Nat → Nat)) (st : ConvSt)
    (x : Elem) : ConvSt :=
  let b := bs.get BlockMax.none x.blk
  let isOut := match x.v with
    | .fin _ m e => b.outlier a && !magGt b.m1 b.e1 m e && !magGt m e b.m1 b.e1
    | _ => false
  let rep := (st.rep.source (refExponent a.fmt a.mode t) x.v)
  let rep := { rep with elements := rep.elements + 1 }
  if a.esc && (!x.v.isFin || isOut) then
    if st.entries.length < a.cap then
      { codes := (if a.fmt = 0 then 8 else 0x80) :: st.codes
        entries := (x.idx, encodeVal 3 (roundVal 3 false x.v).1) :: st.entries
        lost := st.lost
        watched := st.watched || !x.v.isFin
        rep := if isOut then { rep with outlier := rep.outlier + 1 } else { rep with escaped := rep.escaped + 1 } }
    else
      { st with
        codes := lostCode a.fmt x.v :: st.codes
        lost := st.lost + 1
        watched := st.watched || (x.v.isNan && decide (a.fmt = 1))
        rep := { rep with lost := rep.lost + 1 } }
  else
    let c := match x.v with
      | .fin s m e =>
        let sc := if a.mode = 2 then (scaleVal (scales.get 0 x.blk)).getD (0, 0) else (1, 0)
        convFin a.fmt a.inf a.rtz (random.map (fun (r : Nat → Nat) => r x.idx)) s m e sc.1 (sc.2 + t)
      | v => convNonFin a.fmt a.inf v
    { st with
      codes := c.code :: st.codes
      watched := st.watched || c.nonfin
      rep := { rep with saturation := rep.saturation + flagNat c.sat, underflow := rep.underflow + flagNat c.und } }

/-- The whole procedure for one tensor shard or view (R67 to R77). -/
def convertAll (a : Attr) (xs : List Elem) (random : Option (Nat → Nat)) : ConvOut :=
  let bs := passOne xs
  let t := tensorShift a (tensorMax a bs)
  let scales : SMap Nat :=
    if a.mode = 2 then xs.foldl (fun m x => m.insert x.blk (blockCode a t (bs.get BlockMax.none x.blk))) [] else []
  let st := xs.foldl (passTwo a t bs scales random) ⟨[], [], 0, false, Report.none⟩
  ⟨st.codes.reverse, scales, t, st.entries.reverse, st.lost, st.watched, st.rep⟩

/-- The elements written at a view's places. -/
def Hw.writeCodes (h : Hw) (d : Desc) (codes : List Nat) : Hw :=
  (d.places.zip codes).foldl (fun h pc => h.setElem d pc.1.1 pc.1.2 pc.2) h

/-- The scale words of R64, the shift word of R341, and the list of R76 written beside the elements. -/
def Hw.writeSide (h : Hw) (a : Attr) (scale list step : Nat) (o : ConvOut) : Hw :=
  let h := o.scales.foldl (fun h bs => h.writeNat (scale + 2 * bs.1) 2 (bs.2 + bs.1 % 256 * 256)) h
  let h := if hasShift a.fmt then h.writeNat (scale - 8) 8 (unsigned 8 o.shift) else h
  if a.esc then
    let h := (List.range o.entries.length).foldl (fun h k =>
      match o.entries[k]? with
      | some (idx, v) => h.writeNat (list + 8 + 8 * k) 8 (makeEntry idx v step).toNat
      | none => h) h
    h.writeNat list 8 (o.entries.length + flagNat (decide (0 < o.lost)) * 2 ^ 32
      + satNat 0xFFFFFF o.lost * 2 ^ 40)
  else h

/-- The elements of a view with their values. -/
def elemsOf (d : Desc) (vs : List Val) : List Elem :=
  (d.places.zip vs).map (fun pv => ⟨d.index pv.1.1 pv.1.2, d.block pv.1.1 pv.1.2, pv.2⟩)

/-- Values converted to a destination view under its attribute word, with everything the conversion writes.
DEDUCED: assumption 52. -/
def Hw.convertTo (h : Hw) (d : Desc) (vs : List Val) (step : Nat) : Hw × ConvOut :=
  let a := Attr.ofWord d.attr
  let o := convertAll a (elemsOf d vs) none
  ((h.writeCodes d o.codes).writeSide a d.scale.toNat d.list.toNat step o, o)

/-! ### Decoding a view -/

/-- A decoded view: its values in element order, and the agreement faults raised. -/
structure Decoded where
  vals : List Val
  faults : Nat
deriving DecidableEq, Repr

/-- How the walk of R78 stands: the entries not yet paired, the values so far (newest first), the faults so far. -/
structure Walk where
  left : List Word
  vals : List Val
  faults : Nat
deriving DecidableEq, Repr

/-- Whether the k-th escape code and its entry pair (R78). -/
def pairOk (w : Word) (idx step : Nat) : Bool :=
  decide (entryIndex w = idx) && decide (entryTag w = step % 256) && entryParityOk w

/-- The exact value of an element of a scaled tensor: q × s × 2^t (R61). -/
def scaledVal (q : Val) (s : Nat × Int) (t : Int) : Val :=
  match q with
  | .fin n m e => .fin n (m * s.1) (e + s.2 + t)
  | v => v

/-- One element decoded: `quiet` when escape codes without entry raise no fault (ovf, or an invalid header). -/
def walkOne (listed quiet : Bool) (step : Nat) (fmt : Nat) (st : Walk) (code idx : Nat) (s : (Nat × Int) × Bool) (t : Int) :
    Walk :=
  if isEscape fmt code then
    if !listed then { st with vals := .zero :: st.vals, faults := st.faults + 1 }
    else
      match st.left with
      | [] => { st with vals := .zero :: st.vals, faults := st.faults + flagNat (!quiet) }
      | w :: ws =>
        if pairOk w idx step then
          ⟨ws, (if s.2 then .zero else decodeVal 3 (entryValue w)) :: st.vals, st.faults⟩
        else ⟨ws, .zero :: st.vals, st.faults + 1⟩
  else
    let v := if s.2 then .zero else scaledVal (decodeVal fmt code) s.1 t
    { st with vals := v :: st.vals }

/-- The entries of a list that a decoding unit reads: all `count` of them (R78), or, with `search`, those from the first whose
index is at least the smallest of the view (R159). -/
def Hw.entriesRead (h : Hw) (d : Desc) (count : Nat) (search : Bool) : List Word :=
  if search then h.listFrom d.list.toNat count (d.index 0 0)
  else (List.range count).map (fun k => h.listEntry d.list.toNat k)

/-- R159, R78: a narrow view decoded. One agreement fault for each faulty block, failed pairing, unpaired entry of the view,
or invalid header. -/
def Hw.decodeView (h : Hw) (d : Desc) (step : Nat) (search : Bool) : Decoded :=
  let fmt := d.f
  let t := h.shiftOf fmt d.scale.toNat
  let blocks := (d.places.map (fun p => d.block p.1 p.2)).eraseDups
  let bad := if d.scaled then (blocks.filter (fun b => (h.blockScale d.scale.toNat b).2)).length else 0
  let head := h.listHead d.list.toNat (Attr.ofWord d.attr).cap
  let entries :=
    if d.listed && head.valid then
      (h.entriesRead d head.count search).filter (fun w => d.holds (entryIndex w))
    else []
  let headFault := flagNat (d.listed && !head.valid)
  let w := d.places.foldl (fun st p =>
    let s := if d.scaled then h.blockScale d.scale.toNat (d.block p.1 p.2) else ((1, 0), false)
    walkOne d.listed (head.ovf || !head.valid) step fmt st (h.elem d p.1 p.2) (d.index p.1 p.2) s t) ⟨entries, [], 0⟩
  ⟨w.vals.reverse, w.faults + w.left.length + bad + headFault⟩

/-- A plain view decoded: BF16, FP16, FP32, FP64, or INT8 with its shift (R162). -/
def Hw.plainVals (h : Hw) (d : Desc) : List Val :=
  let t := h.shiftOf d.f d.scale.toNat
  d.places.map (fun p => scaledVal (decodeVal d.f (h.elem d p.1 p.2)) (1, 0) t)

end Sys2Proof.Machine
end

