-- ==== Sys2Proof/Machine/Mesh.lean ====
section
/-!
DEFINITION. The mesh and the die bridge: where units stand and how long a transfer takes (R28 to R32, R218, R480); homes of
tiered addresses under the Tier Map (R190 to R192); region epochs at their homes (R150, R212); and the slots that the
calendars of the running job give to class 1 flits (R232, R233).
-/
namespace Sys2Proof.Machine

/-! ### Endpoints and latencies, R28 to R32 -/

/-- An endpoint of the mesh: die, grid position, and the slice it joins through if it is no tile. -/
structure Endpoint where
  die : Nat
  row : Nat
  col : Nat
  slice : Option Nat
deriving DecidableEq, Repr

/-- R28. -/
def tilePoint (t : Nat) : Endpoint := ⟨t / 256, t % 256 / 16, t % 16, none⟩

/-- R29, R30: local slice l of a die. -/
def localSlice (die l : Nat) : Endpoint :=
  let p := l % 16
  let rc := match l / 16 with
    | 0 => (0, p)
    | 1 => (p, 15)
    | 2 => (15, p)
    | _ => (p, 0)
  ⟨die, rc.1, rc.2, some l⟩

def slicePoint (s : Nat) : Endpoint := localSlice (s / 64) (s % 64)

/-- R31. -/
def stackPoint (d : Nat) : Endpoint := localSlice (d / 6) (33 + 2 * (d % 6))
def channelPoint (c : Nat) : Endpoint := localSlice (c / 4) (44 + c % 4)

/-- R218. -/
def portPoint (p : Nat) : Endpoint :=
  let j := p % 12
  localSlice (p / 12) (if j < 6 then 17 + 2 * j else 49 + 2 * (j - 6))

/-- R480: inflection control. -/
def inflPoint : Endpoint := localSlice 0 8

def absDiff (a b : Nat) : Nat := (a - b) + (b - a)

/-- R32: the bridge point at position p is a slice endpoint on side 0 of its die, through which no unit joins (its number is that
of no slice). DEDUCED: assumption 82. -/
def bridgePoint (die p : Nat) : Endpoint := { localSlice die p with slice := some (64 + p) }

/-- R30: hops between two endpoints of one die; none between units that join through one slice. -/
def Endpoint.hops (a b : Endpoint) : Nat :=
  if a.slice.isSome && decide (a.slice = b.slice) then 0
  else absDiff a.row b.row + absDiff a.col b.col + flagNat a.slice.isSome + flagNat b.slice.isSome

/-- One-way latency in tile-engine cycles, R30 and R32. A slice at the bridge point's own position is two hops from it.
DEDUCED: assumption 82. -/
def latency (a b : Endpoint) : Nat :=
  if a.die = b.die then 8 + 2 * a.hops b
  else
    let p := match b.slice with
      | none => b.col
      | some l => if l / 16 = 1 then 15 else if l / 16 = 3 then 0 else l % 16
    (8 + 2 * a.hops (bridgePoint a.die p)) + 32 + (8 + 2 * (bridgePoint b.die p).hops b)

/-- The same in ticks: two cycles a tick (R7, R30). -/
def latencyTicks (a b : Endpoint) : Nat := ceilDiv (latency a b) 2

/-! ### The die bridge, R33 -/

/-- A transfer from die `d` to the other one meets an error: a corrected one is counted; an uncorrectable one sets the
bridge's flag, is counted, and marks the step unclean. -/
def Hw.bridgeFault (h : Hw) (d : Nat) (unc : Bool) : Hw :=
  if unc then
    (({ h with tier := { h.tier with bridgeUncFlag := true, bridgeUnc := h.tier.bridgeUnc + 1 } }).event ringModule 0x61
      d).signalOwn 7
  else ({ h with tier := { h.tier with bridgeCorr := h.tier.bridgeCorr + 1 } }).event ringModule 0x60 d

/-- The bridge discards a transfer from `a` to `b`. -/
def bridgeLoses (a b : Endpoint) (found : Ecc) : Bool := decide (a.die ≠ b.die) && decide (found = .uncorrectable)

/-- A transfer from `a` to `b` that does `go` where it arrives: between dies it crosses the bridge, which discards it on an
uncorrectable error. -/
def Hw.cross (h : Hw) (a b : Endpoint) (found : Ecc) (go : Hw → Hw) : Hw :=
  if a.die = b.die then go h
  else
    match found with
    | .clean => go h
    | .corrected => go (h.bridgeFault a.die false)
    | .uncorrectable => h.bridgeFault a.die true

/-! ### The Tier Map, R190 to R192 -/

def pageOf (a : Nat) : Nat := a / 0x200000

def tierFrame (w : Word) : Nat := bitsOf w 17 0
def tierIsT2 (w : Word) : Bool := bitOf w 18
def tierCacheable (w : Word) : Bool := bitOf w 19
def tierScheduled (w : Word) : Bool := bitOf w 20
def tierBusy (w : Word) : Bool := bitOf w 21
def tierOwned (w : Word) : Bool := bitOf w 22
def tierJob (w : Word) : Nat := bitsOf w 30 23

/-- The controller of a tiered address: 0 to 11 a stack, 12 to 19 an LPDDR5X channel (R191). -/
def Hw.controllerOf (h : Hw) (a : Nat) : Nat :=
  let e := h.tierEntry (pageOf a)
  if tierIsT2 e then 12 + tierFrame e % 8 else tierFrame e % 12

/-- The bank that serves a tiered address, with its pseudo-channel or subchannel, as one number (Tables 5.4 and 5.5). -/
def Hw.bankOf (h : Hw) (a : Nat) : Nat :=
  let o := a % 0x200000
  if tierIsT2 (h.tierEntry (pageOf a)) then o / 2 ^ 11 % 4 * 16 + o / 2 ^ 13 % 16
  else o / 2 ^ 10 % 64 * 32 + o / 2 ^ 20 % 2 * 16 + o / 2 ^ 16 % 4 * 4 + o / 2 ^ 18 % 4

/-- The bank number within its pseudo-channel or subchannel, as refresh counts it (R202, R204). -/
def Hw.refreshBankOf (h : Hw) (a : Nat) : Nat :=
  if tierIsT2 (h.tierEntry (pageOf a)) then h.bankOf a % 16 else h.bankOf a % 32

/-- The mesh endpoint of an address. -/
def Hw.pointOf (h : Hw) (a : Nat) : Endpoint :=
  match spaceOf a with
  | .tileMem => tilePoint (tileOf a)
  | .shared => slicePoint (sliceOf a)
  | _ =>
    let c := h.controllerOf a
    if c < 12 then stackPoint c else channelPoint (c - 12)

/-! ### Regions and their epochs, R150 and R212 -/

/-- The regions of an image and the copies of its ingest regions: buffer j displaced by j × stride (R287). -/
def Image.extents (i : Image) : List Region :=
  i.regions ++ (List.range (i.ingestK - 1)).flatMap (fun j =>
    (i.regions.filter (fun r => i.ingestRegions.contains r.number)).map (fun r => { r with base := r.base + (j + 1) * i.ingestStride }))

/-- The regions of the admitted image that hold an address. -/
def Hw.regionsAt (h : Hw) (a : Nat) : List Region :=
  match h.job with
  | none => []
  | some j => j.img.regions.filter (fun r => decide (r.base ≤ a ∧ a < r.base + r.length))

/-- Where the epoch of a region is held: the register of its home (R212), fixed at admission. -/
def Hw.epochHome (h : Hw) (region : Nat) : Option Nat :=
  match h.job with
  | none => none
  | some j => j.homes.find? region

/-- Where the register of a home stands. -/
def homePoint (a : Nat) : Endpoint :=
  match locate a with
  | some (.slice, s, _) => slicePoint s
  | some (.stack, d, _) => stackPoint d
  | _ => inflPoint

/-- The region epoch at the home; a region without one has none to differ. -/
def Hw.regionEpoch (h : Hw) (region : Nat) : Half :=
  match h.epochHome region with
  | none => 0
  | some a => BitVec.ofNat 16 (bitsOf (h.reg a) 15 0)

/-- R150: the epoch of a region rises by one, modulo 2^16. -/
def Hw.bumpEpoch (h : Hw) (region : Nat) : Hw :=
  match h.epochHome region with
  | none => h
  | some a => h.setReg a (withBits (h.reg a) 15 0 (bitsOf (h.reg a) 15 0 + 1))

/-- The regions of the admitted image that hold a byte of these runs of bytes. -/
def Hw.regionsOver (h : Hw) (runs : List (Nat × Nat)) : List Nat :=
  match h.job with
  | none => []
  | some j => (j.img.regions.filter (fun r => runs.any (fun x =>
      decide (0 < x.2 ∧ r.base < x.1 + x.2 ∧ x.1 < r.base + r.length)))).map (fun r => r.number)

/-- R150: a write of these runs completes: every region it touches rises once. -/
def Hw.bumpTouched (h : Hw) (runs : List (Nat × Nat)) : Hw := (h.regionsOver runs).foldl Hw.bumpEpoch h

/-! ### Writes that reach memory -/

/-- R188: a write that reaches the aligned 8 bytes of a reservation loses it. -/
def Hw.dropReservations (h : Hw) (a n : Nat) : Hw :=
  if spaceOf a = .shared then
    let x := h.slice (sliceOf a)
    h.setSlice (sliceOf a)
      { x with reserve := x.reserve.filter (fun r => decide (r.2.toNat / 8 < a / 8 ∨ (a + n - 1) / 8 < r.2.toNat / 8)) }
  else h

/-- Bytes written by a unit other than the core that holds a reservation. -/
def Hw.store (h : Hw) (a : Nat) (bs : List Byte) : Hw := (h.write a bs).dropReservations a bs.length

/-! ### Slice events, Table 5.12 -/

/-- SLC_FLAGS bit b and its counter. -/
def sliceFlagFld (b : Nat) : Fld × Fld :=
  match b with
  | 0 => (Fld.SLC_FLAGS.ecc_corr, Fld.SLC_CNT_A.ecc_corr)
  | 1 => (Fld.SLC_FLAGS.ecc_unc, Fld.SLC_CNT_A.ecc_unc)
  | 2 => (Fld.SLC_FLAGS.bus_err, Fld.SLC_CNT_B.bus_err)
  | _ => (Fld.SLC_FLAGS.acc_nan, Fld.SLC_CNT_B.acc_nan)

/-- An event of a slice with its record: address, and whether it was a write (Table 12.4). -/
def Hw.sliceEvent (h : Hw) (s b addr : Nat) (write : Bool) : Hw :=
  let ff := sliceFlagFld b
  h.raise (sliceBase s) ff.1 ff.2 (ringSlice s) (0x20 + b) (addr + flagNat write * 2 ^ 48)

/-- What SECDED found in a word a slice read for a scheduled access (R189, R213). DESIGN CHOICE: assumption 13. -/
def Hw.sliceEcc (h : Hw) (found : Ecc) (addr : Nat) : Hw :=
  match found with
  | .clean => h
  | .corrected => h.sliceEvent (sliceOf addr) 0 addr false
  | .uncorrectable => (h.sliceEvent (sliceOf addr) 1 addr false).signalOwn 6

/-- The module as a reader sees it who finds the 8-byte word at `a` uncorrectable: the word reads as zero (R133, R189). -/
def Hw.seenWith (h : Hw) (found : Ecc) (a : Nat) : Hw :=
  if found = .uncorrectable then h.writeNat (a - a % 8) 8 0 else h

/-! ### Accesses of an Access Engine, R36 to R38 -/

/-- Whether a segment, numbered over the module, is a scratchpad. -/
def Hw.scratchpad (h : Hw) (seg : Nat) : Bool :=
  decide (h.fld (sliceBase (seg / 16)) Fld.SLC_SEG_CFG.cache / 2 ^ (seg % 16) % 2 = 0)

/-- Whether an engine reaches the byte at an address: tile memory, the scratchpads and the tiered range (R36, R37). -/
def Hw.reaches (h : Hw) (a : Nat) : Bool :=
  match spaceOf a with
  | .tiered => true
  | .tileMem => true
  | .shared => h.scratchpad ((a - sharedBase) / 0x40000)
  | _ => false

/-- Bytes as an engine reads them: zero in a cache segment (R36) and where nothing lies (R38). DESIGN CHOICE: assumption 84. -/
def Hw.engineRead (h : Hw) (a n : Nat) : List Byte :=
  (List.range n).map (fun i => if h.reaches (a + i) then h.byte (a + i) else 0)

/-- A write of an engine within one 128-byte line. One to a cache segment, or to no memory, changes nothing; the first is a
bus error of its slice (R36, R38). DESIGN CHOICE: assumption 84. -/
def Hw.engineStore (h : Hw) (a : Nat) (bs : List Byte) : Hw :=
  if h.reaches a then h.store a bs
  else if spaceOf a = .shared then h.sliceEvent (sliceOf a) 2 a true
  else h

/-! ### Calendar slots, R232 and R233 -/

/-- The calendar of a port for the running plan variant. -/
def Hw.calendar (h : Hw) (p : Nat) : List CalEntry :=
  match h.job with
  | none => []
  | some j =>
    match j.img.calendars.find? (fun c => decide (c.1 = j.slotPlan ∧ c.2.1 = p)) with
    | none => []
    | some c => c.2.2

/-- The slots an entry claims. -/
def CalEntry.slots (e : CalEntry) : List Nat := (List.range e.count).map (fun i => e.slot0 + i)

/-- Slots in the order of R233: by slot number, then by port. -/
def slotInsert (x : Nat × Nat) : List (Nat × Nat) → List (Nat × Nat)
  | [] => [x]
  | y :: ys => if decide (x.1 < y.1) || (decide (x.1 = y.1) && decide (x.2 ≤ y.2)) then x :: y :: ys else y :: slotInsert x ys

/-- The slots of the ports' calendars that name a tile and channel, on every port, in the order of R233. -/
def slotsNaming (calendar : Nat → List CalEntry) (t ch : Nat) : List (Nat × Nat) :=
  ((List.range 24).flatMap (fun p =>
    ((calendar p).filter (fun e => !e.resp && !e.tree && decide (e.tile = t ∧ e.chan = ch))).flatMap
      (fun e => e.slots.map (fun s => (s, p))))).foldl (fun acc x => slotInsert x acc) []

/-- The slots of a channel in the running plan variant. -/
def Hw.channelSlots (h : Hw) (t ch : Nat) : List (Nat × Nat) := slotsNaming h.calendar t ch

/-- The slots of a response window of a port's calendar (R232, R242). -/
def Hw.windowSlots (h : Hw) (p window : Nat) : List Nat :=
  match ((h.calendar p).filter (fun e => e.resp))[window]? with
  | none => []
  | some e => e.slots

/-- The slots of a port's tree entries. -/
def Hw.treeSlots (h : Hw) (p : Nat) : List Nat :=
  ((h.calendar p).filter (fun e => e.tree)).flatMap CalEntry.slots

/-- A class 1 flit placed on its port with its slot and the tick it is ready there. -/
def Hw.placeFlit (h : Hw) (p slot : Nat) (ready : Nat) (f : Flit) : Hw :=
  let x := h.port p
  h.setPort p { x with c1 := x.c1 ++ [⟨slot, BitVec.ofNat 64 ready, f⟩] }

/-- R233: the flits a channel produces, each assigned to the next slot of its channel; `from` is where its bytes are. A flit
for which no slot is left is not produced: admission refuses such an image. -/
def Hw.produce (h : Hw) (t ch : Nat) (fs : List Flit) : Hw :=
  let key := t * 4 + ch
  let slots := h.channelSlots t ch
  fs.foldl (fun h f =>
    match h.job with
    | none => h
    | some j =>
      let k := j.produced.get 0 key
      match slots[k]? with
      | none => h
      | some (slot, p) =>
        let h := { h with job := some { j with produced := j.produced.set 0 key (k + 1) } }
        h.placeFlit p slot (h.now + latencyTicks (tilePoint t) (portPoint p)) f) h

/-! ### Flits -/

/-- A flit with every field zero. -/
def blankFlit : Flit := ⟨0, 0, 0, 0, 0, 0, 0, 0, 0, 0, 0, false, false, 0, 0⟩

/-- The 224 data bytes of a flit as a number, zero beyond the bytes given (Table 6.3). -/
def dataOf (bs : List Byte) : BitVec 1792 := BitVec.ofNat 1792 (leNat bs)

/-- The valid data bytes of a flit. -/
def flitBytes (f : Flit) : List Byte := leBytes f.len.toNat f.data.toNat

/-- Bits [hi:lo] of the message field. -/
def msgBits (f : Flit) (hi lo : Nat) : Nat := f.msg.toNat / 2 ^ lo % 2 ^ (hi + 1 - lo)

/-- The parts of `size` bytes of a message (R240). -/
def chunks (size : Nat) : Nat → List Byte → List (List Byte)
  | 0, _ => []
  | fuel + 1, bs => if bs.isEmpty then [] else bs.take size :: chunks size fuel (bs.drop size)

/-- The header of a flit of this rank's job (R228). -/
def Hw.flitHead (h : Hw) (cls mtype dst : Nat) (first last : Bool) : Flit :=
  { blankFlit with
    cls := BitVec.ofNat 2 cls, mtype := BitVec.ofNat 6 mtype, dst := BitVec.ofNat 14 dst, src := BitVec.ofNat 14 h.rank
    job := BitVec.ofNat 8 (h.fld inflBase Fld.INFL_COMMIT_STATE.job)
    gen := BitVec.ofNat 16 (if (cls = 1 ∨ cls = 2) ∧ 0x20 ≤ h.domainVer then
      h.fld inflBase Fld.INFL_COMMIT_STATE.layout_gen else 0)
    first := first, last := last }

/-- The flits of a message of `bs`, with the message field of each part (R240). -/
def Hw.messageFlits (h : Hw) (cls mtype dst : Nat) (bs : List Byte) (msg : Nat → Nat) : List Flit :=
  let parts := chunks 224 (bs.length / 224 + 1) bs
  (List.range parts.length).map (fun k =>
    let d := (parts[k]?).getD []
    { h.flitHead cls mtype dst (decide (k = 0)) (decide (k + 1 = parts.length)) with
      msg := BitVec.ofNat 96 (msg k), data := dataOf d, len := BitVec.ofNat 8 d.length })

end Sys2Proof.Machine
end

