-- ==== Sys2Proof/Machine/Tile.lean ====
section
/-!
DEFINITION. How a tile starts, holds and ends a command of any engine: tile events (R133, R174), the streams and queues
(R135, R136), the launch conditions of R140, tokens (R141), epoch queries (R152, R386), statistics reports (R169) and
completion.
-/
namespace Sys2Proof.Machine

/-- The step counter of the step being run (R49). -/
def Hw.stepNo (h : Hw) : Nat := h.fld inflBase Fld.INFL_COMMIT_STEP.step

/-! ### Tile events, R174 -/

/-- TILE_FLAGS bit b and its counter (Tables 4.14 and 4.15). -/
def tileFlagFld (b : Nat) : Fld × Fld :=
  match b with
  | 0 => (Fld.TILE_FLAGS.deadline, Fld.TILE_CNT_A.deadline)
  | 1 => (Fld.TILE_FLAGS.hazard, Fld.TILE_CNT_A.hazard)
  | 2 => (Fld.TILE_FLAGS.agreement, Fld.TILE_CNT_B.agreement)
  | 3 => (Fld.TILE_FLAGS.lost_escape, Fld.TILE_CNT_B.lost_escape)
  | 4 => (Fld.TILE_FLAGS.nonfinite, Fld.TILE_CNT_C.nonfinite)
  | 5 => (Fld.TILE_FLAGS.tier_err, Fld.TILE_CNT_C.tier_err)
  | 6 => (Fld.TILE_FLAGS.ecc_corr, Fld.TILE_CNT_D.ecc_corr)
  | 7 => (Fld.TILE_FLAGS.ecc_unc, Fld.TILE_CNT_D.ecc_unc)
  | _ => (Fld.TILE_FLAGS.bus_err, Fld.TILE_CNT_E.bus_err)

/-- The unclean cause of a TILE_FLAGS bit (Table 8.7); none for those that only count. -/
def tileCause (b : Nat) : Option Nat :=
  match b with
  | 0 => some 0
  | 1 => some 4
  | 2 => some 1
  | 3 => some 2
  | 4 => some 3
  | 5 => some 5
  | 7 => some 6
  | _ => none

/-- An event of a tile: flag and counter, the record in the ring of engine `e` with code b, and TILE_STATUS.unclean where
its class marks the step unclean (R145, R174). -/
def Hw.tileMark (h : Hw) (t e b detail : Nat) : Hw :=
  let ff := tileFlagFld b
  let h := h.raise (tileBase t) ff.1 ff.2 (ringTile t e) b detail
  if (tileCause b).isSome then h.setFld (tileBase t) Fld.TILE_STATUS.unclean 1 else h

/-- The same with its signal to inflection control. Outlier overflow and non-finite outputs give no fault report
(Table 12.6). -/
def Hw.tileEvent (h : Hw) (t e b detail : Nat) : Hw :=
  let h := h.tileMark t e b detail
  match tileCause b with
  | none => h
  | some c => if c = 2 ∨ c = 3 then h.signal c none else h.signalOwn c

/-- The detail of an event of a command: tag and unit (Table 12.4). -/
def cmdDetail (c : Cmd) : Nat := c.tag.toNat + c.unit.toNat * 2 ^ 32

/-- `n` events of one kind raised by a command. -/
def Hw.cmdEvents (h : Hw) (t : Nat) (e : Engine) (b : Nat) (c : Cmd) (n : Nat) : Hw :=
  forUpTo n h (fun _ h => h.tileEvent t (engineCode e) b (cmdDetail c))

/-- The memory code of an event record of R133 (Table 12.4). -/
def tileMemCode : TileMem → Nat
  | .memory => 0
  | .descriptors => 1
  | .summary => 2

/-- R133: an error that SECDED found in a word that engine `e` read: counted, with its class (Table 4.11). -/
def Hw.tileFind (h : Hw) (t e : Nat) (f : EccFind) : Hw :=
  h.tileEvent t e (if f.unc then 7 else 6) (tileMemCode f.mem + f.word.toNat * 4)

/-- R133: every error that SECDED found in the words of a tile that engine `e` read. DESIGN CHOICE: assumption 13. -/
def Hw.tileEcc (h : Hw) (t e : Nat) (found : List EccFind) : Hw := found.foldl (fun h f => h.tileFind t e f) h

/-- A descriptor with its 8-byte word `i` read as zero. -/
def Desc.zeroWord (d : Desc) (i : Nat) : Desc :=
  match i with
  | 0 => { d with base := 0, fmt := 0, scaled := false, listed := false, epoch := false, eslot := 0 }
  | 1 => { d with stride := 0, klen := 0 }
  | 2 => { d with row0 := 0, col0 := 0 }
  | 3 => { d with rows := 0, cols := 0 }
  | 4 => { d with scale := 0, region := 0 }
  | 5 => { d with list := 0 }
  | 6 => { d with attr := 0 }
  | _ => d

/-- A summary record with its 8-byte word `i` read as zero. -/
def SumRec.zeroWord (r : SumRec) (i : Nat) : SumRec :=
  match i with
  | 0 => { r with elements := 0, zeros := 0 }
  | 1 => { r with underflow := 0, saturation := 0 }
  | 2 => { r with outlier := 0, nonfinite := 0, lost := 0, agreement := 0 }
  | _ => { r with top := 0, low := 0, maxD := 0, minD := 0 }

/-- R133: a word of a tile as a reader finds it: an uncorrectable one is delivered as zero. -/
def Hw.readWord (h : Hw) (t : Nat) (f : EccFind) : Hw :=
  if f.unc then
    let x := h.tile t
    match f.mem with
    | .memory => h.writeNat (tileMemBase + t * 0x80000 + f.word.toNat * 8) 8 0
    | .descriptors =>
      h.setTile t { x with desc := x.desc.upd Desc.blank (f.word.toNat / 8) (fun d => d.zeroWord (f.word.toNat % 8)) }
    | .summary =>
      h.setTile t { x with summary := x.summary.upd SumRec.none (f.word.toNat / 4) (fun r => r.zeroWord (f.word.toNat % 4)) }
  else h

/-- R133: a tile as a command that meets these errors reads it. What the tile holds does not change.
DESIGN CHOICE: assumption 13. -/
def Hw.readFound (h : Hw) (t : Nat) (found : List EccFind) : Hw := found.foldl (fun h f => h.readWord t f) h

/-- The finding of one error code in the word of tile memory at `a`. -/
def findAt (found : Ecc) (a : Nat) : List EccFind :=
  let word := BitVec.ofNat 16 ((a - tileMemBase) % 0x80000 / 8)
  match found with
  | .clean => []
  | .corrected => [⟨.memory, word, false⟩]
  | .uncorrectable => [⟨.memory, word, true⟩]

/-- A schedule hazard (R151, R152): flag, record, unclean mark; the dump is asked for at the slot's verdict (Table 12.7). -/
def Hw.hazard (h : Hw) (t e : Nat) (region recorded home eslot : Nat) (torn : Bool) : Hw :=
  (h.tileEvent t e 1 (region + recorded * 2 ^ 16 + home * 2 ^ 32 + eslot * 2 ^ 48 + flagNat torn * 2 ^ 56)).onJob
    (fun j => { j with hazardDump := true })

/-! ### Streams and queues, R135 and R136 -/

def TileSt.queue (x : TileSt) (q : Nat) : List QCmd := x.queues.get [] q
def TileSt.setQueue (x : TileSt) (q : Nat) (l : List QCmd) : TileSt := { x with queues := x.queues.set [] q l }
def TileSt.stream (x : TileSt) (e : Nat) : List QCmd := x.streams.get [] e

/-- The queue a command of an engine's stream enters. -/
def QCmd.queue (c : QCmd) (e : Engine) : Nat := queueOf e (c.bits.toNat / 2 ^ 88 % 8)

/-- Launch and deadline offsets of a command (Table 4.2). -/
def QCmd.launch (c : QCmd) : Nat := c.bits.toNat % 2 ^ 32
def QCmd.deadline (c : QCmd) : Nat := c.bits.toNat / 2 ^ 32 % 2 ^ 32
def QCmd.unit (c : QCmd) : Nat := c.bits.toNat / 2 ^ 88 % 8

/-- The fetcher fills queues from one engine's stream, in stream order, as entries free up (R135). -/
def fetchStream (e : Engine) : List QCmd → TileSt → TileSt
  | [], x => { x with streams := x.streams.erase (engineCode e) }
  | c :: cs, x =>
    let q := c.queue e
    if (x.queue q).length < queueDepth q then fetchStream e cs (x.setQueue q (x.queue q ++ [c]))
    else { x with streams := x.streams.set [] (engineCode e) (c :: cs) }

def engines : List Engine := [.access, .execute, .vector, .conversion, .statistics]

/-- All five streams fetched. -/
def TileSt.fetch (x : TileSt) : TileSt := engines.foldl (fun x e => fetchStream e (x.stream (engineCode e)) x) x

/-- The queues of an engine. -/
def engineQueues (e : Engine) : List Nat :=
  match e with
  | .access => [0, 1, 2, 3]
  | .execute => [4, 5, 6, 7, 8, 9, 10, 11]
  | .vector => [12]
  | .conversion => [13]
  | .statistics => [14]

/-- TILE_ENG_STATUS of engine e stands 8 bytes apart from the next. -/
def engBase (t : Nat) (e : Engine) : Nat := tileBase t + 8 * engineCode e

/-- Commands in an engine's queues. -/
def TileSt.queued (x : TileSt) (e : Engine) : Nat := ((engineQueues e).map (fun q => (x.queue q).length)).foldl (· + ·) 0

/-- The commands of a queue that have started and not completed, oldest first. -/
def TileSt.runs (x : TileSt) (q : Nat) : List Running := x.running.get [] q
def TileSt.setRuns (x : TileSt) (q : Nat) (l : List Running) : TileSt := { x with running := x.running.set [] q l }

/-- A compounding array of the tile. -/
def TileSt.array (x : TileSt) (u : Nat) : ArrSt := x.arrays.get ArrSt.empty u
def TileSt.setArray (x : TileSt) (u : Nat) (a : ArrSt) : TileSt := { x with arrays := x.arrays.set ArrSt.empty u a }

/-- Whether an engine runs a command, an array's last results included. -/
def TileSt.busy (x : TileSt) (e : Engine) : Bool := (engineQueues e).any (fun q => !(x.runs q).isEmpty)

/-- TILE_ENG_STATUS.queued and busy, and TILE_STATUS.busy, as the queues and engines stand. -/
def Hw.engineStatus (h : Hw) (t : Nat) (e : Engine) : Hw :=
  let x := h.tile t
  let b := flagNat (x.busy e)
  let h := h.setFlds (engBase t e) [(Fld.TILE_ENG_STATUS.busy, b), (Fld.TILE_ENG_STATUS.queued, x.queued e)]
  h.setFld (tileBase t) ⟨0, 8 + engineCode e, 8 + engineCode e⟩ b

/-! ### Launch, R140 -/

/-- A command as its row gives it: tile, engine, opcode and arguments (Tables 4.2 and 4.3). -/
structure Launch where
  t : Nat
  e : Engine
  opcode : Nat
  args : Nat
  c : Cmd
deriving DecidableEq, Repr

def Launch.queue (l : Launch) : Nat := queueOf l.e l.c.unit.toNat
def Launch.qcmd (l : Launch) : QCmd := ⟨l.c.tag, encodeCmd l.e l.opcode l.c l.args⟩

/-- The token channel i of TILE_TOKENS (Table 4.16). -/
def tokenFld (i : Nat) : Fld := ⟨Fld.TILE_TOKENS.ch.off, 4 * i + 3, 4 * i⟩

/-- R144: the launch offset at which the update phase begins. -/
def Hw.updLaunch (h : Hw) : Nat :=
  match h.job with
  | none => 0
  | some j => j.img.updLaunch

/-- The slot of the running job has a Clean verdict. -/
def Hw.cleanSlot (h : Hw) : Bool :=
  match h.job with
  | none => false
  | some j => j.running && j.steps && !j.halted && decide (j.result = some .clean)

/-- R144: update-phase commands run only after a Clean verdict. -/
def Hw.phaseAllows (h : Hw) (c : Cmd) : Bool :=
  if h.updLaunch ≤ c.launch.toNat then h.cleanSlot else true

/-- Tense has reached the step base tick plus an offset. DESIGN CHOICE: assumption 12. -/
def Hw.reached (h : Hw) (offset : Nat) : Bool :=
  decide (h.fld inflBase Fld.INFL_STEP_BASE.tick + offset ≤ h.now)

/-- Tense is past the step base tick plus an offset. DESIGN CHOICE: assumption 12. -/
def Hw.past (h : Hw) (offset : Nat) : Bool :=
  decide (h.fld inflBase Fld.INFL_STEP_BASE.tick + offset < h.now)

/-- The tile runs a step or a replay and the rank is not halted (R47); an idle slot has no commands (R143). -/
def Hw.tileRuns (h : Hw) (t : Nat) : Bool :=
  h.flag (tileBase t) Fld.TILE_STATUS.running && decide (h.fld inflBase Fld.INFL_RUN_STATE.phase < 4)

/-- R140: the previous command of the queue has completed; for an array, its occupancy has ended (R125). -/
def Hw.queueFree (h : Hw) (t q : Nat) : Bool :=
  if 4 ≤ q ∧ q < 12 then decide (((h.tile t).array (q - 4)).left = 0) else ((h.tile t).runs q).isEmpty

/-- The command stands at the head of its queue, or its queue is empty and it arrives now. -/
def Hw.atHead (h : Hw) (l : Launch) : Bool :=
  match (h.tile l.t).queue l.queue with
  | [] => true
  | x :: _ => decide (x.tag = l.c.tag)

/-- A wait finds a token. -/
def Hw.tokenThere (h : Hw) (l : Launch) : Bool :=
  !l.c.wait || decide (0 < h.fld (tileBase l.t) (tokenFld l.c.waitCh.toNat))

/-- R140, with R4: a disabled array runs nothing. -/
def Hw.canStart (h : Hw) (l : Launch) : Bool :=
  h.tileRuns l.t && h.phaseAllows l.c && h.reached l.c.launch.toNat && h.queueFree l.t l.queue && h.atHead l
    && h.tokenThere l
    && (decide (l.e ≠ .execute) || h.flag (arrBase l.t l.c.unit.toNat) Fld.ARR_STATUS.enabled)

/-- Whether the command is in its queue or its stream. -/
def Hw.known (h : Hw) (l : Launch) : Bool :=
  ((h.tile l.t).queue l.queue).any (fun x => decide (x.tag = l.c.tag))
    || ((h.tile l.t).stream (engineCode l.e)).any (fun x => decide (x.tag = l.c.tag))

/-- A command that cannot start: it takes its place in its queue if it has none yet, and waits (R140).
DESIGN CHOICE: assumption 12. -/
def Hw.await (h : Hw) (l : Launch) : Hw :=
  if h.tileRuns l.t && h.phaseAllows l.c then
    let h :=
      if h.known l then h
      else
        let x := h.tile l.t
        let room := decide ((x.queue l.queue).length < queueDepth l.queue)
        h.setTile l.t (if room then x.setQueue l.queue (x.queue l.queue ++ [l.qcmd])
          else { x with streams := x.streams.set [] (engineCode l.e) (x.stream (engineCode l.e) ++ [l.qcmd]) })
    h.engineStatus l.t l.e
  else h

/-- A command starts: it takes its token, leaves its queue, and is counted if it is late (R140); its begin is traced. -/
def Hw.begin (h : Hw) (l : Launch) : Hw :=
  let t := l.t
  let q := l.queue
  let late := h.past l.c.launch.toNat
  let h := if l.c.wait then
      h.setFld (tileBase t) (tokenFld l.c.waitCh.toNat) (h.fld (tileBase t) (tokenFld l.c.waitCh.toNat) - 1)
    else h
  let h := if late then h.count (tileBase t) Fld.TILE_CNT_E.late_start 1 else h
  let x := h.tile t
  let x := x.setQueue q ((x.queue q).drop 1)
  let h := h.setTile t (x.setRuns q (x.runs q ++ [Running.start l.c l.opcode h.tense0 late])).fetch
  let h := h.setFld (engBase t l.e) Fld.TILE_ENG_STATUS.tag l.c.tag.toNat
  let h := h.engineStatus t l.e
  h.traceRec t l.c.trace (engineCode l.e) l.c.unit.toNat l.c.tag.toNat false late false

/-- A row of a tile command: it starts if it can, with what SECDED finds in the words it reads (R133), and otherwise waits. -/
def Hw.launch (h : Hw) (l : Launch) (body : Hw → Hw) : Hw :=
  if h.canStart l then body ((h.begin l).tileEcc l.t (engineCode l.e) l.c.found) else h.await l

/-- The last of a list changed by `f`. -/
def onLast {α : Type} (f : α → α) : List α → List α
  | [] => []
  | [x] => [f x]
  | x :: xs => x :: onLast f xs

/-- The command that started last in a queue changed by `f`. -/
def Hw.onRunning (h : Hw) (t q : Nat) (f : Running → Running) : Hw :=
  h.setTile t ((h.tile t).setRuns q (onLast f ((h.tile t).runs q)))

/-- The descriptor that a command of tile `t` reads (R133). -/
def Hw.descOf (h : Hw) (t : Nat) (c : Cmd) (d : DescNo) : Desc := (h.readFound t c.found).desc t d

/-! ### Epoch queries, R152 and R386 -/

/-- A command that reads descriptor `d` with epoch set asks the home of its slot's region; a cleared slot is a hazard. -/
def Hw.epochQuery (h : Hw) (l : Launch) (d : Desc) : Hw :=
  if d.epoch then
    let x := h.tile l.t
    match x.epochs.find? d.eslot.toNat with
    | none => h.hazard l.t 1 0 0 0 d.eslot.toNat false
    | some (region, epoch) =>
      h.setTile l.t { x with queries := x.queries ++ [⟨d.eslot, region, epoch, l.e, l.c.tag⟩] }
  else h

/-- One query for each descriptor of the list that the command reads (R152), however many operands name it. -/
def Hw.epochQueries (h : Hw) (l : Launch) (ds : List DescNo) : Hw :=
  ds.eraseDups.foldl (fun h d => h.epochQuery l (h.descOf l.t l.c d)) h

/-! ### Reports and completion, R141 and R169 -/

/-- A report added to an open histogram slot; discarded if the slot is not open (R169). -/
def Hw.addReport (h : Hw) (t slot : Nat) (r : Report) : Hw :=
  let x := h.tile t
  match x.hist.find? slot with
  | none => h
  | some s => h.setTile t { x with hist := x.hist.insert slot { s with rep := s.rep.add r } }

/-- R141: a token posted to its channel; a channel at 15 loses it. -/
def Hw.postToken (h : Hw) (t ch : Nat) : Hw :=
  h.setFld (tileBase t) (tokenFld ch) (satNat 15 (h.fld (tileBase t) (tokenFld ch) + 1))

/-- The array events of a command that writes its last result (R118, Table 3.12). -/
def Hw.arrayEnd (h : Hw) (t u : Nat) (c : Cmd) : Hw :=
  let h := h.setFld (arrBase t u) Fld.ARR_LAST_END.tick h.now
  if h.past c.deadline.toNat then
    let h := h.raise (arrBase t u) Fld.ARR_FLAGS.deadline Fld.ARR_CNT_TIME.deadline (ringTile t 1) 0x10 (cmdDetail c)
    (h.setFld (tileBase t) Fld.TILE_STATUS.unclean 1).signalOwn 0
  else h

/-- The elements that the Vector Engine or the convert section has written (Table 4.19). -/
def Hw.elemCount (h : Hw) (t : Nat) (e : Engine) (n : Nat) : Hw :=
  match e with
  | .vector => h.count (tileBase t) Fld.VE_ELEMS.count n
  | .conversion => h.count (tileBase t) Fld.CU_ELEMS.count n
  | _ => h

/-- The results of a command converted under the destination's attribute word and written (R157 to R162), with the events
and the counts of Table 2.12: a non-finite value written is an event where the attribute word has watched set, once for the
command (R20). -/
def Hw.writeOut (h : Hw) (t : Nat) (e : Engine) (c : Cmd) (o : Output) : Hw × Report :=
  let p := h.convertTo o.dst o.vals o.step
  let watched := p.2.watched && (Attr.ofWord o.dst.attr).watched
  let h := (p.1.cmdEvents t e 3 c p.2.lost).cmdEvents t e 4 c (flagNat watched)
  let r := { p.2.rep with agreement := o.faults, lost := p.2.rep.lost + o.lost }
  (h.elemCount t e p.2.codes.length,
   if o.sources then r else { r with bins := [], zeros := 0, nonfinite := 0, maxD := -128, minD := 127 })

/-- A command of queue `q` has come to its end and no longer runs: what it still had to write is written, its report added
(R169), its token posted (R141), its end noted. -/
def Hw.finish (h : Hw) (t q : Nat) (r : Running) : Hw :=
  let e := queueEngine q
  let c := r.cmd
  let h := match r.output with
    | none => h
    | some o =>
      let p := h.writeOut t e c o
      if c.stats && !o.silent && !r.mute then p.1.addReport t c.hslot.toNat p.2 else p.1
  let h := if c.post then h.postToken t c.postCh.toNat else h
  let h := if e = .execute ∧ r.opcode ≠ 0 then h.arrayEnd t (q - 4) c else h
  let h := h.engineStatus t e
  h.traceRec t c.trace (engineCode e) c.unit.toNat c.tag.toNat true (h.past c.deadline.toNat) false

/-- The oldest command running in a queue completes. -/
def Hw.complete (h : Hw) (t q : Nat) : Hw :=
  match (h.tile t).runs q with
  | [] => h
  | r :: rs => (h.setTile t ((h.tile t).setRuns q rs).fetch).finish t q r

/-- The command of queue `q` that has just started completes at once and has no effect of its own. -/
def Hw.endNow (h : Hw) (t q : Nat) : Hw :=
  let x := h.tile t
  match (x.runs q).getLast? with
  | none => h
  | some r => (h.setTile t (x.setRuns q (x.runs q).dropLast).fetch).finish t q { r with opcode := 0 }

/-- A row whose command completes at its start: NOP, and a view of no elements (R138, R161). -/
def Hw.launchNow (h : Hw) (l : Launch) : Hw := h.launch l (fun h => h.endNow l.t l.queue)

/-- A command whose view holds `n` elements: with none it completes at its start and moves nothing (R161). -/
def Hw.launchView (h : Hw) (l : Launch) (n : Nat) (body : Hw → Hw) : Hw :=
  if n = 0 then h.launchNow l else h.launch l body

end Sys2Proof.Machine
end

