-- ==== Sys2Proof/Machine/Tiers.lean ====
section
/-!
DEFINITION. The tiered range: the stack and LPDDR5X controllers (R201 to R211), refresh (R202, R204), retraining (R206), the
Migration Engine (R195 to R200) and quotas (R193, R194).
-/
namespace Sys2Proof.Machine

/-! ### Controllers: 0 to 11 the stacks, 12 to 19 the LPDDR5X channels -/

/-- State of a controller: 0 untrained, 1 in service, 2 self refresh, 3 lost (Tables 5.16 and 5.19). -/
def chanFld (c : Nat) : Fld := ⟨0, 2 * c + 1, 2 * c⟩

def Hw.ctlState (h : Hw) (c : Nat) : Nat :=
  if c < 12 then h.fld (stackBase c) Fld.STK_STATUS.state else h.fld lpdBase (chanFld (c - 12))

def Hw.setCtlState (h : Hw) (c v : Nat) : Hw :=
  if c < 12 then h.setFld (stackBase c) Fld.STK_STATUS.state v else h.setFld lpdBase (chanFld (c - 12)) v

/-- Tags in one bank, Table 5.9. -/
def bankCap (c : Nat) : Nat := if c < 12 then 64 else 32

/-- The latency limit of a request, R208. -/
def lateLimit (c : Nat) : Nat := if c < 12 then Config.lateLimitT1 else Config.lateLimitT2

/-- The x16 subchannel of a T2 address (Table 5.5). -/
def subchannelOf (a : Nat) : Nat := a % 0x200000 / 2 ^ 11 % 4

/-- STK_ERR_ADDR or LPD_ERR_ADDR of a late or failed request. -/
def Hw.ctlErr (h : Hw) (c a status : Nat) : Hw :=
  if c < 12 then h.setFlds (stackBase c) [(Fld.STK_ERR_ADDR.addr, a), (Fld.STK_ERR_ADDR.status, status)]
  else h.setFlds lpdBase [(Fld.LPD_ERR_ADDR.addr, a), (Fld.LPD_ERR_ADDR.status, status),
    (Fld.LPD_ERR_ADDR.channel, c - 12), (Fld.LPD_ERR_ADDR.subchannel, subchannelOf a)]

def Hw.ctlErrReg (h : Hw) (c : Nat) : Nat :=
  if c < 12 then (h.reg (stackBase c + Fld.STK_ERR_ADDR.addr.off)).toNat
  else (h.reg (lpdBase + Fld.LPD_ERR_ADDR.addr.off)).toNat

/-- R211: a controller or channel is lost: its flag, and the halting fault "memory fault". -/
def Hw.loseCtl (h : Hw) (c : Nat) : Hw :=
  let h := h.setCtlState c 3
  let h := if c < 12 then (h.setFld (stackBase c) Fld.STK_FLAGS.lost 1).event (ringStack c) 0x34 (h.ctlErrReg c)
    else (h.setFld lpdBase Fld.LPD_FLAGS.lost 1).event ringLpd 0x3C (c - 12)
  h.signalHalt 10

/-- STK_TAGS as the tags in use stand. -/
def Hw.showTags (h : Hw) (c : Nat) : Hw :=
  if c < 12 then
    let n := (h.ctl c).tags.length
    (h.setFld (stackBase c) Fld.STK_TAGS.outstanding n).peak (stackBase c) Fld.STK_TAGS.peak n
  else h

/-- DESIGN CHOICE: assumption 48. -/
def Hw.addTag (h : Hw) (c : Nat) (u : TagUse) : Hw :=
  let x := h.ctl c
  (h.setCtl c { x with tags := x.tags ++ [u] }).showTags c

/-- The tags of a list without the first that `p` names. -/
def dropTag (p : TagUse → Bool) : List TagUse → List TagUse
  | [] => []
  | u :: us => if p u then us else u :: dropTag p us

/-- The first tag in use that `p` names is free again. DESIGN CHOICE: assumption 48. -/
def Hw.freeTag (h : Hw) (c : Nat) (p : TagUse → Bool) : Hw :=
  let x := h.ctl c
  (h.setCtl c { x with tags := dropTag p x.tags }).showTags c

/-- Tags in use in the bank that serves an address. -/
def Hw.bankTags (h : Hw) (a : Nat) : Nat :=
  ((h.ctl (h.controllerOf a)).tags.filter (fun u => decide (h.bankOf u.addr.toNat = h.bankOf a))).length

/-- Tags of a controller (Table 5.9). -/
def ctlCap (c : Nat) : Nat := if c < 12 then 8192 else 2048

/-- Requests that a requester keeps outstanding (Table 5.9); an Access Engine's are counted where it issues them (R148), and
no limit is given for the debug port and management. -/
def requesterCap : Requester → Option Nat
  | .hart _ => some 48
  | .migration _ => some 32
  | .update _ => some 1024
  | _ => none

/-- Tags that the requests of one core, lane or engine hold. -/
def Hw.inFlight (h : Hw) (r : Requester) : Nat :=
  ((List.range 20).map (fun c => ((h.ctl c).tags.filter (fun u => decide (u.r = r))).length)).foldl (· + ·) 0

/-- A request that ended for an error: its event (R203, R207). -/
def Hw.ctlFail (h : Hw) (c a : Nat) (parity : Bool) : Hw :=
  if c < 12 then
    let h := h.ctlErr c a (if parity then 3 else 2)
    if parity then
      h.raise (stackBase c) Fld.STK_FLAGS.ca_parity Fld.STK_CNT_B.ca_parity (ringStack c) 0x32 (h.ctlErrReg c)
    else h.raise (stackBase c) Fld.STK_FLAGS.ecc_unc Fld.STK_CNT_A.ecc_unc (ringStack c) 0x31 (h.ctlErrReg c)
  else
    let h := h.ctlErr c a 2
    h.raise lpdBase Fld.LPD_FLAGS.link_unc Fld.LPD_CNT_A.link_unc ringLpd 0x39 (h.ctlErrReg c)

/-- A corrected burst (R203, R207). -/
def Hw.ctlCorrected (h : Hw) (c a : Nat) : Hw :=
  if c < 12 then h.raise (stackBase c) Fld.STK_FLAGS.ecc_corr Fld.STK_CNT_A.ecc_corr (ringStack c) 0x30 a
  else h.raise lpdBase Fld.LPD_FLAGS.link_corr Fld.LPD_CNT_A.link_corr ringLpd 0x38 a

/-- Bytes moved (Tables 5.17 and 5.19). -/
def Hw.ctlBytes (h : Hw) (c n : Nat) (write : Bool) : Hw :=
  if c < 12 then h.count (stackBase c) (if write then Fld.STK_WR_BYTES.bytes else Fld.STK_RD_BYTES.bytes) n
  else h.count lpdBase Fld.LPD_BYTES.bytes n

/-- Lines whose contents a failed write left undefined (R203). -/
def Hw.poisoned (h : Hw) (a : Nat) : Bool := h.tier.poison.contains (a / 128)

/-- A failed T1 write leaves its 128 bytes undefined: they become values the spec leaves open, and any later read of them is
uncorrectable (R203). -/
def Hw.poison (h : Hw) (a : Nat) : Hw :=
  let line := a / 128
  let h := h.write (line * 128) ((List.range 128).map (fun i => Config.freeByte (h.free + i)))
  { h with free := h.free + 128, tier := { h.tier with poison := (h.tier.poison.erase line) ++ [line] } }

/-- A whole line written again is sound. -/
def Hw.cure (h : Hw) (a n : Nat) : Hw :=
  if a % 128 = 0 ∧ 128 ≤ n then { h with tier := { h.tier with poison := h.tier.poison.erase (a / 128) } } else h

/-! ### Update Engine accesses, R372 -/

/-- UPE_FLAGS.mem_err: a late or failed access of an Update Engine is an update fault. -/
def Hw.upeMemErr (h : Hw) (d : Nat) : Hw :=
  let entry := h.fld (stackBase d) Fld.UPE_STATUS.entry
  let layer := h.fld (stackBase d) Fld.UPE_STATUS.layer
  (h.raise (stackBase d) Fld.UPE_FLAGS.mem_err Fld.UPE_CNT_A.mem_err (ringUpe d) 0x51 (entry + layer * 2 ^ 13)).signalHalt 9

/-! ### Serving a request, R203 to R211 -/

/-- Whether the controller can serve a request to an address now: in service, no refresh of its bank (R202, R204) and no
retraining of its subchannel (R206). -/
def Hw.ctlReady (h : Hw) (a : Nat) : Bool :=
  let c := h.controllerOf a
  let x := h.ctl c
  let free := match x.refresh.find? (h.refreshBankOf a) with
    | none => true
    | some w => decide (w.toNat ≤ h.now)
  free && (decide (c < 12) || (x.retrain.find? (subchannelOf a)).isNone)

/-- How a served request ended. -/
inductive Served where
  | ok (data : List Byte) | failed
deriving DecidableEq, Repr

/-- One request of `n` bytes at `a` served by its controller: a read, or a write of the bytes given. -/
def Hw.serve (h : Hw) (a n : Nat) (write : Option (List Byte)) (found : DramFinding) : Hw × Served :=
  let c := h.controllerOf a
  if h.ctlState c = 3 then (h.ctlErr c a 4, .failed)
  else
    let bad := match found with
      | .uncorrectable => true
      | .parity => decide (c < 12)
      | _ => write.isNone && h.poisoned a
    let parity := decide (found = .parity) && decide (c < 12)
    let x := h.ctl c
    let h := h.setCtl c { x with parityRun := if parity then x.parityRun + 1 else 0 }
    if bad then
      let h := h.ctlFail c a parity
      let h := if write.isSome && decide (c < 12) then h.poison a else h
      let h := if parity && decide (16 ≤ (h.ctl c).parityRun) then h.loseCtl c else h
      (h, .failed)
    else
      let h := if found = .corrected then h.ctlCorrected c a else h
      match write with
      | none => (h.ctlBytes c n false, .ok (h.read a n))
      | some bs => (((h.store a bs).cure a bs.length).ctlBytes c n true, .ok [])

/-- R391: a bus error reaches a core as an access fault: cause 1 a fetch, 5 a load, 7 a store or an atomic operation, taken in
machine mode. DESIGN CHOICE: assumption 78. -/
def State.hartFault (s : State) (h : Nat) (cause addr : Nat) : State :=
  let x := s.fliuf.harts.get HartSt.reset h
  let y : HartSt := { x with view := { x.view with mode := 3 }, mcause := BitVec.ofNat 64 cause, mtval := BitVec.ofNat 64 addr }
  { s with fliuf := { s.fliuf with harts := s.fliuf.harts.set HartSt.reset h y } }

/-- What a served or late request gives its requester. -/
def State.toRequester (s : State) (r : Requester) (addr : Nat) (o : Option (List Byte)) (write : Bool) : State :=
  match r, o with
  | .access _ _ _, _ => s
  | .update d, none => s.onHw (fun h => h.upeMemErr d)
  | .update _, some _ => s
  | .migration _, _ => s
  | .hart h, none =>
    (s.hartFault h (if write then 7 else 5) addr).answer Resp.bus
  | .debug, none => s.answer Resp.bus
  | .management, none => s.answer ⟨false, 7, 0, []⟩
  | .hart _, some bs => s.answer ⟨false, 0, 0, bs⟩
  | .debug, some bs => s.answer ⟨false, 0, 0, bs⟩
  | .management, some bs => s.answer ⟨false, 0, 0, bs⟩

/-- A request of an Access Engine at its controller: which request, and whether it reads. -/
def Hw.aeRequest (h : Hw) (t q k addr : Nat) : Option (Req × Bool) :=
  match (h.tile t).runs q with
  | [] => none
  | x :: _ =>
    match x.reqs.find? k with
    | none => none
    | some r =>
      let writes := decide (spaceOf r.dst.toNat = .tiered ∧ r.dst.toNat / 128 = addr / 128)
      match r.st with
      | .issued _ =>
        if x.opcode = 5 then none
        else if spaceOf r.src.toNat = .tiered then (if r.src.toNat / 128 = addr / 128 then some (r, true) else none)
        else if writes then some (r, false)
        else none
      | .served _ _ _ => if writes then some (r, false) else none
      | _ => none

def Hw.setReqState (h : Hw) (t q k : Nat) (r : Req) (st : ReqState) : Hw :=
  h.onRunning t q (fun x => { x with reqs := x.reqs.insert k { r with st := st } })

/-- The region epoch that a COPY receives with a response (R151). -/
def Hw.noteEpoch (h : Hw) (t q : Nat) (e : Half) : Hw :=
  h.onRunning t q (fun r =>
    if r.opcode = 1 then { r with firstEpoch := some (r.firstEpoch.getD e), lastEpoch := e } else r)

/-- The epoch at the home of the region that the command running in a queue reads. -/
def Hw.sourceEpoch (h : Hw) (t q : Nat) : Half :=
  match (h.tile t).runs q with
  | [] => 0
  | r :: _ => h.regionEpoch r.region.toNat

/-- The Access Engine's request served: a read keeps its bytes for the response, with the epoch of its source as it then
stands (R148, R151); a write is performed. Bytes from elsewhere in the tiered range go on to their write at once. -/
def Hw.serveAe (h : Hw) (t q k addr : Nat) (found : DramFinding) : Hw :=
  match h.aeRequest t q k addr with
  | none => h
  | some (r, true) =>
    match h.serve r.src.toNat r.len none found with
    | (h, .ok bs) =>
      let e := h.sourceEpoch t q
      let h := if spaceOf r.dst.toNat = .tiered then h.noteEpoch t q e else h
      h.setReqState t q k r (.served bs e h.tense0)
    | (h, .failed) => h.setReqState t q k r .failed
  | some (r, false) =>
    let p := match r.st with
      | .served bs _ _ => (bs, h)
      | _ => (h.engineRead r.src.toNat r.len, h.noteEpoch t q (h.sourceEpoch t q))
    match p.2.serve r.dst.toNat r.len (some p.1) found with
    | (h, .ok _) => h.setReqState t q k r .written
    | (h, .failed) => h.setReqState t q k r .failed

/-- The bytes of a 128-byte write. -/
def lineBytes (v : BitVec 1024) : List Byte := leBytes 128 v.toNat

/-- A request served that found a tag. -/
def State.serveRequest (s : State) (r : Requester) (addr : Nat) (write : Option (BitVec 1024)) (found : DramFinding) : State :=
  match r with
  | .access t q k => s.onHw (fun h => h.serveAe t q.toNat k.toNat addr found)
  | _ =>
    match s.hw.serve (addr / 128 * 128) 128 (write.map lineBytes) found with
    | (h, .ok bs) => ({ s with hw := h }).toRequester r addr (some bs) write.isSome
    | (h, .failed) => ({ s with hw := h }).toRequester r addr none write.isSome

/-- Whether requests of one requester wait behind one another (R210): the same issue channel, core or lane. -/
def sameRequester (a b : Requester) : Bool :=
  match a, b with
  | .access t q _, .access t' q' _ => decide (t = t' ∧ q = q')
  | _, _ => decide (a = b)

/-- Requesters outside the schedule wait while a page's exchange is in progress (R199). -/
def outsideRequester : Requester → Bool
  | .hart _ => true
  | .debug => true
  | .management => true
  | _ => false

/-- R198: the windows are those of Tense; a window that has ended is the last completed one if it is the one before.
DEDUCED: assumption 43. -/
def Hw.rollWindow (h : Hw) : Hw :=
  let w := 2 ^ h.fld lpdBase Fld.MIG_POLICY.window
  let k := h.now / w
  let k0 := h.tier.windowStart.toNat / w
  if k = k0 then h
  else { h with tier := { h.tier with
    lastCounts := if k = k0 + 1 then h.tier.counts else [], counts := [], windowStart := h.tense0 } }

/-- R198: a non-scheduled 128-byte request to a page is counted. DEDUCED: assumption 43. -/
def Hw.countRequest (h : Hw) (page : Nat) : Hw :=
  let h := h.rollWindow
  { h with tier := { h.tier with counts := h.tier.counts.upd 0 page (· + 1) } }

/-- A request from outside Fliuf software touches its page (R198). -/
def Hw.touchPage (h : Hw) (page : Nat) : Hw :=
  if h.tier.touched.contains page then h else { h with tier := { h.tier with touched := h.tier.touched ++ [page] } }

/-- The controller can serve the request now: it is in service, its bank is not in refresh nor its subchannel in retraining, and
the page of a request from outside the schedule is in no exchange (R199). -/
def Hw.servable (h : Hw) (r : Requester) (addr : Nat) : Bool :=
  decide (h.ctlState (h.controllerOf addr) = 1) && h.ctlReady addr
    && !(outsideRequester r && tierBusy (h.tierEntry (pageOf addr)))

/-- The bank of a request is at its cap (R210). -/
def Hw.bankFull (h : Hw) (addr : Nat) : Bool := decide (bankCap (h.controllerOf addr) ≤ h.bankTags addr)

/-- A request has to wait at its requester: an earlier one of it does (R210), its depth or the controller's tags are used up
(R209), or its bank is at the cap. -/
def Hw.blocked (h : Hw) (r : Requester) (addr : Nat) : Bool :=
  h.tier.refused.any (fun q => sameRequester q.r r)
    || (match requesterCap r with
      | none => false
      | some n => decide (n ≤ h.inFlight r))
    || decide (ctlCap (h.controllerOf addr) ≤ (h.ctl (h.controllerOf addr)).tags.length)
    || h.bankFull addr

/-- A request takes its tag, and is served or waits at its controller. -/
def State.take (s : State) (q : HeldReq) : State :=
  let addr := q.addr.toNat
  let c := s.hw.controllerOf addr
  let s := s.onHw (fun h =>
    let h := h.addTag c ⟨q.r, q.addr⟩
    let h := match q.r with
      | .hart _ => h
      | _ => h.touchPage (pageOf addr)
    if outsideRequester q.r then h.countRequest (pageOf addr) else h)
  if s.hw.servable q.r addr then s.serveRequest q.r addr q.write q.found
  else s.onHw (fun h => h.setCtl c { h.ctl c with held := (h.ctl c).held ++ [{ q with since := h.tense0 }] })

/-- A request reaches its controller. A lost unit fails it at once (R211); a bank at its cap refuses it, which is counted, and
its requester holds it and every later one (R210). -/
def State.arrive (s : State) (q : HeldReq) : State :=
  let addr := q.addr.toNat
  let c := s.hw.controllerOf addr
  if s.hw.ctlState c = 3 then s.serveRequest q.r addr q.write q.found
  else if s.hw.blocked q.r addr then
    s.onHw (fun h =>
      let later := h.tier.refused.any (fun x => sameRequester x.r q.r)
      let full := h.bankFull addr && !later
      let h := { h with tier := { h.tier with refused := h.tier.refused ++ [q] } }
      if !full then h
      else if c < 12 then h.count (stackBase c) Fld.STK_TAGS.bank_full 1
      else h.count lpdBase Fld.LPD_CNT_C.bank_full 1)
  else s.take q

/-- Where a requester stands on the mesh. Where Fliuf, the debug port and management join it is not given.
DESIGN CHOICE: assumption 82. -/
def requesterPoint : Requester → Option Endpoint
  | .access t _ _ => some (tilePoint t)
  | .update d => some (stackPoint d)
  | .migration c => some (channelPoint c)
  | _ => none

/-- A request, with what the die bridge and the DRAM do to it; one that the bridge discards never arrives (R33). -/
def execTieredRequest (r : Requester) (addr : Addr) (write : Option (BitVec 1024)) (found : DramFinding) (bridge : Ecc)
    (s : State) : Host.Outcome State Fault Refusal :=
  .next (if spaceOf addr.toNat = .tiered then
      let q : HeldReq := ⟨r, addr, write, found, s.hw.tense0⟩
      match requesterPoint r with
      | none => s.arrive q
      | some p =>
        let e := s.hw.pointOf addr.toNat
        let t := s.onHw (fun h => h.cross p e bridge id)
        if bridgeLoses p e bridge then t else t.arrive q
    else s)

/-- The requests held at their requesters, sent again in their original order; those still blocked stay (R210). -/
def State.resend (s : State) : State :=
  let held := s.hw.tier.refused
  let s := s.onHw (fun h => { h with tier := { h.tier with refused := [] } })
  held.foldl (fun s q =>
    if s.hw.blocked q.r q.addr.toNat then s.onHw (fun h => { h with tier := { h.tier with refused := h.tier.refused ++ [q] } })
    else s.arrive q) s

/-- The requests that wait in a controller and can be served now, in the order in which they arrived (R204). -/
def State.serveHeld (s : State) (c : Nat) : State :=
  let x := s.hw.ctl c
  let go := x.held.filter (fun q => s.hw.servable q.r q.addr.toNat || decide (s.hw.ctlState c = 3))
  if go.isEmpty then s
  else
    let s := s.onHw (fun h => h.setCtl c { x with held := x.held.filter (fun q => !go.contains q) })
    go.foldl (fun s q => s.serveRequest q.r q.addr.toNat q.write q.found) s

/-- The same at every controller. -/
def State.serveAllHeld (s : State) : State := (List.range 20).foldl (fun s c => s.serveHeld c) s

/-- A tag of the bank that serves `addr` is free again, and the held requests are sent again (R210). -/
def execBankTagFree (addr : Addr) (s : State) : Host.Outcome State Fault Refusal :=
  .next (if spaceOf addr.toNat = .tiered then
      (s.onHw (fun h => h.freeTag (h.controllerOf addr.toNat)
        (fun u => decide (h.bankOf u.addr.toNat = h.bankOf addr.toNat)))).resend
    else s)

/-- The event of a late request at its controller (R208). -/
def Hw.lateEvent (h : Hw) (a : Nat) : Hw :=
  let c := h.controllerOf a
  let h := h.ctlErr c a 1
  if c < 12 then h.raise (stackBase c) Fld.STK_FLAGS.late Fld.STK_CNT_B.late (ringStack c) 0x33 (h.ctlErrReg c)
  else h.raise lpdBase Fld.LPD_FLAGS.late Fld.LPD_CNT_B.late ringLpd 0x3A (h.ctlErrReg c)

/-- A late request is ended: its tag is freed, and nothing of it is served any more (R208). -/
def Hw.ctlLate (h : Hw) (r : Requester) (a : Nat) : Hw :=
  let c := h.controllerOf a
  let mine := fun (r' : Requester) (a' : Addr) => decide (r' = r ∧ a'.toNat / 128 = a / 128)
  let x := h.ctl c
  let h := h.setCtl c { x with held := x.held.filter (fun q => !mine q.r q.addr) }
  (h.freeTag c (fun u => mine u.r u.addr)).lateEvent a

/-- The tick from which the limit of a request of an Access Engine counts; none while it is refused, and not timed (R210). -/
def Hw.issuedAt (h : Hw) (t q k addr : Nat) (r : Requester) : Option (Req × Word) :=
  if h.tier.refused.any (fun x => decide (x.r = r ∧ x.addr.toNat / 128 = addr / 128)) then none
  else
    match h.aeRequest t q k addr with
    | none => none
    | some (x, _) =>
      match x.st with
      | .issued w => some (x, w)
      | .served _ _ w => some (x, w)
      | _ => none

/-- R208: a request that its controller has not answered at its limit is ended late. -/
def State.endLate (s : State) (r : Requester) (addr : Nat) : State :=
  let limit := lateLimit (s.hw.controllerOf addr)
  match r with
  | .access t q k =>
    match s.hw.issuedAt t q.toNat k.toNat addr r with
    | none => s
    | some (x, w) =>
      if w.toNat + limit ≤ s.hw.now then s.onHw (fun h => (h.ctlLate r addr).setReqState t q.toNat k.toNat x .late) else s
  | _ =>
    match (s.hw.ctl (s.hw.controllerOf addr)).held.find? (fun q => decide (q.r = r ∧ q.addr.toNat / 128 = addr / 128)) with
    | none => s
    | some q =>
      if q.since.toNat + limit ≤ s.hw.now then
        (s.onHw (fun h => h.ctlLate r addr)).toRequester r addr none q.write.isSome
      else s

def execRequestLate (r : Requester) (addr : Addr) (s : State) : Host.Outcome State Fault Refusal :=
  .next (if spaceOf addr.toNat = .tiered then s.endLate r addr.toNat else s)

/-! ### Refresh and retraining, R202, R204 and R206 -/

/-- A bank of the controllers `cs` that are in service unavailable until `t + n`. -/
def Hw.refreshBank (h : Hw) (cs : List Nat) (bank n : Nat) : Hw :=
  cs.foldl (fun h c =>
    if h.ctlState c = 1 then
      let x := h.ctl c
      h.setCtl c { x with refresh := x.refresh.insert bank (BitVec.ofNat 64 (h.now + n)) }
    else h) h

def execHbmRefresh (bank : BitVec 5) (s : State) : Host.Outcome State Fault Refusal :=
  .next (s.onHw (fun h =>
    if h.now % Config.refreshPeriod = 48 * bank.toNat then h.refreshBank (List.range 12) bank.toNat 160 else h))

def execLpddrRefresh (bank : BitVec 4) (s : State) : Host.Outcome State Fault Refusal :=
  .next (s.onHw (fun h =>
    if h.now % Config.refreshPeriod = 96 * bank.toNat then
      h.refreshBank ((List.range 8).map (fun c => 12 + c)) bank.toNat 224
    else h))

/-- R206: a measurement that finds the drift beyond the trained margin asks for retraining. -/
def execDriftMeasurement (c : Channel) (sub : BitVec 2) (exceeds : Bool) (s : State) : Host.Outcome State Fault Refusal :=
  .next (s.onHw (fun h =>
    if h.now % 65536 = 0 ∧ exceeds = true ∧ h.ctlState (12 + c) = 1 then
      let x := h.ctl (12 + c)
      h.setCtl (12 + c) { x with drifted := x.drifted.insert sub.toNat h.tense0 }
    else h))

/-- R206: at the next multiple of 65,536 ticks the subchannel is held for 1,280 ticks, counted and flagged. -/
def execSubchannelRetrain (c : Channel) (sub : BitVec 2) (s : State) : Host.Outcome State Fault Refusal :=
  .next (s.onHw (fun h =>
    let x := h.ctl (12 + c)
    let due := match x.drifted.find? sub.toNat with
      | none => false
      | some w => decide (w.toNat < h.now)
    if h.now % 65536 = 0 ∧ due = true then
      let h := h.setCtl (12 + c)
        { x with drifted := x.drifted.erase sub.toNat
                 retrain := x.retrain.insert sub.toNat (BitVec.ofNat 64 (h.now + 1280)) }
      h.raise lpdBase Fld.LPD_FLAGS.retrain Fld.LPD_CNT_B.retrain ringLpd 0x3B (c.val + sub.toNat * 2 ^ 3)
    else h))

/-- R206, R211: retraining ends; a subchannel that cannot be restored loses the channel. -/
def Hw.endRetrain (h : Hw) (c : Channel) (sub : Nat) (restored : Bool) : Hw :=
  let x := h.ctl (12 + c)
  match x.retrain.find? sub with
  | none => h
  | some w =>
    if w.toNat ≤ h.now then
      let h := h.setCtl (12 + c) { x with retrain := x.retrain.erase sub }
      if restored then h else h.loseCtl (12 + c)
    else h

/-! ### Quotas, R193 and R194 -/

/-- Whether a job with this number is admitted. -/
def Hw.admittedAs (h : Hw) (n : Nat) : Bool :=
  match h.job with
  | none => false
  | some j => decide (j.img.job = n)

/-- Pages of a job in a tier (R193). -/
def Hw.pagesIn (h : Hw) (n : Nat) (t2 : Bool) : Nat :=
  (h.tier.map.filter (fun e => tierOwned e.2 && decide (tierJob e.2 = n) && decide (tierIsT2 e.2 = t2))).length

/-- Segments that the memory layout of the admitted job claims (R193). -/
def Hw.segmentsOf (h : Hw) (n : Nat) : Nat :=
  match h.job with
  | none => 0
  | some j =>
    if j.img.job = n then
      (((j.img.extents ++ j.released).filter (fun r => decide (spaceOf r.base = .shared) && decide (0 < r.length))).flatMap (fun r =>
        (List.range ((r.base + r.length - 1) / 0x40000 - r.base / 0x40000 + 1)).map (fun i => r.base / 0x40000 + i))).eraseDups.length
    else 0

/-- TIER_USE (Table 5.20). -/
def Hw.tierUse (h : Hw) (n : Nat) : Word :=
  BitVec.ofNat 64 (h.segmentsOf n + h.pagesIn n false * 2 ^ 14 + h.pagesIn n true * 2 ^ 32)

/-- The fields of a quota word: segments, T1 pages, T2 pages. -/
def quotaT0 (w : Word) : Nat := bitsOf w 11 0
def quotaT1 (w : Word) : Nat := bitsOf w 31 14
def quotaT2 (w : Word) : Nat := bitsOf w 50 32

/-- A quota word without its reserved bits. -/
def quotaMask (w : Word) : Word :=
  BitVec.ofNat 64 (quotaT0 w + quotaT1 w * 2 ^ 14 + quotaT2 w * 2 ^ 32)

def Hw.quotaOf (h : Hw) (n : Nat) : Word := h.tier.quota.get 0 n

/-- R194: a written quota is pending while a job with that number is admitted; otherwise it takes effect at once.
DEDUCED: assumption 30. -/
def Hw.writeQuota (h : Hw) (n : Nat) (v : Word) : Hw :=
  if h.admittedAs n then { h with tier := { h.tier with pendingQuota := h.tier.pendingQuota.insert n (quotaMask v) } }
  else { h with tier := { h.tier with quota := h.tier.quota.set 0 n (quotaMask v) } }

/-- R194: at the boundary of R52 a pending quota takes effect if the present use is within it; otherwise it is discarded.
DEDUCED: assumption 70. -/
def Hw.applyQuotas (h : Hw) : Hw :=
  let h' := h.tier.pendingQuota.foldl (fun h e =>
    let n := e.1
    let fits := decide (h.segmentsOf n ≤ quotaT0 e.2 ∧ h.pagesIn n false ≤ quotaT1 e.2 ∧ h.pagesIn n true ≤ quotaT2 e.2)
    if fits then { h with tier := { h.tier with quota := h.tier.quota.set 0 n e.2 } }
    else { h with tier := { h.tier with rejected := h.tier.rejected.erase n ++ [n] } }) h
  { h' with tier := { h'.tier with pendingQuota := [] } }

def execQuotaWrite (v : Word) (s : State) : Host.Outcome State Fault Refusal :=
  .next (s.onAccess (.quotaWrite v) (fun s => s.onHw (fun h => h.writeQuota (h.fld lpdBase Fld.TIER_QSEL.job) v)))

/-! ### The slice cache and its pages, R181 to R183 -/

/-- R181: the home slice of a page. -/
def homeSlice (page : Nat) : Nat := page % 128

/-- Cache segments of a slice. -/
def Hw.cacheSegments (h : Hw) (sl : Nat) : Nat :=
  ((List.range 16).filter (fun i => bitOf (h.reg (sliceBase sl + Fld.SLC_SEG_CFG.cache.off)) i)).length

/-- A whole line written to its tier from a slice cache. A lost unit fails it at once (R211). -/
def Hw.writeLine (h : Hw) (l : CacheLine) : Hw :=
  let a := l.line * 128
  let c := h.controllerOf a
  if h.ctlState c = 3 then h.ctlErr c a 4
  else ((h.write a l.data).cure a l.data.length).ctlBytes c l.data.length true

/-- Dirty lines of a list written back to the tier. -/
def Hw.writeBack (h : Hw) (ls : List CacheLine) : Hw := (ls.filter (fun l => l.dirty)).foldl Hw.writeLine h

/-- R182, R183: a page's lines in its home cache written back and invalidated. -/
def Hw.flushPage (h : Hw) (page : Nat) : Hw :=
  let x := h.slice (homeSlice page)
  let mine := x.cache.filter (fun l => decide (pageOf (l.line * 128) = page))
  let h := h.setSlice (homeSlice page) { x with cache := x.cache.filter (fun l => decide (pageOf (l.line * 128) ≠ page)) }
  h.writeBack mine

/-- The bytes of an address range forgotten: they read as zero. -/
def Hw.clearBytes (h : Hw) (a n : Nat) : Hw :=
  { h with mem := h.mem.filter (fun e => decide (e.1 < a ∨ a + n ≤ e.1)) }

/-- R179: segment modes written while no admitted job claims the slice. -/
def Hw.writeSegCfg (h : Hw) (sl : Nat) (v : Nat) : Hw :=
  let old := h.fld (sliceBase sl) Fld.SLC_SEG_CFG.cache
  let turned := (List.range 16).filter (fun i => decide (old / 2 ^ i % 2 ≠ v / 2 ^ i % 2))
  let x := h.slice sl
  let h := if turned.any (fun i => decide (old / 2 ^ i % 2 = 1)) then
      (h.setSlice sl { x with cache := [] }).writeBack x.cache
    else h
  let h := turned.foldl (fun h i => h.clearBytes (sharedBase + sl * 0x400000 + i * 0x40000) 0x40000) h
  h.setFld (sliceBase sl) Fld.SLC_SEG_CFG.cache v

/-- A write of SLC_SEG_CFG; whether it returns a bus error (R179). -/
def Hw.segCfgWrite (h : Hw) (sl : Nat) (v : Nat) : Hw × Bool :=
  if h.flag (sliceBase sl) Fld.SLC_STATUS.admitted then
    (h.sliceEvent sl 2 (sliceBase sl + Fld.SLC_SEG_CFG.cache.off) true, true)
  else (h.writeSegCfg sl v, false)

def execSegmentConfigWrite (sl : Slice) (v : Half) (s : State) : Host.Outcome State Fault Refusal :=
  .next (s.onAccess (.segmentConfigWrite sl v) (fun s =>
    let r := s.hw.segCfgWrite sl v.toNat
    { s with hw := r.1 }.answer (if r.2 then Resp.bus else Resp.ok 0)))

/-! ### The Migration Engine, R195 to R200 -/

/-- The lane of a T2 page: its channel (R196). -/
def Hw.laneOf (h : Hw) (q : Nat) : Nat := tierFrame (h.tierEntry q) % 8

/-- R195: an exchange of P and Q leaves neither owner over quota. -/
def Hw.exchangeFits (h : Hw) (p q : Nat) : Bool :=
  let ep := h.tierEntry p
  let eq := h.tierEntry q
  if tierOwned ep && tierOwned eq && decide (tierJob ep = tierJob eq) then true
  else
    (!tierOwned ep || decide (h.pagesIn (tierJob ep) true + 1 ≤ quotaT2 (h.quotaOf (tierJob ep))))
      && (!tierOwned eq || decide (h.pagesIn (tierJob eq) false + 1 ≤ quotaT1 (h.quotaOf (tierJob eq))))

def Hw.setBusyPage (h : Hw) (n : Nat) (b : Bool) : Hw := h.setTierEntry n (withBits (h.tierEntry n) 21 21 (flagNat b))

/-- R183, R196: an exchange starts: lines written back, both pages busy, the lane taken. -/
def Hw.startExchange (h : Hw) (p q : Nat) (kind : ExchangeKind) : Hw :=
  let lane := h.laneOf q
  let h := (h.flushPage p).flushPage q
  let h := (h.setBusyPage p true).setBusyPage q true
  { h with tier := { h.tier with lanes := h.tier.lanes.insert lane ⟨p, q, h.tense0, kind⟩ } }

def Hw.laneFree (h : Hw) (lane : Nat) : Bool := (h.tier.lanes.find? lane).isNone

/-- R198: a policy exchange gives up its lane to a scheduled one; what it has run is kept. -/
def Hw.pausePolicy (h : Hw) (lane : Nat) : Hw :=
  match h.tier.lanes.find? lane with
  | none => h
  | some x =>
    if x.kind = .policy then
      { h with tier := { h.tier with
          lanes := h.tier.lanes.erase lane
          paused := h.tier.paused.insert lane { x with start := h.tense0 - x.start } } }
    else h

/-- The exchange that waits for its lane goes on. -/
def Hw.resumePolicy (h : Hw) (lane : Nat) : Hw :=
  match h.tier.paused.find? lane with
  | none => h
  | some x =>
    if h.laneFree lane then
      { h with tier := { h.tier with
          paused := h.tier.paused.erase lane
          lanes := h.tier.lanes.insert lane { x with start := h.tense0 - x.start } } }
    else h

/-- Why MIG_CMD is refused (Table 5.21); 0: it is not. DESIGN CHOICE: assumption 47. -/
def Hw.migRefusal (h : Hw) (p q : Nat) : Nat :=
  let ep := h.tierEntry p
  let eq := h.tierEntry q
  if tierScheduled ep || tierScheduled eq || tierBusy ep || tierBusy eq then 1
  else if Config.tierPages ≤ p ∨ Config.tierPages ≤ q ∨ tierIsT2 ep = true ∨ tierIsT2 eq = false then 2
  else if !h.exchangeFits p q then 3
  else if !h.laneFree (h.laneOf q) then 4
  else 0

/-- R407: a page reserved to the firmware, which is never exchanged. -/
def Hw.firmwarePage (h : Hw) (n : Nat) : Bool :=
  decide (h.tier.firmware.1 ≤ n ∧ n < h.tier.firmware.1 + h.tier.firmware.2)

/-- R199: the exchange that MIG_CMD names is asked for. The reason that a refusal for a firmware page shows is left open.
DESIGN CHOICE: assumption 47. -/
def Hw.migGo (h : Hw) : Hw :=
  let p := h.fld lpdBase Fld.MIG_CMD.p
  let q := h.fld lpdBase Fld.MIG_CMD.q
  let held := h.firmwarePage p || h.firmwarePage q
  let w := h.freeWord
  let h := if held then w.2 else h
  let why := if held then 1 + bitsOf w.1 1 0 else h.migRefusal p q
  let h := h.setFld lpdBase Fld.MIG_STATUS.refused why
  if why = 0 then (h.startExchange p q .command).setFld lpdBase Fld.MIG_STATUS.busy 1 else h

/-- A write of the bytes of MIG_CMD that `mask` names (R18): p and q take their new values, and go asks for the exchange. -/
def Hw.migWrite (h : Hw) (v mask : Word) : Hw :=
  let a := lpdBase + Fld.MIG_CMD.p.off
  let w := (h.reg a &&& ~~~mask) ||| (v &&& mask)
  let h := h.setFlds lpdBase [(Fld.MIG_CMD.p, bitsOf w 18 0), (Fld.MIG_CMD.q, bitsOf w 38 20)]
  if bitOf (v &&& mask) 63 then h.migGo else h

/-- The whole of MIG_CMD written. -/
def Hw.migCommand (h : Hw) (v : Word) : Hw := h.migWrite v (~~~0#64)

def execMigCmd (v : Word) (s : State) : Host.Outcome State Fault Refusal :=
  .next (s.onAccess (.migCmd v) (fun s => s.onHw (fun h => h.migCommand v)))

/-- The migration list of the running plan variant (R197). -/
def Hw.migrations (h : Hw) : List MigEntry :=
  match h.job with
  | none => []
  | some j =>
    match j.img.migrations.find? (fun m => decide (m.1 = j.slotPlan)) with
    | none => []
    | some m => m.2

/-- R197: a scheduled exchange starts at its launch offset on its lane; update-phase ones only after a Clean verdict. -/
def execExchangeStart (entry : Half) (s : State) : Host.Outcome State Fault Refusal :=
  .next (s.onHw (fun h =>
    match h.migrations[entry.toNat]? with
    | none => h
    | some m =>
      let clean := match h.job with
        | none => false
        | some j => j.running && j.steps && !j.halted && (decide (m.launch < j.img.updLaunch) || decide (j.result = some .clean))
      let lane := h.laneOf m.q
      let h' := h.pausePolicy lane
      if clean && h.reached m.launch && h'.laneFree lane then h'.startExchange m.p m.q .scheduled else h))

/-- R198: a page that policy may exchange: owned, neither scheduled nor busy, touched by Fliuf software alone. -/
def Hw.policyPage (h : Hw) (page : Nat) : Bool :=
  let e := h.tierEntry page
  tierOwned e && !tierScheduled e && !tierBusy e && !h.tier.touched.contains page && !h.firmwarePage page

/-- R198: the partner of a policy exchange: the T1 page of the same job with the fewest requests in the last completed window;
the lowest page among equals. -/
def Hw.policyPartner (h : Hw) (job : Nat) : Option Nat :=
  (h.tier.map.filter (fun e => h.policyPage e.1 && decide (tierJob e.2 = job) && !tierIsT2 e.2)).foldl (fun best e =>
      match best with
      | none => some e.1
      | some b => if h.tier.lastCounts.get 0 e.1 < h.tier.lastCounts.get 0 b then some e.1 else some b) none

/-- R198: the count of a T2 page reaches the threshold within a window. -/
def execPolicyExchange (q : BitVec 19) (s : State) : Host.Outcome State Fault Refusal :=
  .next (s.onHw (fun h =>
    let h := h.rollWindow
    let e := h.tierEntry q.toNat
    let due := h.flag lpdBase Fld.MIG_POLICY.enable && h.policyPage q.toNat && tierIsT2 e
      && decide (h.fld lpdBase Fld.MIG_POLICY.threshold ≤ h.tier.counts.get 0 q.toNat)
      && h.laneFree (h.laneOf q.toNat)
    match h.policyPartner (tierJob e) with
    | none => h
    | some p => if due && h.exchangeFits p q.toNat then h.startExchange p q.toNat .policy else h))

/-- The regions that hold a byte of a page. -/
def Hw.regionsOfPage (h : Hw) (n : Nat) : List Nat :=
  match h.job with
  | none => []
  | some j => (j.img.regions.filter (fun r => decide (0 < r.length)
      && decide (r.base < (n + 1) * 0x200000) && decide (n * 0x200000 < r.base + r.length))).map (fun r => r.number)

/-- R200: an exchange aborted: both pages keep their frames. -/
def Hw.abortExchange (h : Hw) (x : Exchange) : Hw :=
  let h := (h.setBusyPage x.p false).setBusyPage x.q false
  let h := h.setFld lpdBase Fld.MIG_STATUS.failed 1
  let sched := decide (x.kind = .scheduled)
  let h := h.event ringLpd 0x3D (x.p + x.q * 2 ^ 20 + flagNat sched * 2 ^ 39)
  if sched then h.signalOwn 12 else h

/-- The bytes that an exchange moves: each page read from its unit and written to the other (Tables 5.17 and 5.19). -/
def Hw.exchangeBytes (h : Hw) (x : Exchange) : Hw :=
  let cp := h.controllerOf (x.p * 0x200000)
  let cq := h.controllerOf (x.q * 0x200000)
  (((h.ctlBytes cp 0x200000 false).ctlBytes cp 0x200000 true).ctlBytes cq 0x200000 false).ctlBytes cq 0x200000 true

/-- R196: the two placements swap in one cycle; every region that holds P or Q is written (R150). -/
def Hw.finishExchange (h : Hw) (x : Exchange) : Hw :=
  let h := h.exchangeBytes x
  let ep := h.tierEntry x.p
  let eq := h.tierEntry x.q
  let h := h.setTierEntry x.p (withBits (withBits ep 18 0 (bitsOf eq 18 0)) 21 21 0)
  let h := h.setTierEntry x.q (withBits (withBits eq 18 0 (bitsOf ep 18 0)) 21 21 0)
  let h := h.count lpdBase Fld.MIG_CNT.exchanges 1
  let h := if x.kind = .policy then h.count lpdBase Fld.MIG_CNT.policy 1 else h
  let h := if x.kind = .command then h.setFld lpdBase Fld.MIG_STATUS.done 1 else h
  ((h.regionsOfPage x.p ++ h.regionsOfPage x.q).eraseDups).foldl Hw.bumpEpoch h

/-- What an exchange reads is uncorrectable: the sender's finding, a line that a failed write left undefined (R203), or a unit
that is lost (R211). -/
def Hw.exchangeBad (h : Hw) (x : Exchange) (unc : Bool) : Bool :=
  unc || h.tier.poison.any (fun l => decide (pageOf (l * 128) = x.p ∨ pageOf (l * 128) = x.q))
    || decide (h.ctlState (h.controllerOf (x.p * 0x200000)) = 3 ∨ h.ctlState (h.controllerOf (x.q * 0x200000)) = 3)

/-- The read of a line that a failed write left undefined is uncorrectable, and its controller says so (R203). -/
def Hw.exchangeErrors (h : Hw) (x : Exchange) : Hw :=
  match h.tier.poison.find? (fun l => decide (pageOf (l * 128) = x.p ∨ pageOf (l * 128) = x.q)) with
  | none => h
  | some l => h.ctlFail (h.controllerOf (l * 128)) (l * 128) false

def Hw.completeExchange (h : Hw) (lane : Nat) (unc : Bool) : Hw :=
  match h.tier.lanes.find? lane with
  | none => h
  | some x =>
    if unc || decide (x.start.toNat + Config.exchangeTicks ≤ h.now) then
      let h := { h with tier := { h.tier with lanes := h.tier.lanes.erase lane } }
      let h := if x.kind = .command then h.setFld lpdBase Fld.MIG_STATUS.busy 0 else h
      let h := if h.exchangeBad x unc then (h.exchangeErrors x).abortExchange x else h.finishExchange x
      h.resumePolicy lane
    else h

end Sys2Proof.Machine
end

