-- ==== Sys2Proof/Machine/Access.lean ====
section
/-!
DEFINITION. The Access Engine (R148 to R153): COPY, FILL, ACC (R185 to R189), RWRITE (R240), RREAD (R242), RACC (R340 to
R343), and the responses to its requests.
-/
namespace Sys2Proof.Machine

/-- R287: the displacement of a descriptor that names an ingest region: held × stride. -/
def Hw.ingestOffset (h : Hw) (region : Nat) : Nat :=
  match h.job with
  | none => 0
  | some j =>
    if region ≠ 0 ∧ j.img.ingestRegions.contains region then
      h.fld clkBase Fld.TNS_INGEST.held * j.img.ingestStride
    else 0

/-- A descriptor as the Access Engine reads it (R133, R287). -/
def Hw.aeDesc (h : Hw) (t : Nat) (c : Cmd) (d : DescNo) : Desc :=
  let x := h.descOf t c d
  x.displace (h.ingestOffset x.region.toNat)

/-! ### Requests, R148 -/

/-- One row of a copy cut at 128-byte boundaries of either side. DEDUCED: assumption 49. -/
def cutRun : Nat → Nat → Nat → Nat → List Req
  | 0, _, _, _ => []
  | fuel + 1, src, dst, len =>
    if len = 0 then []
    else
      let n := Nat.min len (Nat.min (128 - src % 128) (128 - dst % 128))
      ⟨BitVec.ofNat 48 src, BitVec.ofNat 48 dst, n, .waiting⟩ :: cutRun fuel (src + n) (dst + n) (len - n)

/-- The requests of a copy between two views. DEDUCED: assumption 49. -/
def copyReqs (s d : Desc) : List Req :=
  (s.runs.zip d.runs).flatMap (fun p => cutRun (p.1.2 / 64 + 2) p.1.1 p.2.1 p.1.2)

/-- A list numbered from 0. -/
def numbered {α : Type} (l : List α) : SMap α := (List.range l.length).zip l

/-- Whether a request stands at its engine: it has been issued and has not ended. -/
def ReqState.outstanding : ReqState → Bool
  | .waiting => false
  | .holding _ => false
  | _ => true

/-- A request as it is issued at a tick: one of a FILL has its bytes to write already. -/
def ReqState.issue (now : Word) : ReqState → ReqState
  | .waiting => .issued now
  | .holding bs => .served bs 0 now
  | st => st

/-- Requests of a channel issued while the engine has room (R148, R209): the requests and the room left. -/
def issueReqs (now : Word) : Nat → SMap Req → SMap Req × Nat
  | n, [] => ([], n)
  | n, (k, r) :: rs =>
    if !r.st.outstanding && decide (0 < n) then
      let p := issueReqs now (n - 1) rs
      ((k, { r with st := r.st.issue now }) :: p.1, p.2)
    else
      let p := issueReqs now n rs
      ((k, r) :: p.1, p.2)

/-- Requests outstanding at a tile's Access Engine. -/
def TileSt.outstanding (x : TileSt) : Nat :=
  ([0, 1, 2, 3].map (fun q =>
    ((x.runs q).flatMap (fun r => r.reqs.filter (fun e => e.2.st.outstanding))).length)).foldl (· + ·) 0

/-- At most 512 requests outstanding; the rest wait in order at their channel (R148). AE_REQ shows how many. -/
def Hw.issue (h : Hw) (t : Nat) : Hw :=
  let h := [0, 1, 2, 3].foldl (fun h q =>
    h.onRunning t q (fun r => { r with reqs := (issueReqs h.tense0 (512 - (h.tile t).outstanding) r.reqs).1 })) h
  let n := (h.tile t).outstanding
  (h.setFld (tileBase t) Fld.AE_REQ.outstanding n).peak (tileBase t) Fld.AE_REQ.peak n

/-- The regions a view of a command writes. -/
def Hw.touchedBy (h : Hw) (d : Desc) : List Nat := h.regionsOver d.runs

/-- COPY (R148): the requests of the command issued in ascending order; their data moves with their responses. -/
def Hw.startCopy (h : Hw) (l : Launch) (src : DescNo) (s d : Desc) : Hw :=
  let h := h.epochQueries l [src]
  let touches := h.touchedBy d
  let h := h.onRunning l.t l.queue (fun r =>
    { r with reqs := numbered (copyReqs s d), region := s.region, record := if d.epoch then some d.eslot else none,
             touches := touches })
  h.issue l.t

def execCopy (t : Tile) (c : Cmd) (src dst : DescNo) (s : State) : Host.Outcome State Fault Refusal :=
  .next (s.onHw (fun h =>
    let sd := h.aeDesc t c src
    let l : Launch := ⟨t, .access, 1, argsSrcDst src dst, c⟩
    h.launchView l sd.count (fun h => h.startCopy l src sd (h.descOf t c dst))))

/-! ### FILL, R148 -/

/-- Byte `a` of a FILL: byte a mod 8 of the little-endian pattern. -/
def patternByte (pattern : Word) (a : Nat) : Byte := BitVec.ofNat 8 (pattern.toNat / 2 ^ (8 * (a % 8)))

def patternBytes (pattern : Word) (a n : Nat) : List Byte := (List.range n).map (fun i => patternByte pattern (a + i))

/-- The parts of a row within one 128-byte line each, with their bytes of the pattern. -/
def fillParts (pattern : Word) (run : Nat × Nat) : List (Nat × List Byte) :=
  (List.range (ceilDiv (run.1 % 128 + run.2) 128)).map (fun k =>
    let line := run.1 / 128 * 128 + 128 * k
    let a := Nat.max run.1 line
    (a, patternBytes pattern a (Nat.min (run.1 + run.2) (line + 128) - a)))

/-- A row of a FILL outside the tiered range is written; in it, its requests carry the pattern to the controllers. -/
def Hw.fillRun (h : Hw) (pattern : Word) (run : Nat × Nat) : Hw :=
  if spaceOf run.1 = .tiered then h
  else (fillParts pattern run).foldl (fun h p => h.engineStore p.1 p.2) h

/-- The requests of a FILL to the tiered range: each waits at its channel with its bytes. -/
def fillReqs (pattern : Word) (d : Desc) : List Req :=
  (d.runs.filter (fun r => decide (spaceOf r.1 = .tiered))).flatMap (fun r =>
    (cutRun (r.2 / 64 + 2) r.1 r.1 r.2).map (fun q => { q with st := .holding (patternBytes pattern q.dst.toNat q.len) }))

def Hw.startFill (h : Hw) (l : Launch) (d : Desc) (pattern : Word) : Hw :=
  let reqs := fillReqs pattern d
  let touches := h.touchedBy d
  let local_ := d.runs.filter (fun r => decide (spaceOf r.1 ≠ .tiered))
  let h := d.runs.foldl (fun h r => h.fillRun pattern r) h
  let h := h.count (tileBase l.t) Fld.AE_BYTES.bytes ((local_.map (fun r => r.2)).foldl (· + ·) 0)
  if reqs.isEmpty then touches.foldl Hw.bumpEpoch h
  else
    let h := h.onRunning l.t l.queue (fun r =>
      { r with reqs := numbered reqs, touches := touches, wrote := !local_.isEmpty })
    h.issue l.t

def execFill (t : Tile) (c : Cmd) (dst : DescNo) (pattern : Word) (s : State) : Host.Outcome State Fault Refusal :=
  .next (s.onHw (fun h =>
    let d := h.descOf t c dst
    let l : Launch := ⟨t, .access, 2, dst.toNat * 2 ^ 10 + pattern.toNat * 2 ^ 64, c⟩
    h.launchView l d.count (fun h => h.startFill l d pattern)))

/-! ### The accumulate unit, R184 to R187 -/

/-- Bytes of an element of an accumulate operation (Table 5.2). -/
def accWidth (op : Nat) : Nat := if op = 5 then 8 else 4

/-- Table 5.2: the new destination word, and whether a NaN arose from operands that were not NaN (R186). A reserved code
changes nothing. -/
def accOp (op old new : Nat) : Nat × Bool :=
  let a := decodeVal 5 old
  let b := decodeVal 5 new
  let made (v : Val) : Nat × Bool := (encodeVal 5 v, v.isNan && !a.isNan && !b.isNan)
  match op with
  | 0 => made (fpAdd 5 false a b).1
  | 1 => made (fpAdd 5 true a b).1
  | 2 => made (fpMax a b)
  | 3 => made (fpMin a b)
  | 4 => ((old + new) % 2 ^ 32, false)
  | 5 => ((old + new) % 2 ^ 64, false)
  | _ => (old, false)

/-- The words of a view for an accumulate operation. -/
def accWords (w : Nat) (d : Desc) : List Nat :=
  d.runs.flatMap (fun r => (List.range (r.2 / w)).map (fun k => r.1 + w * k))

/-- One word accumulated at its slice; `zero` is the aligned 8 bytes that an uncorrectable error delivers as zero (R189). -/
def Hw.accWord (h : Hw) (op w : Nat) (zero : Option Nat) (src : List Byte) (dst : Nat) : Hw × Bool :=
  let old := if zero = some (dst / 8) then 0 else leNat (h.engineRead dst w)
  let r := accOp op old (leNat src)
  ((h.engineStore dst (leBytes w r.1)).count (sliceBase (sliceOf dst)) Fld.SLC_ACC_OPS.count 1, r.2)

/-- Source words accumulated; the 128-byte lines in which a NaN was made raise SLC_FLAGS.acc_nan, once each (R186). -/
def Hw.accWordsFrom (h : Hw) (op w : Nat) (zero : Option Nat) : List (List Byte × Nat) → List Nat → Hw
  | [], lines => lines.eraseDups.foldl (fun h a => h.sliceEvent (sliceOf a) 3 a true) h
  | (s, d) :: rest, lines =>
    let r := h.accWord op w zero s d
    r.1.accWordsFrom op w zero rest (if r.2 then lines ++ [d / 128 * 128] else lines)

/-- ACC: each source word accumulated into the destination view at its slice, in view order. The words of a line reach a slice
of the other die over the bridge, which may discard those of the first line (R33). -/
def Hw.startAcc (h : Hw) (l : Launch) (src : DescNo) (s d : Desc) (op : Nat) (slice bridge : Ecc) : Hw :=
  let h := h.epochQueries l [src]
  let w := accWidth op
  let hr := h.readFound l.t l.c.found
  let pairs := (accWords w s).zip (accWords w d)
  let touches := h.touchedBy d
  let first := d.base.toNat
  let h := h.sliceEcc slice first
  let zero := if slice = .uncorrectable then some (first / 8) else none
  let lost := bridgeLoses (tilePoint l.t) (h.pointOf first) bridge
  let arrive := pairs.filter (fun p => !(lost && decide (p.2 / 128 = first / 128)))
  let h := h.cross (tilePoint l.t) (h.pointOf first) bridge id
  let h := h.accWordsFrom op w zero (arrive.map (fun p => (hr.engineRead p.1 w, p.2))) []
  let h := h.count (tileBase l.t) Fld.AE_BYTES.bytes (w * pairs.length)
  touches.foldl Hw.bumpEpoch h

def execAcc (t : Tile) (c : Cmd) (src dst : DescNo) (op : BitVec 4) (slice bridge : Ecc) (s : State) :
    Host.Outcome State Fault Refusal :=
  .next (s.onHw (fun h =>
    let sd := h.aeDesc t c src
    let l : Launch := ⟨t, .access, 3, argsSrcDst src dst + op.toNat * 2 ^ 20, c⟩
    h.launchView l sd.count (fun h => h.startAcc l src sd (h.descOf t c dst) op.toNat slice bridge)))

/-! ### Remote operations, R240 to R243 and R340 to R343 -/

/-- The bytes of a view in view order. -/
def Hw.viewBytes (h : Hw) (d : Desc) : List Byte := d.runs.flatMap (fun r => h.engineRead r.1 r.2)

/-- The next message number of this rank (Table 6.7). -/
def Hw.nextMid (h : Hw) : Half × Hw :=
  match h.job with
  | none => (0, h)
  | some j => (j.mid, { h with job := some { j with mid := j.mid + 1 } })

/-- RWRITE: the source as WRITE flits on the channel's slots. -/
def Hw.startRwrite (h : Hw) (l : Launch) (src : DescNo) (s : Desc) (rank addr : Nat) : Hw :=
  let h := h.epochQueries l [src]
  let bs := (h.readFound l.t l.c.found).viewBytes s
  let p := h.nextMid
  let fs := p.2.messageFlits 1 1 rank bs (fun k => addr + 224 * k + p.1.toNat * 2 ^ 48 + k * 2 ^ 64)
  (p.2.produce l.t l.c.unit.toNat fs).count (tileBase l.t) Fld.AE_BYTES.bytes bs.length

def execRwrite (t : Tile) (c : Cmd) (src : DescNo) (rank : Rank) (addr : Addr) (s : State) :
    Host.Outcome State Fault Refusal :=
  .next (s.onHw (fun h =>
    let sd := h.aeDesc t c src
    let l : Launch := ⟨t, .access, 4, src.toNat + rank.toNat * 2 ^ 10 + addr.toNat * 2 ^ 24, c⟩
    h.launchView l sd.count (fun h => h.startRwrite l src sd rank.toNat addr.toNat)))

/-- One run of a destination whose first byte is byte `off` of the answer, cut at the parts of the READ_RSP flits (part k
holds the bytes from 224 k, R242) and at the lines of the destination. -/
def cutRsp (addr : Nat) : Nat → Nat → Nat → Nat → List Req
  | 0, _, _, _ => []
  | fuel + 1, off, dst, len =>
    if len = 0 then []
    else
      let n := Nat.min len (Nat.min (224 - off % 224) (128 - dst % 128))
      ⟨BitVec.ofNat 48 (addr + off), BitVec.ofNat 48 dst, n, .waiting⟩ :: cutRsp addr fuel (off + n) (dst + n) (len - n)

/-- The runs of a view, its bytes numbered in view order from `off`. DEDUCED: assumption 49. -/
def rspRuns (addr : Nat) : Nat → List (Nat × Nat) → List Req
  | _, [] => []
  | off, r :: rs => cutRsp addr (r.2 / 64 + 4) off r.1 r.2 ++ rspRuns addr (off + r.2) rs

/-- DEDUCED: assumption 49. -/
def rspReqs (addr : Nat) (d : Desc) : List Req := rspRuns addr 0 d.runs

/-- RREAD: one READ_REQ for the bytes of the destination view. The command names no response window, so the window field is
a value the spec leaves open. DEDUCED: assumption 49. -/
def Hw.startRread (h : Hw) (l : Launch) (d : Desc) (rank addr : Nat) : Hw :=
  let total := (d.runs.map (fun r => r.2)).foldl (· + ·) 0
  let touches := h.touchedBy d
  let h := h.onRunning l.t l.queue (fun r => { r with reqs := numbered (rspReqs addr d), touches := touches })
  let h := h.issue l.t
  let w := h.freeWord
  let p := w.2.nextMid
  let f := { p.2.flitHead 1 2 rank true true with
    msg := BitVec.ofNat 96 (addr + p.1.toNat * 2 ^ 48 + total % 2 ^ 24 * 2 ^ 64 + bitsOf w.1 7 0 * 2 ^ 88) }
  let h := p.2.onRunning l.t l.queue (fun r => { r with region := p.1, remote := BitVec.ofNat 48 addr })
  h.produce l.t l.c.unit.toNat [f]

def execRread (t : Tile) (c : Cmd) (dst : DescNo) (rank : Rank) (addr : Addr) (s : State) :
    Host.Outcome State Fault Refusal :=
  .next (s.onHw (fun h =>
    let d := h.descOf t c dst
    let l : Launch := ⟨t, .access, 5, dst.toNat + rank.toNat * 2 ^ 10 + addr.toNat * 2 ^ 24, c⟩
    h.launchView l d.count (fun h => h.startRread l d rank.toNat addr.toNat)))

/-- Table 9.1: the ACC format of a source; FP32 0, BF16 1, scaled E4M3 2, scaled E5M2 3. -/
def accFormat (d : Desc) : Nat :=
  if d.f = 5 then 0 else if d.f = 3 then 1 else if d.f = 1 then 2 else 3

/-- Table 6.8: blocks in a full flit. -/
def accBlocksPerFlit (efmt : Nat) : Nat := if efmt = 0 then 1 else if efmt = 1 then 3 else 6

/-- Table 6.8: bytes of a block. -/
def accBlockBytes (efmt : Nat) : Nat := if efmt = 0 then 128 else if efmt = 1 then 64 else 34

/-- The places of a list taken 32 at a time. -/
def groups32 {α : Type} : Nat → List α → List (List α)
  | 0, _ => []
  | fuel + 1, l => if l.isEmpty then [] else l.take 32 :: groups32 fuel (l.drop 32)

/-- One block of a source (R340): its 32 elements, then its scale word where the format carries one (R342). -/
def Hw.accBlock (h : Hw) (d : Desc) (ps : List (Nat × Nat)) : List Byte :=
  let bytes := fmtBits d.f / 8
  let elems := ps.flatMap (fun p => leBytes bytes (h.elem d p.1 p.2))
  if accFormat d < 2 then elems
  else
    match ps with
    | [] => elems
    | p :: _ => elems ++ h.read (d.scale.toNat + 2 * d.block p.1 p.2) 2

/-- The ACC flits of a source (R243, R342): slot, block sequence numbers, format, blocks, rot and shift. -/
def Hw.accFlits (h : Hw) (d : Desc) (owner slot bseq : Nat) : List Flit :=
  let efmt := accFormat d
  let per := accBlocksPerFlit efmt
  let blocks := (groups32 (d.count / 32 + 1) d.places).map (h.accBlock d)
  let n := ceilDiv blocks.length per
  let rot := match h.job with
    | none => false
    | some j => decide (j.img.staging.rotFrom ≤ slot)
  let shift := if efmt < 2 then 0 else h.readNat (d.scale.toNat - 8) 1
  let gen := if 0x20 ≤ h.domainVer then h.fld inflBase Fld.INFL_COMMIT_STATE.layout_gen else 0
  (List.range n).map (fun k =>
    let bs := (blocks.drop (k * per)).take per
    let data := bs.flatMap id
    { h.flitHead 1 4 owner (decide (k = 0)) (decide (k + 1 = n)) with
      gen := BitVec.ofNat 16 gen
      msg := BitVec.ofNat 96 (slot + (bseq + k * per) % 2 ^ 32 * 2 ^ 16 + efmt * 2 ^ 48 + bs.length * 2 ^ 52
        + flagNat rot * 2 ^ 56 + shift * 2 ^ 64)
      data := dataOf data, len := BitVec.ofNat 8 data.length })

/-- RACC: to another rank on the channel's slots; to this rank over the mesh (R343). DESIGN CHOICE: assumption 50. -/
def Hw.startRacc (h : Hw) (l : Launch) (src : DescNo) (s : Desc) (rank slot bseq : Nat) : Hw :=
  let h := h.epochQueries l [src]
  let fs := (h.readFound l.t l.c.found).accFlits s rank slot bseq
  let h := h.count (tileBase l.t) Fld.AE_BYTES.bytes ((fs.map (fun f => f.len.toNat)).foldl (· + ·) 0)
  if rank = h.rank then { h with localAcc := h.localAcc ++ fs.map (fun f => (l.t, f)) } else h.produce l.t l.c.unit.toNat fs

def execRacc (t : Tile) (c : Cmd) (src : DescNo) (rank : Rank) (slot : Half) (bseq : Word32) (s : State) :
    Host.Outcome State Fault Refusal :=
  .next (s.onHw (fun h =>
    let sd := h.aeDesc t c src
    let l : Launch :=
      ⟨t, .access, 6, src.toNat + rank.toNat * 2 ^ 10 + slot.toNat * 2 ^ 24 + bseq.toNat * 2 ^ 40, c⟩
    h.launchView l sd.count (fun h => h.startRacc l src sd rank.toNat slot.toNat bseq.toNat)))

/-! ### Responses, R148 to R151 -/

/-- The error of a late or failed request (R149): AE_ERR_ADDR, and the event. -/
def Hw.tierErr (h : Hw) (t addr status : Nat) : Hw :=
  let h := h.setFlds (tileBase t) [(Fld.AE_ERR_ADDR.addr, addr), (Fld.AE_ERR_ADDR.status, status)]
  h.tileEvent t 0 5 (h.reg (tileBase t + Fld.AE_ERR_ADDR.addr.off)).toNat

/-- After a command's last response: the torn check and the epoch slot of R151, and the region epochs it raises (R150). -/
def Hw.lastResponse (h : Hw) (t : Nat) (r : Running) : Hw :=
  let region := r.region.toNat
  let first := (r.firstEpoch.getD r.lastEpoch).toNat
  let torn := decide (r.opcode = 1) && decide (region ≠ 0) && decide (first ≠ r.lastEpoch.toNat)
  let h := if torn then h.hazard t 0 region first r.lastEpoch.toNat (r.record.getD 0).toNat true else h
  let h := match r.record, r.firstEpoch with
    | some e, some _ =>
      let x := h.tile t
      h.setTile t { x with epochs := x.epochs.insert e.toNat (r.region, r.lastEpoch) }
    | _, _ => h
  if r.wrote then r.touches.foldl Hw.bumpEpoch h else h

/-- Request `k` of the command in queue `q` has ended, `wrote` with its bytes written; what waited is issued (R148). -/
def Hw.endReq (h : Hw) (t q k : Nat) (wrote : Bool) : Hw :=
  let h := h.onRunning t q (fun r => { r with reqs := r.reqs.erase k, wrote := r.wrote || wrote })
  let h := match (h.tile t).runs q with
    | [] => h
    | r :: _ => if r.reqs.isEmpty then h.lastResponse t r else h
  h.issue t

/-- The address in the tiered range of a request. -/
def Req.tierAddr (r : Req) : Nat := if spaceOf r.src.toNat = .tiered then r.src.toNat else r.dst.toNat

/-- Bytes that a request has brought, with the epoch of their source, reach its destination; in the tiered range they wait for
the controller. -/
def Hw.deliver (h : Hw) (t q k : Nat) (r : Req) (bs : List Byte) (epoch : Half) : Hw :=
  let h := h.noteEpoch t q epoch
  if spaceOf r.dst.toNat = .tiered then
    h.onRunning t q (fun x => { x with reqs := x.reqs.insert k { r with st := .served bs epoch h.tense0 } })
  else
    ((h.engineStore r.dst.toNat bs).count (tileBase t) Fld.AE_BYTES.bytes bs.length).endReq t q k true

/-- What the error code of the source's memory found on the way (R133, R189). -/
def Hw.sourceEcc (h : Hw) (found : Ecc) (a : Nat) : Hw :=
  match spaceOf a with
  | .tileMem => h.tileEcc (tileOf a) 0 (findAt found a)
  | .shared => h.sliceEcc found a
  | _ => h

/-- Bytes of the source of a request as its memory delivers them: an uncorrectable word reads as zero (R133, R189). -/
def Hw.sourceBytes (h : Hw) (found : Ecc) (a n : Nat) : List Byte :=
  match found with
  | .uncorrectable => (h.writeNat (a - a % 8) 8 0).engineRead a n
  | _ => h.engineRead a n

/-- R148, R149: the response to request `k` of channel `q`, which crosses the die bridge where the home lies on the other die.
The data of an RREAD come with its READ_RSP flits (R242). -/
def Hw.response (h : Hw) (t q k : Nat) (found bridge : Ecc) : Hw :=
  match (h.tile t).runs q with
  | [] => h
  | x :: _ =>
    match x.reqs.find? k with
    | none => h
    | some r =>
      let at' := if x.opcode = 5 then r.dst.toNat else r.tierAddr
      let back := fun (a : Nat) (go : Hw → Hw) => h.cross (h.pointOf a) (tilePoint t) bridge go
      match r.st with
      | .waiting => h
      | .holding _ => h
      | .issued _ =>
        if x.opcode = 5 ∨ spaceOf r.src.toNat = .tiered then h
        else
          let bs := h.sourceBytes found r.src.toNat r.len
          back r.src.toNat (fun h => (h.sourceEcc found r.src.toNat).deliver t q k r bs (h.sourceEpoch t q))
      | .served bs e _ =>
        if spaceOf r.dst.toNat = .tiered then h else back r.src.toNat (fun h => h.deliver t q k r bs e)
      | .written => back r.dst.toNat (fun h => (h.count (tileBase t) Fld.AE_BYTES.bytes r.len).endReq t q k true)
      | .late => (h.tierErr t at' 1).endReq t q k false
      | .failed => (h.tierErr t at' 2).endReq t q k false

def execAccessResponse (t : Tile) (ch : BitVec 2) (req : Word32) (found bridge : Ecc) (s : State) :
    Host.Outcome State Fault Refusal :=
  .next (s.onHw (fun h => h.response t ch.toNat req.toNat found bridge))

/-- R152, R153: the oldest query of an epoch slot is answered by the home of its region. An answer that the die bridge discards
never comes (R33). -/
def Hw.epochAnswer (h : Hw) (t eslot : Nat) (bridge : Ecc) : Hw :=
  let x := h.tile t
  match x.queries.find? (fun q => decide (q.eslot.toNat = eslot)) with
  | none => h
  | some q =>
    let h := h.setTile t { x with queries := x.queries.erase q }
    match h.epochHome q.region.toNat with
    | none => h
    | some a =>
      h.cross (homePoint a) (tilePoint t) bridge (fun h =>
        let home := h.regionEpoch q.region.toNat
        if home = q.epoch then h else h.hazard t 1 q.region.toNat q.epoch.toNat home.toNat eslot false)

def execEpochAnswer (t : Tile) (eslot : Byte) (bridge : Ecc) (s : State) : Host.Outcome State Fault Refusal :=
  .next (s.onHw (fun h => h.epochAnswer t eslot.toNat bridge))

end Sys2Proof.Machine
end

