-- ==== Sys2Proof/Machine/Packing.lean ====
section
/-!
DEFINITION. The numbers of an array command (R94 to R106, R119, R154 to R156): packing (Table 3.3), escape tables, the operands
that an edge section supplies, the order of addition, and occupancy (R125).
-/
namespace Sys2Proof.Machine

/-! ### Packing, Tables 3.1 to 3.3 and 3.6 -/

/-- Compound size k; 0 for the quarter cell. -/
def packK (f : Nat) : Nat :=
  match f with
  | 0 => 0
  | 1 => 1
  | 2 => 1
  | 3 => 2
  | 4 => 3
  | 5 => 6
  | _ => 14

/-- Reduction indices of a pass, K_p. -/
def packKp (f : Nat) : Nat :=
  match f with
  | 0 => 32
  | 1 => 32
  | 2 => 32
  | 3 => 16
  | 4 => 10
  | 5 => 5
  | _ => 2

/-- Ticks to load a stationary set, L_t (R109). -/
def packLoad (f : Nat) : Nat := if f ≤ 3 then 32 else if f = 6 then 28 else 30

/-- Fragments of a significand, Table 3.1. -/
def packFrags (f : Nat) : Nat := if f ≤ 2 then 1 else packK f

/-- The accumulator format, Table 3.2. -/
def accFmt (f : Nat) : Nat := if f ≤ 4 then 5 else 6

/-- Compounds along one axis of the grid, g; 32 for quarter cells (R96). -/
def packG (f : Nat) : Nat := if f = 0 then 32 else 32 / packK f

/-- Cells along one side of a compound; a quarter cell lies in one cell. -/
def packSide (f : Nat) : Nat := if f = 0 then 1 else packK f

/-- The offset o of the grid, which leaves the ring around it (R96). -/
def gridOffset (f : Nat) : Nat := (32 - packG f * packSide f) / 2

/-- Output columns that one compound serves: a cell has two quarter cells a side (R98). -/
def packLanes (f : Nat) : Nat := if f = 0 then 2 else 1

/-- An element as it enters the grid (R94): its sign, the exponent field (1 for a subnormal) and the significand. -/
structure Elt where
  neg : Bool
  exp : Nat
  sig : Nat
deriving DecidableEq, Repr

/-- +0. -/
def Elt.zero : Elt := ⟨false, 1, 0⟩

/-- R94: the implicit bit is prefixed, 1 for a normal value and 0 for a subnormal one; an infinity or a NaN presents its
mantissa as a normal value does. -/
def presented (f code : Nat) : Elt :=
  let w := fmtMan f
  let e := code / 2 ^ w % 2 ^ (fmtBits f - 1 - w)
  ⟨decide (code / 2 ^ (fmtBits f - 1) % 2 = 1), if e = 0 then 1 else e, code % 2 ^ w + (if e = 0 then 0 else 2 ^ w)⟩

/-- Fragment i of a significand (R94). -/
def Elt.frag (x : Elt) (i : Nat) : Nat := x.sig / 16 ^ i % 16

/-- Fragments of an element that are 0x0 (R119). -/
def zeroFrags (f sig : Nat) : Nat :=
  ((List.range (packFrags f)).filter (fun i => decide (sig / 16 ^ i % 16 = 0))).length

/-! ### Escape tables, R155 -/

/-- How a fill stands: entries kept (newest first), the last index read, faults, entries beyond 256. -/
structure FillSt where
  kept : List (Nat × Half)
  last : Option Nat
  faults : Nat
  excess : Nat
deriving DecidableEq, Repr

/-- R155, steps 3 to 5: entries are read and checked until an index exceeds the largest of the view; that entry too is read. -/
def fillWalk (d : Desc) (step largest : Nat) : List Word → FillSt → FillSt
  | [], f => f
  | w :: ws, f =>
    let i := entryIndex w
    let rising := match f.last with
      | none => true
      | some p => decide (p < i)
    let good := entryParityOk w && decide (entryTag w = step % 256) && rising
    let f := { f with last := some i, faults := f.faults + flagNat (!good) }
    let f :=
      if good && d.holds i then
        if f.kept.length < 256 then { f with kept := (i, BitVec.ofNat 16 (entryValue w)) :: f.kept }
        else { f with excess := f.excess + 1 }
      else f
    if largest < i then f else fillWalk d step largest ws f

/-- The table an operand's fill produces for the MMUL with this tag. -/
def Hw.escFill (h : Hw) (d : Desc) (tag : Word32) (step : Nat) : EscTable :=
  let head := h.listHead d.list.toNat (Attr.ofWord d.attr).cap
  if head.valid then
    let f := fillWalk d step (d.index (d.rows.toNat - 1) (d.cols.toNat - 1))
      (h.listFrom d.list.toNat head.count (d.index 0 0)) ⟨[], none, 0, 0⟩
    ⟨some tag, f.kept.reverse, head.ovf || decide (0 < f.excess), f.faults, flagNat (decide (0 < f.excess))⟩
  else ⟨some tag, [], true, 1, 0⟩

/-- The bank of an operand (0 streaming, 1 stationary) of array `u` that the next command will use. -/
def escKey (u op bank : Nat) : Nat := u * 4 + op * 2 + bank

def TileSt.nextBank (x : TileSt) (u : Nat) : Nat := 1 - x.escBank.get 0 u

/-- One listed operand's next bank filled, with the events of R155 and R156. -/
def Hw.fillOperand (h : Hw) (t : Nat) (c : Cmd) (op : Nat) (d : Desc) : Hw :=
  if d.listed then
    let x := h.tile t
    let key := escKey c.unit.toNat op (x.nextBank c.unit.toNat)
    if (x.escTab.get EscTable.empty key).tag = some c.tag then h
    else
      let e := (h.readFound t c.found).escFill d c.tag h.stepNo
      let h := h.setTile t { x with escTab := x.escTab.set EscTable.empty key e }
      (h.cmdEvents t .execute 2 c e.faults).cmdEvents t .execute 3 c e.lost
  else h

def Hw.fillBanks (h : Hw) (t : Nat) (c : Cmd) (a w : Desc) : Hw := (h.fillOperand t c 0 a).fillOperand t c 1 w

/-- The fill of the next bank of an array's edge section, with what SECDED finds in the words it reads (R133); a disabled
array runs nothing (R4). -/
def execEscapeTableFill (t : Tile) (c : Cmd) (x : MmulArgs) (s : State) : Host.Outcome State Fault Refusal :=
  .next (s.onHw (fun h =>
    if h.tileRuns t && h.phaseAllows c && h.flag (arrBase t c.unit.toNat) Fld.ARR_STATUS.enabled then
      (h.tileEcc t 1 c.found).fillBanks t c (h.descOf t c x.a) (h.descOf t c x.w)
    else h))

/-! ### Operands as the edge section feeds them, R154 and R156 -/

/-- An element as fed: `q` enters the grid, `full` is its full value for a correction (R106). -/
structure Cell where
  q : Val
  full : Val
  escaped : Bool
  zeros : Nat
  elt : Elt
deriving DecidableEq, Repr

def Cell.zero (f : Nat) : Cell := ⟨.zero, .zero, false, packFrags f, Elt.zero⟩

/-- An operand: elements by view row, the scale of each row's block by pass, its shift, the agreement faults it raised. -/
structure Operand where
  cells : List (List Cell)
  scales : List (List (Nat × Int))
  shift : Int
  faults : Nat
deriving DecidableEq, Repr

/-- R106, R154, R156: one element, with whether its escape code found no entry and that is a fault. -/
def feedCell (d : Desc) (tab : EscTable) (shift : Int) (s : (Nat × Int) × Bool) (code idx : Nat) : Cell × Bool :=
  if isEscape d.f code then
    let z : Cell := ⟨.zero, .zero, true, packFrags d.f, Elt.zero⟩
    if d.listed then
      match tab.entries.find? (fun e => decide (e.1 = idx)) with
      | some e => ({ z with full := if s.2 then .zero else decodeVal 3 e.2.toNat }, false)
      | none => (z, !tab.quiet)
    else ({ z with escaped := false }, true)
  else if s.2 then (Cell.zero d.f, false)
  else
    let q := decodeVal d.f code
    let x := presented d.f code
    (⟨q, scaledVal q s.1 shift, false, zeroFrags d.f x.sig, x⟩, false)

/-- The elements an operand feeds over `rows` × `cols` of its view. -/
def Hw.edgeOperand (h : Hw) (d : Desc) (tab : EscTable) (rows cols : Nat) : Operand :=
  let t := h.shiftOf d.f d.scale.toNat
  let scale := fun (i j : Nat) =>
    if d.scaled then h.blockScale d.scale.toNat (d.block i j) else ((1, 0), false)
  let fed := (List.range rows).map (fun i => (List.range cols).map (fun j =>
    feedCell d tab t (scale i j) (h.elem d i j) (d.index i j)))
  let sc := (List.range rows).map (fun i => (List.range (ceilDiv cols (packKp d.f))).map (fun p =>
    scale i (p * packKp d.f)))
  let used := fun (e : Nat × Half) => (List.range rows).any (fun i => (List.range cols).any (fun j =>
    decide (d.index i j = e.1) && isEscape d.f (h.elem d i j)))
  let codes := (fed.map (fun r => (r.filter (fun c => c.2)).length)).foldl (· + ·) 0
  let words := if d.scaled then (sc.map (fun r => (r.filter (fun s => s.2)).length)).foldl (· + ·) 0 else 0
  { cells := fed.map (fun r => r.map (fun c => c.1))
    scales := sc.map (fun r => r.map (fun s => s.1))
    shift := t
    faults := codes + words + (tab.entries.filter (fun e => !used e)).length }

def Operand.cell (o : Operand) (f i j : Nat) : Cell := ((((o.cells[i]?).getD [])[j]?).getD (Cell.zero f))
def Operand.scale (o : Operand) (i p : Nat) : Nat × Int := ((((o.scales[i]?).getD [])[p]?).getD (1, 0))

/-! ### The order of addition, R101 to R106 -/

/-- An accumulator with whether a NaN was made and whether something overflowed on the way (Table 3.9). -/
structure Acc where
  v : Val
  nan : Bool
  ovf : Bool
deriving DecidableEq, Repr

/-- R102: one addition in the accumulator format. -/
def Acc.add (c : Nat) (rtz : Bool) (a : Acc) (x : Val) : Acc :=
  let r := fpAdd c rtz a.v x
  ⟨r.1, a.nan || (r.1.isNan && !a.v.isNan && !x.isNan), a.ovf || r.2⟩

/-- R101: a product rounded once, added. -/
def Acc.mulAdd (c : Nat) (rtz : Bool) (a : Acc) (x y : Val) : Acc :=
  let r := fpMul c rtz x y
  Acc.add c rtz ⟨a.v, a.nan || (r.1.isNan && !x.isNan && !y.isNan), a.ovf || r.2⟩ r.1

/-- An array command's numbers: formats, extents, rounding, axis and operands. -/
structure MmulJob where
  fa : Nat
  fw : Nat
  k : Nat
  rtz : Bool
  transposed : Bool
  a : Operand
  w : Operand
deriving DecidableEq, Repr

/-- The stationary element for reduction index κ and output column n; transposed reading exchanges its axes (R113). -/
def MmulJob.wCell (x : MmulJob) (kk n : Nat) : Cell :=
  if x.transposed then x.w.cell x.fw kk n else x.w.cell x.fw n kk

/-- R104: the factor of a pass. Transposed reading has no scaled stationary operand (R114). -/
def MmulJob.factor (x : MmulJob) (m n p : Nat) : Val :=
  let sa := x.a.scale m p
  let sw := if x.transposed then (1, 0) else x.w.scale n p
  .fin false (sa.1 * sw.1) (sa.2 + sw.2 + x.a.shift + x.w.shift)

/-- R103: the partial sum of output (m, n) after the first `count` compounds of a pass, from +0, in the order in which it meets
them, with the flags of the additions so far. -/
def MmulJob.partSum (x : MmulJob) (c m n p count : Nat) (acc : Acc) : Acc :=
  let kp := packKp x.fa
  (List.range count).foldl (fun s q =>
    Acc.mulAdd c x.rtz s (x.a.cell x.fa m (kp * p + q)).q (x.wCell (kp * p + q) n).q) ⟨.zero, acc.nan, acc.ovf⟩

/-- Reduction indices of a pass that lie below K_c (R103). -/
def MmulJob.inPass (x : MmulJob) (p : Nat) : Nat := Nat.min (packKp x.fa) (x.k - packKp x.fa * p)

/-- R103: the sum of one pass; compounds beyond K_c add nothing. -/
def MmulJob.passSum (x : MmulJob) (c m n p : Nat) (acc : Acc) : Acc := x.partSum c m n p (x.inPass p) acc

/-- R103 to R106: the accumulator of output (m, n). -/
def MmulJob.result (x : MmulJob) (m n : Nat) (init : Val) : Acc :=
  let c := accFmt x.fa
  let acc := (List.range (ceilDiv x.k (packKp x.fa))).foldl (fun acc p =>
    let s := x.passSum c m n p acc
    Acc.mulAdd c x.rtz ⟨acc.v, s.nan, s.ovf⟩ (x.factor m n p) s.v) ⟨init, false, false⟩
  (List.range x.k).foldl (fun acc kk =>
    let a := x.a.cell x.fa m kk
    let w := x.wCell kk n
    if a.escaped || w.escaped then Acc.mulAdd c x.rtz acc a.full w.full else acc) acc

/-- R119: multiplier-ticks gated for zero fragments, over the products within the extents: in FP4 one for each of the four
products of a cell. DESIGN CHOICE: assumption 85. -/
def MmulJob.gated (x : MmulJob) (m n : Nat) : Nat :=
  let fr := packFrags x.fa
  ((List.range m).map (fun i => ((List.range n).map (fun j => ((List.range x.k).map (fun kk =>
    let za := (x.a.cell x.fa i kk).zeros
    let zw := (x.wCell kk j).zeros
    fr * fr - (fr - za) * (fr - zw))).foldl (· + ·) 0)).foldl (· + ·) 0)).foldl (· + ·) 0

/-- R109, R124, R125: ticks of occupancy with the declared worst-case escapes; one tick where M or N_c is 0 (R121). -/
def occupancy (f m n k wA wW : Nat) : Nat :=
  if m = 0 ∨ n = 0 then 1
  else
    let s := if f = 0 then ceilDiv m 2 else m
    ceilDiv k (packKp f) * Nat.max s (packLoad f) + 1 + wA + m * wW

end Sys2Proof.Machine
end

