-- ==== Sys2Proof/Machine/Cells.lean ====
section
/-!
DEFINITION. Inside a compounding array (R93 to R100, R109 to R117): which cell holds what, the exact product that a compound
forms, the loading of shadow registers and their swap, and the elastic edges.
-/
namespace Sys2Proof.Machine

/-! ### The grid of compounds, R96 to R99 -/

/-- R96: the array cell of local cell (i, l) of compound (q, j). -/
def cellKey (f q j i l : Nat) : Nat :=
  32 * (gridOffset f + packSide f * q + i) + (gridOffset f + packSide f * j + l)

/-- R99: what local cell (i, l) of a compound holds of a stationary element: fragment l in frag_col, fragment i in frag_row;
the anchor also its sign and exponent. A quarter cell holds the whole (R98). -/
def Elt.statReg (x : Elt) (i l : Nat) : StatReg where
  sign := decide (i = 0 ∧ l = 0) && x.neg
  exp := BitVec.ofNat 11 (if i = 0 ∧ l = 0 then x.exp else 0)
  fragRow := BitVec.ofNat 4 (x.frag i)
  fragCol := BitVec.ofNat 4 (x.frag l)

/-- The element that a compound of side k holds, from the registers of its cells: sign and exponent of the anchor, the
fragments of its row of cells (R99). -/
def compoundElt (k : Nat) (cell : Nat → Nat → StatReg) : Elt where
  neg := (cell 0 0).sign
  exp := (cell 0 0).exp.toNat
  sig := ((List.range k).map (fun l => (cell 0 l).fragCol.toNat * 16 ^ l)).foldl (· + ·) 0

/-- R99: the k² partial products, each weighted by its place, summed with no rounding. -/
def compoundSum (k : Nat) (a w : Nat → Nat) : Nat :=
  ((List.range k).map (fun i => ((List.range k).map (fun l => a i * w l * 16 ^ (i + l))).foldl (· + ·) 0)).foldl (· + ·) 0

/-- R99, R100: the exact product of two finite elements, of formats f and g. -/
def compoundProduct (f g : Nat) (a w : Elt) : Val :=
  .fin (a.neg != w.neg) (compoundSum (packFrags f) a.frag w.frag)
    ((Int.ofNat a.exp - Int.ofNat (fmtBias f) - Int.ofNat (fmtMan f))
      + (Int.ofNat w.exp - Int.ofNat (fmtBias g) - Int.ofNat (fmtMan g)))

/-! ### Which elements a compound holds in a pass, R98, R103, R113 -/

/-- Compound rows and columns within the command's extents in a pass (R97). -/
def MmulJob.rowsIn (x : MmulJob) (n p : Nat) : Nat := if x.transposed then n else x.inPass p
def MmulJob.colsIn (x : MmulJob) (n p : Nat) : Nat := if x.transposed then x.inPass p else ceilDiv n (packLanes x.fa)

/-- The reduction index that compound (q, j) serves in pass p: by rows, or by columns in transposed reading (R113). -/
def MmulJob.indexAt (x : MmulJob) (p q j : Nat) : Nat := packKp x.fa * p + (if x.transposed then j else q)

/-- The outputs that compound (q, j) serves. -/
def MmulJob.outputsAt (x : MmulJob) (n q j : Nat) : List Nat :=
  if x.transposed then [q]
  else ((List.range (packLanes x.fa)).map (fun v => packLanes x.fa * j + v)).filter (fun i => decide (i < n))

/-- The local cells of a pass: compound row and column, local row and column. -/
def MmulJob.places (x : MmulJob) (n p : Nat) : List (Nat × Nat × Nat × Nat) :=
  let side := List.range (packSide x.fa)
  (List.range (x.rowsIn n p)).flatMap (fun q => (List.range (x.colsIn n p)).flatMap (fun j =>
    side.flatMap (fun i => side.map (fun l => (q, j, i, l)))))

/-- The stationary set of a pass, cell by cell. -/
def MmulJob.statSet (x : MmulJob) (n p : Nat) : List (Nat × List StatReg) :=
  (x.places n p).map (fun c =>
    (cellKey x.fa c.1 c.2.1 c.2.2.1 c.2.2.2,
      (x.outputsAt n c.1 c.2.1).map (fun o => (x.wCell (x.indexAt p c.1 c.2.1) o).elt.statReg c.2.2.1 c.2.2.2)))

/-! ### Loading, swapping, streaming, R109 to R112 -/

/-- R111: the load buses write the shadow registers of the cells named. -/
def ArrSt.load (a : ArrSt) (set : List (Nat × List StatReg)) : ArrSt :=
  { a with shadow := set.foldl (fun m e => m.set [] e.1 e.2) a.shadow }

/-- R112: each cell copies its shadow registers to its active registers. -/
def ArrSt.swap (a : ArrSt) : ArrSt := { a with active := a.shadow }

/-- The rows of A that step s streams: two in FP4 (R98). -/
def stepRows (f m s : Nat) : List Nat :=
  ((List.range (packLanes f)).map (fun u => packLanes f * s + u)).filter (fun i => decide (i < m))

/-- R98, R99: the streaming fragments that the cells hold as step s of pass p passes them: by rows, or by columns in
transposed reading. -/
def MmulJob.streamAt (x : MmulJob) (m n p s : Nat) : List (Nat × List (BitVec 4)) :=
  (x.places n p).map (fun c =>
    (cellKey x.fa c.1 c.2.1 c.2.2.1 c.2.2.2,
      (stepRows x.fa m s).map (fun r =>
        BitVec.ofNat 4 ((x.a.cell x.fa r (x.indexAt p c.1 c.2.1)).elt.frag (if x.transposed then c.2.2.2 else c.2.2.1)))))

/-- R98, R103: the partial sums that each compound passes on in step s of pass p, as accumulator codes: one lane for each row
and each output. -/
def MmulJob.sumsAt (x : MmulJob) (m n p s : Nat) : List (Nat × List Word) :=
  (List.range (x.rowsIn n p)).flatMap (fun q => (List.range (x.colsIn n p)).map (fun j =>
    (cellKey x.fa q j 0 0,
      (stepRows x.fa m s).flatMap (fun r => (x.outputsAt n q j).map (fun o =>
        let c := accFmt x.fa
        BitVec.ofNat 64 (encodeVal c (x.partSum c r o p ((if x.transposed then j else q) + 1) ⟨.zero, false, false⟩).v))))))

/-- The array after the passes of a command: each pass is loaded and swapped in, and the registers that data streams through
hold the last step of the last one. -/
def ArrSt.passed (a : ArrSt) (x : MmulJob) (m n : Nat) : ArrSt :=
  let passes := ceilDiv x.k (packKp x.fa)
  if passes = 0 then a
  else
    let a := (List.range passes).foldl (fun a p => (a.load (x.statSet n p)).swap) a
    let s := ceilDiv m (packLanes x.fa) - 1
    { a with
      stream := (x.streamAt m n (passes - 1) s).foldl (fun t e => t.set [] e.1 e.2) a.stream
      psum := (x.sumsAt m n (passes - 1) s).foldl (fun t e => t.set [] e.1 e.2) a.psum }

/-! ### Elastic edges, R115 to R118. DEDUCED: assumption 86 -/

/-- The feeders and drains of the rows and columns that the grid uses, numbered as in `ArrayTiming`. -/
def edgeUnits (f : Nat) : List Nat :=
  (List.range 96).filter (fun u => decide (gridOffset f ≤ u % 32 ∧ u % 32 < 32 - gridOffset f))

/-- How many entries a feeder (below 64) or drain stands ahead of the core. -/
def ArrSt.place (a : ArrSt) (u : Nat) : Int := if u < 64 then Int.ofNat (a.fill.get 0 u) else - Int.ofNat (a.fill.get 0 u)

/-- The least and the largest of a list. -/
def spread (l : List Int) : Int × Int :=
  match l with
  | [] => (0, 0)
  | x :: xs => xs.foldl (fun p y => (if y < p.1 then y else p.1, if p.2 < y then y else p.2)) (x, x)

/-- R116: the skew. -/
def ArrSt.skew (a : ArrSt) (f : Nat) : Nat :=
  let p := spread ((edgeUnits f).map a.place)
  (p.2 - p.1).toNat

/-- Entries of the units of a list changed by `g`. -/
def ArrSt.onFill (a : ArrSt) (us : List Nat) (g : Nat → Nat) : ArrSt := { a with fill := us.foldl (fun m u => m.upd 0 u g) a.fill }

/-- R115: one tick. The feeders that get their access fetch an entry, the core advances if every feeder has its next entry and
every drain has room, and the drains that get their access empty one. While the array waits under R116, only those that lag
most move. Whether the core advanced. -/
def ArrSt.edgeTick (a : ArrSt) (f : Nat) : ArrSt × Bool :=
  let us := edgeUnits f
  let late := ((a.lags.head?).getD []).map (fun u => u.val)
  let low := (spread (us.map a.place)).1
  let moves := us.filter (fun u => !late.contains u && (!a.wide || decide (a.place u = low)))
  let feeders := us.filter (fun u => decide (u < 64))
  let drains := us.filter (fun u => decide (64 ≤ u))
  let b := a.onFill (feeders.filter (fun u => moves.contains u)) (satNat 16 ∘ (· + 1))
  let go := feeders.all (fun u => decide (0 < b.fill.get 0 u)) && drains.all (fun u => decide (b.fill.get 0 u < 16))
  let b := if go then (b.onFill feeders (· - 1)).onFill drains (· + 1) else b
  let b := b.onFill (drains.filter (fun u => moves.contains u)) (· - 1)
  let skew := b.skew f
  ({ b with lags := a.lags.drop 1, wide := if a.wide then decide (0 < skew) else decide (16 ≤ skew) }, go)

/-- One core step of the occupancy is over; at its end the edges stand level again. -/
def ArrSt.advance (a : ArrSt) : ArrSt :=
  if a.left ≤ 1 then { a with left := 0, fill := [], lags := [], wide := false } else { a with left := a.left - 1 }

end Sys2Proof.Machine
end

