-- ==== Sys2Proof/Machine/Arrays.lean ====
section
/-!
DEFINITION. The array commands (R107, R113 to R125, R157): initial values and held accumulators, events and counters
(Tables 3.8 to 3.13), the start of an MMUL, and an array's tick.
-/
namespace Sys2Proof.Machine

/-! ### MMUL -/

/-- A value the spec leaves open, in an accumulator format (DESIGN CHOICE: assumption 4). -/
def freeAcc (h : Hw) (c i : Nat) : Val := decodeVal c ((Config.freeWord (h.free + i)).toNat % 2 ^ fmtBits c)

/-- R107: the initial value of each output, row by row. A keep that finds no matching held accumulators starts from values
the spec leaves open. -/
def Hw.initials (h : Hw) (t : Nat) (c : Cmd) (x : MmulArgs) (fa fw : Nat) : List Val :=
  let m := x.m.toNat
  let n := x.n.toNat
  let places := (List.range m).flatMap (fun i => (List.range n).map (fun j => (i, j)))
  let af := accFmt fa
  let d := h.descOf t c x.init
  match x.initMode.toNat with
  | 0 => places.map (fun _ => .zero)
  | 1 => places.map (fun p => decodeVal af (h.elem d p.1 p.2))
  | 2 => places.map (fun p => decodeVal af (h.elem d 0 p.2))
  | _ =>
    match (h.tile t).held.find? c.unit.toNat with
    | some e =>
      if e.m = m ∧ e.n = n ∧ e.fmtA = fa ∧ e.fmtW = fw then e.acc.map (fun w => decodeVal af w.toNat)
      else (List.range (m * n)).map (freeAcc h af)
    | none => (List.range (m * n)).map (freeAcc h af)

/-- An array event that is only counted or, for ecc_unc, marks the step unclean (Table 3.13). -/
def Hw.arrayEvent (h : Hw) (t u bit detail : Nat) : Hw :=
  let ff : Fld × Fld := match bit with
    | 1 => (Fld.ARR_FLAGS.wide_stall, Fld.ARR_CNT_TIME.wide_stall)
    | 2 => (Fld.ARR_FLAGS.nan_made, Fld.ARR_CNT_NUM.nan_made)
    | 3 => (Fld.ARR_FLAGS.acc_ovf, Fld.ARR_CNT_NUM.acc_ovf)
    | 4 => (Fld.ARR_FLAGS.ecc_corr, Fld.ARR_CNT_ECC.ecc_corr)
    | _ => (Fld.ARR_FLAGS.ecc_unc, Fld.ARR_CNT_ECC.ecc_unc)
  let h := h.raise (arrBase t u) ff.1 ff.2 (ringTile t 1) (0x10 + bit) detail
  if bit = 5 then (h.setFld (tileBase t) Fld.TILE_STATUS.unclean 1).signalOwn 6 else h

/-- An event of a command raised if it happened. -/
def Hw.whenArray (h : Hw) (b : Bool) (t u bit : Nat) (c : Cmd) : Hw := if b then h.arrayEvent t u bit (cmdDetail c) else h

/-- What was found in the edge accumulator store: an uncorrectable word makes its value one that the spec leaves open. -/
def Hw.storeEcc (h : Hw) (found : Ecc) (t : Nat) (c : Cmd) (af : Nat) (vals : List Val) : Hw × List Val :=
  match found with
  | .clean => (h, vals)
  | .corrected => (h.arrayEvent t c.unit.toNat 4 (cmdDetail c), vals)
  | .uncorrectable =>
    match vals with
    | [] => (h.arrayEvent t c.unit.toNat 5 (cmdDetail c), [])
    | _ :: vs => ({ h with free := h.free + 1 }.arrayEvent t c.unit.toNat 5 (cmdDetail c), freeAcc h af 0 :: vs)

/-- R157: the accumulators that the drain converts under the out attribute word as they become final; with no reduction the
command reports nothing (R121). -/
def Hw.drain (h : Hw) (l : Launch) (d : Desc) (vals : List Val) (k faults lost : Nat) : Hw :=
  let o : Output := ⟨d, vals, h.stepNo, faults, lost, true, decide (k = 0)⟩
  h.onRunning l.t l.queue (fun r => { r with output := some o })

/-- Status and occupancy of the array as its command starts (R118, R125, Tables 3.8 to 3.11); its feeders and drains stand
level (R115). -/
def Hw.arrayStatus (h : Hw) (l : Launch) (x : MmulArgs) (lags : List (List (Fin 96))) (fa fw : Nat) : Hw :=
  let u := l.c.unit.toNat
  let st := h.tile l.t
  let occ := occupancy fa x.m.toNat x.n.toNat x.k.toNat x.wA.toNat x.wW.toNat
  let h := h.setTile l.t (st.setArray u { st.array u with left := occ, fill := [], lags := lags, wide := false })
  h.setFlds (arrBase l.t u)
    [(Fld.ARR_STATUS.busy, 1), (Fld.ARR_STATUS.transposed, flagNat x.transposed), (Fld.ARR_STATUS.stalled, 0),
     (Fld.ARR_STATUS.fmt_a, fa), (Fld.ARR_STATUS.fmt_w, fw), (Fld.ARR_STATUS.k, packK fa),
     (Fld.ARR_STATUS.skew, 0), (Fld.ARR_STATUS.cmd, l.c.tag.toNat)]

/-- An array of a tile changed by `f`. -/
def Hw.onArray (h : Hw) (t u : Nat) (f : ArrSt → ArrSt) : Hw := h.setTile t ((h.tile t).setArray u (f ((h.tile t).array u)))

/-- The escape table an operand uses; the bank becomes the current one. -/
def TileSt.table (x : TileSt) (u op : Nat) : EscTable := x.escTab.get EscTable.empty (escKey u op (x.nextBank u))

/-- An MMUL with M and N_c at least 1. A transposed command reads W anew from its view: the command has no bit that says
the stationary operands already loaded are those of this view. DESIGN CHOICE: assumption 85. -/
def Hw.startMmul (h : Hw) (l : Launch) (x : MmulArgs) (w : ArrayTiming) : Hw :=
  let t := l.t
  let u := l.c.unit.toNat
  let da := h.descOf t l.c x.a
  let dw := h.descOf t l.c x.w
  let m := x.m.toNat
  let n := x.n.toNat
  let k := x.k.toNat
  let h := h.epochQueries l (if x.initMode = 1 ∨ x.initMode = 2 then [x.a, x.w, x.init] else [x.a, x.w])
  let h := h.arrayStatus l x w.lags da.f dw.f
  let h := h.fillBanks t l.c da dw
  let tabA := if da.listed then (h.tile t).table u 0 else EscTable.empty
  let tabW := if dw.listed then (h.tile t).table u 1 else EscTable.empty
  let st := h.tile t
  let h := h.setTile t { st with escBank := st.escBank.set 0 u (st.nextBank u) }
  let hr := h.readFound t l.c.found
  let a := hr.edgeOperand da tabA m k
  let b := if x.transposed then hr.edgeOperand dw tabW k n else hr.edgeOperand dw tabW n k
  let job : MmulJob := ⟨da.f, dw.f, k, x.rtz, x.transposed, a, b⟩
  let inits := hr.initials t l.c x da.f dw.f
  let h := if x.initMode = 3 then { h with free := h.free + m * n } else h
  let accs := (List.range (m * n)).map (fun i => job.result (i / n) (i % n) ((inits[i]?).getD .zero))
  let h := h.cmdEvents t .execute 2 l.c (a.faults + b.faults)
  let h := h.whenArray (accs.any (fun r => r.nan)) t u 2 l.c
  let h := h.whenArray (accs.any (fun r => r.ovf)) t u 3 l.c
  let h := (h.count (arrBase t u) Fld.ARR_PRODUCTS.count (m * n * k)).count (arrBase t u) Fld.ARR_GATED_FRAG.count
    (job.gated m n)
  let p := h.storeEcc w.store t l.c (accFmt da.f) (accs.map (fun r => r.v))
  let h := p.1.onArray t u (fun x => x.passed job m n)
  let st := h.tile t
  if x.hold then
    let e : Held := ⟨m, n, da.f, dw.f, p.2.map (fun v => BitVec.ofNat 64 (encodeVal (accFmt da.f) v))⟩
    h.setTile t { st with held := st.held.insert u e }
  else
    (h.setTile t { st with held := st.held.erase u }).drain l (h.descOf t l.c x.out) p.2 k
      (a.faults + b.faults + tabA.faults + tabW.faults) (tabA.lost + tabW.lost)

/-- R121: with M or N_c 0 the command completes at its launch tick; it takes the array for that tick only. -/
def Hw.emptyMmul (h : Hw) (l : Launch) (x : MmulArgs) (w : ArrayTiming) : Hw :=
  (h.arrayStatus l x w.lags (h.descOf l.t l.c x.a).f (h.descOf l.t l.c x.w).f).endNow l.t l.queue

def execMmul (t : Tile) (c : Cmd) (x : MmulArgs) (w : ArrayTiming) (s : State) : Host.Outcome State Fault Refusal :=
  .next (s.onHw (fun h =>
    let l : Launch := ⟨t, .execute, 1, argsMmul x, c⟩
    h.launch l (fun h => if x.m = 0 ∨ x.n = 0 then h.emptyMmul l x w else h.startMmul l x w)))

/-! ### A tick of an array, R115 to R118 -/

/-- R118: a command at the head of an array's queue whose launch tick has passed waits for the occupancy to end. -/
def Hw.headWaits (h : Hw) (t u : Nat) : Bool :=
  match (h.tile t).queue (4 + u) with
  | [] => false
  | c :: _ => h.reached c.launch

/-- A tick of array `u` with a command in occupancy: it is counted, and counted as a stall tick if the core holds or a command
waits behind it; the array's status shows it. -/
def Hw.arrayTick (h : Hw) (t u : Nat) : Hw :=
  let a := (h.tile t).array u
  if a.left = 0 then h
  else
    let b := arrBase t u
    let p := a.edgeTick (h.fld b Fld.ARR_STATUS.fmt_a)
    let next := if p.2 then p.1.advance else p.1
    let skew := if next.left = 0 then 0 else satNat 16 (p.1.skew (h.fld b Fld.ARR_STATUS.fmt_a))
    let h := h.onArray t u (fun _ => next)
    let h := (h.count b Fld.ARR_BUSY_TICKS.ticks 1).count b Fld.ARR_STALL_TICKS.ticks (flagNat (!p.2 || h.headWaits t u))
    let h := if p.1.wide && !a.wide then h.arrayEvent t u 1 (h.fld b Fld.ARR_STATUS.cmd + u * 2 ^ 32) else h
    h.setFlds b [(Fld.ARR_STATUS.busy, flagNat (decide (0 < next.left))),
      (Fld.ARR_STATUS.stalled, flagNat (!p.2 && decide (0 < next.left))), (Fld.ARR_STATUS.skew, skew)]

end Sys2Proof.Machine
end

