-- ==== Sys2Proof/Machine/Closure.lean ====
section
/-!
DEFINITION. Which writes an admitted job closes (R40, R290) and which addresses remote operations may reach (R241).
-/
namespace Sys2Proof.Machine

/-- Regions of the admitted image, and those of the layout before a switch that are not yet released (R375). -/
def Job.regions (j : Job) : List Region := j.img.regions ++ j.released

/-- Two ranges of bytes meet. -/
def meets (a n b m : Nat) : Bool := decide (a < b + m ∧ b < a + n)

/-- A job is admitted and not halted. -/
def Hw.jobOpen (h : Hw) : Bool :=
  match h.job with
  | none => false
  | some j => decide (j.result ≠ some .halt)

/-- R288: the state of an ingest buffer: held, or filled. -/
def Hw.bufferTaken (h : Hw) (j : Job) (b : Nat) : Bool :=
  let k := j.img.ingestK
  let filled := h.fld clkBase Fld.TNS_INGEST.filled
  let next := h.fld clkBase Fld.TNS_INGEST.next_fill
  (h.flag clkBase Fld.TNS_INGEST.holding && decide (b = h.fld clkBase Fld.TNS_INGEST.held))
    || (List.range filled).any (fun i => decide ((next + k - (i + 1)) % k = b))

/-- R290: the bytes meet an ingest buffer that is filled or held. A region of kind 2 that the ingest section does not list has
no buffer and stays open. DESIGN CHOICE: assumption 80. -/
def Hw.ingestTaken (h : Hw) (a n : Nat) : Bool :=
  match h.job with
  | none => false
  | some j =>
    j.img.regions.any (fun r => j.img.ingestRegions.contains r.number
      && (List.range j.img.ingestK).any (fun b => h.bufferTaken j b && meets a n (r.base + b * j.img.ingestStride) r.length))

/-- R40: the bytes meet a region of one of these kinds while a job is admitted and not halted. -/
def Hw.closedKind (h : Hw) (kinds : List Nat) (a n : Nat) : Bool :=
  match h.job with
  | none => false
  | some j => h.jobOpen && j.regions.any (fun r => kinds.contains r.kind && meets a n r.base r.length)

/-- R40, R290: a write of a Fliuf core, a management operation or the debug port is closed. -/
def Hw.writeClosed (h : Hw) (a n : Nat) : Bool := h.closedKind [0, 1, 3] a n || h.ingestTaken a n

/-- The 256 KiB segments of a shared-memory range. -/
def segmentsIn (a n : Nat) : List Nat :=
  (List.range ((a + n - 1 - sharedBase) / 0x40000 - (a - sharedBase) / 0x40000 + 1)).map (fun i => (a - sharedBase) / 0x40000 + i)

/-- R241: tile memory, shared-memory scratchpads and the tiered range. -/
def Hw.remoteReach (h : Hw) (a n : Nat) : Bool :=
  if n = 0 then true
  else
    match spaceOf a with
    | .tiered => decide (a + n ≤ tieredEnd)
    | .tileMem => decide (a + n ≤ tileMemEnd)
    | .shared => decide (a + n ≤ sharedEnd) && (segmentsIn a n).all h.scratchpad
    | _ => false

/-- R241, R376: a class 2 WRITE that R40 or R290 closes; while this rank is in hand-over, regions of kind 1 are open. -/
def Hw.remoteClosed (h : Hw) (a n : Nat) : Bool :=
  match h.job with
  | none => false
  | some j =>
    if j.running && decide (j.kind = .handover) then
      (h.jobOpen && ((j.img.regions.any (fun r => decide (r.kind = 0 ∨ r.kind = 3) && meets a n r.base r.length))
          || (j.released.any (fun r => decide (r.kind ≠ 2) && meets a n r.base r.length)
            && !j.img.regions.any (fun r => decide (r.kind = 1) && meets a n r.base r.length)))) || h.ingestTaken a n
    else h.writeClosed a n

end Sys2Proof.Machine
end

