-- ==== Sys2Proof/Machine/Stats.lean ====
section
/-!
DEFINITION. The Statistics Unit (R169 to R173): OPEN, CLOSE and SEND; and the commands of every engine's end: NOP,
completion (R141) and deadline misses (R142).
-/
namespace Sys2Proof.Machine

/-! ### Summary records, Table 4.10 -/

/-- The counts of bins lo to hi of a report. -/
def Report.binSum (r : Report) (lo hi : Nat) : Nat :=
  ((List.range (hi + 1 - lo)).map (fun i => r.bins.get 0 (lo + i))).foldl (· + ·) 0

/-- A report as a summary record, before saturation. -/
def SumRec.ofReport (r : Report) : SumRec where
  elements := r.elements
  zeros := r.zeros
  underflow := r.underflow
  saturation := r.saturation
  outlier := r.outlier
  nonfinite := r.nonfinite
  lost := r.lost
  agreement := r.agreement
  top := r.binSum 0 3
  low := r.binSum 48 63 + r.binSum 65 65
  maxD := r.maxD
  minD := r.minD

/-- Records merged: counts added, the larger max_d, the smaller min_d (R172, R173). -/
def SumRec.merge (a b : SumRec) : SumRec where
  elements := a.elements + b.elements
  zeros := a.zeros + b.zeros
  underflow := a.underflow + b.underflow
  saturation := a.saturation + b.saturation
  outlier := a.outlier + b.outlier
  nonfinite := a.nonfinite + b.nonfinite
  lost := a.lost + b.lost
  agreement := a.agreement + b.agreement
  top := a.top + b.top
  low := a.low + b.low
  maxD := if a.maxD < b.maxD then b.maxD else a.maxD
  minD := if b.minD < a.minD then b.minD else a.minD

/-- Every count held at the largest value of its field (R172). -/
def SumRec.saturate (a : SumRec) : SumRec where
  elements := satNat 0xFFFFFFFF a.elements
  zeros := satNat 0xFFFFFFFF a.zeros
  underflow := satNat 0xFFFFFFFF a.underflow
  saturation := satNat 0xFFFFFFFF a.saturation
  outlier := satNat 0xFFFF a.outlier
  nonfinite := satNat 0xFFFF a.nonfinite
  lost := satNat 0xFFFF a.lost
  agreement := satNat 0xFFFF a.agreement
  top := satNat 0xFFFFFF a.top
  low := satNat 0xFFFFFF a.low
  maxD := a.maxD
  minD := a.minD

/-- The four words of Table 4.10. -/
def SumRec.words (r : SumRec) : List Word :=
  [BitVec.ofNat 64 (r.elements + r.zeros * 2 ^ 32), BitVec.ofNat 64 (r.underflow + r.saturation * 2 ^ 32),
   BitVec.ofNat 64 (r.outlier + r.nonfinite * 2 ^ 16 + r.lost * 2 ^ 32 + r.agreement * 2 ^ 48),
   BitVec.ofNat 64 (r.top + r.low * 2 ^ 24 + unsigned 8 r.maxD * 2 ^ 48 + unsigned 8 r.minD * 2 ^ 56)]

/-- The record of a layer and role in the summary store. -/
def summaryKey (layer : Nat) (backward : Bool) : Nat := 2 * layer + flagNat backward

/-! ### OPEN, CLOSE, SEND -/

def Hw.openSlot (h : Hw) (t slot layer : Nat) (backward : Bool) : Hw :=
  let x := h.tile t
  h.setTile t { x with hist := x.hist.insert slot ⟨layer, backward, Report.none⟩ }

def execOpn (t : Tile) (c : Cmd) (slot : BitVec 4) (layer : BitVec 10) (backward : Bool) (s : State) :
    Host.Outcome State Fault Refusal :=
  .next (s.onHw (fun h =>
    let l : Launch := ⟨t, .statistics, 1, slot.toNat + layer.toNat * 2 ^ 4 + flagNat backward * 2 ^ 14, c⟩
    h.launch l (fun h => h.openSlot t slot.toNat layer.toNat backward)))

/-- The 66 counts of a histogram (R171). -/
def Report.words (r : Report) : List Byte :=
  (List.range 66).flatMap (fun i => leBytes 4 (satNat 0xFFFFFFFF (r.bins.get 0 i)))

/-- R171: the commands that still run and report to a slot that is closed report no more. -/
def TileSt.muteReporters (x : TileSt) (slot : Nat) : TileSt :=
  { x with running := x.running.mapVals [] (fun _ rs => rs.map (fun r =>
      if r.cmd.stats && decide (r.cmd.hslot.toNat = slot) then { r with mute := true } else r)) }

/-- CLOSE: the slot added into its layer's summary record and freed; with write, its 66 counts written. A slot that is not
open updates nothing and writes 66 zeros (R169, R171). The reports of commands that still run are discarded. `seen` is the
summary store as the command reads it (R133). -/
def Hw.closeSlot (h : Hw) (t slot : Nat) (write : Bool) (d : Desc) (seen : SMap SumRec) : Hw :=
  let x := (h.tile t).muteReporters slot
  let rep := match x.hist.find? slot with
    | none => Report.none
    | some e => e.rep
  let h := match x.hist.find? slot with
    | none => h.setTile t x
    | some e =>
      let key := summaryKey e.layer e.backward
      let rec_ := ((seen.get SumRec.none key).merge (SumRec.ofReport e.rep)).saturate
      h.setTile t { x with hist := x.hist.erase slot, summary := x.summary.set SumRec.none key rec_ }
  if write then
    (d.places.zip rep.words).foldl (fun h p => h.setElem d p.1.1 p.1.2 p.2.toNat) h
  else h

def execClose (t : Tile) (c : Cmd) (slot : BitVec 4) (write : Bool) (dst : DescNo) (s : State) :
    Host.Outcome State Fault Refusal :=
  .next (s.onHw (fun h =>
    let l : Launch := ⟨t, .statistics, 2, slot.toNat + flagNat write * 2 ^ 4 + dst.toNat * 2 ^ 5, c⟩
    h.launch l (fun h => h.closeSlot t slot.toNat write (h.descOf t c dst) ((h.readFound t c.found).tile t).summary)))

/-- The transfers of a SEND (R480): two layers each, both roles, in ascending layer, one in each tile-engine cycle; the last
entry carries nothing and is the SEND's own end, the tick after the last transfer. DEDUCED: assumption 83. -/
def Hw.sendTransfers (h : Hw) (t first count : Nat) (lost : Nat → Bool) : List Transfer :=
  let x := h.tile t
  let n := ceilDiv count 2
  let at' := fun k => h.tense0 + BitVec.ofNat 64 (ceilDiv (k + latency (tilePoint t) inflPoint) 2)
  (List.range n).map (fun k =>
    let keys := (List.range 4).map (fun i => 2 * first + 4 * k + i)
    let mine := keys.filter (fun i => decide (i < 2 * (first + count) ∧ i < 2048))
    ⟨at' k, mine.foldl (fun m i => m.set SumRec.none i (x.summary.get SumRec.none i)) [], lost k⟩)
    ++ [⟨at' (n - 1) + 1, [], false⟩]

/-- The records of a transfer merged into the rank's (R173). -/
def Hw.mergeRecords (h : Hw) (recs : SMap SumRec) : Hw :=
  { h with infl := { h.infl with
      records := recs.foldl (fun m e => m.upd SumRec.none e.1 (fun r => r.merge e.2)) h.infl.records } }

/-- The transfers of a tile's SEND that have reached inflection control by now. -/
def Hw.sendArrivals (h : Hw) (t : Nat) : Hw :=
  match (h.tile t).runs 14 with
  | [] => h
  | r :: rs =>
    let here := fun (x : Transfer) => decide (x.due ≤ h.tense0)
    let h := (r.sends.filter (fun x => here x && !x.lost)).foldl (fun h x => h.mergeRecords x.recs) h
    h.setTile t ((h.tile t).setRuns 14 ({ r with sends := r.sends.filter (fun x => !here x) } :: rs))

/-- SEND: its transfers set out; from a tile of die 1 the bridge may correct or discard some (R33). -/
def Hw.startSend (h : Hw) (l : Launch) (first count : Nat) (bridge : List (BitVec 10 × Bool)) : Hw :=
  let crosses := decide ((tilePoint l.t).die ≠ inflPoint.die)
  let hit := fun k unc => crosses && bridge.contains (BitVec.ofNat 10 k, unc)
  let h := (List.range (ceilDiv count 2)).foldl (fun h k =>
    if hit k true then h.bridgeFault (tilePoint l.t).die true
    else if hit k false then h.bridgeFault (tilePoint l.t).die false else h) h
  let sends := (h.readFound l.t l.c.found).sendTransfers l.t first count (fun k => hit k true)
  h.onRunning l.t l.queue (fun r => { r with sends := sends })

def execSend (t : Tile) (c : Cmd) (first : BitVec 10) (count : BitVec 11) (bridge : List (BitVec 10 × Bool)) (s : State) :
    Host.Outcome State Fault Refusal :=
  .next (s.onHw (fun h =>
    let l : Launch := ⟨t, .statistics, 3, first.toNat + count.toNat * 2 ^ 10, c⟩
    h.launch l (fun h => h.startSend l first.toNat count.toNat bridge)))

/-! ### NOP, completion, deadline misses -/

def execNop (t : Tile) (e : Engine) (c : Cmd) (s : State) : Host.Outcome State Fault Refusal :=
  .next (s.onHw (fun h => h.launchNow ⟨t, e, 0, 0, c⟩))

/-- A command of the Access Engine completes when every request of it has ended (Table 4.3), a SEND when its last transfer has
arrived (R480). -/
def Hw.mayComplete (h : Hw) (t q : Nat) : Bool :=
  match (h.tile t).runs q with
  | [] => false
  | r :: _ => r.reqs.isEmpty && r.sends.isEmpty

def execCommandCompletion (t : Tile) (e : Engine) (unit : BitVec 3) (s : State) : Host.Outcome State Fault Refusal :=
  .next (s.onHw (fun h =>
    let q := queueOf e unit.toNat
    if h.mayComplete t q then h.complete t q else h))

/-- The commands of a queue that have not completed, those still in the stream included, oldest first: tag, deadline offset,
unit. -/
def Hw.unfinished (h : Hw) (t q : Nat) : List (Word32 × Nat × Nat) :=
  let x := h.tile t
  let e := queueEngine q
  (x.runs q).map (fun r => (r.cmd.tag, r.cmd.deadline.toNat, r.cmd.unit.toNat))
    ++ (x.queue q ++ (x.stream (engineCode e)).filter (fun c => decide (c.queue e = q))).map
      (fun c => (c.tag, c.deadline, c.unit))

/-- R142: the oldest command past its deadline tick whose miss has not been signalled. -/
def Hw.deadlineMiss (h : Hw) (t q : Nat) (e : Engine) : Hw :=
  let x := h.tile t
  match (h.unfinished t q).find? (fun c => h.past c.2.1 && !x.missed.contains (q, c.1)) with
  | none => h
  | some c =>
    (h.setTile t { x with missed := x.missed ++ [(q, c.1)] }).tileEvent t (engineCode e) 0 (c.1.toNat + c.2.2 * 2 ^ 32)

def execDeadlineMiss (t : Tile) (e : Engine) (unit : BitVec 3) (s : State) : Host.Outcome State Fault Refusal :=
  .next (s.onHw (fun h => h.deadlineMiss t (queueOf e unit.toNat) e))

end Sys2Proof.Machine
end

