-- ==== Sys2Proof/Machine/Inflection.lean ====
section
/-!
DEFINITION. The Inflection Table (R309 to R313, R320, R321, R330 to R333): profiles and entries, layer records, covering
variants, the state machine of a layer with its watchdogs, and the verdict as a function of the merged payload.
-/
namespace Sys2Proof.Machine

/-! ### Profiles and entries, Tables 8.3 and 8.4 -/

/-- Bytes [off, off + n) of profile `p`. -/
def profField (ps : List Word) (p off n : Nat) : Nat :=
  ((ps[8 * p + off / 8]?).getD 0).toNat / 2 ^ (8 * (off % 8)) % 2 ^ (8 * n)

/-- Flag `i` of a profile: 0 sat_check, 1 jump, 2 silent_halt, 3 uw_halt. -/
def profFlag (ps : List Word) (p i : Nat) : Bool := decide (profField ps p 33 1 / 2 ^ i % 2 = 1)

def entryInit (e : Word) : Nat := bitsOf e 2 0
def entryFloor (e : Word) : Nat := bitsOf e 5 3
def entryCeil (e : Word) : Nat := bitsOf e 8 6
def entryPinned (e : Word) : Bool := bitOf e 9
def entryProfile (e : Word) : Nat := bitsOf e 13 10
def entrySilent (e : Word) : Bool := bitOf e 14
def entryUw (e : Word) : Bool := bitOf e 15

/-- R311: the rate test, exactly. -/
def rateOver (c theta e : Nat) : Bool := decide (e ≠ 0) && decide (theta * e < c * 2 ^ 32)

/-- R309: the lowest-numbered variant that covers the requests. -/
def covering (plans : List (List Nat)) (reqs : List Nat) : Option Nat :=
  plans.findIdx? (fun p => (List.range reqs.length).all (fun l => decide ((reqs[l]?).getD 0 ≤ (p[l]?).getD 0)))

/-! ### Layer records, Table 8.6 -/

/-- A merged layer record. -/
structure LayerRec where
  elements : Nat
  saturation : Nat
  underflow : Nat
  outlier : Nat
  lost : Nat
  uMax : Int
  uMin : Int
  bwdNz : Bool
  active : Bool
deriving DecidableEq, Repr

/-- The record of four words. -/
def LayerRec.ofWords (w : List Word) : LayerRec :=
  let x := fun i => (w[i]?).getD 0
  { elements := (x 0).toNat, saturation := bitsOf (x 1) 31 0, underflow := bitsOf (x 1) 63 32
    outlier := bitsOf (x 2) 15 0, lost := bitsOf (x 2) 31 16
    uMax := signed 8 (bitsOf (x 3) 39 32), uMin := signed 8 (bitsOf (x 3) 47 40)
    bwdNz := bitOf (x 3) 48, active := bitOf (x 3) 49 }

/-- Word `i` of a Full Stop part. -/
def partWord (d : BitVec 1792) (i : Nat) : Word := BitVec.ofNat 64 (d.toNat / 2 ^ (64 * i))

/-- R314: the four words of layer `l` among the parts. -/
def layerWords (parts : SMap (BitVec 1792)) (l : Nat) : List Word :=
  (List.range 4).map (fun i => partWord (parts.get 0 (1 + l / 7)) (4 * (l % 7) + i))

/-! ### The state machine of a layer, R321, R331, R332 -/

/-- R321. -/
def evolveRequest (ps : List Word) (e : Word) (r : LayerRec) (x : LayerSt) : LayerSt :=
  if entryPinned e ∨ r.elements = 0 then x
  else
    let p := entryProfile e
    let above := fun off c => rateOver c (profField ps p off 4) r.elements
    if above 0 r.saturation || above 4 r.underflow || above 8 r.outlier then
      let up := Nat.min (x.up + 1) 255
      if profField ps p 32 1 ≤ up ∧ x.req < entryCeil e then { x with req := x.req + 1, up := 0, dn := 0 }
      else { x with up := up, dn := 0 }
    else if !above 12 r.saturation && !above 16 r.underflow && !above 20 r.outlier then
      let dn := Nat.min (x.dn + 1) 65535
      if profField ps p 34 2 ≤ dn ∧ entryFloor e < x.req then { x with req := x.req - 1, dn := 0, up := 0 }
      else { x with dn := dn, up := 0 }
    else { x with up := 0, dn := 0 }

/-- R331: the silent-layer watchdog. -/
def evolveSilent (ps : List Word) (e : Word) (r : LayerRec) (x : LayerSt) : LayerSt :=
  if entrySilent e && r.active then
    let p := entryProfile e
    if !r.bwdNz || rateOver r.underflow (profField ps p 28 4) r.elements then
      let n := profField ps p 36 2
      { x with silent := Nat.min (x.silent + 1) n, silentAlarm := x.silentAlarm || decide (n ≤ x.silent + 1) }
    else { x with silent := 0, silentAlarm := false }
  else x

/-- R332: the update-to-weight watchdog. -/
def evolveUw (ps : List Word) (e : Word) (r : LayerRec) (x : LayerSt) : LayerSt :=
  if entryUw e && decide (r.uMax ≠ -128) then
    let p := entryProfile e
    if signed 8 (profField ps p 41 1) < r.uMax ∨ r.uMin < signed 8 (profField ps p 40 1) then
      let n := profField ps p 38 2
      { x with uw := Nat.min (x.uw + 1) n, uwAlarm := x.uwAlarm || decide (n ≤ x.uw + 1) }
    else { x with uw := 0, uwAlarm := false }
  else x

def evolveLayer (ps : List Word) (e : Word) (r : LayerRec) (x : LayerSt) : LayerSt :=
  evolveUw ps e r (evolveSilent ps e r (evolveRequest ps e r x))

/-! ### The verdict, R320 -/

/-- What the procedure reads beside the payload: both copies' layers, the installed table, the running variant, counts and
limits. -/
structure VerdictIn where
  table : TableSt
  profiles : List Word
  entries : List Word
  stagedEntries : List Word
  staged : Bool
  stagedGen : Nat
  plans : List (List Nat)
  run : Nat
  replay : Nat
  replayLimit : Nat
  skipLimit : Nat
  diverge : Nat
  parts : SMap (BitVec 1792)
deriving DecidableEq, Repr

/-- What it decides: the verdict, the halt cause if it is Halt, the causes with bit 14, the new working copy, the next plan,
the replay count, the alarms raised (layer, and whether it is the update alarm) and the count of R335. -/
structure Ruling where
  code : Verdict
  halt : Nat
  causes : Nat
  table : TableSt
  plan : Nat
  replay : Nat
  alarms : List (Nat × Bool)
  diverge : Nat
deriving DecidableEq, Repr

def VerdictIn.word (v : VerdictIn) (i : Nat) : Word := partWord (v.parts.get 0 0) i
def VerdictIn.layers (v : VerdictIn) : Nat := v.entries.length
def VerdictIn.entry (v : VerdictIn) (l : Nat) : Word := (v.entries[l]?).getD 0
def VerdictIn.record (v : VerdictIn) (l : Nat) : LayerRec := LayerRec.ofWords (layerWords v.parts l)
def VerdictIn.layer (v : VerdictIn) (l : Nat) : LayerSt := (v.table.layers[l]?).getD LayerSt.none

/-- The halt rules that hold in every slot (R320, R324). -/
def VerdictIn.halt (v : VerdictIn) : Nat :=
  let h := (v.word 1).toNat
  let h := if v.word 2 = v.word 3 then h else Nat.max h 6
  let h := if v.word 8 = v.word 9 then h else Nat.max h 7
  if bitOf (v.word 6) 1 then Nat.max h 1 else h

/-- The saturation test of one layer (bit 14). -/
def VerdictIn.tooSaturated (v : VerdictIn) (l : Nat) : Bool :=
  let p := entryProfile (v.entry l)
  profFlag v.profiles p 0 && rateOver (v.record l).saturation (profField v.profiles p 24 4) (v.record l).elements

def VerdictIn.saturated (v : VerdictIn) : Bool := (List.range v.layers).any v.tooSaturated

/-- Unclean causes with bit 14. -/
def VerdictIn.causes (v : VerdictIn) : Nat := bitsOf (v.word 4) 15 0 ||| (if v.saturated then 2 ^ 14 else 0)

def VerdictIn.flagged (v : VerdictIn) (l : Nat) : Bool := decide (0 < (v.record l).lost) || v.tooSaturated l

/-- Every layer evolved. -/
def VerdictIn.evolved (v : VerdictIn) : List LayerSt :=
  (List.range v.layers).map (fun l => evolveLayer v.profiles (v.entry l) (v.record l) (v.layer l))

/-- R333: the alarms whose bit went from 0 to 1. -/
def VerdictIn.alarms (v : VerdictIn) : List (Nat × Bool) :=
  (List.range v.layers).flatMap (fun l =>
    let a := v.layer l
    let b := (v.evolved[l]?).getD LayerSt.none
    (if b.silentAlarm && !a.silentAlarm then [(l, false)] else []) ++ (if b.uwAlarm && !a.uwAlarm then [(l, true)] else []))

/-- An alarm whose profile halts. -/
def VerdictIn.alarmHalts (v : VerdictIn) (a : Nat × Bool) : Bool :=
  profFlag v.profiles (entryProfile (v.entry a.1)) (if a.2 then 3 else 2)

/-- R335: the staged words agree on a generation above the installed one. -/
def VerdictIn.installs (v : VerdictIn) : Bool :=
  v.staged && decide (v.word 10 = v.word 11) && decide (v.table.gen < bitsOf (v.word 10) 31 0)

/-- The clean branch of R320. DEDUCED: assumption 67. -/
def VerdictIn.clean (v : VerdictIn) : Ruling :=
  let layers := if v.installs then
      (List.range v.layers).map (fun l =>
        let x := (v.evolved[l]?).getD LayerSt.none
        let e := (v.stagedEntries[l]?).getD 0
        { x with req := Nat.min (entryCeil e) (Nat.max (entryFloor e) x.req) })
    else v.evolved
  let diverge := if v.word 10 = v.word 11 then 0 else v.diverge + 1
  let cover := covering v.plans (layers.map (fun x => x.req))
  let h := v.halt
  let h := if cover.isNone then Nat.max h 5 else h
  let h := if v.alarms.any v.alarmHalts then Nat.max h 2 else h
  let h := if 1024 ≤ diverge then Nat.max h 7 else h
  { code := if 0 < h then .halt else .clean, halt := h, causes := 0
    table := { v.table with layers := layers, gen := if v.installs then v.stagedGen else v.table.gen }
    plan := cover.getD 0, replay := v.replay, alarms := v.alarms, diverge := diverge }

/-- Escalation of one layer (R320). -/
def VerdictIn.escalate (v : VerdictIn) (l : Nat) : LayerSt :=
  let x := v.layer l
  let e := v.entry l
  if v.flagged l && !entryPinned e then
    let target := if profFlag v.profiles (entryProfile e) 1 then entryCeil e
      else (((v.plans[v.run]?).getD [])[l]?).getD 0 + 1
    { x with req := Nat.min (entryCeil e) (Nat.max x.req target), up := 0, dn := 0 }
  else x

/-- Bits 2, 3 and 14 of Table 8.7. -/
def numericCauses : Nat := 2 ^ 2 + 2 ^ 3 + 2 ^ 14

/-- Whether every cause is numeric. -/
def onlyNumeric (causes : Nat) : Bool := decide (causes ||| numericCauses = numericCauses)

/-- The unclean branch of R320. -/
def VerdictIn.unclean (v : VerdictIn) : Ruling :=
  let layers := (List.range v.layers).map v.escalate
  let cover := covering v.plans (layers.map (fun x => x.req))
  let h := if cover.isNone then Nat.max v.halt 5 else v.halt
  let t := { v.table with layers := layers }
  let r : Ruling := ⟨.halt, h, v.causes, t, v.run, v.replay, [], 0⟩
  if 0 < h then r
  else if onlyNumeric v.causes && decide (cover = some v.run) then
    let t := { t with skipRun := t.skipRun + 1, skipTotal := satNat 0xFFFFFFFF (t.skipTotal + 1) }
    if v.skipLimit ≤ t.skipRun then { r with halt := 3, table := t } else { r with code := .skip, table := t }
  else if v.replayLimit ≤ v.replay then { r with halt := 4 }
  else { r with code := .unclean, plan := cover.getD 0, replay := v.replay + 1 }

/-- R320: the verdict of a step or a replay. -/
def VerdictIn.rule (v : VerdictIn) : Ruling := if v.causes = 0 then v.clean else v.unclean

/-- R324: the verdict of an idle or hand-over slot. -/
def VerdictIn.idleRule (v : VerdictIn) : Ruling :=
  ⟨if 0 < v.halt then .halt else .clean, v.halt, bitsOf (v.word 4) 15 0, v.table, v.run, v.replay, [], v.diverge⟩

end Sys2Proof.Machine
end

