-- ==== Sys2Proof/Machine/Staging.lean ====
section
/-!
DEFINITION. Staging slots (R344 to R358): the slot area, acceptance of a contribution, dense and sparse addition, the
deadline check, and the digests; the delivery of this rank's own contributions (R343).
-/
namespace Sys2Proof.Machine

/-! ### The slot area, Tables 9.4 and 9.5 -/

def align128 (n : Nat) : Nat := ceilDiv n 128 * 128

def SlotEntry.accAt (e : SlotEntry) (b : Nat) : Nat := e.base + 128 * b
def SlotEntry.stateAt (e : SlotEntry) (b : Nat) : Nat := e.base + 128 * e.blocks + 8 * b
def SlotEntry.poolAt (e : SlotEntry) (k : Nat) : Nat := align128 (e.base + 136 * e.blocks) + 136 * k
def SlotEntry.cursorAt (e : SlotEntry) (i : Nat) : Nat := align128 (e.poolAt e.pool) + 16 * i

/-- Contributors of a slot. -/
def SlotEntry.n (e : SlotEntry) : Nat := e.contributors.length

/-- R345: the contributor index of a rank. -/
def SlotEntry.indexOf (e : SlotEntry) (rank : Nat) : Option Nat := e.contributors.findIdx? (fun r => decide (r = rank))

/-- R347: the tag of a slot, bits [58:11] of its step base tick. -/
def Hw.slotTag (h : Hw) : Nat := bitsOf (h.reg (inflBase + Fld.INFL_STEP_BASE.tick.off)) 58 11

/-- What the tag holds before any slot has written it (R347). -/
def blankTag : Nat := 2 ^ 48 - 1

/-- The block state: next and touched; a stale tag reads as 0 and 0. -/
def Hw.blockState (h : Hw) (e : SlotEntry) (b : Nat) : Nat × Bool :=
  let w := BitVec.ofNat 64 (h.readNat (e.stateAt b) 8)
  if bitsOf w 47 0 = h.slotTag then (bitsOf w 62 48, bitOf w 63) else (0, false)

def Hw.putState (h : Hw) (e : SlotEntry) (b next : Nat) (touched : Bool) : Hw :=
  h.writeNat (e.stateAt b) 8 (h.slotTag + next * 2 ^ 48 + flagNat touched * 2 ^ 63)

/-- A contributor's cursor and whether it has ended; a stale tag reads as 0 and not ended. -/
def Hw.cursor (h : Hw) (e : SlotEntry) (i : Nat) : Nat × Bool :=
  if h.readNat (e.cursorAt i) 6 = h.slotTag then
    (h.readNat (e.cursorAt i + 8) 4, decide (h.readNat (e.cursorAt i + 12) 1 % 2 = 1))
  else (0, false)

def Hw.putCursor (h : Hw) (e : SlotEntry) (i next : Nat) (ended : Bool) : Hw :=
  (h.writeNat (e.cursorAt i) 8 h.slotTag).writeNat (e.cursorAt i + 8) 8 (next + flagNat ended * 2 ^ 32)

/-- R347: every tag of a slot area set to all ones. -/
def Hw.blankTags (h : Hw) (e : SlotEntry) : Hw :=
  let h := (List.range e.blocks).foldl (fun h b => h.writeNat (e.stateAt b) 8 blankTag) h
  if e.sparse then (List.range e.n).foldl (fun h i => h.writeNat (e.cursorAt i) 16 blankTag) h else h

/-- R352: contributor i is settled for block b: b's sum has passed it, its cursor is beyond b, or it has ended. -/
def Hw.settled (h : Hw) (e : SlotEntry) (i b : Nat) : Bool :=
  let c := h.cursor e i
  decide (i < (h.blockState e b).1) || decide (b < c.1) || c.2

/-! ### The hold pool, R346 -/

/-- Pool entries in use by a slot. -/
def Hw.poolUsed (h : Hw) (slot : Nat) (e : SlotEntry) : List Nat :=
  ((h.slice (sliceOf e.base)).pool.filter (fun p => decide (p.1 = slot))).map (fun p => p.2)

/-- The contributor and block of a pool entry. -/
def Hw.poolKey (h : Hw) (e : SlotEntry) (k : Nat) : Nat × Nat := (h.readNat (e.poolAt k) 2, h.readNat (e.poolAt k + 4) 4)

/-- The pool entry that holds the contribution of i to b. -/
def Hw.heldAt (h : Hw) (slot : Nat) (e : SlotEntry) (i b : Nat) : Option Nat :=
  (h.poolUsed slot e).find? (fun k => decide (h.poolKey e k = (i, b)))

/-- The pool of a slice, with SLC_STG_STATUS. -/
def Hw.setPool (h : Hw) (sl : Nat) (p : List (Nat × Nat)) : Hw :=
  let h := h.setSlice sl { h.slice sl with pool := p }
  (h.setFld (sliceBase sl) Fld.SLC_STG_STATUS.pool p.length).peak (sliceBase sl) Fld.SLC_STG_STATUS.peak p.length

def Hw.freePool (h : Hw) (slot : Nat) (e : SlotEntry) (k : Nat) : Hw :=
  h.setPool (sliceOf e.base) ((h.slice (sliceOf e.base)).pool.erase (slot, k))

/-- 32 FP32 values as bytes. -/
def fp32Bytes (vs : List Val) : List Byte := vs.flatMap (fun v => leBytes 4 (encodeVal 5 v))

/-- 32 FP32 values at an address. -/
def Hw.fp32At (h : Hw) (a : Nat) : List Val := (List.range 32).map (fun l => decodeVal 5 (h.readNat (a + 4 * l) 4))

/-- A block held in the free entry with the lowest index. -/
def Hw.holdBlock (h : Hw) (slot : Nat) (e : SlotEntry) (i b : Nat) (vs : List Val) : Hw :=
  match findBelow e.pool (fun k => !(h.poolUsed slot e).contains k) with
  | none => h
  | some k =>
    let a := e.poolAt k
    let h := h.write a (leBytes 4 i ++ leBytes 4 b ++ fp32Bytes vs)
    h.setPool (sliceOf e.base) ((h.slice (sliceOf e.base)).pool ++ [(slot, k)])

/-! ### Addition, R351 and R352 -/

/-- One block added: +0 + x the first time, the accumulator plus x after that; an uncorrectable word of the accumulator is
read as zero (R189). -/
def Hw.addBlock (h : Hw) (e : SlotEntry) (b : Nat) (touched : Bool) (vs : List Val) (found : Ecc) : Hw :=
  let a := e.accAt b
  let h := if touched then h.sliceEcc found a else h
  let old := if touched then (h.seenWith found a).fp32At a else (List.range 32).map (fun _ => Val.zero)
  let sums := (old.zip vs).map (fun p => (p.1, p.2, (fpAdd 5 false p.1 p.2).1))
  let nan := sums.any (fun x => x.2.2.isNan && !x.1.isNan && !x.2.1.isNan)
  let h := if nan then h.sliceEvent (sliceOf a) 3 a true else h
  let h := h.store a (fp32Bytes (sums.map (fun x => x.2.2)))
  (h.count (sliceBase (sliceOf a)) Fld.SLC_ACC_OPS.count 32).count (sliceBase (sliceOf a)) Fld.SLC_STG_BLOCKS.count 1

/-- Held blocks added in contributor order as far as they go; a sparse slot passes settled contributors that sent nothing. -/
def Hw.advanceFrom (h : Hw) (slot : Nat) (e : SlotEntry) (b : Nat) : Nat → Nat → Bool → Hw
  | 0, next, touched => h.putState e b next touched
  | fuel + 1, next, touched =>
    if e.n ≤ next then h.putState e b next touched
    else
      match h.heldAt slot e next b with
      | some k =>
        ((h.addBlock e b touched (h.fp32At (e.poolAt k + 8)) .clean).freePool slot e k).advanceFrom slot e b fuel (next + 1) true
      | none =>
        if e.sparse && h.settled e next b then h.advanceFrom slot e b fuel (next + 1) touched
        else h.putState e b next touched

def Hw.advance (h : Hw) (slot : Nat) (e : SlotEntry) (b : Nat) : Hw :=
  let st := h.blockState e b
  h.advanceFrom slot e b e.n st.1 st.2

/-- next(b) with the settled contributors of a sparse slot passed. -/
def Hw.nextOf (h : Hw) (slot : Nat) (e : SlotEntry) (b : Nat) : Nat :=
  let next := (h.blockState e b).1
  if e.sparse then
    ((List.range e.n).filter (fun i => decide (next ≤ i))).find? (fun i =>
      (h.heldAt slot e i b).isSome || !h.settled e i b) |>.getD e.n
  else next

/-- A decoded block from contributor i: added at once when its turn has come, else held. -/
def Hw.takeBlock (h : Hw) (slot : Nat) (e : SlotEntry) (i b : Nat) (vs : List Val) (found : Ecc) : Hw :=
  let next := h.nextOf slot e b
  let touched := (h.blockState e b).2
  if next = i then ((h.addBlock e b touched vs found).putState e b (i + 1) true).advance slot e b
  else (h.holdBlock slot e i b vs).putState e b next touched

/-! ### A contribution, Tables 6.7, 6.8 and 9.6 -/

structure Contribution where
  slot : Nat
  bseq : Nat
  efmt : Nat
  nblk : Nat
  rot : Bool
  shift : Nat
deriving DecidableEq, Repr

def contribution (f : Flit) : Contribution :=
  ⟨msgBits f 15 0, msgBits f 47 16, msgBits f 51 48, msgBits f 55 52, decide (msgBits f 56 56 = 1), msgBits f 71 64⟩

/-- Table 6.8: blocks of a flit in an ACC format, and bytes of a block. -/
def accBlocksMax (efmt : Nat) : Nat :=
  match efmt with
  | 0 => 1
  | 1 => 3
  | 2 => 6
  | 3 => 6
  | _ => 0
def accBytes (efmt : Nat) : Nat :=
  match efmt with
  | 0 => 128
  | 1 => 64
  | _ => 34

/-- R350: a block decoded to 32 FP32 values. -/
def decodeBlock (efmt shift : Nat) (bs : List Byte) : List Val :=
  match efmt with
  | 0 => (List.range 32).map (fun i => decodeVal 5 (leAt bs (4 * i) 4))
  | 1 => (List.range 32).map (fun i => decodeVal 3 (leAt bs (2 * i) 2))
  | _ =>
    let s := (scaleVal (leAt bs 32 1)).getD (0, 0)
    (List.range 32).map (fun i =>
      let q := decodeVal (efmt - 1) (leAt bs i 1)
      (roundVal 5 false (exactMul (exactMul q (.fin false s.1 s.2)) (.fin false 1 (signed 8 shift)))).1)

/-- Check 5 of Table 9.6. -/
def scaleAgrees (efmt b : Nat) (bs : List Byte) : Bool :=
  decide (efmt < 2) || (decide (leAt bs 33 1 = b % 256) && (scaleVal (leAt bs 32 1)).isSome
    && (decide (efmt ≠ 2) || !(bs.take 32).any (fun x => decide (x.toNat = 0x80))))

/-- R357: the tag and hash of a block. -/
def blockTag (f : Flit) (c : Contribution) (b : Nat) : List Byte :=
  leBytes 2 f.src.toNat ++ leBytes 2 f.dst.toNat ++ leBytes 2 c.slot ++ leBytes 1 (c.efmt + flagNat c.rot * 16)
    ++ leBytes 1 c.shift ++ leBytes 4 b ++ leBytes 1 f.job.toNat ++ leBytes 2 f.gen.toNat ++ leBytes 1 0

def blockHash (tag bs : List Byte) : Nat := (crc32 (tag ++ bs)).toNat + (crc32 (bs ++ tag)).toNat * 2 ^ 32

/-- The blocks of an ACC flit with their sequence numbers. -/
def accBlocksOf (f : Flit) : List (Nat × List Byte) :=
  let c := contribution f
  let data := leBytes 224 f.data.toNat
  (List.range c.nblk).map (fun k => (c.bseq + k, sub data (k * accBytes c.efmt) (accBytes c.efmt)))

/-- The sum of the hashes of a flit's blocks. DEDUCED: assumption 54. -/
def accDigest (f : Flit) : Nat :=
  let c := contribution f
  ((accBlocksOf f).map (fun b => blockHash (blockTag f c b.1) b.2)).foldl (· + ·) 0

/-- SLC_STG_FLAGS of a failing check, with its counter and bit. -/
def stgFlag (check : Nat) : Fld × Fld × Nat :=
  match check with
  | 1 => (Fld.SLC_STG_FLAGS.job, Fld.SLC_STG_CNT_A.job, 0)
  | 2 => (Fld.SLC_STG_FLAGS.gen, Fld.SLC_STG_CNT_A.gen, 1)
  | 3 => (Fld.SLC_STG_FLAGS.malformed, Fld.SLC_STG_CNT_B.malformed, 2)
  | 5 => (Fld.SLC_STG_FLAGS.agreement, Fld.SLC_STG_CNT_B.agreement, 3)
  | 6 => (Fld.SLC_STG_FLAGS.duplicate, Fld.SLC_STG_CNT_C.duplicate, 4)
  | _ => (Fld.SLC_STG_FLAGS.pool_full, Fld.SLC_STG_CNT_C.pool_full, 5)

/-- A contribution discarded for a failing check: SLC_STG_ERR, the flag, count and record, and cause 13 with its suspect; a
late one only counts (Table 9.7). DEDUCED: assumption 53. -/
def Hw.stgReject (h : Hw) (sl check : Nat) (f : Flit) (slot bseq : Nat) : Hw :=
  let b := sliceBase sl
  let h := h.setFlds b [(Fld.SLC_STG_ERR.rank, f.src.toNat), (Fld.SLC_STG_ERR.slot, slot),
    (Fld.SLC_STG_ERR.cause, check), (Fld.SLC_STG_ERR.bseq, bseq)]
  if check = 4 then h.count b Fld.SLC_STG_LATE.count 1
  else
    let fl := stgFlag check
    let h := h.raise b fl.1 fl.2.1 (ringSlice sl) (0x28 + fl.2.2) (h.reg (b + Fld.SLC_STG_ERR.rank.off)).toNat
    if check = 7 then h.signalOwn 13 else h.signal 13 (some (f.src, 1))

/-- Why one block of an accepted flit is discarded (checks 5 to 7); 0: it is accepted. -/
def Hw.blockCheck (h : Hw) (e : SlotEntry) (c : Contribution) (i b : Nat) (bs : List Byte) : Nat :=
  let next := h.nextOf c.slot e b
  if !scaleAgrees c.efmt b bs then 5
  else if decide (i < next) || (h.heldAt c.slot e i b).isSome || (e.sparse && decide (b < (h.cursor e i).1)) then 6
  else if decide (i ≠ next) && decide (e.pool ≤ (h.poolUsed c.slot e).length) then 7
  else 0

/-- One block of a flit that passed checks 1 to 4, and whether it is accepted; a discarded one changes nothing but the flag,
count and record of its check. DEDUCED: assumption 54. -/
def Hw.acceptBlock (h : Hw) (e : SlotEntry) (f : Flit) (own : Bool) (i : Nat) (found : Ecc) (b : Nat) (bs : List Byte) :
    Hw × Bool :=
  let c := contribution f
  let sl := sliceOf e.base
  let why := h.blockCheck e c i b bs
  if why = 0 then
    let h := h.takeBlock c.slot e i b (decodeBlock c.efmt c.shift bs) found
    let d := blockHash (blockTag f c b) bs
    let h := h.count (sliceBase sl) Fld.SLC_DIG_RECV.digest d
    (if own then h.count (sliceBase sl) Fld.SLC_DIG_SENT.digest d else h, true)
  else (h.stgReject sl why f c.slot b, false)

/-- The blocks of a flit in order; beside the module, the highest block accepted. -/
def Hw.acceptBlocks (h : Hw) (e : SlotEntry) (f : Flit) (own : Bool) (i : Nat) :
    Ecc → List (Nat × List Byte) → Hw × Option Nat
  | _, [] => (h, none)
  | found, b :: rest =>
    let x := h.acceptBlock e f own i found b.1 b.2
    let y := x.1.acceptBlocks e f own i .clean rest
    (y.1, if y.2.isSome then y.2 else if x.2 then some b.1 else none)

/-- Check 3 of Table 9.6. -/
def formOk (e : SlotEntry) (f : Flit) (c : Contribution) : Bool :=
  (e.indexOf f.src.toNat).isSome && decide (e.efmts / 2 ^ c.efmt % 2 = 1) && decide (c.rot = e.rot)
    && (decide (c.shift = 0) || decide (2 ≤ c.efmt)) && decide (c.bseq + c.nblk ≤ e.blocks)
    && decide (c.nblk ≤ accBlocksMax c.efmt)

/-- R352: after accepting blocks of contributor i up to b, its cursor is b + 1; the tail block ends it. What waited for this
is added. -/
def Hw.moveCursor (h : Hw) (slot : Nat) (e : SlotEntry) (i b : Nat) : Hw :=
  let h := h.putCursor e i (b + 1) ((h.cursor e i).2 || decide (b + 1 = e.blocks))
  (((h.poolUsed slot e).map (fun k => (h.poolKey e k).2)).eraseDups).foldl (fun h b => h.advance slot e b) h

/-- A flit of a slot whose form is right: late, or accepted block by block; a sparse slot's cursor follows what was accepted
(R352). DEDUCED: assumptions 53 and 54. -/
def Hw.acceptFlit (h : Hw) (j : Job) (e : SlotEntry) (f : Flit) (own : Bool) (found : Ecc) : Hw :=
  let c := contribution f
  if !j.steps || h.past e.deadline then h.stgReject (sliceOf e.base) 4 f c.slot c.bseq
  else
    let i := (e.indexOf f.src.toNat).getD 0
    let x := h.acceptBlocks e f own i found (accBlocksOf f)
    match x.2 with
    | none => x.1
    | some b => if e.sparse then x.1.moveCursor c.slot e i b else x.1

/-- The slice that homes the slot an ACC flit names, if it names one. -/
def Hw.slotSlice? (h : Hw) (f : Flit) : Option Nat :=
  match h.job with
  | none => none
  | some j => (j.img.staging.slots[(contribution f).slot]?).map (fun e => sliceOf e.base)

/-- R349: an ACC flit reaches the slice that homes its slot; `fallback` is the slice it reaches when the slot number names
none. A message's last flit raises the slot region's epoch, accepted or discarded (R150).
DESIGN CHOICE: assumption 50; DEDUCED: assumption 53. -/
def Hw.deliverAcc (h : Hw) (fallback : Nat) (f : Flit) (own : Bool) (found : Ecc) : Hw :=
  match h.job with
  | none => h
  | some j =>
    let c := contribution f
    let entry := j.img.staging.slots[c.slot]?
    let sl := match entry with
      | none => fallback
      | some e => sliceOf e.base
    let stale := decide (0x20 ≤ h.domainVer) && decide (f.gen.toNat ≠ h.fld inflBase Fld.INFL_COMMIT_STATE.layout_gen)
    let h := if f.job.toNat ≠ j.img.job then h.stgReject sl 1 f c.slot c.bseq
      else if stale then h.stgReject sl 2 f c.slot c.bseq
      else
        match entry with
        | none => h.stgReject sl 3 f c.slot c.bseq
        | some e => if !formOk e f c then h.stgReject sl 3 f c.slot c.bseq else h.acceptFlit j e f own found
    match entry with
    | none => h
    | some e => if f.last then h.bumpTouched [(e.base, 1)] else h

/-- R343: the k-th of this rank's own contributions reaches its slice over the mesh, from the tile that issued it; the die
bridge may discard it (R33). DESIGN CHOICE: assumption 50. -/
def execLocalAccDelivery (k : Half) (found bridge : Ecc) (s : State) : Host.Outcome State Fault Refusal :=
  .next (s.onHw (fun h =>
    match h.localAcc[k.toNat]? with
    | none => h
    | some x =>
      let h := { h with localAcc := h.localAcc.eraseIdx k.toNat }
      h.cross (tilePoint x.1) (slicePoint ((h.slotSlice? x.2).getD 0)) bridge (fun h => h.deliverAcc 0 x.2 true found)))

/-! ### Deadlines, R353 and R354 -/

/-- The blocks that the deadline check covers. -/
def SlotEntry.checked (e : SlotEntry) : Nat := if e.sparse ∨ e.valid = 0 then e.blocks else ceilDiv e.valid 32

/-- R352: a sparse slot is complete when every contributor has ended and nothing is held. -/
def Hw.sparseComplete (h : Hw) (slot : Nat) (e : SlotEntry) : Bool :=
  (List.range e.n).all (fun i => (h.cursor e i).2) && (h.poolUsed slot e).isEmpty

/-- The lowest incomplete block and the contributor it waits for. -/
def Hw.incomplete (h : Hw) (slot : Nat) (e : SlotEntry) : Option (Nat × Nat) :=
  if e.sparse then
    if h.sparseComplete slot e then none
    else
      match findBelow e.blocks (fun b => (List.range e.n).any (fun i => !h.settled e i b)) with
      | none => none
      | some b => some (b, ((List.range e.n).find? (fun i => !h.settled e i b)).getD 0)
  else
    match findBelow e.checked (fun b => decide ((h.blockState e b).1 < e.n)) with
    | none => none
    | some b => some (b, (h.blockState e b).1)

def nonFinite32 (code : Nat) : Bool := decide (code / 2 ^ 23 % 256 = 255)

/-- The lowest complete block of a slot that holds a non-finite value. -/
def Hw.nonFiniteBlock (h : Hw) (slot : Nat) (e : SlotEntry) : Option Nat :=
  findBelow e.blocks (fun b => decide (h.nextOf slot e b = e.n)
    && (List.range 32).any (fun l => nonFinite32 (h.readNat (e.accAt b + 4 * l) 4)))

/-- R352: the accumulator of a block to which nobody contributed is undefined: its words become values the spec leaves
open. -/
def Hw.blankUntouched (h : Hw) (e : SlotEntry) : Hw :=
  if e.sparse then
    (List.range e.blocks).foldl (fun h b =>
      if (h.blockState e b).2 then h
      else (List.range 16).foldl (fun h i =>
        let w := h.freeWord
        w.2.writeNat (e.accAt b + 8 * i) 8 w.1.toNat) h) h
  else h

/-- The slot's deadline check; the check for non-finite values reads the open values of the blocks that nobody sent. -/
def Hw.stagingDeadline (h : Hw) (slot : Nat) (e : SlotEntry) : Hw :=
  let sl := sliceOf e.base
  let low := h.incomplete slot e
  let h := h.blankUntouched e
  let bad := if e.watched then h.nonFiniteBlock slot e else none
  let h := h.setPool sl ((h.slice sl).pool.filter (fun p => decide (p.1 ≠ slot)))
  let h := match low with
    | none => h
    | some (b, i) =>
      let rank := (e.contributors[i]?).getD 0
      (h.raise (sliceBase sl) Fld.SLC_STG_FLAGS.incomplete Fld.SLC_STG_CNT_D.incomplete (ringSlice sl) 0x2E
        (slot + rank * 2 ^ 12 + b * 2 ^ 26)).signal 13 (some (BitVec.ofNat 14 rank, 0))
  match bad with
  | none => h
  | some b =>
    (h.raise (sliceBase sl) Fld.SLC_STG_FLAGS.nonfinite Fld.SLC_STG_CNT_D.nonfinite (ringSlice sl) 0x2F
      (slot + b * 2 ^ 26)).signal 3 none

/-- R353, R354: the deadline tick of a slot, in a slot that runs a step or a replay; a halted rank keeps its staging progress
(R447). DEDUCED: assumption 54. -/
def execStagingDeadline (slot : BitVec 12) (s : State) : Host.Outcome State Fault Refusal :=
  .next (s.onHw (fun h =>
    match h.job with
    | none => h
    | some j =>
      match j.img.staging.slots[slot.toNat]? with
      | none => h
      | some e => if j.running && j.steps && !j.halted && h.reached e.deadline then h.stagingDeadline slot.toNat e else h))

end Sys2Proof.Machine
end

