-- ==== Sys2Proof/Machine/FullStop.lean ====
section
/-!
DEFINITION. The Full Stop on this rank (R314 to R318, R323 to R325, R441, R444, R480): causes reaching inflection control,
the contribution and the fault reports formed at fs_launch, and the parts of the merged payload.
-/
namespace Sys2Proof.Machine

/-! ### Causes, R317, R324, R325 -/

/-- A report of Table 12.6 noted, if the cause gives one. -/
def noteReport (m : SMap FaultReport) (s : Option (Rank × Nat)) (tick : Word) : SMap FaultReport :=
  match s with
  | none => m
  | some (rank, kind) => m.upd FaultReport.none rank.toNat (fun r => r.seen kind tick)

def earlier (a b : Word) : Word := if b.toNat < a.toNat then b else a

/-- An unclean cause at inflection control: it only counts in an idle or hand-over slot (R324); before fs_launch it enters
the contribution; after it and up to the commit tick it is an update fault (R46); later it is carried (R317).
DEDUCED: assumption 67. -/
def Hw.takeCause (h : Hw) (j : Job) (x : Signal) : Hw :=
  let bits := h.fld inflBase Fld.INFL_LOCAL.causes ||| 2 ^ x.code
  if !j.steps then (h.setFld inflBase Fld.INFL_LOCAL.causes bits).count inflBase Fld.INFL_CNT_A.unclean_local 1
  else if !j.launched && !h.past j.img.fsLaunch then
    (h.setFld inflBase Fld.INFL_LOCAL.causes bits).onJob (fun j =>
      { j with first := earlier j.first x.tick, reports := noteReport j.reports x.suspect x.tick })
  else if !h.past j.img.commit then (h.setFld inflBase Fld.INFL_LOCAL.causes bits).haltFault 9
  else
    (h.setFld inflBase Fld.INFL_LOCAL.causes bits).onJob (fun j =>
      { j with carried := j.carried ||| 2 ^ x.code, carriedFirst := earlier j.carriedFirst x.tick
               carriedReports := noteReport j.carriedReports x.suspect x.tick })

/-- The k-th signal on its way reaches inflection control (R325, R480). A job that does not run takes none.
DEDUCED: assumption 71. -/
def Hw.takeSignal (h : Hw) (k : Nat) : Hw :=
  match h.infl.signals[k]? with
  | none => h
  | some x =>
    let h := { h with infl := { h.infl with signals := h.infl.signals.eraseIdx k } }
    match h.job with
    | none => h
    | some j => if x.halt then h.haltFault x.code else if j.running then h.takeCause j x else h

def execUncleanCauseSignal (k : Half) (s : State) : Host.Outcome State Fault Refusal :=
  .next (s.onHw (fun h => h.takeSignal k.toNat))

/-! ### The contribution, Tables 8.5, 8.6 and 8.8 -/

def wordsBytes (ws : List Word) : List Byte := ws.flatMap (fun w => leBytes 8 w.toNat)

/-- The CRC-32 over profiles and entries in section order (R323, R335). -/
def tableCrc (ps es : List Word) : Nat := (crc32 (wordsBytes ps ++ wordsBytes es)).toNat

/-- Table 8.8. -/
def Hw.stateWord (h : Hw) : Word :=
  let x := h.infl
  BitVec.ofNat 64 (h.fld inflBase Fld.INFL_RUN_STATE.plan + h.fld inflBase Fld.INFL_RUN_STATE.replay * 2 ^ 4
    + (x.committed.skipRun % 256) * 2 ^ 8 + (x.committed.gen % 2 ^ 16) * 2 ^ 16 + tableCrc x.profiles x.entries * 2 ^ 32)

/-- Words 10 and 11: the staged generation and CRC once committed to staging, else the installed ones (R335). -/
def Hw.stagedWord (h : Hw) : Word :=
  let x := h.infl
  if x.committed.gen < x.stagedGen then
    BitVec.ofNat 64 (x.stagedGen % 2 ^ 32 + tableCrc x.stagedP x.stagedE * 2 ^ 32)
  else BitVec.ofNat 64 (x.committed.gen % 2 ^ 32 + tableCrc x.profiles x.entries * 2 ^ 32)

/-- Rules R289, R55 and R376: this rank is ready. -/
def Hw.ready (h : Hw) (j : Job) : Bool :=
  decide (1 ≤ h.fld clkBase Fld.TNS_INGEST.filled) && (j.steps || !j.sharePending)
    && (decide (j.kind ≠ .handover)
      || (decide ((j.img.staging.handovers.map (fun e => e.length)).foldl (· + ·) 0 ≤ j.handSent) && decide (j.handOpen = 0)
        && decide (j.img.staging.handin ≤ j.handReceived)))

/-- R375: this is the Full Stop of the step before the switch, and no successor is admitted. DEDUCED: assumption 68. -/
def Hw.noSuccessor (h : Hw) (j : Job) : Bool :=
  j.steps && j.successor.isNone && decide (j.switchAt = some (h.stepNo + 1))

/-- Word 1: the halt cause this rank has reached or asks for (Table 8.5, R375, R376). -/
def Hw.haltWord (h : Hw) (j : Job) : Nat :=
  let top := h.fld inflBase Fld.INFL_LOCAL.halt
  let top := if j.handFailed then Nat.max top 9 else top
  if h.noSuccessor j then Nat.max top 7 else top

/-- Part 0 with `reports` FAULT_UP messages sent. -/
def Hw.controlPart (h : Hw) (j : Job) (causes reports : Nat) : List Word :=
  let digest := BitVec.ofNat 64 j.img.digest
  [1, BitVec.ofNat 64 (h.haltWord j), digest, digest, BitVec.ofNat 64 causes,
   BitVec.ofNat 64 (flagNat (!h.ready j) + flagNat (decide (causes ≠ 0)) * 2 ^ 32),
   BitVec.ofNat 64 (flagNat j.snapBit + flagNat j.stopBit * 2),
   if j.steps then j.first else 0xFFFFFFFFFFFFFFFF#64,
   h.stateWord, h.stateWord, h.stagedWord, h.stagedWord, BitVec.ofNat 64 reports]

/-- The update exponents of a layer over this rank's engines (R315): largest and smallest, −128 and 127 when none. -/
def Hw.exponents (h : Hw) (l : Nat) : Int × Int :=
  (List.range 12).foldl (fun m d =>
    let x := (h.upe d).layers.get UpeLayer.none l
    if x.active then (if m.1 < x.u then x.u else m.1, if x.u < m.2 then x.u else m.2) else m) (-128, 127)

/-- R315: layer record l. -/
def Hw.layerRecord (h : Hw) (l : Nat) : List Word :=
  let f := h.infl.records.get SumRec.none (summaryKey l false)
  let b := h.infl.records.get SumRec.none (summaryKey l true)
  let u := h.exponents l
  let c := fun top x y => satNat top (x + y)
  [BitVec.ofNat 64 (c (2 ^ 64 - 1) f.elements b.elements),
   BitVec.ofNat 64 (c (2 ^ 32 - 1) f.saturation b.saturation + c (2 ^ 32 - 1) f.underflow b.underflow * 2 ^ 32),
   BitVec.ofNat 64 (c (2 ^ 16 - 1) f.outlier b.outlier + c (2 ^ 16 - 1) f.lost b.lost * 2 ^ 16
     + c (2 ^ 16 - 1) f.nonfinite b.nonfinite * 2 ^ 32 + c (2 ^ 16 - 1) f.agreement b.agreement * 2 ^ 48),
   BitVec.ofNat 64 (unsigned 8 f.maxD + unsigned 8 b.maxD * 2 ^ 8 + unsigned 8 f.minD * 2 ^ 16 + unsigned 8 b.minD * 2 ^ 24
     + unsigned 8 u.1 * 2 ^ 32 + unsigned 8 u.2 * 2 ^ 40 + flagNat (decide (b.zeros < b.elements)) * 2 ^ 48
     + flagNat (decide (0 < f.elements + b.elements)) * 2 ^ 49)]

/-- R314: the data words of part k. -/
def Hw.partWords (h : Hw) (j : Job) (causes reports k : Nat) : List Word :=
  if k = 0 then h.controlPart j causes reports
  else (List.range 7).flatMap (fun i =>
    let l := 7 * (k - 1) + i
    if l < j.img.layers then h.layerRecord l else [0, 0, 0, 0])

/-- R244: the plane of part k. -/
def Hw.partPlane (h : Hw) (j : Job) (k : Nat) : Nat :=
  if h.domainVer < 0x21 ∨ j.img.planes = 0 then j.img.planeB else (j.img.planeB + k % j.img.planes) % 24

/-- The step number that the slot carries: one above this rank's own when it halted before a commit that its peers made. -/
def Hw.slotStep (h : Hw) (j : Job) : Nat := h.stepNo + flagNat j.behind

/-- An FS_UP flit (Table 6.7). -/
def Hw.fsUp (h : Hw) (j : Job) (causes reports k : Nat) : Flit :=
  { h.flitHead 1 0x10 0 true true with
    msg := BitVec.ofNat 96 (h.slotStep j % 2 ^ 64 + k * 2 ^ 64 + j.img.fsParts * 2 ^ 80)
    data := dataOf (wordsBytes (h.partWords j causes reports k)), len := 224 }

/-- A FAULT_UP flit about a suspect (R245, R441). -/
def Hw.faultUp (h : Hw) (suspect : Nat) (r : FaultReport) : Flit :=
  let span := h.rank / 1792
  { h.flitHead 1 0x14 0 true true with
    msg := BitVec.ofNat 96 (suspect + span * 2 ^ 14 + r.kinds % 64 * 2 ^ 18 + r.first.toNat * 2 ^ 32)
    data := BitVec.ofNat 1792 (2 ^ (h.rank % 1792)), len := 224 }

/-- The tree slots of a port from fs_launch on. -/
def Hw.stopSlots (h : Hw) (j : Job) (p : Nat) : List Nat :=
  (h.treeSlots p).filter (fun s => decide (j.img.fsLaunch ≤ s / 125 * 128))

/-- Flits placed in slots of a port, as far as the slots go; ready at once. -/
def Hw.placeTree (h : Hw) (p : Nat) : List Nat → List Flit → Hw
  | s :: ss, f :: fs => (h.placeFlit p s h.now f).placeTree p ss fs
  | _, _ => h

/-- R441: this rank's own report first, then ascending suspect; in an idle slot kind 5 alone. -/
def Hw.reportsOf (h : Hw) (j : Job) : List (Nat × FaultReport) :=
  let rs := if j.steps then j.reports
    else j.reports.filterMap (fun e => if e.2.kinds / 32 % 2 = 1 then some (e.1, { e.2 with kinds := 32 }) else none)
  rs.filter (fun e => decide (e.1 = h.rank)) ++ rs.filter (fun e => decide (e.1 ≠ h.rank))

/-- R317: the contribution leaves in the tree slots: reports first, then the parts in ascending order. -/
def Hw.contribute (h : Hw) (j : Job) : Hw :=
  let causes := if j.steps then h.fld inflBase Fld.INFL_LOCAL.causes else 0
  let ks := List.range j.img.fsParts
  let b := j.img.planeB
  let onB := (ks.filter (fun k => decide (h.partPlane j k = b))).length
  let rs := h.reportsOf j
  let room := if h.domainVer < 0x11 then 0 else (h.stopSlots j b).length - onB
  let sent := rs.take room
  let flits := sent.map (fun e => h.faultUp e.1 e.2)
  let parts := ks.map (fun k => (h.partPlane j k, h.fsUp j causes sent.length k))
  let h := (h.count dbgBase Fld.DBG_CNT_B.sent sent.length).count dbgBase Fld.DBG_CNT_B.dropped (rs.length - sent.length)
  let h := (List.range 24).foldl (fun h p =>
    h.placeTree p (h.stopSlots j p)
      ((if p = b then flits else []) ++ (parts.filter (fun x => decide (x.1 = p))).map (fun x => x.2))) h
  if causes = 0 then h
  else h.raise inflBase Fld.INFL_FLAGS.unclean_local Fld.INFL_CNT_A.unclean_local ringModule 0x62 causes

/-- R317: fs_launch of the slot. The rank awaits its verdict in a step or a replay (phase 2 of Table 1.13). -/
def Hw.launchStop (h : Hw) (j : Job) : Hw :=
  let h := (h.contribute j).onJob (fun j => { j with launched := true })
  if j.steps && !j.halted then h.setFld inflBase Fld.INFL_RUN_STATE.phase 2 else h

def execFullStopLaunch (s : State) : Host.Outcome State Fault Refusal :=
  .next (s.onHw (fun h =>
    match h.job with
    | none => h
    | some j => if j.running && !j.launched && h.reached j.img.fsLaunch then h.launchStop j else h))

/-! ### The merged parts, R244 and R319 -/

/-- An FS_DOWN part of the present slot is stored; one of another step, or of a slot whose Full Stop this rank has not
launched, is no part of it. -/
def Hw.takePart (h : Hw) (f : Flit) : Hw :=
  h.onJob (fun j =>
    if j.running && j.launched && decide (msgBits f 63 0 = h.slotStep j % 2 ^ 64) && decide (msgBits f 79 64 < j.img.fsParts) then
      { j with parts := j.parts.insert (msgBits f 79 64) f.data }
    else j)

/-- The rank holds every part. -/
def Job.holdsAll (j : Job) : Bool := (List.range j.img.fsParts).all (fun k => (j.parts.find? k).isSome)

/-- R286: no Full Stop by upd_launch. The rank halts with the higher of tree timeout and its own cause (R326). -/
def execTreeTimeout (s : State) : Host.Outcome State Fault Refusal :=
  .next (s.onHw (fun h =>
    match h.job with
    | none => h
    | some j =>
      if j.running && j.result.isNone && !j.holdsAll && h.reached j.img.updLaunch then
        h.haltFinal (Nat.max 8 (h.fld inflBase Fld.INFL_LOCAL.halt)) 2
      else h))

end Sys2Proof.Machine
end

