-- ==== Sys2Proof/Machine/Update.lean ====
section
/-!
DEFINITION. The Update Engines (R359 to R372): the update procedure, the compute copies, the layer table, and the start, end
and deadline of an entry.
-/
namespace Sys2Proof.Machine

/-! ### Arithmetic, R364 -/

def mul32 (a b : Val) : Val := (fpMul 5 false a b).1
def add32 (a b : Val) : Val := (fpAdd 5 false a b).1
def sub32 (a b : Val) : Val := (fpAdd 5 false a b.neg).1
def div32 (a b : Val) : Val := (fpDiv 5 false a b).1
def sqrt32 (a : Val) : Val := (fpSqrt 5 false a).1
def mul64 (a b : Val) : Val := (fpMul 6 false a b).1
def add64 (a b : Val) : Val := (fpAdd 6 false a b).1
def sub64 (a b : Val) : Val := (fpAdd 6 false a b.neg).1
def valOne : Val := .fin false 1 0

/-- x × 2^k. -/
def scale32 (x : Val) (k : Int) : Val := mul32 x (.fin false 1 k)

/-- FP64 operands added in order from +0. -/
def sum64 (vs : List Val) : Val := vs.foldl add64 .zero

/-- The exact quotient by an integer, rounded once to FP32. -/
def quotient (x : Val) (y : Nat) : Val := div32 x (.fin false y 0)

def round32 (x : Val) : Val := (roundVal 5 false x).1

/-- pow of R364: bits i − 1 to 0 of k. -/
def powFrom (b : Val) (k : Nat) : Nat → Val → Val
  | 0, x => x
  | i + 1, x =>
    let y := mul64 x x
    powFrom b k i (if k / 2 ^ i % 2 = 1 then mul64 y b else y)

def pow64 (b : Val) (k : Nat) : Val := powFrom b k 64 valOne

/-- 1 − β^k, R365's c1 and c2. -/
def correction (beta : Val) (k : Nat) : Val := round32 (sub64 valOne (pow64 beta k))

/-! ### What an entry reads -/

/-- The constants of an entry (R365): its parameters, offsets, step counter, gradient, and which accesses ended (R372). -/
structure Upd where
  e : UpdEntry
  lrk : Val
  beta1 : Val
  beta2 : Val
  b1 : Val
  b2 : Val
  es : Val
  decay : Val
  o : Int
  oState : Int
  n : Nat
  g : List Val
  touched : List Bool
  dead : List Nat
deriving DecidableEq, Repr

/-- Where an access that ended lies: the 128-byte request in the tiered range, the 8-byte word of a slice. -/
def deadLine (a : Nat) : Nat := if spaceOf a = .tiered then a / 128 * 128 else a / 8 * 8

/-- Whether an address lies in a memory unit that is lost (R211). -/
def Hw.inLost (h : Hw) (a : Nat) : Bool := decide (spaceOf a = .tiered ∧ h.ctlState (h.controllerOf a) = 3)

/-- A word read by an Update Engine: zero where its read ended (R372). DEDUCED: assumption 55. -/
def Hw.updWord (h : Hw) (dead : List Nat) (a n : Nat) : Nat := if dead.contains (deadLine a) then 0 else h.readNat a n

/-- An FP32 value read. -/
def Hw.updVal (h : Hw) (dead : List Nat) (a : Nat) : Val := decodeVal 5 (h.updWord dead a 4)

def Hw.putVal (h : Hw) (a : Nat) (v : Val) : Hw := h.writeNat a 4 (encodeVal 5 v)

/-- R361: the learning-rate factor of the held ingest buffer. -/
def Hw.rateFactor (h : Hw) (j : Job) (p : LayerParam) (dead : List Nat) : Val :=
  if p.lrRegion = 0 then valOne
  else
    match j.img.regions.find? (fun r => decide (r.number = p.lrRegion)) with
    | none => valOne
    | some r => h.updVal dead (r.base + h.ingestOffset p.lrRegion + p.lrOff)

def LayerParam.none : LayerParam := ⟨0, 0, 0, 0, 0, 0, 0, 0, 0⟩

/-- The slots of an entry. -/
def Job.slotsOf (j : Job) (e : UpdEntry) : List SlotEntry := (j.img.staging.slots.drop e.slot0).take e.nslots

/-- R370: row i of a kind 2 entry is touched when any of its blocks is. -/
def Hw.rowTouched (h : Hw) (j : Job) (e : UpdEntry) (i : Nat) : Bool :=
  if e.kind = 2 then
    match (j.slotsOf e).head? with
    | none => false
    | some s => (List.range (e.cols / 32)).any (fun b => (h.blockState s (i * (e.cols / 32) + b)).2)
  else true

/-- R89 over whole segments of the gradient, at its positions in the full tensor. -/
def unrotateAll (seed key step base : Nat) : Nat → List Val → List Val
  | 0, _ => []
  | fuel + 1, vs =>
    if vs.isEmpty then []
    else unrotateSeg (fun i => genSign seed key step (base + i)) (vs.take 256)
      ++ unrotateAll seed key step (base + 256) fuel (vs.drop 256)

/-- R360, R365: the gradient of an entry, in element order; an untouched block of a kind 2 entry reads as +0.
DEDUCED: assumption 55. -/
def Hw.gradient (h : Hw) (j : Job) (e : UpdEntry) (key n : Nat) (dead : List Nat) : List Val :=
  let raw := (j.slotsOf e).flatMap (fun s => (List.range s.blocks).flatMap (fun b =>
    if e.kind = 2 && !(h.blockState s b).2 then (List.range 32).map (fun _ => Val.zero)
    else (List.range 32).map (fun l => h.updVal dead (s.accAt b + 4 * l))))
  let vs := if e.rot then unrotateAll j.img.seed key n (e.row0 * e.cols) (raw.length / 256 + 1) raw else raw
  vs.take (e.rows * e.cols)

/-! ### The procedure of R365 -/

/-- How an entry's work stands: the hardware, the column sums of the group, the sums of squares, the conversion buffer
(newest first), whether a non-finite master was computed, and the rows updated. -/
structure UpdRun where
  h : Hw
  a : List Val
  su : Val
  sw : Val
  buf : List Val
  nonf : Bool
  rowsDone : Nat
deriving DecidableEq, Repr

/-- One element: its new momentum, second moment and master. -/
def Upd.elem (u : Upd) (c1 c2 r cbar : Val) (c : List Val) (f : Int) (i : Nat) (x : UpdRun) (j : Nat) : UpdRun :=
  let k := i * u.e.cols + j
  let g := scale32 (valAt u.g k) u.o
  let w := x.h.updVal u.dead (u.e.baseW + 4 * k)
  let m := add32 (mul32 u.beta1 (scale32 (x.h.updVal u.dead (u.e.baseM + 4 * k)) f)) (mul32 u.b1 g)
  let mh := if u.e.mom then div32 m c1 else g
  let v := add32 (mul32 u.beta2 (scale32 (x.h.updVal u.dead (u.e.baseS + 4 * k)) (2 * f))) (mul32 u.b2 (mul32 g g))
  let vh := match u.e.kind with
    | 0 => if valLt .zero cbar then div32 (mul32 r (valAt c j)) cbar else r
    | 1 => v
    | _ => r
  let d := div32 mh (add32 (sqrt32 (div32 vh c2)) u.es)
  let delta := mul32 u.lrk (add32 d (mul32 u.decay w))
  let w' := sub32 w delta
  let h := x.h.putVal (u.e.baseW + 4 * k) w'
  let h := if u.e.mom then h.putVal (u.e.baseM + 4 * k) m else h
  let h := if u.e.kind = 1 then h.putVal (u.e.baseS + 4 * k) v else h
  { x with
    h := h, su := add64 x.su (mul64 delta delta), sw := add64 x.sw (mul64 w' w'), buf := w' :: x.buf
    nonf := x.nonf || !w'.isFin }

/-- One row. -/
def Upd.row (u : Upd) (c : List Val) (cbar : Val) (x : UpdRun) (i : Nat) : UpdRun :=
  let cols := u.e.cols
  if u.e.kind = 2 && !((u.touched[i]?).getD false) then
    { x with buf := ((List.range cols).map (fun j => x.h.updVal u.dead (u.e.baseW + 4 * (i * cols + j)))).reverse ++ x.buf }
  else
    let recAt := u.e.baseS + 16 * i
    let f := if u.e.kind = 2 then u.o - signed 8 (x.h.updWord u.dead (recAt + 8) 1) else u.o - u.oState
    let k := if u.e.kind = 2 then x.h.updWord u.dead (recAt + 4) 4 + 1 else u.n + 1
    let c1 := correction u.beta1 k
    let c2 := correction u.beta2 k
    let hs := (List.range cols).map (fun j => scale32 (valAt u.g (i * cols + j)) u.o)
    let sq := hs.map (fun v => mul64 v v)
    let rAt := if u.e.kind = 2 then recAt else u.e.baseS + 4 * i
    let r := add32 (mul32 u.beta2 (scale32 (x.h.updVal u.dead rAt) (2 * f))) (mul32 u.b2 (quotient (sum64 sq) cols))
    let x := (List.range cols).foldl (u.elem c1 c2 r cbar c f i) x
    let h := if u.e.kind = 1 then x.h else x.h.putVal rAt r
    let h := if u.e.kind = 2 then
        (h.writeNat (recAt + 4) 4 k).writeNat (recAt + 8) 8 (unsigned 8 u.o)
      else h
    { x with h := h, a := (x.a.zip sq).map (fun p => add64 p.1 p.2), rowsDone := x.rowsDone + 1 }

/-- Rows per group: kinds 1 and 2 have one group of all rows. -/
def UpdEntry.groupRows (e : UpdEntry) : Nat := if e.kind = 0 then e.group else e.rows

/-- One row group: rows from `q × G`, at most G of them. -/
def Upd.groupStep (u : Upd) (x : UpdRun) (q : Nat) : UpdRun :=
  let g := u.e.groupRows
  let rows := (List.range g).map (fun i => q * g + i) |>.filter (fun i => decide (i < u.e.rows))
  let cAt := fun j => u.e.baseS + 4 * u.e.rows + 4 * (q * u.e.cols + j)
  let c := if u.e.kind = 0 then
      (List.range u.e.cols).map (fun j => scale32 (x.h.updVal u.dead (cAt j)) (2 * (u.o - u.oState)))
    else []
  let cbar := quotient (sum64 c) u.e.cols
  let x := rows.foldl (u.row c cbar) { x with a := (List.range u.e.cols).map (fun _ => Val.zero) }
  if u.e.kind = 0 then
    { x with h := (List.range u.e.cols).foldl (fun h j =>
        h.putVal (cAt j) (add32 (mul32 u.beta2 (valAt c j)) (mul32 u.b2 (quotient (valAt x.a j) rows.length)))) x.h }
  else x

/-- All row groups. DEDUCED: assumption 55. -/
def Upd.run (u : Upd) (h : Hw) (su sw : Val) : UpdRun :=
  (List.range (ceilDiv u.e.rows u.e.groupRows)).foldl u.groupStep ⟨h, [], su, sw, [], false, 0⟩

/-! ### Compute copies, R368 -/

/-- The shard of an entry as a view of a copy. -/
def CopyEntry.view (c : CopyEntry) (e : UpdEntry) : Desc :=
  { Desc.blank with
    base := BitVec.ofNat 48 c.elements, fmt := BitVec.ofNat 4 (bitsOf c.attr 3 0)
    stride := BitVec.ofNat 32 e.cols, klen := BitVec.ofNat 32 e.cols
    rows := BitVec.ofNat 32 e.rows, cols := BitVec.ofNat 32 e.cols
    scale := BitVec.ofNat 48 c.scale, list := BitVec.ofNat 48 c.list, attr := c.attr }

/-- R81: the random bits of a copy: in a narrow format or in BF16, with sr set, by the element's index in the full tensor. -/
def Attr.randomFor (a : Attr) (seed n first : Nat) : Option (Nat → Nat) :=
  if a.sr && (hasShift a.fmt || decide (a.fmt = 3)) then some (fun i => generate seed a.key n (first + i) % 2 ^ 16) else none

/-- The buffer converted to one copy, which is one converted shard: list entries hold positions in it, random draws those of the
full tensor (R368). The saturations, and whether a watched copy took a non-finite value. DEDUCED: assumptions 52, 55. -/
def Hw.writeCopy (h : Hw) (seed n : Nat) (e : UpdEntry) (c : CopyEntry) (buf : List Val) : Hw × Nat × Bool :=
  let a := Attr.ofWord c.attr
  let d := c.view e
  let o := convertAll a (elemsOf d buf) (a.randomFor seed n (e.row0 * e.cols))
  ((h.writeCodes d o.codes).writeSide a c.scale c.list n o, o.rep.saturation, o.watched && a.watched)

/-- The copy entries that an entry names. -/
def Job.copiesOf (j : Job) (e : UpdEntry) : List CopyEntry :=
  [e.copy0, e.copy1].flatMap (fun k => if k = 0xFFFF then [] else (j.img.staging.copies[k]?).toList)

/-- Both copies an entry names. -/
def Hw.writeCopies (h : Hw) (j : Job) (n : Nat) (e : UpdEntry) (buf : List Val) : Hw × Nat × Bool :=
  (j.copiesOf e).foldl (fun hs c =>
    let r := hs.1.writeCopy j.img.seed n e c buf
    (r.1, hs.2.1 + r.2.1, hs.2.2 || r.2.2)) (h, 0, false)

/-! ### Layer table, R366 and R367 -/

def Hw.upeLayer (h : Hw) (d l : Nat) : UpeLayer := (h.upe d).layers.get UpeLayer.none l

def Hw.setUpeLayer (h : Hw) (d l : Nat) (x : UpeLayer) : Hw :=
  let u := h.upe d
  h.setUpe d { u with layers := u.layers.set UpeLayer.none l x }

/-- The largest finite magnitude of a list, as an FP32 code, from `top`. -/
def gradMax (top : Nat) (vs : List Val) : Nat :=
  vs.foldl (fun t v => if v.isFin then Nat.max t (encodeVal 5 v.abs) else t) top

/-- R367: the update exponent of su and sw. -/
def updateExponent (su sw : Val) : Int :=
  match su, sw with
  | .fin _ m e, .fin _ n f =>
    if m = 0 then -127
    else if n = 0 then 127
    else
      let p := ratioOf m n (e - f)
      clampInt (-127) 127 (ratioLog p.1 p.2 / 2)
  | _, _ => 127

/-- R366: a layer record at the commit tick. -/
def UpeLayer.commit (x : UpeLayer) : UpeLayer :=
  if x.ran then
    let o := if x.gmax = 0 then x.oCur
      else
        match decodeVal 5 x.gmax with
        | .fin _ m e => clampInt (-126) 126 (-(Int.ofNat (Nat.log2 m) + e))
        | _ => x.oCur
    { UpeLayer.none with
      oState := x.oCur, oCur := o, u := updateExponent (decodeVal 6 x.su) (decodeVal 6 x.sw), active := true }
  else { x with active := false }

/-- A layer record with the staged values of a slot dropped. -/
def UpeLayer.unstage (x : UpeLayer) : UpeLayer := { x with gmax := 0, su := 0, sw := 0, ran := false }

/-! ### Events, R372 -/

def upeDetail (entry layer : Nat) : Nat := entry + layer * 2 ^ 13

/-- An access of an Update Engine that ended, in a slice: the slice's own event as well (R189). DEDUCED: assumption 55. -/
def Hw.endedAccess (h : Hw) (d a : Nat) : Hw :=
  (if spaceOf a = .shared then h.sliceEcc .uncorrectable (a / 8 * 8) else h).upeMemErr d

/-! ### The entry -/

/-- The parameters of an entry on this step (R361, R365). -/
def Hw.updOf (h : Hw) (j : Job) (e : UpdEntry) (dead : List Nat) : Upd :=
  let p := (j.img.staging.params[e.layer]?).getD LayerParam.none
  let x := h.upeLayer e.engine e.layer
  let beta1 := decodeVal 5 p.beta1
  let beta2 := decodeVal 5 p.beta2
  { e := e, lrk := mul32 (decodeVal 5 p.lr) (h.rateFactor j p dead), beta1 := beta1, beta2 := beta2
    b1 := sub32 valOne beta1, b2 := sub32 valOne beta2, es := scale32 (decodeVal 5 p.eps) x.oCur
    decay := decodeVal 5 p.decay, o := x.oCur, oState := x.oState, n := h.stepNo
    g := h.gradient j e p.key h.stepNo dead
    touched := (List.range e.rows).map (h.rowTouched j e), dead := dead }

/-- The rows whose state an entry updates (R370). -/
def Hw.rowsOf (h : Hw) (j : Job) (e : UpdEntry) : List Nat := (List.range e.rows).filter (h.rowTouched j e)

/-- Row groups of an entry. -/
def UpdEntry.groups (e : UpdEntry) : Nat := ceilDiv e.rows e.groupRows

/-- The masters of rows of an entry: all of them in one run, or one run for each row of a kind 2 entry. -/
def UpdEntry.masterRuns (e : UpdEntry) (rows : List Nat) : List (Nat × Nat) :=
  if e.kind = 2 then rows.map (fun i => (e.baseW + 4 * (i * e.cols), 4 * e.cols)) else [(e.baseW, 4 * (e.rows * e.cols))]

/-- The momentum and the statistics of rows of an entry (Table 9.11). -/
def UpdEntry.stateRuns (e : UpdEntry) (rows : List Nat) : List (Nat × Nat) :=
  if e.kind = 2 then
    rows.flatMap (fun i => (if e.mom then [(e.baseM + 4 * (i * e.cols), 4 * e.cols)] else []) ++ [(e.baseS + 16 * i, 16)])
  else
    (if e.mom then [(e.baseM, 4 * (e.rows * e.cols))] else [])
      ++ [(e.baseS, 4 * (if e.kind = 1 then e.rows * e.cols else e.rows + e.groups * e.cols))]

/-- What an entry reads in memory besides its slots: every master, for the copies cover the whole shard (R370). -/
def UpdEntry.reads (e : UpdEntry) (rows : List Nat) : List (Nat × Nat) :=
  (e.baseW, 4 * (e.rows * e.cols)) :: e.stateRuns rows

/-- What an entry writes: masters, state and copies, with the list entries that it wrote. -/
def Hw.updWrites (h : Hw) (j : Job) (e : UpdEntry) : List (Nat × Nat) :=
  let rows := h.rowsOf j e
  e.masterRuns rows ++ e.stateRuns rows
    ++ (j.copiesOf e).flatMap (fun c => (c.view e).destRuns (h.readNat c.list 4))

/-- The tiered 128-byte requests of runs of bytes: where the bytes begin, and how many. -/
def tieredParts (runs : List (Nat × Nat)) : List (Nat × Nat) :=
  (runs.filter (fun r => decide (spaceOf r.1 = .tiered ∧ 0 < r.2))).flatMap (fun r =>
    (List.range ((r.1 + r.2 - 1) / 128 - r.1 / 128 + 1)).map (fun k =>
      let a := Nat.max r.1 ((r.1 / 128 + k) * 128)
      (a, Nat.min (r.1 + r.2) ((r.1 / 128 + k + 1) * 128) - a)))

/-- A request of an Update Engine at its controller: a lost unit fails it (R211), and so does what a failed write left
undefined (R203); otherwise its bytes are counted. -/
def Hw.updMove (h : Hw) (d : Nat) (write : Bool) (r : Nat × Nat) : Hw :=
  let c := h.controllerOf r.1
  if h.inLost r.1 then (h.ctlErr c r.1 4).upeMemErr d
  else if !write && h.poisoned r.1 then (h.ctlFail c r.1 false).upeMemErr d
  else h.ctlBytes c r.2 write

/-- What was written to lost units is not there (R211): their bytes are those of `before`. -/
def Hw.keepLost (h before : Hw) : Hw :=
  (before.mem.filter (fun x => before.inLost x.1)).foldl (fun h x => h.setByte x.1 x.2)
    { h with mem := h.mem.filter (fun x => !before.inLost x.1) }

/-- What an entry leaves in memory: the accesses of its engine counted, those that ended or failed with their events, lost units
unchanged, what a failed write left undefined poisoned, and every whole line that was written sound again.
DEDUCED: assumption 55. -/
def Hw.settle (h before : Hw) (d : Nat) (reads writes : List (Nat × Nat)) (ended : List (Addr × Bool)) : Hw :=
  let h := h.keepLost before
  let h := (tieredParts reads).foldl (fun h r => h.updMove d false r) h
  let h := (tieredParts writes).foldl (fun h r => (h.updMove d true r).cure r.1 r.2) h
  let h := (ended.filter (fun x => x.2 && decide (spaceOf x.1.toNat = .tiered))).foldl (fun h x => h.poison x.1.toNat) h
  ended.foldl (fun h x => h.endedAccess d x.1.toNat) h

/-- The work of an entry: R365, its copies and events. `ended` lists its accesses that ended late or failed, and which of
them were writes. Every saturation counts; those of one entry are one setting event of UPE_FLAGS.sat, with one record.
A watched copy that takes a non-finite value is the update fault of a non-finite output. DESIGN CHOICE: assumption 87;
DEDUCED: assumption 55. -/
def Hw.runEntry (h : Hw) (j : Job) (k : Nat) (e : UpdEntry) (ended : List (Addr × Bool)) : Hw :=
  let d := e.engine
  let b := stackBase d
  let h := h.setFlds b [(Fld.UPE_STATUS.busy, 1), (Fld.UPE_STATUS.entry, k), (Fld.UPE_STATUS.layer, e.layer)]
  let reads := e.reads (h.rowsOf j e)
  let failed := (tieredParts reads).filter (fun r => h.inLost r.1 || h.poisoned r.1)
  let u := h.updOf j e (((ended.filter (fun x => !x.2)).map (fun x => deadLine x.1.toNat))
    ++ failed.map (fun r => deadLine r.1))
  let x := h.upeLayer d e.layer
  let r := u.run h (decodeVal 6 x.su) (decodeVal 6 x.sw)
  let cs := r.h.writeCopies j h.stepNo e r.buf.reverse
  let h := (cs.1.settle h d reads (cs.1.updWrites j e) ended).setUpeLayer d e.layer
    { x with gmax := gradMax x.gmax u.g, su := encodeVal 6 r.su, sw := encodeVal 6 r.sw, ran := true }
  let h := h.count b Fld.UPE_ELEMS.count (r.rowsDone * e.cols)
  let h := if e.kind = 2 then h.count b Fld.UPE_ROWS.count r.rowsDone else h
  let h := if cs.2.1 = 0 then h
    else ((h.setFld b Fld.UPE_FLAGS.sat 1).count b Fld.UPE_CNT_B.sat cs.2.1).event (ringUpe d) 0x53 (upeDetail k e.layer)
  if r.nonf || cs.2.2 then
    (h.raise b Fld.UPE_FLAGS.nonfinite Fld.UPE_CNT_B.nonfinite (ringUpe d) 0x52 (upeDetail k e.layer)).signalHalt 9
  else h

/-- R359: entry `k` is the next of its engine, in ascending launch offset. -/
def Job.nextEntry (j : Job) (u : UpeSt) (k : Nat) (e : UpdEntry) : Bool :=
  !u.ran.contains k && (List.range j.img.staging.updates.length).all (fun i =>
    match j.img.staging.updates[i]? with
    | none => true
    | some x => decide (x.engine ≠ e.engine) || u.ran.contains i || decide (i = k)
        || decide (e.launch < x.launch) || (decide (e.launch = x.launch) && decide (k < i)))

/-- The update phase of a Clean verdict runs on this rank (R359, R47). -/
def Job.updates (j : Job) : Bool := j.running && j.steps && !j.halted && decide (j.result = some .clean)

/-- R359: an entry starts after a Clean verdict, at its launch tick or when the entry before it has ended. -/
def execUpdateEntry (entry : BitVec 12) (ended : List (Addr × Bool)) (s : State) : Host.Outcome State Fault Refusal :=
  .next (s.onHw (fun h =>
    match h.job with
    | none => h
    | some j =>
      match j.img.staging.updates[entry.toNat]? with
      | none => h
      | some e =>
        let u := h.upe e.engine
        if j.updates && h.reached e.launch && u.running.isNone && j.nextEntry u entry.toNat e then
          let h := h.setUpe e.engine { u with running := some entry.toNat, ran := u.ran ++ [entry.toNat] }
          h.runEntry j entry.toNat e ended
        else h))

/-- An entry ends: the engine is free, and each region it wrote is raised once (R150). -/
def Hw.endEntry (h : Hw) (d : Nat) : Hw :=
  let u := h.upe d
  match u.running with
  | none => h
  | some k =>
    let h := (h.setUpe d { u with running := none }).setFld (stackBase d) Fld.UPE_STATUS.busy 0
    match h.job with
    | none => h
    | some j =>
      match j.img.staging.updates[k]? with
      | none => h
      | some e => h.bumpTouched (h.updWrites j e)

def execUpdateEntryComplete (d : Stack) (s : State) : Host.Outcome State Fault Refusal :=
  .next (s.onHw (fun h => h.endEntry d))

/-- R359: the first entry of an engine past its deadline and not complete raises its miss, an update fault. -/
def Hw.entryMiss (h : Hw) (j : Job) (d : Nat) : Hw :=
  let u := h.upe d
  let open_ := fun k => !u.ran.contains k || decide (u.running = some k)
  match findBelow j.img.staging.updates.length (fun k =>
      match j.img.staging.updates[k]? with
      | none => false
      | some e => decide (e.engine = d) && open_ k && h.past e.deadline && !u.missed.contains k) with
  | none => h
  | some k =>
    let layer := ((j.img.staging.updates[k]?).map (fun e => e.layer)).getD 0
    let h := h.setUpe d { u with missed := u.missed ++ [k] }
    (h.raise (stackBase d) Fld.UPE_FLAGS.deadline Fld.UPE_CNT_A.deadline (ringUpe d) 0x50 (upeDetail k layer)).signalHalt 9

def execUpdateEntryDeadline (d : Stack) (s : State) : Host.Outcome State Fault Refusal :=
  .next (s.onHw (fun h =>
    match h.job with
    | none => h
    | some j => if j.updates then h.entryMiss j d else h))

end Sys2Proof.Machine
end

