-- ==== Sys2Proof/Machine/Records.lean ====
section
/-!
DEFINITION. The records held in flash (R399 to R404): keys and certificates (R402), the device record, the Boot
Configuration Record, the firmware image, and what the boot ROM checks of them.
-/
namespace Sys2Proof.Machine

/-! ### Keys and signatures, R279 and R402 -/

def keyBytes (k : BitVec 776) : List Byte := beBytes 97 k.toNat
def digestBytes (d : BitVec 384) : List Byte := beBytes 48 d.toNat

/-- The SHA-384 digest of a public key. -/
def keyDigest (k : BitVec 776) : BitVec 384 := Config.sha384 (keyBytes k)

/-- A key identifier: the first 8 bytes of that digest. -/
def keyId (k : BitVec 776) : List Byte := (digestBytes (keyDigest k)).take 8

/-- r and s as one number, r first. -/
def sigOf (bs : List Byte) : BitVec 768 := BitVec.ofNat 768 (beNat bs)

/-- A signature section over `body`: its key identifier names one of the keys, which verifies it. -/
def sigOk (keys : List (BitVec 776)) (body sec : List Byte) : Bool :=
  decide (sec.length = 128) && (sub sec 104 24).all (fun b => b == 0)
    && keys.any (fun k => decide (keyId k = sub sec 0 8) && Config.ecdsaVerify k (Config.sha384 body) (sigOf (sub sec 8 96)))

/-- A certificate of 208 bytes. -/
def certOf (bs : List Byte) : Cert :=
  ⟨BitVec.ofNat 776 (beNat (sub bs 0 97)), (bs[97]?).getD 0, BitVec.ofNat 64 (leAt bs 104 8), sigOf (sub bs 112 96)⟩

/-- Bytes 0 to 111 of a certificate. -/
def certBody (c : Cert) : List Byte := keyBytes c.key ++ [c.role] ++ leBytes 6 0 ++ leBytes 8 c.serial.toNat

def certSigned (c : Cert) (k : BitVec 776) : Bool := Config.ecdsaVerify k (Config.sha384 (certBody c)) c.sig

/-- R402: a certificate of the owner key, accepted in the role it names while its serial is not revoked. -/
def Bcr.accepts (b : Bcr) (c : Cert) (role : Nat) : Bool :=
  decide (c.role.toNat = role) && !b.revoked.contains c.serial.toNat && certSigned c b.ownerKey

/-- The keys that R279 accepts for Luano images. -/
def Bcr.imageKeys (b : Bcr) : List (BitVec 776) :=
  b.ownerKey :: (b.certs.filter (fun c => b.accepts c 1)).map (fun c => c.key)

/-! ### Flash, Table 11.6 -/

/-- What erased flash reads as (DESIGN CHOICE: assumption 3). -/
def blankFlash : Byte := 0xFF

def MgmtSt.flashRead (m : MgmtSt) (a n : Nat) : List Byte := (List.range n).map (fun i => m.flash.get blankFlash (a + i))

def bcrAt : Nat := 0x20000
def firmwareAt : Nat := 0x100000

/-! ### The device record, R400 -/

/-- Bits set in a byte of the enabled-array map: the enabled arrays of one tile (R3). -/
def arraysIn (b : Byte) : Nat := ((List.range 8).filter (fun k => b.getLsbD k)).length

/-- Table 0.1: the grade's count of enabled arrays, and what it lets each tile lack; the map holds as many (R1, R3).
DEDUCED: assumption 20. -/
def gradeOk (grade enabled : Nat) (map : List Byte) : Bool :=
  let per := map.map arraysIn
  decide (per.foldl (· + ·) 0 = enabled)
    && (if grade = 0 then decide (enabled = 4096)
      else decide (3840 ≤ enabled ∧ enabled ≤ 4095) && per.all (fun n => decide (7 ≤ n)))

def recordOk (bs : List Byte) : Bool :=
  decide (leAt bs 0 4 = 0x5645444D) && decide (leAt bs 4 2 = 0x0100) && decide (leAt bs 6 1 ≤ 1) && decide (leAt bs 7 1 = 0)
    && decide (leAt bs 8 4 = 896) && gradeOk (leAt bs 6 1) (leAt bs 12 2) (sub bs 96 512) && decide (leAt bs 14 2 = 0)
    && decide (leAt bs 44 4 = 0) && decide (leAt bs 88 8 = 0) && decide (leAt bs 705 63 = 0)
    && sigOk Config.morrunaKeys (sub bs 0 768) (sub bs 768 128)

def recordOf (bs : List Byte) : DevRecord :=
  ⟨leAt bs 6 1, leAt bs 12 2, (List.range 10).map (fun i => leAt bs (48 + 4 * i) 4), BitVec.ofNat 4096 (leAt bs 96 512),
   BitVec.ofNat 776 (beNat (sub bs 608 97))⟩

/-! ### The Boot Configuration Record, R401 and R403 -/

def bcrLength (bs : List Byte) : Nat := 896 + 208 * leAt bs 63 1 + 128

def bcrCerts (bs : List Byte) : List Cert := (List.range (leAt bs 63 1)).map (fun i => certOf (sub bs (896 + 208 * i) 208))

/-- The bytes of a record as its state: what no register holds. -/
def bcrOf (bs : List Byte) : Bcr where
  ownerKey := BitVec.ofNat 776 (beNat (sub bs 768 97))
  certs := bcrCerts bs
  revoked := (List.range (leAt bs 131 1)).map (fun i => leAt bs (136 + 8 * i) 8)
  fwPage0 := leAt bs 52 4
  fwPages := leAt bs 56 4
  periEn := leAt bs 30 2
  lanes := leAt bs 28 1 % 16
  mmpPort := if leAt bs 60 2 = 0 then 47290 else leAt bs 60 2
  addrA := BitVec.ofNat 128 (beNat (sub bs 64 16))
  addrB := BitVec.ofNat 128 (beNat (sub bs 80 16))
  gateway := BitVec.ofNat 128 (beNat (sub bs 96 16))
  allow := BitVec.ofNat 128 (beNat (sub bs 112 16))
  plenA := leAt bs 128 1
  plenB := leAt bs 129 1
  plenAllow := leAt bs 130 1

/-- A run of pages placed in consecutive frames of a tier: first page, pages, whether in T2, first frame. -/
structure Run where
  page : Nat
  count : Nat
  t2 : Bool
  frame : Nat
deriving DecidableEq, Repr

/-- The entries of Table 11.9 in use. -/
def layoutRuns (bs : List Byte) : List Run :=
  ((List.range 16).map (fun i =>
    let o := 512 + 16 * i
    (⟨leAt bs o 4, leAt bs (o + 4) 4, decide (leAt bs (o + 12) 1 = 1), leAt bs (o + 8) 4⟩ : Run))).filter
    (fun r => decide (r.count ≠ 0))

/-- A run without the pages that a later entry places. -/
def Run.cut (r x : Run) : List Run :=
  let lo := Nat.max r.page x.page
  let hi := Nat.min (r.page + r.count) (x.page + x.count)
  if hi ≤ lo then [r]
  else
    ([{ r with count := lo - r.page }, ⟨hi, r.page + r.count - hi, r.t2, r.frame + (hi - r.page)⟩] : List Run).filter
      (fun y => decide (y.count ≠ 0))

/-- The placement of R191 with the entries applied in order. -/
def placement (entries : List Run) : List Run :=
  entries.foldl (fun rs x => rs.flatMap (fun r => r.cut x) ++ [x])
    [⟨0, Config.tierT1, false, 0⟩, ⟨Config.tierT1, Config.tierT2, true, 0⟩]

def Run.overlaps (r x : Run) : Bool :=
  decide (r.t2 = x.t2) && decide (r.frame < x.frame + x.count ∧ x.frame < r.frame + r.count)

def noOverlap : List Run → Bool
  | [] => true
  | r :: rs => rs.all (fun x => !r.overlaps x) && noOverlap rs

/-- Every frame of either tier is held by exactly one page: as there are as many frames as pages, no frame is held twice and
every frame exists. -/
def placementOk (entries : List Run) : Bool :=
  entries.all (fun r => decide (r.page + r.count ≤ Config.tierPages))
    && (placement entries).all (fun r => decide (r.frame + r.count ≤ if r.t2 then Config.tierT2 else Config.tierT1))
    && noOverlap (placement entries)

/-- Every firmware page lies in T2. -/
def firmwarePagesOk (entries : List Run) (page0 pages : Nat) : Bool :=
  decide (page0 + pages ≤ Config.tierPages)
    && (placement entries).all (fun r => r.t2 || decide (r.page + r.count ≤ page0 ∨ page0 + pages ≤ r.page))

/-- Segments that a firmware body of `length` bytes occupies, from segment 0 of slice 0 (R406). -/
def firmwareSegments (length : Nat) : Nat := ceilDiv length 262144

/-- None of the first `n` segments is marked as cache. -/
def segmentsOk (bs : List Byte) (n : Nat) : Bool :=
  (List.range n).all (fun k => decide (leAt bs (256 + 2 * (k / 16)) 2 / 2 ^ (k % 16) % 2 = 0))

/-- Fields within their stated ranges, reserved bytes zero. -/
def bcrFieldsOk (bs : List Byte) : Bool :=
  decide (leAt bs 0 4 = 0x46434642) && decide (leAt bs 4 2 = 0x0100) && decide (leAt bs 6 2 = 0)
    && decide (leAt bs 8 4 = bcrLength bs) && decide (leAt bs 12 4 = 0) && decide (leAt bs 16 2 < 2 ^ 14)
    && decide (1 ≤ leAt bs 18 2 ∧ leAt bs 18 2 ≤ 16384) && decide (leAt bs 22 1 < 24)
    && decide (0x10 ≤ leAt bs 23 1 ∧ leAt bs 23 1 ≤ 0x21) && decide (leAt bs 24 4 < 2 ^ 24) && decide (leAt bs 29 1 = 0)
    && decide (leAt bs 56 4 ≤ 65536) && decide (leAt bs 62 1 = 0) && decide (leAt bs 63 1 ≤ 8)
    && decide (leAt bs 128 1 ≤ 128 ∧ leAt bs 129 1 ≤ 128 ∧ leAt bs 130 1 ≤ 128) && decide (leAt bs 131 1 ≤ 8)
    && decide (leAt bs 132 4 = 0) && decide (leAt bs 200 56 = 0) && decide (leAt bs 865 31 = 0)
    && decide (leAt bs 40 4 ≤ 2048 ∧ leAt bs 44 4 ≤ Config.tierT1 ∧ leAt bs 48 4 ≤ Config.tierT2)
    && (List.range 16).all (fun i => decide (leAt bs (512 + 16 * i + 12) 1 ≤ 1) && decide (leAt bs (512 + 16 * i + 13) 3 = 0))

/-- R403, with the length of the firmware body in flash. -/
def bcrConsistent (bs : List Byte) (bodyLength : Nat) : Bool :=
  let rs := layoutRuns bs
  bcrFieldsOk bs && placementOk rs && firmwarePagesOk rs (leAt bs 52 4) (leAt bs 56 4)
    && segmentsOk bs (firmwareSegments bodyLength)
    && (bcrCerts bs).all (fun c => certSigned c (bcrOf bs).ownerKey)

/-- The key a BCR is verified against: the owner key in it, whose digest the fuse holds, or Morruna's while unowned (R410). -/
def bcrKeys (owner : Option (BitVec 384)) (bs : List Byte) : List (BitVec 776) :=
  match owner with
  | none => Config.morrunaKeys
  | some d => if keyDigest (bcrOf bs).ownerKey = d then [(bcrOf bs).ownerKey] else []

def bcrSigned (owner : Option (BitVec 384)) (bs : List Byte) : Bool :=
  let n := 896 + 208 * leAt bs 63 1
  sigOk (bcrKeys owner bs) (sub bs 0 n) (sub bs n 128)

/-! ### The firmware image, R404 -/

def fwLength (bs : List Byte) : Nat := leAt bs 16 4
def fwSvn (bs : List Byte) : Nat := leAt bs 8 8
def fwEntry (bs : List Byte) : Nat := leAt bs 20 4

def fwHeaderOk (bs : List Byte) : Bool :=
  decide (leAt bs 0 4 = 0x57464D57) && decide (leAt bs 4 2 = 0x0100) && decide (leAt bs 6 2 = 0) && decide (fwSvn bs ≤ 64)
    && decide (fwLength bs % 8 = 0 ∧ fwLength bs ≤ 16 * 2 ^ 20) && decide (fwEntry bs < fwLength bs)
    && decide (leAt bs 24 8 = 0) && decide (leAt bs 129 127 = 0)

def fwMorruna (bs : List Byte) : BitVec 776 := BitVec.ofNat 776 (beNat (sub bs 32 97))

/-- Both signatures: Morruna's, by a key the boot ROM knows, then the owner's, or Morruna's again while unowned. -/
def fwSigned (owner : Option (BitVec 776)) (bs : List Byte) : Bool :=
  let n := 256 + fwLength bs
  let body := sub bs 0 n
  let k := fwMorruna bs
  fwHeaderOk bs && Config.morrunaKeys.contains k && sigOk [k] body (sub bs n 128) && sigOk [owner.getD k] body (sub bs (n + 128) 128)

def fwMeasure (bs : List Byte) : BitVec 384 := Config.sha384 (sub bs 0 (256 + fwLength bs))

/-- The firmware image as flash holds it. -/
def MgmtSt.fwImage (m : MgmtSt) : List Byte :=
  let head := m.flashRead firmwareAt 256
  m.flashRead firmwareAt (256 + fwLength head + 256)

/-- The BCR as flash holds it. -/
def MgmtSt.bcrImage (m : MgmtSt) : List Byte := m.flashRead bcrAt (bcrLength (m.flashRead bcrAt 64))

end Sys2Proof.Machine
end

