-- ==== Sys2Proof/Machine/Xofisel.lean ====
section
/-!
DEFINITION. Xofisel (R426 to R430): its commands, measurement slots and attestation reports. What the bytes of the mailbox
mean to a command are the command's operands; results stand in the mailbox from XOF_MBOX0 upward (assumption 7).
-/
namespace Sys2Proof.Machine

/-! ### What Xofisel computes -/

/-- The identity key (R426). -/
def XofSt.identity (x : XofSt) : BitVec 384 := Config.identityKey x.secret

/-- Bytes 0 to 63 of a slot (Table 11.18). -/
def measureBytes (m : Measure) : List Byte :=
  leBytes 1 m.kind ++ leBytes 1 1 ++ leBytes 6 m.extra.toNat ++ digestBytes m.digest ++ leBytes 8 m.tick.toNat

/-- A slot as its window shows it: zeros while empty. -/
def XofSt.slotBytes (x : XofSt) (k : Nat) : List Byte :=
  match x.slots.find? k with
  | none => List.replicate 64 0
  | some m => measureBytes m

/-- R279's form: key identifier, r and s, zeros. -/
def signSection (key : BitVec 384) (body : List Byte) : List Byte :=
  keyId (Config.publicKey key) ++ beBytes 96 (Config.ecdsaSign key (Config.sha384 body)).toNat ++ List.replicate 24 0

/-- The report of Table 11.19 over a nonce. DESIGN CHOICE: assumption 45. -/
def State.attestReport (s : State) (nonce : BitVec 256) : List Byte :=
  let x := s.xof
  let h := s.hw
  let st := x.svn % 2 ^ 7 + flagNat x.owned * 2 ^ 8 + flagNat x.debugOpen * 2 ^ 9
    + flagNat (decide (h.fld sysBase Fld.SYS_STATUS.stage = 4)) * 2 ^ 10
    + bitsOf (h.reg (sysBase + Fld.SYS_JSW.state.off)) 15 0 * 2 ^ 16
  let body := leBytes 4 0x5441544D ++ leBytes 2 0x0100 ++ leBytes 1 x.slots.length ++ leBytes 1 0
    ++ leBytes 16 x.serial.toNat ++ leBytes 32 nonce.toNat ++ leBytes 8 h.now ++ leBytes 8 (h.fld inflBase Fld.INFL_COMMIT_STEP.step)
    ++ leBytes 8 st ++ keyId (Config.publicKey x.identity) ++ leBytes 8 0 ++ x.slots.flatMap (fun e => measureBytes e.2)
  body ++ signSection x.identity body

/-- A slot written by the boot ROM or at admission. -/
def State.measureSlot (s : State) (k kind : Nat) (extra : BitVec 48) (digest : BitVec 384) : State :=
  { s with xof := { s.xof with slots := s.xof.slots.insert k ⟨kind, extra, digest, s.hw.tense0⟩ } }

def State.clearSlot (s : State) (k : Nat) : State := { s with xof := { s.xof with slots := s.xof.slots.erase k } }

/-- What HELLO signs (R413). -/
def helloDigest (host module' : BitVec 776) (nonce : BitVec 256) (session : Nat) : BitVec 384 :=
  Config.sha384 (keyBytes host ++ keyBytes module' ++ beBytes 32 nonce.toNat ++ leBytes 4 session)

/-! ### Commands, R430 -/

/-- XOF_CMD.go: a bus error while a command runs; else the command starts. DESIGN CHOICE: assumption 7. -/
def State.xofStart (s : State) (r : XofRun) : State :=
  if s.hw.flag xofBase Fld.XOF_CMD_STATUS.busy then s.answer Resp.bus
  else
    let s := s.onHw (fun h => h.setFlds xofBase [(Fld.XOF_CMD.op, r.op), (Fld.XOF_CMD_STATUS.busy, 1)])
    ({ s with xof := { s.xof with running := some r } }).answer (Resp.ok 0)

/-- Whether a command may start. -/
def State.xofFree (s : State) : Bool := !s.hw.flag xofBase Fld.XOF_CMD_STATUS.busy

/-- The mailbox from word 0 upward. DESIGN CHOICE: assumption 7. -/
def Hw.putMailbox (h : Hw) (bs : List Byte) : Hw :=
  (List.range (ceilDiv bs.length 8)).foldl (fun h i => h.setReg (xofBase + Fld.XOF_MBOX.word.off + 8 * i) (wordAt bs i)) h

/-- The end of a command: its result, its slot, its flag (R430, Table 12.4). DESIGN CHOICE: assumption 7. -/
def State.xofFinish (s : State) (r : XofRun) : State :=
  let s := { s with xof := { s.xof with running := none } }
  let s := match r.slot with
    | none => s
    | some e => s.measureSlot e.1 e.2.kind e.2.extra e.2.digest
  s.onHw (fun h =>
    let h := (h.putMailbox r.out).setFlds xofBase [(Fld.XOF_CMD_STATUS.busy, 0), (Fld.XOF_CMD_STATUS.done, 1),
      (Fld.XOF_CMD_STATUS.result, r.result)]
    if r.result = 0 then h
    else if r.result = 1 then
      h.raise xofBase Fld.XOF_FLAGS.verify_fail Fld.XOF_CNT.verify_fail ringFliuf 0x75 r.op
    else h.raise xofBase Fld.XOF_FLAGS.cmd_err Fld.XOF_CNT.cmd_err ringFliuf 0x76 r.op)

def execXofCommandDone (s : State) : Host.Outcome State Fault Refusal :=
  .next (match s.xof.running with
    | none => s
    | some r => s.xofFinish r)

/-- A command that succeeds with bytes for the mailbox. -/
def xofGives (op : Nat) (out : List Byte) : XofRun := ⟨op, 0, out, none⟩

/-- A command that ends with a result code and nothing else. -/
def xofEnds (op result : Nat) : XofRun := ⟨op, result, [], none⟩

/-- 1 HASH: the SHA-384 digest of bytes. -/
def State.runHash (s : State) (data : List Byte) : State :=
  s.xofStart (xofGives 1 (digestBytes (Config.sha384 data)))

def execXofHash (data : List Byte) (s : State) : Host.Outcome State Fault Refusal :=
  .next (s.onAccess (.xofHash data) (fun s => s.runHash data))

/-- 2 VERIFY. -/
def State.runVerify (s : State) (key : BitVec 776) (digest : BitVec 384) (sig : BitVec 768) : State :=
  s.xofStart (xofEnds 2 (if Config.ecdsaVerify key digest sig then 0 else 1))

def execXofVerify (key : BitVec 776) (digest : BitVec 384) (sig : BitVec 768) (s : State) : Host.Outcome State Fault Refusal :=
  .next (s.onAccess (.xofVerify key digest sig) (fun s => s.runVerify key digest sig))

/-- 3 ATTEST (R429). -/
def State.runAttest (s : State) (nonce : BitVec 256) : State :=
  s.xofStart (xofGives 3 (s.attestReport nonce))

def execXofAttest (nonce : BitVec 256) (s : State) : Host.Outcome State Fault Refusal :=
  .next (s.onAccess (.xofAttest nonce) (fun s => s.runAttest nonce))

/-- 4 SESSION_KEY: the key of R413 from the last ephemeral key made. -/
def State.runSessionKey (s : State) (hostKey : BitVec 776) (nonce : BitVec 256) : State :=
  match s.xof.ephemeral with
    | none => s.xofStart (xofEnds 4 2)
    | some e => s.xofStart (xofGives 4 (digestBytes (Config.ecdhKey e hostKey nonce)))

def execSessionKey (hostKey : BitVec 776) (nonce : BitVec 256) (s : State) : Host.Outcome State Fault Refusal :=
  .next (s.onAccess (.sessionKey hostKey nonce) (fun s => s.runSessionKey hostKey nonce))

/-- The random ephemeral key and nonce of a HELLO: values the spec leaves open. -/
def State.freshKey (s : State) : (BitVec 384 × BitVec 256) × State :=
  ((Config.freeSecret s.hw.free, Config.freeNonce s.hw.free), s.onHw (fun h => { h with free := h.free + 1 }))

/-- The module's part of a HELLO: its ephemeral public key, the nonce and the signature (R413). PRESUMED: assumption 9. -/
def State.helloBytes (s : State) (e : BitVec 384) (nonce : BitVec 256) (host : BitVec 776) (session : Nat) : List Byte :=
  let pub := Config.publicKey e
  keyBytes pub ++ beBytes 32 nonce.toNat
    ++ beBytes 96 (Config.ecdsaSign s.xof.identity (helloDigest host pub nonce session)).toNat

/-- 5 SESSION_HELLO. -/
def State.runSessionHello (s : State) (hostKey : BitVec 776) (session : Word32) : State :=
  if s.xofFree then
      let q := s.freshKey
      let s := { q.2 with xof := { q.2.xof with ephemeral := some q.1.1 } }
      s.xofStart (xofGives 5 (s.helloBytes q.1.1 q.1.2 hostKey session.toNat))
    else s.answer Resp.bus

def execSessionHello (hostKey : BitVec 776) (session : Word32) (s : State) : Host.Outcome State Fault Refusal :=
  .next (s.onAccess (.sessionHello hostKey session) (fun s => s.runSessionHello hostKey session))

/-- The first 16 bytes of HMAC-SHA-384 (R413). -/
def hmacTag (key : BitVec 384) (data : List Byte) : List Byte := (digestBytes (Config.hmac key data)).take 16

/-- 6 TAG. -/
def State.runTag (s : State) (key : BitVec 384) (data : List Byte) : State :=
  s.xofStart (xofGives 6 (hmacTag key data))

def execTag (key : BitVec 384) (data : List Byte) (s : State) : Host.Outcome State Fault Refusal :=
  .next (s.onAccess (.tag key data) (fun s => s.runTag key data))

/-- 7 MEASURE: a range of memory hashed into a slot; slots 0 to 2 are the boot ROM's (R428). -/
def State.runMeasure (s : State) (slot : BitVec 4) (kind : Byte) (extra : BitVec 48) (addr : Addr) (len : Word32) : State :=
  if s.xof.locked ∧ slot.toNat < 3 then s.xofStart (xofEnds 7 2)
    else
      let d := Config.sha384 (s.hw.read addr.toNat len.toNat)
      s.xofStart ⟨7, 0, digestBytes d, some (slot.toNat, ⟨kind.toNat, extra, d, 0⟩)⟩

def execMeasure (slot : BitVec 4) (kind : Byte) (extra : BitVec 48) (addr : Addr) (len : Word32) (s : State) :
    Host.Outcome State Fault Refusal :=
  .next (s.onAccess (.measure slot kind extra addr len) (fun s => s.runMeasure slot kind extra addr len))

/-- 8 CLEAR a measurement slot. -/
def State.runClear (s : State) (slot : BitVec 4) : State :=
  if !s.xofFree then s.answer Resp.bus
    else if s.xof.locked ∧ slot.toNat < 3 then s.xofStart (xofEnds 8 2)
    else (s.clearSlot slot.toNat).xofStart (xofEnds 8 0)

def execClear (slot : BitVec 4) (s : State) : Host.Outcome State Fault Refusal :=
  .next (s.onAccess (.clear slot) (fun s => s.runClear slot))

/-- The staged flash content passes the checks of the boot ROM (R418). DEDUCED: assumption 31. -/
def State.stageGood (s : State) (firmware : Bool) : Bool :=
  let bs := (List.range s.mgmt.flashLen).map (fun i => s.mgmt.flashStage.get 0 i)
  if firmware then
    fwSigned (if s.xof.owner.isSome then some (bcrOf s.mgmt.bcrImage).ownerKey else none) bs && decide (s.xof.svn ≤ fwSvn bs)
      && decide (bs.length = 256 + fwLength bs + 256)
  else
    bcrSigned s.xof.owner bs && bcrConsistent bs (fwLength (s.mgmt.flashRead firmwareAt 256)) && decide (bs.length = bcrLength bs)

/-- 9 FLASH_OPEN: the write window of one region opens for verified staged content alone (R399, R418). -/
def State.runFlashOpen (s : State) (firmware : Bool) : State :=
  if !s.xofFree then s.answer Resp.bus
    else if s.mgmt.flashTarget = some firmware ∧ s.stageGood firmware then
      ({ s with mgmt := { s.mgmt with flashWindow := some firmware } }).xofStart (xofEnds 9 0)
    else s.xofStart (xofEnds 9 1)

def execFlashOpen (firmware : Bool) (s : State) : Host.Outcome State Fault Refusal :=
  .next (s.onAccess (.flashOpen firmware) (fun s => s.runFlashOpen firmware))

/-- 10 RAISE_SVN: up to the running firmware's svn, never beyond, never down (R427). -/
def State.runRaiseSvn (s : State) : State :=
  if !s.xofFree then s.answer Resp.bus
    else ({ s with xof := { s.xof with svn := Nat.max s.xof.svn s.xof.fwSvn } }).xofStart (xofEnds 10 0)

def execRaiseSvn (s : State) : Host.Outcome State Fault Refusal :=
  .next (s.onAccess .raiseSvn (fun s => s.runRaiseSvn))

/-- 11 PROVISION: once, while the owner-key fuse is blank (R410). -/
def State.provision (s : State) (digest : BitVec 384) : State := { s with xof := { s.xof with owner := some digest } }

def State.runProvision (s : State) (digest : BitVec 384) : State :=
  if !s.xofFree then s.answer Resp.bus
    else if s.xof.owner.isSome then s.xofStart (xofEnds 11 2)
    else (s.provision digest).xofStart (xofEnds 11 0)

def execXofProvision (digest : BitVec 384) (s : State) : Host.Outcome State Fault Refusal :=
  .next (s.onAccess (.xofProvision digest) (fun s => s.runProvision digest))

/-- 12 RANDOM: bytes that the spec leaves open; more than the mailbox holds is malformed. -/
def State.runRandom (s : State) (count : BitVec 10) : State :=
  if !s.xofFree then s.answer Resp.bus
    else if 512 < count.toNat then s.xofStart (xofEnds 12 3)
    else
      let bs := (List.range count.toNat).map (fun i => Config.freeByte (s.hw.free + i))
      (s.onHw (fun h => { h with free := h.free + count.toNat })).xofStart (xofGives 12 bs)

def execRandom (count : BitVec 10) (s : State) : Host.Outcome State Fault Refusal :=
  .next (s.onAccess (.random count) (fun s => s.runRandom count))

end Sys2Proof.Machine
end

