-- ==== Sys2Proof/Machine/Verdict.lean ====
section
/-!
DEFINITION. The verdict tick and the commit tick on this rank (R42 to R51, R319, R320, R322, R333, R335): registers, alarms,
what each verdict does to the tiles and to committed state, the snapshot and results captures that a commit orders.
-/
namespace Sys2Proof.Machine

/-- What the verdict procedure reads on this rank. -/
def Hw.verdictIn (h : Hw) (j : Job) : VerdictIn :=
  { table := h.infl.working, profiles := h.infl.profiles, entries := h.infl.entries
    stagedEntries := h.infl.stagedE, staged := decide (h.infl.committed.gen < h.infl.stagedGen)
    stagedGen := h.infl.stagedGen, plans := j.img.plans, run := h.fld inflBase Fld.INFL_RUN_STATE.plan
    replay := h.fld inflBase Fld.INFL_RUN_STATE.replay, replayLimit := h.fld inflBase Fld.INFL_RUN_STATE.replay_limit
    skipLimit := h.infl.skipLimit, diverge := j.diverge, parts := j.parts }

/-- The tiles of an image: those that a stream or a descriptor set names. DEDUCED: assumption 75. -/
def Image.tiles (i : Image) : List Nat := (i.streams.map (fun s => s.tile) ++ i.descs.map (fun d => d.1)).eraseDups

/-- R144: the update-phase commands of a tile discarded unstarted. -/
def TileSt.dropUpdate (x : TileSt) (upd : Nat) : TileSt :=
  let keep := fun l : List QCmd => l.filter (fun c => decide (c.launch < upd))
  { x with queues := x.queues.mapVals [] (fun _ l => keep l), streams := x.streams.mapVals [] (fun _ l => keep l) }

/-- The tiles learn of a verdict of a step that is not Clean: the update-phase commands are discarded unstarted (R144). -/
def Hw.tellTiles (h : Hw) (j : Job) : Hw :=
  j.img.tiles.foldl (fun h t =>
    let h := h.setTile t ((h.tile t).dropUpdate j.img.updLaunch)
    engines.foldl (fun h e => h.engineStatus t e) h) h

/-- Registers of every verdict: INFL_VERDICT, INFL_CAUSE, INFL_FIRST, the merged records, source 48's verdict flag. -/
def Hw.showVerdict (h : Hw) (j : Job) (v : VerdictIn) (r : Ruling) (code : Nat) : Hw :=
  let h := h.setFlds inflBase
    [(Fld.INFL_VERDICT.code, code), (Fld.INFL_VERDICT.ready, flagNat (decide (bitsOf (v.word 5) 31 0 = 0))),
     (Fld.INFL_VERDICT.snapshot, flagNat (bitOf (v.word 6) 0)),
     (Fld.INFL_CAUSE.causes, r.causes), (Fld.INFL_CAUSE.halt, 0),
     (Fld.INFL_CAUSE.unclean_ranks, satNat 16383 (bitsOf (v.word 5) 63 32)), (Fld.INFL_FIRST.tick, (v.word 7).toNat)]
  let h := { h with infl := { h.infl with
    merged := (List.range j.img.layers).flatMap (fun l => layerWords v.parts l) } }
  h.setFld sysBase Fld.SYS_FLAGS.verdict 1

/-- R333: the alarms of a verdict. -/
def Hw.raiseAlarms (h : Hw) (as : List (Nat × Bool)) : Hw :=
  as.foldl (fun h a =>
    h.raise inflBase Fld.INFL_FLAGS.alarm Fld.INFL_CNT_B.alarm ringModule 0x64 (a.1 + flagNat a.2 * 2 ^ 10)) h

/-- Code of a verdict, Table 1.6. -/
def Verdict.code : Verdict → Nat
  | .clean => 0
  | .unclean => 1
  | .skip => 2
  | .halt => 3

/-- Table 8.8a, the verdict tick. -/
def Hw.applyVerdict (h : Hw) (j : Job) (v : VerdictIn) (r : Ruling) : Hw :=
  match r.code with
  | .halt =>
    let h := if r.halt = 9 ∧ j.faultClean then h.setFld inflBase Fld.INFL_COMMIT_STATE.valid 0 else h
    h.haltFinal r.halt 1
  | .clean =>
    let carried := bitOf (v.word 6) 0
    let h := h.onJob (fun j => { j with
      nextPlan := r.plan, snapshotCarried := j.steps && carried, snapBit := j.snapBit && !(j.steps && carried) })
    let h := if j.steps then h.setFld inflBase Fld.INFL_STAGE.snap_pending (flagNat (j.snapBit && !carried)) else h
    h
  | .unclean =>
    let h := h.setFlds inflBase [(Fld.INFL_RUN_STATE.replay, r.replay), (Fld.INFL_RUN_STATE.plan, r.plan)]
    ((h.countSat inflBase Fld.INFL_VERDICT.unclean_count 1).tellTiles j).jsw []
  | .skip => (h.raise inflBase Fld.INFL_FLAGS.skip Fld.INFL_CNT_A.skip ringModule 0x63 r.causes).tellTiles j

/-- The verdict tick (R319): the ruling on the merged payload, and the capture that a schedule hazard of the slot asked for
(Table 12.7, row 3). -/
def Hw.reachVerdict (h : Hw) (j : Job) : Hw :=
  let v := h.verdictIn j
  let r := if j.steps then v.rule else v.idleRule
  let h := h.showVerdict j v r (Verdict.code r.code)
  let h := h.raiseAlarms r.alarms
  let h := { h with infl := { h.infl with working := r.table } }
  let h := h.onJob (fun j => { j with
    result := some r.code, allReady := decide (bitsOf (v.word 5) 31 0 = 0), snapshotCarried := false
    diverge := r.diverge, hazardDump := false })
  let h := if j.hazardDump then h.capture 3 else h
  h.applyVerdict j v r

def execVerdict (s : State) : Host.Outcome State Fault Refusal :=
  .next (s.onHw (fun h =>
    match h.job with
    | none => h
    | some j => if j.running && j.launched && j.result.isNone && j.holdsAll then h.reachVerdict j else h))

/-! ### The commit tick -/

/-- R288: the held buffer becomes free. -/
def Hw.freeBuffer (h : Hw) : Hw := h.setFld clkBase Fld.TNS_INGEST.holding 0

/-- R322: the skip counts of the committed copy, shown in INFL_SKIP. -/
def Hw.commitSkips (h : Hw) (run total : Nat) : Hw :=
  let h := { h with infl := { h.infl with committed := { h.infl.committed with skipRun := run, skipTotal := total } } }
  h.setFlds inflBase [(Fld.INFL_SKIP.run, run), (Fld.INFL_SKIP.total, total)]

/-- R322, R335: the committed copy takes the working copy; a table installed at the verdict is installed. -/
def Hw.commitTable (h : Hw) : Hw :=
  let x := h.infl
  let changed := decide (x.working.gen ≠ x.committed.gen)
  let t := { x.working with skipRun := 0 }
  let h := { h with infl := { x with
    committed := t, working := t
    profiles := if changed then x.stagedP else x.profiles
    entries := if changed then x.stagedE else x.entries } }
  h.setFlds inflBase [(Fld.INFL_STATUS.gen, t.gen), (Fld.INFL_SKIP.run, 0), (Fld.INFL_SKIP.total, t.skipTotal)]

/-- R366: every layer record of every engine at the commit tick. -/
def Hw.commitEngines (h : Hw) : Hw :=
  { h with upes := h.upes.mapVals UpeSt.empty (fun _ u =>
      { u with layers := u.layers.mapVals UpeLayer.none (fun _ x => x.commit) }) }

/-- R55, R334: the share of a snapshot begins, or, without a destination, the operation ends incomplete. -/
def Hw.beginShare (h : Hw) (j : Job) : Hw :=
  match j.snapDest with
  | none => h.jsw (h.opEnd 3 1)
  | some _ => (h.onJob (fun j => { j with sharePending := true, shareTick := h.tense0 })).jsw
      [(Fld.SYS_JSW.op, 3), (Fld.SYS_JSW.progress, 0)]

/-- R375: this commit is that of the step before the switch, and a successor is admitted. -/
def Job.switchGen (j : Job) (step : Nat) : Option Nat :=
  match j.successor with
  | none => none
  | some i => if i.staging.switchStep = step then some i.gen else none

/-- R50, R51, R322: the commit tick of a Clean verdict. -/
def Hw.commitClean (h : Hw) (j : Job) : Hw :=
  let step := h.stepNo + 1
  let h := h.setFlds inflBase
    [(Fld.INFL_COMMIT_STEP.step, step), (Fld.INFL_COMMIT_STATE.plan, j.nextPlan), (Fld.INFL_COMMIT_STATE.valid, 1),
     (Fld.INFL_COMMIT_TICK.tick, h.now)]
  let h := match j.switchGen step with
    | none => h
    | some g => h.setFld inflBase Fld.INFL_COMMIT_STATE.layout_gen g
  let h := (h.commitTable.commitEngines).freeBuffer
  let h := if h.flag sysBase Fld.SYS_RES_CFG.enable then h.onJob (fun j => { j with resultsDue := some j.slotReplay }) else h
  let h := h.onJob (fun j => { j with cleanCommit := true })
  let h := if j.snapshotCarried then h.beginShare j else h
  h.jsw []

/-- The commit tick of the slot (R50, R322): nothing for an Unclean verdict, the skip counts for a Skip. -/
def Hw.commitTick (h : Hw) (j : Job) : Hw :=
  let h := h.onJob (fun j => { j with committed := true })
  match j.result with
  | some .clean => h.commitClean j
  | some .skip => (h.commitSkips h.infl.working.skipRun h.infl.working.skipTotal).freeBuffer
  | _ => h

/-- The commit tick, if it is due. DEDUCED: assumption 67. -/
def Hw.commitDue (h : Hw) : Hw :=
  match h.job with
  | none => h
  | some j => if j.running && j.steps && !j.halted && !j.committed && h.reached j.img.commit then h.commitTick j else h

/-- R428: slot 5 at admission and at every installation of a staged table: profiles and entries in section order. -/
def State.measureTable (s : State) : State :=
  s.measureSlot 5 6 (BitVec.ofNat 48 s.hw.infl.committed.gen)
    (Config.sha384 (wordsBytes s.hw.infl.profiles ++ wordsBytes s.hw.infl.entries))

def execCommit (s : State) : Host.Outcome State Fault Refusal :=
  let s' := s.onHw Hw.commitDue
  .next (if s'.hw.infl.committed.gen = s.hw.infl.committed.gen then s' else s'.measureTable)

end Sys2Proof.Machine
end

