-- ==== Sys2Proof/Machine/Loading.lean ====
section
/-!
DEFINITION. What loading an image does to the module (R298, R182, R212, R338, R345 to R347, R366) and what the end of a job
undoes (R423): descriptor stores, preloads, streams, cache actions, region homes, ownership, slot areas, registers.
-/
namespace Sys2Proof.Machine

/-! ### Pages and homes -/

/-- The pages of a region in the tiered range. -/
def Region.pages (r : Region) : List Nat :=
  if spaceOf r.base = .tiered ∧ 0 < r.length then
    (List.range ((r.base + r.length - 1) / 0x200000 - r.base / 0x200000 + 1)).map (fun i => r.base / 0x200000 + i)
  else []

def Image.pages (i : Image) : List Nat := (i.extents.flatMap Region.pages).eraseDups

/-- A region by its number. -/
def Image.region? (i : Image) (n : Nat) : Option Region := i.regions.find? (fun r => decide (r.number = n))

/-- R182: a page of a scheduled region: written back, invalidated, not cacheable, scheduled. -/
def Hw.schedulePage (h : Hw) (n : Nat) : Hw :=
  let h := h.flushPage n
  let e := h.tierEntry n
  let h := if tierCacheable e then { h with tier := { h.tier with savedCacheable := h.tier.savedCacheable ++ [n] } } else h
  h.setTierEntry n (withBits (withBits e 19 19 0) 20 20 1)

/-- R190: ownership changes at admission and release. -/
def Hw.ownPage (h : Hw) (n : Nat) (job : Option Nat) : Hw :=
  let e := h.tierEntry n
  h.setTierEntry n (match job with
    | none => withBits (withBits e 22 22 0) 30 23 0
    | some j => withBits (withBits e 22 22 1) 30 23 j)

/-- R150, R212: a region of kind 1 outside tile memory has a home; its epoch table. -/
def Hw.homeTable (h : Hw) (r : Region) : Option Nat :=
  if r.kind ≠ 1 then none
  else
    match spaceOf r.base with
    | .shared => some (sliceBase (sliceOf r.base) + Fld.SLC_EPOCH.epoch.off)
    | .tiered =>
      let c := h.controllerOf r.base
      let d := if c < 12 then c else (c - 12) + 2 * ((c - 12) / 4)
      some (stackBase d + Fld.STK_EPOCH.epoch.off)
    | _ => none

/-- Each home's entries in memory-layout order: (region, register). -/
def Hw.homesOf (h : Hw) (i : Image) : List (Nat × Nat) :=
  (i.regions.foldl (fun (acc : List (Nat × Nat) × List Nat) r =>
    match h.homeTable r with
    | none => acc
    | some t => (acc.1 ++ [(r.number, t + 8 * (acc.2.filter (fun x => decide (x = t))).length)], acc.2 ++ [t])) ([], [])).1

/-- Every epoch entry of the old homes unused, every epoch of the new ones 0 (R150, R298). -/
def Hw.setHomes (h : Hw) (old : SMap Nat) (new : List (Nat × Nat)) : Hw :=
  let h := old.foldl (fun h e => h.setReg e.2 0) h
  new.foldl (fun h e => h.setReg e.2 (BitVec.ofNat 64 (e.1 * 2 ^ 16))) h

/-! ### Sections into the module, R298 steps 1 to 3 -/

/-- A descriptor store loaded from its set. -/
def Hw.loadDescs (h : Hw) (i : Image) : Hw :=
  i.descs.foldl (fun h d =>
    let store := (List.range d.2.length).foldl (fun (m : SMap Desc) k => m.set Desc.blank k ((d.2[k]?).getD Desc.blank)) []
    h.setTile d.1 { h.tile d.1 with desc := store }) h

/-- The offset of a stream in its region: sections of one region stand one after another in directory order.
DESIGN CHOICE: assumption 69. -/
def Image.streamOffset (i : Image) (k : Nat) : Nat :=
  match i.streams[k]? with
  | none => 0
  | some s => (((i.streams.take k).filter (fun x => decide (x.region = s.region))).map (fun x => 32 * x.cmds.length)).foldl (· + ·) 0

/-- Where a stream section lies. -/
def Image.streamAddr (i : Image) (k : Nat) : Nat :=
  match i.streams[k]? with
  | none => 0
  | some s => ((i.region? s.region).map (fun r => r.base)).getD 0 + i.streamOffset k

/-- Preload records written and streams placed. DESIGN CHOICE: assumption 69. -/
def Hw.placeSections (h : Hw) (i : Image) : Hw :=
  let h := i.preloads.foldl (fun h p =>
    match i.region? p.region with
    | none => h
    | some r => h.store (r.base + p.offset) p.bytes) h
  (List.range i.streams.length).foldl (fun h k =>
    match i.streams[k]? with
    | none => h
    | some s => h.store (i.streamAddr k) (s.cmds.flatMap (fun c => leBytes 32 c.toNat))) h

/-- R298, steps 1 to 3, and the slot tags of R347. -/
def Hw.loadImage (h : Hw) (i : Image) : Hw :=
  let h := (h.loadDescs i).placeSections i
  let h := i.pages.foldl Hw.schedulePage h
  let old := match h.job with
    | none => []
    | some j => j.homes
  let homes := h.homesOf i
  let h := h.setHomes old homes
  let h := h.onJob (fun j => { j with homes := homes.foldl (fun m e => m.insert e.1 e.2) [] })
  i.staging.slots.foldl (fun h e => h.blankTags e) h

/-! ### Units an image uses -/

/-- Slices that a region lies in, or that home one (Table 5.12). DEDUCED: assumption 75. -/
def Image.slices (i : Image) : List Nat :=
  let mine := i.extents.flatMap (fun r =>
    if spaceOf r.base = .shared ∧ 0 < r.length then
      (List.range (sliceOf (r.base + r.length - 1) - sliceOf r.base + 1)).map (fun k => sliceOf r.base + k)
    else [])
  (mine ++ i.staging.slots.map (fun e => sliceOf e.base)).eraseDups

/-- TILE_STATUS.admitted, SLC_STATUS.admitted and SLC_STG_STATUS.slots of an image. DEDUCED: assumption 75. -/
def Hw.showUnits (h : Hw) (i : Image) (on : Bool) : Hw :=
  let h := i.tiles.foldl (fun h t => h.setFld (tileBase t) Fld.TILE_STATUS.admitted (flagNat on)) h
  i.slices.foldl (fun h s =>
    (h.setFld (sliceBase s) Fld.SLC_STATUS.admitted (flagNat on)).setFld (sliceBase s) Fld.SLC_STG_STATUS.slots
      (if on then (i.staging.slots.filter (fun e => decide (sliceOf e.base = s))).length else 0)) h

/-- The layer tables of the Update Engines at admission: o_state and o_cur take o_init, u is −128, active 0 (R366). -/
def Hw.initEngines (h : Hw) (i : Image) : Hw :=
  let layers := (List.range i.layers).foldl (fun (m : SMap UpeLayer) l =>
    let o := ((i.staging.params[l]?).getD LayerParam.none).oInit
    m.set UpeLayer.none l { UpeLayer.none with oState := o, oCur := o }) []
  (List.range 12).foldl (fun h d => h.setUpe d { UpeSt.empty with layers := layers }) h

/-- R313, R338: both copies of the table state, the installed and the staged table, INFL_SKIP, INFL_CAUSE, INFL_FIRST. -/
def Hw.initTable (h : Hw) (i : Image) : Hw :=
  let t : TableSt := ⟨i.entries.map (fun e => { LayerSt.none with req := entryInit e }), 0, 0, 0⟩
  let h := { h with infl := { InflSt.empty with
    profiles := i.profiles, entries := i.entries, stagedP := i.profiles, stagedE := i.entries
    committed := t, working := t, skipLimit := i.skipLimit } }
  h.setFlds inflBase
    [(Fld.INFL_STATUS.layers, i.layers), (Fld.INFL_STATUS.parts, i.fsParts), (Fld.INFL_STATUS.gen, 0),
     (Fld.INFL_STATUS.staged, 0), (Fld.INFL_SKIP.total, 0), (Fld.INFL_SKIP.run, 0), (Fld.INFL_SKIP.limit, i.skipLimit),
     (Fld.INFL_CAUSE.causes, 0), (Fld.INFL_CAUSE.halt, 0), (Fld.INFL_CAUSE.unclean_ranks, 0),
     (Fld.INFL_FIRST.tick, 2 ^ 64 - 1), (Fld.INFL_LOCAL.causes, 0), (Fld.INFL_LOCAL.halt, 0),
     (Fld.INFL_STAGE.snap_pending, 0)]

/-- R53: the step-state registers at admission. -/
def Hw.initStep (h : Hw) (i : Image) : Hw :=
  let h := [0x0, 0x8, 0x10, 0x18, 0x20, 0x28].foldl (fun h o => h.setReg (inflBase + o) (regReset (inflBase + o))) h
  h.setFlds inflBase
    [(Fld.INFL_COMMIT_STATE.valid, 1), (Fld.INFL_COMMIT_STATE.job, i.job), (Fld.INFL_COMMIT_STATE.layout_gen, i.gen),
     (Fld.INFL_RUN_STATE.replay_limit, i.replayLimit)]

/-- The digests of every slice cleared (R358). -/
def Hw.clearDigests (h : Hw) (ss : List Nat) : Hw :=
  ss.foldl (fun h s => (h.setFld (sliceBase s) Fld.SLC_DIG_SENT.digest 0).setFld (sliceBase s) Fld.SLC_DIG_RECV.digest 0) h

/-- A job as admission leaves it. -/
def Job.admitted (i : Image) : Job where
  img := i
  t0 := 0
  started := false
  running := false
  kind := .idle
  launched := false
  parts := []
  result := none
  allReady := false
  snapshotCarried := false
  nextPlan := 0
  halted := false
  faultClean := false
  first := 0xFFFFFFFFFFFFFFFF#64
  reports := []
  carried := 0
  carriedFirst := 0xFFFFFFFFFFFFFFFF#64
  carriedReports := []
  snapDest := none
  snapBit := false
  stopBit := false
  sharePending := false
  shareTick := 0
  lastHeld := i.ingestK - 1
  produced := []
  respSent := []
  homes := []
  successor := none
  handSent := 0
  handOpen := 0
  handFailed := false
  handReceived := 0
  hazardDump := false
  captured := false
  diverge := 0
  resultsDue := none
  restore := none
  mid := 0
  released := []
  committed := false
  behind := false
  slotPlan := 0
  slotReplay := 0
  prev := none
  cleanCommit := false
  switchAt := none

/-- R298: the module loaded with an admitted image. -/
def Hw.admitImage (h : Hw) (i : Image) : Hw :=
  let h := { h with job := some (Job.admitted i) }
  let h := h.loadImage i
  let h := i.pages.foldl (fun h n => h.ownPage n (some i.job)) h
  let h := ((((h.initStep i).initTable i).initEngines i).showUnits i true).clearDigests (List.range 128)
  let h := h.setFlds clkBase [(Fld.TNS_START.tick, 0), (Fld.TNS_INGEST.next_fill, 0), (Fld.TNS_INGEST.held, 0),
    (Fld.TNS_INGEST.holding, 0), (Fld.TNS_INGEST.filled, 0)]
  { h with tier := { h.tier with quota := h.tier.quota.set 0 i.job (h.quotaOf i.job) } }

/-- Regions that a job gives up: their pages are no longer scheduled nor owned. -/
def Hw.freeRegions (h : Hw) (rs : List Region) (keep : List Region) : Hw :=
  let held := keep.flatMap Region.pages
  (((rs.flatMap Region.pages).eraseDups).filter (fun n => !held.contains n)).foldl
    (fun h n => (h.unschedulePage n).ownPage n none) h

/-- R423: a release undoes R182 and R298 and frees the job's pages and segments; the tiles and slices forget the job. -/
def Hw.release (h : Hw) (j : Job) : Hw :=
  let h := h.freeRegions (j.img.extents ++ j.released) []
  let h := (h.showUnits j.img false).setHomes j.homes []
  let h := j.img.tiles.foldl (fun h t =>
    let h := h.setTile t TileSt.empty
    let h := h.setFlds (tileBase t) [(Fld.TILE_STATUS.running, 0), (Fld.TILE_STATUS.unclean, 0), (Fld.TILE_STATUS.update, 0)]
    engines.foldl (fun h e => h.engineStatus t e) h) h
  let h := j.img.slices.foldl (fun h s => h.setPool s []) h
  let h := (List.range 24).foldl (fun h p => h.setFld (portBase p) Fld.PORT_STATUS.sched 0) h
  let h := h.setFlds inflBase [(Fld.INFL_RUN_STATE.phase, 0)]
  let h := h.setFlds clkBase [(Fld.TNS_START.tick, 0), (Fld.TNS_INGEST.holding, 0), (Fld.TNS_INGEST.filled, 0)]
  { h with job := none, localAcc := [], infl := { h.infl with signals := [], records := [] } }

end Sys2Proof.Machine
end

