-- ==== Sys2Proof/Machine/Container.lean ====
section
/-!
DEFINITION. The container of dumps and snapshot shares (R448), the share itself (R451), and its restore (R416).
-/
namespace Sys2Proof.Machine

/-! ### Containers, R448 -/

/-- A section: kind, unit, bytes. -/
structure Section where
  kind : Nat
  unit : Nat
  bytes : List Byte
deriving DecidableEq, Repr

def pad8 (bs : List Byte) : List Byte := bs ++ List.replicate ((8 - bs.length % 8) % 8) 0

/-- The directory entries of sections whose first byte is at `off`. -/
def directory : Nat → List Section → List Byte
  | _, [] => []
  | off, s :: ss =>
    leBytes 2 s.kind ++ leBytes 2 s.unit ++ leBytes 4 0 ++ leBytes 8 off ++ leBytes 8 s.bytes.length
      ++ directory (off + (pad8 s.bytes).length) ss

def shareMagic : Nat := 0x52414853
def dumpMagic : Nat := 0x504D5544

/-- The 80 header bytes before the digest, Table 12.13. -/
def Hw.containerHead (h : Hw) (serial : BitVec 128) (magic kind trigger length tick sections : Nat) : List Byte :=
  let img := fun (f : Image → Nat) => match h.job with
    | none => 0
    | some j => f j.img
  leBytes 4 magic ++ leBytes 2 0x100 ++ leBytes 1 kind ++ leBytes 1 trigger ++ leBytes 8 length ++ leBytes 8 tick
    ++ leBytes 2 (img Image.rank) ++ leBytes 2 (img Image.domain) ++ leBytes 1 (img Image.job) ++ leBytes 1 0
    ++ leBytes 2 (h.fld inflBase Fld.INFL_COMMIT_STATE.layout_gen) ++ leBytes 8 (img Image.digest)
    ++ leBytes 8 (h.fld inflBase Fld.INFL_COMMIT_STEP.step) ++ leBytes 8 (h.reg (sysBase + 0x40)).toNat
    ++ leBytes 16 serial.toNat ++ leBytes 2 sections ++ leBytes 6 0

/-- A whole container: header, directory, sections, and the SHA-384 taken with its own bytes as zero. -/
def Hw.container (h : Hw) (serial : BitVec 128) (magic kind trigger tick : Nat) (ss : List Section) : List Byte :=
  let start := 128 + 24 * ss.length
  let body := directory start ss ++ ss.flatMap (fun s => pad8 s.bytes)
  let head := h.containerHead serial magic kind trigger (128 + body.length) tick ss.length
  head ++ beBytes 48 (Config.sha384 (head ++ List.replicate 48 0 ++ body)).toNat ++ body

/-! ### The snapshot share, R451 -/

def regBytes (h : Hw) (as : List Nat) : List Byte := as.flatMap (fun a => leBytes 8 (h.reg a).toNat)

def LayerSt.bytes (x : LayerSt) : List Byte :=
  leBytes 1 x.req ++ leBytes 1 x.up ++ leBytes 2 x.dn ++ leBytes 2 x.silent ++ leBytes 2 x.uw
    ++ leBytes 1 (flagNat x.silentAlarm + 2 * flagNat x.uwAlarm) ++ leBytes 7 0

def UpeLayer.bytes (x : UpeLayer) : List Byte :=
  leBytes 1 (unsigned 8 x.oState) ++ leBytes 1 (unsigned 8 x.oCur) ++ leBytes 1 (unsigned 8 x.u)
    ++ leBytes 1 (flagNat x.active) ++ leBytes 4 0

/-- The regions of kind 1, in ascending number. -/
def insertRegion (r : Region) : List Region → List Region
  | [] => [r]
  | x :: xs => if r.number ≤ x.number then r :: x :: xs else x :: insertRegion r xs

def Image.written (i : Image) : List Region := (i.regions.filter (fun r => decide (r.kind = 1))).foldr insertRegion []

/-- Table 12.16. -/
def Hw.shareSections (h : Hw) (j : Job) : List Section :=
  let t := h.infl.committed
  [⟨0x20, 0, regBytes h [inflBase, inflBase + 8, inflBase + 0x10]⟩,
   ⟨0x21, 0, leBytes 8 (t.gen % 2 ^ 16) ++ wordsBytes h.infl.profiles ++ wordsBytes h.infl.entries⟩,
   ⟨0x22, 0, leBytes 4 t.skipTotal ++ leBytes 4 t.skipRun ++ t.layers.flatMap LayerSt.bytes⟩]
  ++ (List.range 12).map (fun d => ⟨0x23, d, (List.range 1024).flatMap (fun l => (h.upeLayer d l).bytes)⟩)
  ++ j.img.written.map (fun r => ⟨0x24, r.number, h.read r.base r.length⟩)

/-- R55: the share is wholly written: it stands at its destination, and the operation has ended (R334). -/
def State.finishShare (s : State) : State :=
  match s.hw.job with
  | none => s
  | some j =>
    match j.sharePending, j.snapDest with
    | true, some dest =>
      let bs := s.hw.container s.xof.serial shareMagic 3 0 j.shareTick.toNat (s.hw.shareSections j)
      s.onHw (fun h => ((h.store dest.toNat bs).onJob (fun j => { j with sharePending := false })).jsw (h.opEnd 3 0))
    | _, _ => s

def execSnapshotShareComplete (s : State) : Host.Outcome State Fault Refusal := .next s.finishShare

/-! ### Restoring a share, R416 and R451 -/

/-- The section of a container by kind and unit. -/
def sectionOf (bs : List Byte) (kind unit : Nat) : Option (List Byte) :=
  let n := leAt bs 72 2
  match (List.range n).find? (fun i => decide (leAt bs (128 + 24 * i) 2 = kind ∧ leAt bs (130 + 24 * i) 2 = unit)) with
  | none => none
  | some i =>
    let off := leAt bs (136 + 24 * i) 8
    let len := leAt bs (144 + 24 * i) 8
    if off + len ≤ bs.length then some (sub bs off len) else none

def sectionLen (bs : List Byte) (kind unit : Nat) : Option Nat := (sectionOf bs kind unit).map List.length

/-- The checks on a share: whole, of this image, and with every region of kind 1. DEDUCED: assumption 70. -/
def Hw.shareRight (h : Hw) (j : Job) (bs : List Byte) : Bool :=
  let zeroed := bs.take 80 ++ List.replicate 48 0 ++ bs.drop 128
  decide (leAt bs 0 4 = shareMagic) && decide (leAt bs 4 2 = 0x100) && decide (leAt bs 6 1 = 3)
    && decide (sub bs 80 48 = beBytes 48 (Config.sha384 zeroed).toNat)
    && decide (leAt bs 28 1 = j.img.job) && decide (leAt bs 30 2 = h.fld inflBase Fld.INFL_COMMIT_STATE.layout_gen)
    && decide (leAt bs 32 8 = j.img.digest) && decide (leAt bs 24 2 = j.img.rank)
    && [0x20, 0x21, 0x22].all (fun k => (sectionOf bs k 0).isSome)
    && (List.range 12).all (fun d => (sectionOf bs 0x23 d).isSome)
    && j.img.written.all (fun r => decide (sectionLen bs 0x24 r.number = some r.length))

def LayerSt.ofBytes (bs : List Byte) : LayerSt :=
  { req := leAt bs 0 1, up := leAt bs 1 1, dn := leAt bs 2 2, silent := leAt bs 4 2, uw := leAt bs 6 2
    silentAlarm := decide (leAt bs 8 1 % 2 = 1), uwAlarm := decide (leAt bs 8 1 / 2 % 2 = 1) }

def UpeLayer.ofBytes (bs : List Byte) : UpeLayer :=
  { UpeLayer.none with
    oState := signed 8 (leAt bs 0 1), oCur := signed 8 (leAt bs 1 1), u := signed 8 (leAt bs 2 1)
    active := decide (leAt bs 3 1 % 2 = 1) }

def bytesWords (bs : List Byte) : List Word := (List.range (bs.length / 8)).map (wordAt bs)

/-- The Inflection Table and its state from sections 0x21 and 0x22. -/
def Hw.placeTable (h : Hw) (i : Image) (tab st : List Byte) : Hw :=
  let gen := leAt tab 0 2
  let ps := (bytesWords (tab.drop 8)).take 128
  let es := ((bytesWords (tab.drop 8)).drop 128).take i.layers
  let layers := (List.range i.layers).map (fun l => LayerSt.ofBytes (sub st (8 + 16 * l) 16))
  let t : TableSt := ⟨layers, gen, leAt st 4 4, leAt st 0 4⟩
  let h := { h with infl := { h.infl with
    profiles := ps, entries := es, stagedP := ps, stagedE := es, stagedGen := gen, committed := t, working := t } }
  h.setFlds inflBase [(Fld.INFL_STATUS.gen, gen), (Fld.INFL_STATUS.staged, gen), (Fld.INFL_SKIP.total, t.skipTotal),
    (Fld.INFL_SKIP.run, t.skipRun)]

/-- The layer table of one engine from section 0x23. -/
def Hw.placeEngine (h : Hw) (d : Nat) (bs : List Byte) : Hw :=
  let layers := (List.range 1024).foldl (fun (m : SMap UpeLayer) l =>
    m.set UpeLayer.none l (UpeLayer.ofBytes (sub bs (8 * l) 8))) []
  h.setUpe d { h.upe d with layers := layers }

/-- A right share placed: regions, committed-state registers, table, engines; valid is set (R451). -/
def Hw.placeShare (h : Hw) (j : Job) (bs : List Byte) : Hw :=
  let sec := fun k u => (sectionOf bs k u).getD []
  let h := j.img.written.foldl (fun h r => h.store r.base (sec 0x24 r.number)) h
  let c := sec 0x20 0
  let h := ((h.setReg inflBase (wordAt c 0)).setReg (inflBase + 8) (wordAt c 1)).setReg (inflBase + 0x10) (wordAt c 2)
  let h := h.setFld inflBase Fld.INFL_COMMIT_STATE.valid 1
  let h := h.placeTable j.img (sec 0x21 0) (sec 0x22 0)
  let h := (List.range 12).foldl (fun h d => h.placeEngine d (sec 0x23 d)) h
  h.onJob (fun j => { j with restore := none })

/-- R285: the start is refused: the rank shows state 7 with the reason and does not run. -/
def Hw.refuseStart (h : Hw) (code : Nat) : Hw :=
  (h.onJob (fun j => { j with started := false, restore := none })).jsw [(Fld.SYS_JSW.state, 7), (Fld.SYS_JSW.code, code)]

/-- R416: a started rank reads and checks the share at its restore address before T0. -/
def execRestoreShare (s : State) : Host.Outcome State Fault Refusal :=
  .next (s.onHw (fun h =>
    match h.job with
    | none => h
    | some j =>
      match j.restore with
      | none => h
      | some a =>
        if j.started && !j.running then
          let bs := h.read a.toNat (h.readNat (a.toNat + 8) 8)
          if h.shareRight j bs then h.placeShare j bs else h.refuseStart 3
        else h))

end Sys2Proof.Machine
end

