-- ==== Sys2Proof/Machine/Image.lean ====
section
/-!
DEFINITION. The Luano image read from its bytes (R275 to R283): directory, sections, and the parts that the module loads.
Section layouts are those of Tables 6.5, 7.5 to 7.10, 8.2 to 8.4, 9.2, 9.3, 9.8 to 9.10, 9.13 and 2.10.
-/
namespace Sys2Proof.Machine

/-- A directory entry, Table 7.6. -/
structure DirEntry where
  type : Nat
  variant : Nat
  engine : Nat
  unit : Nat
  region : Nat
  offset : Nat
  length : Nat
  reserved : Nat
deriving DecidableEq, Repr

def dirEntry (bs : List Byte) (k : Nat) : DirEntry :=
  let o := 64 + 32 * k
  ⟨leAt bs o 2, leAt bs (o + 2) 1, leAt bs (o + 3) 1, leAt bs (o + 4) 2, leAt bs (o + 6) 2, leAt bs (o + 8) 8,
   leAt bs (o + 16) 8, leAt bs (o + 24) 8⟩

/-- The directory of an image. -/
def directoryOf (bs : List Byte) : List DirEntry := (List.range (leAt bs 40 2)).map (dirEntry bs)

def DirEntry.body (bs : List Byte) (d : DirEntry) : List Byte := sub bs d.offset d.length

/-- The sections of a type, in directory order. -/
def sectionsOf (bs : List Byte) (type : Nat) : List (DirEntry × List Byte) :=
  ((directoryOf bs).filter (fun d => decide (d.type = type))).map (fun d => (d, d.body bs))

/-- The one section of a type; empty if the image has none. -/
def sectionBody (bs : List Byte) (type : Nat) : List Byte := (((sectionsOf bs type).head?).map (fun x => x.2)).getD []

/-- Cuts of `n` bytes. -/
def entriesOf (n : Nat) (bs : List Byte) : List (List Byte) := (List.range (bs.length / n)).map (fun i => sub bs (n * i) n)

/-! ### Sections -/

/-- R307. -/
def planOf (bs : List Byte) : List Nat := (List.range (leAt bs 2 2)).map (fun l => leAt bs (16 + l) 1 % 8)

def calEntry (bs : List Byte) : CalEntry :=
  let n := leNat bs
  ⟨n % 2 ^ 32, n / 2 ^ 32 % 2 ^ 16, n / 2 ^ 48 % 2 ^ 9, n / 2 ^ 57 % 4, decide (n / 2 ^ 59 % 2 = 1), decide (n / 2 ^ 60 % 2 = 1)⟩

def regionEntry (bs : List Byte) : Region := ⟨leAt bs 0 2, leAt bs 2 1, leAt bs 3 1, leAt bs 8 8, leAt bs 16 8⟩

def keyEntry (bs : List Byte) : KeyEntry := ⟨leAt bs 0 2, leAt bs 2 1 % 16, leAt bs 4 4⟩

def migEntry (bs : List Byte) : MigEntry := ⟨leAt bs 0 4, leAt bs 4 4, leAt bs 8 4, leAt bs 12 4⟩

/-- Preload records: region number, offset, length, bytes padded to 8 (Table 7.7). -/
def preloadsOf : Nat → List Byte → List Preload
  | 0, _ => []
  | fuel + 1, bs =>
    if bs.length < 24 then []
    else
      let n := leAt bs 16 8
      ⟨leAt bs 0 2, leAt bs 8 8, sub bs 24 n⟩ :: preloadsOf fuel (bs.drop (24 + (n + 7) / 8 * 8))

/-- The next 64-byte boundary. -/
def align64 (n : Nat) : Nat := (n + 63) / 64 * 64

/-- Offsets of the six arrays of the staging section, and its end (Table 9.2). -/
structure StagingMap where
  slots : Nat
  updates : Nat
  params : Nat
  copies : Nat
  lists : Nat
  hands : Nat
  stop : Nat
deriving DecidableEq, Repr

def stagingMap (bs : List Byte) : StagingMap :=
  let u := align64 (64 + 32 * leAt bs 0 2)
  let p := align64 (u + 64 * leAt bs 2 2)
  let c := align64 (p + 32 * leAt bs 4 2)
  let l := align64 (c + 32 * leAt bs 6 2)
  let h := align64 (l + leAt bs 8 4)
  ⟨64, u, p, c, l, h, h + 32 * leAt bs 14 2⟩

/-- Table 9.3, with the contributors named by its list. -/
def slotEntryOf (lists bs : List Byte) : SlotEntry :=
  let w := wordAt bs
  let off := bitsOf (w 2) 31 0
  let n := bitsOf (w 2) 46 32
  { base := bitsOf (w 0) 47 0, rot := bitOf (w 0) 48, sparse := bitOf (w 0) 49, watched := bitOf (w 0) 50
    efmts := bitsOf (w 0) 54 51, blocks := bitsOf (w 1) 31 0, valid := bitsOf (w 1) 63 32, pool := bitsOf (w 2) 63 47
    deadline := bitsOf (w 3) 31 0, worst := bitsOf (w 3) 63 32
    contributors := (List.range n).map (fun i => leAt lists (off + 2 * i) 2 % 2 ^ 14)
    words := [w 0, w 1, w 2, w 3] }

/-- Table 9.8. -/
def updEntryOf (bs : List Byte) : UpdEntry :=
  let w := wordAt bs
  { launch := bitsOf (w 0) 31 0, deadline := bitsOf (w 0) 63 32, engine := bitsOf (w 1) 3 0, kind := bitsOf (w 1) 5 4
    mom := bitOf (w 1) 6, rot := bitOf (w 1) 7, layer := bitsOf (w 1) 17 8, slot0 := bitsOf (w 1) 29 18
    nslots := bitsOf (w 1) 42 30, rows := bitsOf (w 2) 31 0, cols := bitsOf (w 2) 63 32, row0 := bitsOf (w 3) 31 0
    group := bitsOf (w 3) 47 32, baseW := bitsOf (w 4) 47 0, baseM := bitsOf (w 5) 47 0, baseS := bitsOf (w 6) 47 0
    copy0 := bitsOf (w 7) 15 0, copy1 := bitsOf (w 7) 31 16 }

/-- Table 9.9. -/
def layerParamOf (bs : List Byte) : LayerParam :=
  let w := wordAt bs
  { lr := bitsOf (w 0) 31 0, eps := bitsOf (w 0) 63 32, beta1 := bitsOf (w 1) 31 0, beta2 := bitsOf (w 1) 63 32
    decay := bitsOf (w 2) 31 0, oInit := signed 8 (bitsOf (w 2) 39 32), key := bitsOf (w 2) 55 40
    lrRegion := bitsOf (w 3) 15 0, lrOff := bitsOf (w 3) 47 16 }

/-- Table 9.10. -/
def copyEntryOf (bs : List Byte) : CopyEntry :=
  ⟨bitsOf (wordAt bs 0) 47 0, bitsOf (wordAt bs 1) 47 0, bitsOf (wordAt bs 2) 47 0, wordAt bs 3⟩

/-- Table 9.13. -/
def handEntryOf (bs : List Byte) : HandEntry :=
  ⟨bitsOf (wordAt bs 0) 47 0, bitsOf (wordAt bs 1) 47 0, bitsOf (wordAt bs 1) 61 48, (wordAt bs 2).toNat⟩

/-- The staging section, R344. -/
def stagingOf (bs : List Byte) : StagingSec :=
  if bs.isEmpty then StagingSec.none
  else
    let m := stagingMap bs
    let arr := fun (o n size : Nat) => entriesOf size (sub bs o (n * size))
    let lists := sub bs m.lists (leAt bs 8 4)
    { rotFrom := leAt bs 12 2, switchStep := leAt bs 16 8, handin := leAt bs 24 8
      slots := (arr m.slots (leAt bs 0 2) 32).map (slotEntryOf lists)
      updates := (arr m.updates (leAt bs 2 2) 64).map updEntryOf
      params := (arr m.params (leAt bs 4 2) 32).map layerParamOf
      copies := (arr m.copies (leAt bs 6 2) 32).map copyEntryOf
      handovers := (arr m.hands (leAt bs 14 2) 32).map handEntryOf }

/-- The domain digest of R280. -/
def domainDigest (bs : List Byte) : Nat :=
  let head := sub bs 16 8 ++ sub bs 26 14 ++ [0, 0] ++ sub bs 42 6
  let body := head ++ sectionBody bs 0x0001 ++ (sectionsOf bs 0x0002).flatMap (fun x => x.2) ++ sectionBody bs 0x0009
    ++ sectionBody bs 0x000A
  leNat ((digestBytes (Config.sha384 body)).take 8)

/-- A whole image. -/
def imageOf (bs : List Byte) : Image :=
  let frame := sectionBody bs 0x0001
  let infl := sectionBody bs 0x000A
  let ing := sectionBody bs 0x000C
  let quo := sectionBody bs 0x0008
  { feature := leAt bs 6 1, seed := leAt bs 16 8, rank := leAt bs 24 2, domain := leAt bs 26 2, job := leAt bs 28 1
    levels := leAt bs 29 1, planeB := leAt bs 30 1, planes := leAt bs 31 1, collector := leAt bs 32 2, gen := leAt bs 34 2
    replayLimit := leAt bs 36 1, variants := leAt bs 37 1, micro := leAt bs 38 1, ingestK := leAt bs 39 1
    digest := leAt bs 48 8
    slot := leAt frame 0 4, fsLaunch := leAt frame 4 4, updLaunch := leAt frame 8 4, commit := leAt frame 12 4
    fsParts := leAt frame 16 2
    plans := (sectionsOf bs 0x0002).map (fun x => planOf x.2)
    streams := (sectionsOf bs 0x0003).map (fun x =>
      ⟨x.1.variant, x.1.unit, x.1.engine, x.1.region, (entriesOf 32 x.2).map (fun e => BitVec.ofNat 256 (leNat e))⟩)
    descs := (sectionsOf bs 0x0004).map (fun x => (x.1.unit, (entriesOf 64 x.2).map (fun e => Desc.ofNat (leNat e))))
    calendars := (sectionsOf bs 0x0005).map (fun x => (x.1.variant, x.1.unit, (entriesOf 8 x.2).map calEntry))
    tallies := (sectionsOf bs 0x0006).map (fun x => (x.1.variant, x.1.unit, x.2))
    regions := (entriesOf 32 (sectionBody bs 0x0007)).map regionEntry
    quotas := (leAt quo 0 8, leAt quo 8 8, leAt quo 16 8)
    keys := (entriesOf 8 (sectionBody bs 0x0009)).map keyEntry
    layers := leAt infl 0 2, skipLimit := leAt infl 2 1
    profiles := (List.range 128).map (fun i => wordAt (infl.drop 64) i)
    entries := (List.range (leAt infl 0 2)).map (fun l => wordAt (infl.drop 1088) l)
    migrations := (sectionsOf bs 0x000B).map (fun x => (x.1.variant, (entriesOf 16 x.2).map migEntry))
    ingestStride := leAt ing 0 8
    ingestRegions := (List.range (leAt ing 8 2)).map (fun i => leAt ing (16 + 2 * i) 2)
    lists := (entriesOf 16 (sectionBody bs 0x000D)).map (fun e => (leAt e 0 6, leAt e 8 4))
    inbound := (sectionsOf bs 0x000E).flatMap (fun x => (entriesOf 8 x.2).map (fun e => (x.1.variant, leAt e 0 2, leAt e 4 4)))
    staging := stagingOf (sectionBody bs 0x000F)
    preloads := preloadsOf bs.length (sectionBody bs 0x0010) }

end Sys2Proof.Machine
end

