-- ==== Sys2Proof/Machine/Checks.lean ====
section
/-!
DEFINITION. The checks of admission (R293, R294, Table 7.11) that the image's own bytes and the module's state decide, in
ascending order of their codes. The checks that need the schedule modelled (R292) are those of Timed.lean and Energy.lean.
-/
namespace Sys2Proof.Machine

/-- A refusal, Table 7.13. -/
structure Finding where
  code : Nat
  sect : Nat
  variant : Nat
  engine : Nat
  unit : Nat
  item : Nat
  detail : Nat
  limit : Nat
deriving DecidableEq, Repr

/-- A finding in the header, with no detail. -/
def Finding.header (code : Nat) : Finding := ⟨code, 0xFFFF, 0xFF, 0xFF, 0, 0, 0, 0⟩

/-- A finding in a section. -/
def Finding.at (code sect item : Nat) (d : DirEntry) : Finding := ⟨code, sect, d.variant, if d.type = 3 then d.engine else 0xFF, d.unit, item, 0, 0⟩

/-- The 32 bytes of a refusal record. -/
def Finding.bytes (f : Finding) : List Byte :=
  leBytes 2 f.code ++ leBytes 2 f.sect ++ leBytes 1 f.variant ++ leBytes 1 f.engine ++ leBytes 2 f.unit ++ leBytes 4 f.item
    ++ leBytes 4 0 ++ leBytes 8 f.detail ++ leBytes 8 f.limit

def Finding.record (f : Finding) : BitVec 256 := BitVec.ofNat 256 (leNat f.bytes)

/-- A finding with what is modelled or required and the limit that it breaks (R297). -/
def Finding.sized (f : Finding) (required room : Nat) : Finding := { f with detail := required, limit := room }

/-- The first check that fails. -/
def firstOf (l : List (Option Finding)) : Option Finding := l.findSome? id

/-- Where an item stands: the header first, then in directory order, then by its index (R293). -/
def Finding.place (f : Finding) : Nat := (if f.sect = 0xFFFF then 0 else f.sect + 1) * 2 ^ 32 + f.item

/-- The first failing item of one check (R293). -/
def earliest (l : List (Option Finding)) : Option Finding :=
  l.foldl (fun best f => match best, f with
    | none, f => f
    | some b, none => some b
    | some b, some f => if f.place < b.place then some f else some b) none

/-- The finding unless the condition holds. -/
def need (ok : Bool) (f : Finding) : Option Finding := if ok then none else some f

def zeroBytes (bs : List Byte) : Bool := bs.all (fun b => b == 0)

/-! ### 0x01 FORMAT: R275 to R278, R280 -/

def oneEach : List Nat := [0x0001, 0x0007, 0x0008, 0x0009, 0x000A, 0x000C, 0x000D, 0x000F, 0x0010, 0x7FFF]
def perVariant : List Nat := [0x0002, 0x0003, 0x0005, 0x0006, 0x000B, 0x000E]
def perUnit : List Nat := [0x0003, 0x0004, 0x0005, 0x0006]

def headerOk (bs : List Byte) : Bool :=
  decide (leAt bs 0 4 = 0x4F4E4155) && decide (leAt bs 4 2 = 0x0100) && decide (leAt bs 6 1 ∈ [0x10, 0x11, 0x20, 0x21])
    && decide (leAt bs 7 1 = 0) && decide (leAt bs 8 8 = bs.length) && decide (leAt bs 24 2 < 2 ^ 14)
    && decide (1 ≤ leAt bs 26 2 ∧ leAt bs 26 2 ≤ 16384) && decide (leAt bs 30 1 ≤ 23)
    && decide (1 ≤ leAt bs 31 1 ∧ leAt bs 31 1 ≤ 24) && decide (leAt bs 36 1 ≤ 15)
    && decide (1 ≤ leAt bs 37 1 ∧ leAt bs 37 1 ≤ 16) && decide (1 ≤ leAt bs 38 1) && decide (2 ≤ leAt bs 39 1 ∧ leAt bs 39 1 ≤ 16)
    && zeroBytes (sub bs 42 6) && zeroBytes (sub bs 56 8)

/-- The order of R277 as one number: type, variant, unit, engine. -/
def DirEntry.key (d : DirEntry) : Nat := ((d.type * 2 ^ 8 + d.variant) * 2 ^ 16 + d.unit) * 2 ^ 8 + d.engine

/-- An entry of a defined type with the fields that its type has, its section on a 64-byte boundary within the image. -/
def DirEntry.ok (d : DirEntry) (start stop variants : Nat) : Bool :=
  decide (d.type ∈ oneEach ++ perVariant ++ perUnit) && decide (d.reserved = 0)
    && (if perVariant.contains d.type then decide (d.variant < variants) else decide (d.variant = 0xFF))
    && (if d.type = 3 then true else decide (d.engine = 0 ∧ d.region = 0))
    && (if perUnit.contains d.type then
          decide (d.unit < if d.type ≤ 4 then 512 else 24)
        else decide (d.unit = 0))
    && decide (d.offset % 64 = 0 ∧ d.length % 8 = 0 ∧ start ≤ d.offset ∧ d.offset + d.length ≤ stop)

/-- The keys of the directory strictly ascend (R277, R278). -/
def ordered : List DirEntry → Bool
  | a :: b :: ds => decide (a.key < b.key) && ordered (b :: ds)
  | _ => true

/-- The sections are parts of the image, so no two of them share a byte (R275); they may lie in any order, the signature last.
DEDUCED: assumption 25. -/
def apart : List DirEntry → Bool
  | [] => true
  | a :: ds => ds.all (fun b => decide (a.offset + a.length ≤ b.offset ∨ b.offset + b.length ≤ a.offset)) && apart ds

/-- Reserved bits of the arrays of a staging section (Tables 9.3, 9.8, 9.9, 9.13). -/
def stagingReserved (b : List Byte) : Bool :=
  let m := stagingMap b
  let arr := fun (o n size : Nat) => entriesOf size (sub b o (n * size))
  (arr m.slots (leAt b 0 2) 32).all (fun e => decide (bitsOf (wordAt e 0) 63 55 = 0))
    && (arr m.updates (leAt b 2 2) 64).all (fun e =>
      decide (bitsOf (wordAt e 1) 63 43 = 0 ∧ bitsOf (wordAt e 3) 63 48 = 0 ∧ bitsOf (wordAt e 7) 63 32 = 0))
    && (arr m.params (leAt b 4 2) 32).all (fun e => decide (bitsOf (wordAt e 2) 63 56 = 0 ∧ bitsOf (wordAt e 3) 63 48 = 0))
    && (arr m.hands (leAt b 14 2) 32).all (fun e =>
      decide (bitsOf (wordAt e 0) 63 48 = 0 ∧ bitsOf (wordAt e 1) 63 62 = 0 ∧ (wordAt e 3) = 0))

/-- Preload records fill their section; reserved bytes and the pad of each record are zero (Table 7.7). -/
def preloadsFill : Nat → List Byte → Bool
  | 0, bs => bs.isEmpty
  | fuel + 1, bs =>
    if bs.isEmpty then true
    else
      let n := leAt bs 16 8
      let size := 24 + (n + 7) / 8 * 8
      decide (24 ≤ bs.length ∧ size ≤ bs.length) && zeroBytes (sub bs 2 6) && zeroBytes (sub bs (24 + n) (size - 24 - n))
        && preloadsFill fuel (bs.drop size)

/-- Intervals of the slot of an image: one byte each in a receive tally (Table 7.7). -/
def slotIntervals (bs : List Byte) : Nat := leAt (sectionBody bs 0x0001) 0 4 / 128

/-- Reserved bytes and sizes of one section. -/
def sectionOk (bs : List Byte) (d : DirEntry) : Bool :=
  let b := d.body bs
  match d.type with
  | 0x0001 => decide (b.length = 32) && zeroBytes (sub b 18 14) && decide (1 ≤ leAt b 16 2 ∧ leAt b 16 2 ≤ 256)
  | 0x0002 => decide (leAt b 0 1 = d.variant) && decide (leAt b 1 1 = 0) && zeroBytes (sub b 4 12)
      && decide (b.length = (16 + leAt b 2 2 + 7) / 8 * 8) && zeroBytes (b.drop (16 + leAt b 2 2))
      && (sub b 16 (leAt b 2 2)).all (fun x => decide (x.toNat < 8))
  | 0x0003 => decide (b.length % 32 = 0) && decide (d.engine ≤ 4)
  | 0x0004 => decide (b.length % 64 = 0 ∧ b.length ≤ 65536)
      && (entriesOf 64 b).all (fun e => !bitOf (wordAt e 0) 55 && decide (bitsOf (wordAt e 5) 63 48 = 0 ∧ (wordAt e 7) = 0))
  | 0x0005 => (entriesOf 8 b).all (fun e => decide (leNat e / 2 ^ 61 = 0))
  | 0x0006 => decide (b.length = (slotIntervals bs + 7) / 8 * 8) && zeroBytes (b.drop (slotIntervals bs))
  | 0x0007 => decide (b.length % 32 = 0) && (entriesOf 32 b).all (fun e => zeroBytes (sub e 4 4) && zeroBytes (sub e 24 8))
  | 0x0008 => decide (b.length = 24)
  | 0x0009 => (entriesOf 8 b).all (fun e => decide (leAt e 2 2 / 16 = 0))
  | 0x000A => decide (1 ≤ leAt b 0 2 ∧ leAt b 0 2 ≤ 1024) && decide (1 ≤ leAt b 2 1) && zeroBytes (sub b 3 61)
      && decide (b.length = align64 (1088 + 8 * leAt b 0 2)) && zeroBytes (b.drop (1088 + 8 * leAt b 0 2))
      && (List.range 16).all (fun p => zeroBytes (sub b (64 + 64 * p + 42) 22) && decide (leAt b (64 + 64 * p + 33) 1 < 16))
      && (List.range (leAt b 0 2)).all (fun l => decide (bitsOf (wordAt (b.drop 1088) l) 63 16 = 0))
  | 0x000B => decide (b.length % 16 = 0)
  | 0x000C => zeroBytes (sub b 10 6)
  | 0x000D => decide (b.length % 16 = 0) && (entriesOf 16 b).all (fun e => zeroBytes (sub e 6 2) && zeroBytes (sub e 12 4))
  | 0x000E => (entriesOf 8 b).all (fun e => zeroBytes (sub e 2 2))
  | 0x000F => zeroBytes (sub b 32 32) && decide ((stagingMap b).stop ≤ b.length) && stagingReserved b
      && decide (leAt b 0 2 ≤ 4096 ∧ leAt b 2 2 ≤ 4096 ∧ leAt b 6 2 ≤ 8192 ∧ leAt b 8 4 % 8 = 0)
  | 0x0010 => preloadsFill (b.length / 24 + 1) b
  | 0x7FFF => decide (b.length = 128) && zeroBytes (sub b 104 24)
  | _ => true

def numberedDir (bs : List Byte) : List (Nat × DirEntry) := (List.range (directoryOf bs).length).zip (directoryOf bs)

/-- DEDUCED: assumption 25. -/
def checkFormat (bs : List Byte) : Option Finding :=
  let ds := directoryOf bs
  let n := ds.length
  let start := 64 + 32 * n
  earliest ([need (headerOk bs && decide (leAt bs 48 8 = domainDigest bs)) (Finding.header 0x01)]
    ++ (numberedDir bs).map (fun e => need (e.2.ok start bs.length (leAt bs 37 1)) (Finding.at 0x01 e.1 0 e.2))
    ++ [need (ordered ds && apart ds && decide ((ds.map (fun d => d.type)).getLast? = some 0x7FFF)
          && oneEach.all (fun t => decide ((ds.filter (fun d => decide (d.type = t))).length = 1))
          && (List.range (leAt bs 37 1)).all (fun v => ds.any (fun d => decide (d.type = 2 ∧ d.variant = v)))
          && ds.all (fun d => decide (d.type ≠ 0x7FFF) || decide (d.offset + d.length = bs.length))) (Finding.header 0x01)]
    ++ (numberedDir bs).map (fun e => need (sectionOk bs e.2) (Finding.at 0x01 e.1 0 e.2)))

/-! ### Commands and descriptors of an image -/

/-- A command as it stands in a section of the image. -/
structure Placed where
  sect : Nat
  dir : DirEntry
  item : Nat
  n : Nat
deriving DecidableEq, Repr

/-- Bits [lo + w - 1 : lo] of the command. -/
def Placed.bits (p : Placed) (lo w : Nat) : Nat := p.n / 2 ^ lo % 2 ^ w
def Placed.launch (p : Placed) : Nat := p.bits 0 32
def Placed.deadline (p : Placed) : Nat := p.bits 32 32
def Placed.engine (p : Placed) : Nat := p.bits 64 4
def Placed.opcode (p : Placed) : Nat := p.bits 68 8
def Placed.stats (p : Placed) : Bool := decide (p.bits 79 1 = 1)
def Placed.unit (p : Placed) : Nat := p.bits 88 3
def Placed.hslot (p : Placed) : Nat := p.bits 92 4
/-- Bits of the arguments. -/
def Placed.arg (p : Placed) (lo w : Nat) : Nat := p.bits (128 + lo) w
def Placed.tile (p : Placed) : Nat := p.dir.unit
def Placed.variant (p : Placed) : Nat := p.dir.variant
def Placed.is (p : Placed) (engine opcode : Nat) : Bool := decide (p.engine = engine ∧ p.opcode = opcode)
def Placed.finding (p : Placed) (code : Nat) : Finding := Finding.at code p.sect p.item p.dir

/-- Every command of an image, in directory order. -/
def commandsOf (bs : List Byte) : List Placed :=
  (numberedDir bs).flatMap (fun e =>
    if e.2.type = 3 then
      let cs := entriesOf 32 (e.2.body bs)
      (List.range cs.length).map (fun k => ⟨e.1, e.2, k, leNat ((cs[k]?).getD [])⟩)
    else [])

def Image.desc (i : Image) (tile d : Nat) : Desc :=
  (((i.descs.find? (fun x => decide (x.1 = tile))).map (fun x => x.2)).bind (fun l => l[d]?)).getD Desc.blank

/-- The descriptors a command reads and those it writes. -/
structure Views where
  srcs : List Desc
  dsts : List Desc
deriving DecidableEq, Repr

def Placed.d (p : Placed) (i : Image) (lo : Nat) : Desc := i.desc p.tile (p.arg lo 10)

def vectorSources (op : Nat) : Nat :=
  if op = 0x30 then 0
  else if op = 0x04 then 3
  else if op = 0x0B then 3
  else if decide (op ∈ [0x01, 0x02, 0x03, 0x05, 0x06, 0x09, 0x0A, 0x10]) then 2
  else 1

def Placed.views (p : Placed) (i : Image) : Views :=
  let d := p.d i
  match p.engine, p.opcode with
  | 0, 0x01 => ⟨[d 0], [d 10]⟩
  | 0, 0x02 => ⟨[], [d 10]⟩
  | 0, 0x03 => ⟨[d 0], [d 10]⟩
  | 0, 0x04 => ⟨[d 0], []⟩
  | 0, 0x05 => ⟨[], [d 0]⟩
  | 0, 0x06 => ⟨[d 0], []⟩
  | 1, 0x01 =>
    let init := p.arg 91 2
    ⟨[d 0, d 10] ++ (if init = 1 ∨ init = 2 then [d 20] else []), if p.arg 93 1 = 1 then [] else [d 30]⟩
  | 2, op =>
    if op = 0 then ⟨[], []⟩
    else ⟨([d 10, d 20, d 30] : List Desc).take (vectorSources op), [d 0]⟩
  | 3, 0x01 => ⟨[d 0], [d 10]⟩
  | 3, 0x02 => ⟨[d 0], [d 10]⟩
  | 4, 0x02 => ⟨[], if p.arg 4 1 = 1 then [d 5] else []⟩
  | _, _ => ⟨[], []⟩

/-- The bytes a command reads: a COPY, RWRITE or other transfer the elements of its view, every other command what the view
carries with them. -/
def Placed.reads (p : Placed) (i : Image) : List (Nat × Nat) :=
  (p.views i).srcs.flatMap (fun d => if p.engine = 0 ∧ p.opcode ≠ 6 then d.runs else d.sourceRuns)

/-- The bytes a command may write: a conversion its destination with all that its attribute word asks for. -/
def Placed.writes (p : Placed) (i : Image) : List (Nat × Nat) :=
  (p.views i).dsts.flatMap (fun d => if p.engine = 0 ∨ p.engine = 4 then d.runs else d.destRuns (Attr.ofWord d.attr).cap)

def runsMeet (a b : List (Nat × Nat)) : Bool := a.any (fun x => b.any (fun y => meets x.1 x.2 y.1 y.2))

/-- The command that a placed command spells (R138). -/
def Placed.command (p : Placed) : Option Instr :=
  decodeCommand (Fin.ofNat 512 p.tile) (BitVec.ofNat 32 p.item) (BitVec.ofNat 256 p.n)

/-! ### 0x05 ENCODING -/

/-- R66 without its key rule; `sr` is allowed to an Update Engine alone. -/
def attrOk (w : Word) (update : Bool) : Bool :=
  let a := Attr.ofWord w
  let f := a.fmt
  decide (f < 8) && decide (a.mode ≠ 3) && !bitOf w 15
    && (decide (a.mode ≠ 2) || decide (f ≤ 2)) && (decide (a.mode ≠ 1) || decide (f ≤ 2 ∨ f = 7))
    && (decide (a.shift = 0) || (decide (a.mode = 0) && decide (f ≤ 2 ∨ f = 7)))
    && (!a.esc || (decide (f ≤ 1) && decide (1 ≤ a.cap))) && (a.esc || decide (a.cap = 0))
    && (!a.inf || decide (f = 2 ∨ f = 3)) && (!a.sr || (update && !a.rtz))

/-- R56, R66, R146, R147, R341: a descriptor whatever uses it. DEDUCED: assumption 25. -/
def descOk (d : Desc) : Bool :=
  let a := Attr.ofWord d.attr
  decide (d.f < 8) && attrOk d.attr false && (!d.listed || a.esc)
    && (decide (d.f ≠ 0) || decide (d.stride.toNat % 2 = 0 ∧ d.col0.toNat % 2 = 0 ∧ d.cols.toNat % 2 = 0))
    && (!d.scaled || decide (d.col0.toNat % 32 = 0)) && (!decide (d.f ∈ [0, 1, 2, 7]) || decide (d.scale.toNat ≠ 0))

/-- R146: a conversion target carries its own format. -/
def targetOk (d : Desc) : Bool := attrOk d.attr false && decide ((Attr.ofWord d.attr).fmt = d.f)

/-- R95: permitted operand pairs. -/
def operandPair (a w : Nat) : Bool :=
  decide (a < 7 ∧ w < 7) && (decide (a = w) || (decide (a = 1 ∨ a = 2) && decide (w = 1 ∨ w = 2)))

def packN (f : Nat) : Nat :=
  match f with
  | 0 => 64
  | 1 => 32
  | 2 => 32
  | 3 => 16
  | 4 => 10
  | 5 => 5
  | _ => 2

/-- M_max, Table 3.6. -/
def mMax (f : Nat) : Nat := if f = 0 then 128 else if f ≤ 2 then 256 else 512

def Desc.covers (d : Desc) (rows cols : Nat) : Bool := decide (rows ≤ d.rows.toNat ∧ cols ≤ d.cols.toNat)

/-- R124: the declared escapes of an operand are no more than the cap of its list. -/
def escapesOk (d : Desc) (declared : Nat) : Bool := !d.listed || decide (declared ≤ (Attr.ofWord d.attr).cap)

/-- R95, R105, R114, R120, R124, and a drain destination in mode 0. The out view of a holding command, which writes nothing, is
not looked at (R107). DEDUCED: assumption 85. -/
def mmulOk (p : Placed) (i : Image) : Bool :=
  let a := p.d i 0
  let w := p.d i 10
  let ini := p.d i 20
  let out := p.d i 30
  let m := p.arg 40 10
  let n := p.arg 50 7
  let k := p.arg 57 32
  let tr := decide (p.arg 90 1 = 1)
  let im := p.arg 91 2
  let hold := decide (p.arg 93 1 = 1)
  operandPair a.f w.f && (!tr || (decide (a.f ≠ 0) && !w.scaled)) && (!a.scaled || decide (a.col0.toNat % 32 = 0))
    && (!w.scaled || decide (w.col0.toNat % 32 = 0)) && decide (m ≤ mMax a.f ∧ n ≤ packN a.f)
    && decide (p.arg 94 9 ≤ 256 ∧ p.arg 103 9 ≤ 256)
    && escapesOk a (p.arg 94 9) && escapesOk w (p.arg 103 9)
    && a.covers m k && (if tr then w.covers k n else w.covers n k)
    && (decide (im ≠ 1) || decide (ini.f = accFmt a.f ∧ ini.rows.toNat = m ∧ ini.cols.toNat = n))
    && (decide (im ≠ 2) || decide (ini.f = accFmt a.f ∧ ini.rows.toNat = 1 ∧ ini.cols.toNat = n))
    && (hold || (decide (out.rows.toNat = m ∧ out.cols.toNat = n) && targetOk out && decide ((Attr.ofWord out.attr).mode = 0)))

/-- A whole shard, R158. -/
def Desc.whole (d : Desc) : Bool := decide (d.row0 = 0 ∧ d.col0 = 0 ∧ d.cols = d.klen)

/-- R162 and R164. The destination of RSUM and RMAX holds one column. DESIGN CHOICE: assumption 81. -/
def vectorOk (p : Placed) (i : Image) : Bool :=
  let op := p.opcode
  let dst := p.d i 0
  let a := p.d i 10
  let b := p.d i 20
  let c := p.d i 30
  let n := vectorSources op
  let gen := decide (op ∈ [0x30, 0x31, 0x38])
  let red := decide (op = 0x20 ∨ op = 0x21)
  let srcFmt := fun (d : Desc) => decide (d.f ∈ [3, 4, 5, 6, 7])
  let same := fun (d : Desc) => decide (d.rows = dst.rows ∧ d.cols = dst.cols)
  targetOk dst && decide ((Attr.ofWord dst.attr).mode = 0)
    && (decide (n < 1) || srcFmt a) && (gen || decide (n < 2) || srcFmt b) && (gen || decide (n < 3) || srcFmt c)
    && (if red then decide (dst.rows = a.rows ∧ dst.cols.toNat = 1)
        else
          (decide (n < 1) || same a) && (gen || decide (n < 2) || decide (p.arg 40 1 = 1) || same b)
            && (gen || decide (n < 3) || decide (p.arg 41 1 = 1) || same c))

/-- R134: runs of bytes lie in the memory of one tile. -/
def ownTile (t : Nat) (runs : List (Nat × Nat)) : Bool :=
  runs.all (fun r => decide (r.2 = 0) || (decide (tileMemBase + t * 0x80000 ≤ r.1)
    && decide (r.1 + r.2 ≤ tileMemBase + (t + 1) * 0x80000)))

/-- R185, and the places that Table 4.3 gives the views of ACC. -/
def accOk (p : Placed) (i : Image) : Bool :=
  let s := p.d i 0
  let d := p.d i 10
  let op := p.arg 20 4
  let w := if op = 5 then 8 else 4
  decide (op ≤ 5) && ownTile p.tile s.runs && d.runs.all (fun r => decide (r.2 = 0) || decide (sharedBase ≤ r.1 ∧ r.1 + r.2 ≤ sharedEnd))
    && (if op ≤ 3 then decide (s.f = 5 ∧ d.f = 5)
        else ([s, d] : List Desc).all (fun x =>
          decide (x.f = 7 ∧ x.cols.toNat % w = 0 ∧ x.col0.toNat % w = 0 ∧ x.base.toNat % w = 0)))

/-- R340, Table 9.1, and the last row of Table 9.8a. -/
def raccOk (p : Placed) (i : Image) : Bool :=
  let s := p.d i 0
  let accepted := match i.staging.slots[p.arg 24 16]? with
    | none => true
    | some e => decide (e.efmts / 2 ^ accFormat s % 2 = 1)
  (if s.scaled then decide (s.f = 1 ∨ s.f = 2) else decide (s.f = 5 ∨ s.f = 3)) && !s.listed && decide (s.count % 32 = 0)
    && (!s.scaled || decide (s.count = 0) || decide (p.arg 40 32 % 256 = s.block 0 0 % 256))
    && (decide (p.arg 10 14 ≠ i.rank) || accepted)

/-- R87: a rotation takes whole segments of 256 along its axis, the flattened tensor or, for purpose 3, a row. -/
def rotOk (p : Placed) (i : Image) : Bool :=
  let a := p.d i 10
  let fixed := i.keys.any (fun e => decide (e.key = p.arg 20 16 ∧ e.purpose = 3))
  decide (a.cols.toNat % 256 = 0) && (List.range a.rows.toNat).all (fun r =>
    decide ((p.arg 64 40 + if fixed then a.col0.toNat else a.index r 0) % 256 = 0))

/-- The view whose element indices a generator command draws with: dst for DRAW, a for MASK and ROT (R167). -/
def Placed.indexView (p : Placed) (i : Image) : Desc := if p.opcode = 0x30 then p.d i 0 else p.d i 10

/-- The largest element index of a view. -/
def Desc.lastIndex (d : Desc) : Nat := d.index (d.rows.toNat - 1) (d.cols.toNat - 1)

def Placed.generates (p : Placed) : Bool := decide (p.engine = 2 ∧ p.opcode ∈ [0x30, 0x31, 0x38])

/-- Views that the command converts into: of an array, the Vector Engine or the convert section (R146). -/
def Placed.targets (p : Placed) (i : Image) : List Desc := if 1 ≤ p.engine ∧ p.engine ≤ 3 then (p.views i).dsts else []

/-- R82: the index range of a generator command stays below 2^40; R76: a shard that is converted has fewer than 2^32
elements. -/
def indexOk (p : Placed) (i : Image) : Bool :=
  (!p.generates || decide (p.arg 64 40 + (p.indexView i).lastIndex < 2 ^ 40))
    && (p.targets i).all (fun d => decide (d.count < 2 ^ 32))

/-- One command against R138, R134 and the rules of its operation. -/
def commandOk (p : Placed) (i : Image) : Bool :=
  let v := p.views i
  decide (p.engine = p.dir.engine) && p.command.isSome && decide (p.launch ≤ p.deadline)
    && (if p.engine = 0 then decide (p.unit < 4) else decide (p.engine = 1) || decide (p.unit = 0))
    && (v.srcs ++ v.dsts).all descOk && (decide (p.engine = 0) || ownTile p.tile (p.reads i ++ p.writes i)) && indexOk p i
    && (if p.is 1 1 then mmulOk p i
        else if p.engine = 2 ∧ p.opcode ≠ 0 then
          vectorOk p i && (decide (p.opcode ≠ 0x38) || rotOk p i)
        else if p.is 3 1 then
          targetOk (p.d i 10) && (p.d i 10).whole && decide ((p.d i 0).rows = (p.d i 10).rows ∧ (p.d i 0).cols = (p.d i 10).cols)
        else if p.is 3 2 then
          decide ((p.d i 0).f ∈ [0, 1, 2, 7]) && decide ((p.d i 10).f ∈ [3, 5, 6]) && targetOk (p.d i 10)
            && decide ((Attr.ofWord (p.d i 10).attr).mode = 0 ∧ (Attr.ofWord (p.d i 10).attr).shift = 0)
        else if p.is 0 3 then accOk p i
        else if p.is 0 6 then raccOk p i
        else if p.is 4 3 then decide (1 ≤ p.arg 10 11 ∧ p.arg 10 11 ≤ 1024)
        else true)

/-- R282 and R287: a region of the layout. -/
def Hw.regionOk (h : Hw) (r : Region) : Bool :=
  decide (r.number ≠ 0) && decide (r.kind ≤ 3) && decide (r.length ≠ 0 ∧ r.length % 128 = 0)
    && (match r.space with
      | 0 => decide (spaceOf r.base = .tileMem ∧ r.base + r.length ≤ tileMemBase + (tileOf r.base + 1) * 0x80000)
      | 1 => decide (spaceOf r.base = .shared ∧ r.base + r.length ≤ sharedEnd) && (segmentsIn r.base r.length).all h.scratchpad
      | 2 => decide (spaceOf r.base = .tiered ∧ r.base + r.length ≤ tieredEnd)
      | _ => false)

/-- No two regions meet, no number repeats. -/
def disjoint : List Region → Bool
  | [] => true
  | r :: rs => rs.all (fun x => !meets r.base r.length x.base x.length) && disjoint rs

def preloadOk (i : Image) (p : Preload) : Bool :=
  match i.region? p.region with
  | none => false
  | some r => decide (r.kind ≤ 1) && decide (p.offset + p.bytes.length ≤ r.length)

/-- R312: an entry of the Inflection Table; R311: a profile. -/
def entryOk (e : Word) : Bool :=
  decide (entryFloor e ≤ entryInit e ∧ entryInit e ≤ entryCeil e ∧ entryCeil e ≤ 4)
    && (!entryPinned e || decide (entryFloor e = entryInit e ∧ entryCeil e = entryInit e))

def profileOk (ps : List Word) (p : Nat) : Bool :=
  decide (profField ps p 32 1 ≠ 0 ∧ profField ps p 34 2 ≠ 0 ∧ profField ps p 36 2 ≠ 0 ∧ profField ps p 38 2 ≠ 0)
    && decide (signed 8 (profField ps p 40 1) ≤ signed 8 (profField ps p 41 1))

/-- R345, R346, R356: a slot entry and its area. DEDUCED: assumption 25. -/
def slotOk (i : Image) (e : SlotEntry) : Bool :=
  let words := fun (n : Nat) => (n + 127) / 128 * 128
  let size := words (128 * e.blocks) + words (8 * e.blocks) + words (136 * e.pool) + (if e.sparse then 16 * e.contributors.length else 0)
  decide (e.base % 128 = 0 ∧ 1 ≤ e.blocks) && decide (spaceOf e.base = .shared) && decide (sliceOf (e.base + size - 1) = sliceOf e.base)
    && i.regions.any (fun r => decide (r.kind = 1 ∧ r.base ≤ e.base ∧ e.base + size ≤ r.base + r.length))
    && decide (1 ≤ e.contributors.length ∧ e.contributors.length ≤ 16384) && e.contributors.all (fun r => decide (r < i.domain))
    && (List.range (e.contributors.length - 1)).all (fun k => decide ((e.contributors[k]?).getD 0 < (e.contributors[k + 1]?).getD 0))
    && (if e.sparse then !e.rot && decide (e.valid = 0) else decide (e.valid ≤ 32 * e.blocks))

/-- Masters, momentum and statistics of an update entry (R360, Table 9.11). -/
def UpdEntry.state (u : UpdEntry) : List (Nat × Nat) :=
  let n := 4 * u.rows * u.cols
  let stats := if u.kind = 0 then 4 * u.rows + 4 * u.cols * ceilDiv u.rows u.group else if u.kind = 1 then n else 16 * u.rows
  [(u.baseW, n)] ++ (if u.mom then [(u.baseM, n)] else []) ++ [(u.baseS, stats)]

/-- Blocks of the shard of an entry. -/
def UpdEntry.blocks (u : UpdEntry) : Nat := u.rows * ceilDiv u.cols 32

/-- The copies an entry names. -/
def UpdEntry.copies (u : UpdEntry) (i : Image) : List CopyEntry :=
  ([u.copy0, u.copy1].filter (fun c => decide (c ≠ 0xFFFF))).filterMap (fun c => i.staging.copies[c]?)

/-- What the writing of a copy may touch (R362). -/
def CopyEntry.extent (c : CopyEntry) (u : UpdEntry) : List (Nat × Nat) := (c.view u).destRuns (Attr.ofWord c.attr).cap

/-- The slots an entry names. -/
def UpdEntry.slots (u : UpdEntry) (i : Image) : List SlotEntry := (i.staging.slots.drop u.slot0).take u.nslots

/-- Elements that carry data in a dense slot. -/
def SlotEntry.elements (e : SlotEntry) : Nat := if e.valid = 0 then 32 * e.blocks else e.valid

/-- Table 9.12 and R370: what the named slots hold. -/
def updSlotsOk (i : Image) (u : UpdEntry) : Bool :=
  let ss := u.slots i
  let n := u.rows * u.cols
  if u.kind = 2 then decide (u.nslots = 1) && ss.all (fun e => e.sparse && decide (e.blocks = n / 32 + 1 ∧ e.rot = u.rot))
  else ss.all (fun e => !e.sparse && decide (e.rot = u.rot)) && ss.dropLast.all (fun e => decide (e.elements = 32 * e.blocks))
    && decide ((ss.map SlotEntry.elements).foldl (· + ·) 0 = if u.rot then ceilDiv n 256 * 256 else n)

/-- Bytes of the tiered range that lie in pages of stack `d` (R25). -/
def Hw.inStack (h : Hw) (d : Nat) (r : Nat × Nat) : Bool :=
  decide (r.2 = 0) || (decide (spaceOf r.1 = .tiered ∧ r.1 + r.2 ≤ tieredEnd)
    && (Region.pages ⟨0, 0, 2, r.1, r.2⟩).all (fun n => decide (h.controllerOf (n * 0x200000) = d)))

/-- Bytes of shared-memory scratchpad segments. -/
def Hw.inScratchpad (h : Hw) (r : Nat × Nat) : Bool :=
  decide (r.2 = 0) || (decide (spaceOf r.1 = .shared ∧ r.1 + r.2 ≤ sharedEnd) && (segmentsIn r.1 r.2).all h.scratchpad)

/-- R369, R362, Table 9.10: a copy of an entry, and where it lies. -/
def Hw.copyOk (h : Hw) (u : UpdEntry) (c : CopyEntry) : Bool :=
  let a := Attr.ofWord c.attr
  decide (u.rows * u.cols ≤ 524288) && attrOk c.attr true && (!a.esc || decide (u.blocks ≤ a.cap))
    && (!decide (a.fmt ∈ [0, 1, 2, 7]) || decide (c.scale ≠ 0)) && (a.esc || decide (c.list = 0))
    && (c.extent u).all (fun r => h.inStack u.engine r || h.inScratchpad r)

/-- R359, R360, Table 9.12: an update entry within its defined sets. DEDUCED: assumption 25. -/
def Hw.updOk (h : Hw) (i : Image) (u : UpdEntry) : Bool :=
  decide (u.engine < 12 ∧ u.kind < 3 ∧ u.cols % 32 = 0 ∧ u.cols ≤ 65536 ∧ 1 ≤ u.nslots ∧ u.nslots ≤ 4096)
    && decide (u.slot0 + u.nslots ≤ i.staging.slots.length) && decide (u.layer < i.layers)
    && (if u.kind = 0 then decide (1 ≤ u.group ∧ u.group ≤ u.rows) else decide (u.group = 0))
    && [u.copy0, u.copy1].all (fun c => decide (c = 0xFFFF ∨ c < i.staging.copies.length))
    && (u.state).all (h.inStack u.engine) && (u.copies i).all (h.copyOk u)
    && updSlotsOk i u && (!u.rot || decide (u.row0 * u.cols % 256 = 0))

/-- Table 9.9: λ_f lies in an ingest region, or is none. DEDUCED: assumption 25. -/
def paramOk (i : Image) (p : LayerParam) : Bool := (decide (p.lrRegion = 0) || i.ingestRegions.contains p.lrRegion) && decide (p.lrOff % 4 = 0)

/-- Table 9.13. DEDUCED: assumption 25. -/
def handOk (i : Image) (e : HandEntry) : Bool := decide (e.rank < i.domain ∧ e.length % 128 = 0)

/-- R282: a stream lies in its region, which is of kind 3. DEDUCED: assumption 25. -/
def streamOk (i : Image) (k : Nat) (s : StreamSec) : Bool :=
  s.cmds.isEmpty || (match i.region? s.region with
    | none => false
    | some r => decide (r.kind = 3 ∧ i.streamOffset k + 32 * s.cmds.length ≤ r.length))

/-- R287: an ingest region is of kind 2 outside tile memory, and so is each of its copies. -/
def Hw.ingestOk (h : Hw) (i : Image) (n : Nat) : Bool :=
  match i.region? n with
  | none => false
  | some r => decide (r.kind = 2 ∧ r.space ≠ 0)
      && (List.range i.ingestK).all (fun j => h.regionOk { r with base := r.base + j * i.ingestStride })

/-- The capacities under which conversions of tiles and copies of the Update Engine write the list at an address. -/
def Image.writtenCaps (i : Image) (cs : List Placed) (list : Nat) : List Nat :=
  let caps := ((cs.flatMap (fun p => p.targets i)).map (fun d => (d.list.toNat, d.attr)))
    ++ i.staging.copies.map (fun c => (c.list, c.attr))
  (caps.filter (fun c => decide (c.1 = list) && (Attr.ofWord c.2).esc)).map (fun c => (Attr.ofWord c.2).cap)

/-- Where a COPY takes the byte at an address from, if it writes that byte. -/
def Placed.movedFrom (i : Image) (a : Nat) (p : Placed) : Option Nat :=
  if p.is 0 1 then
    (((p.d i 0).runs.zip (p.d i 10).runs).find? (fun r => decide (r.2.1 ≤ a ∧ a < r.2.1 + r.2.2))).map (fun r => r.1.1 + (a - r.2.1))
  else none

/-- The largest capacity under which the list at an address is written, there or where COPY commands bring it from (R146, R148):
as many moves as there are commands. -/
def Image.listCap (i : Image) (cs : List Placed) : Nat → Nat → Nat
  | 0, list => (i.writtenCaps cs list).foldl Nat.max 0
  | moves + 1, list =>
    let here := (i.writtenCaps cs list).foldl Nat.max 0
    ((cs.filterMap (fun p => p.movedFrom i list)).map (i.listCap cs moves)).foldl Nat.max here

/-- R146: a listed view has at least the capacity of the writer of its list. -/
def capOk (i : Image) (cs : List Placed) (d : Desc) : Bool :=
  !d.listed || decide (i.listCap cs (cs.filter (fun p => p.is 0 1)).length d.list.toNat ≤ (Attr.ofWord d.attr).cap)

/-- The directory index of the one section of a type. -/
def sectionIndex (bs : List Byte) (type : Nat) : Nat := ((directoryOf bs).findIdx? (fun d => decide (d.type = type))).getD 0xFFFF

def inSection (bs : List Byte) (code type item : Nat) : Finding := ⟨code, sectionIndex bs type, 0xFF, 0xFF, 0, item, 0, 0⟩

/-- The sections of a type with their places in the directory. -/
def placesOf (bs : List Byte) (type : Nat) : List (Nat × DirEntry) := (numberedDir bs).filter (fun e => decide (e.2.type = type))

/-- The items of a list that fail, numbered. -/
def eachOk {α : Type} (l : List α) (ok : α → Bool) (f : Nat → Finding) : List (Option Finding) :=
  ((List.range l.length).zip l).map (fun e => need (ok e.2) (f e.1))

/-- The items of the sections of a type that fail: each section's list, in directory order. -/
def eachSection {α : Type} (bs : List Byte) (code type : Nat) (ls : List (List α)) (ok : α → Bool) : List (Option Finding) :=
  ((placesOf bs type).zip ls).flatMap (fun x => eachOk x.2 ok (fun k => Finding.at code x.1.1 k x.1.2))

/-- DEDUCED: assumption 25. -/
def Hw.checkEncoding (h : Hw) (bs : List Byte) (i : Image) : Option Finding :=
  let at' := inSection bs 0x05
  let cs := commandsOf bs
  earliest (cs.map (fun p => need (commandOk p i) (p.finding 0x05))
    ++ ((placesOf bs 0x0003).zip ((List.range i.streams.length).zip i.streams)).map (fun x =>
      need (streamOk i x.2.1 x.2.2) (Finding.at 0x05 x.1.1 0 x.1.2))
    ++ eachSection bs 0x05 0x0004 (i.descs.map (fun d => d.2)) (fun d => descOk d && capOk i cs d)
    ++ eachSection bs 0x05 0x0002 i.plans (fun x => decide (x ≤ 4))
    ++ eachOk i.regions h.regionOk (at' 0x0007)
    ++ [need (disjoint i.extents && decide ((i.regions.map (fun r => r.number)).eraseDups.length = i.regions.length)) (at' 0x0007 0)]
    ++ eachOk i.entries entryOk (at' 0x000A) ++ eachOk (List.range 16) (profileOk i.profiles) (at' 0x000A)
    ++ [need (decide (i.ingestStride % 0x200000 = 0)) (at' 0x000C 0)] ++ eachOk i.ingestRegions (h.ingestOk i) (at' 0x000C)
    ++ eachOk i.staging.slots (slotOk i) (at' 0x000F) ++ eachOk i.staging.updates (h.updOk i) (at' 0x000F)
    ++ eachOk i.staging.copies (fun c => attrOk c.attr true) (at' 0x000F) ++ eachOk i.staging.params (paramOk i) (at' 0x000F)
    ++ [need (decide (i.staging.params.length = 0 ∨ i.staging.params.length = i.layers)) (at' 0x000F 0)]
    ++ eachOk i.staging.handovers (handOk i) (at' 0x000F) ++ eachOk i.preloads (preloadOk i) (at' 0x0010))

/-! ### 0x06 DISABLED_ARRAY: R5 -/

def checkArrays (bs : List Byte) (map : BitVec 4096) : Option Finding :=
  earliest ((commandsOf bs).map (fun p => need (!p.is 1 1 || map.getLsbD (8 * p.tile + p.unit)) (p.finding 0x06)))

/-! ### Table 7.14 -/

/-- T_FS(L), Table 7.14. -/
def fullStopTime (levels : Nat) : Nat := 2 * levels * 144 + (2 * levels - 1) * 200 + levels * 272 + 120
/-- T_path(L), R299. -/
def pathTime (levels : Nat) : Nat := 2 * levels * 144 + (2 * levels - 1) * 200

/-! ### 0x07 SEQUENCE -/

/-- The commands of one stream before a command. -/
def before (cs : List Placed) (p : Placed) : List Placed := cs.filter (fun q => decide (q.sect = p.sect ∧ q.item < p.item))

/-- R107: a keep directly follows a holding command on its array, with the same M, N_c and formats. -/
def keepOk (cs : List Placed) (i : Image) (p : Placed) : Bool :=
  if p.is 1 1 ∧ p.arg 91 2 = 3 then
    match ((before cs p).filter (fun q => q.is 1 1 && decide (q.unit = p.unit))).getLast? with
    | none => false
    | some q => decide (q.arg 93 1 = 1 ∧ q.arg 40 10 = p.arg 40 10 ∧ q.arg 50 7 = p.arg 50 7)
        && decide ((q.d i 0).f = (p.d i 0).f ∧ (q.d i 10).f = (p.d i 10).f)
  else true

/-- Statistics commands of the same tile and variant that name a slot, up to a launch offset. -/
def slotUses (cs : List Placed) (p : Placed) (slot upTo : Nat) : List Placed :=
  cs.filter (fun q => decide (q.engine = 4 ∧ q.tile = p.tile ∧ q.variant = p.variant ∧ (q.opcode = 1 ∨ q.opcode = 2)
    ∧ q.arg 0 4 = slot ∧ q.launch ≤ upTo))

/-- R169, R171: OPEN of a closed slot, CLOSE of an open one, reports to an open slot that no CLOSE ends too early. -/
def histOk (cs : List Placed) (p : Placed) : Bool :=
  let openAt := fun (l : List Placed) => ((l.getLast?).map (fun q => decide (q.opcode = 1))).getD false
  if p.is 4 1 then !openAt ((slotUses cs p (p.arg 0 4) p.launch).filter (fun q => decide (q.item < p.item)))
  else if p.is 4 2 then openAt ((slotUses cs p (p.arg 0 4) p.launch).filter (fun q => decide (q.item < p.item)))
  else if p.stats then
    openAt (slotUses cs p p.hslot p.launch)
      && (slotUses cs p p.hslot (2 ^ 32)).all (fun q => decide (q.opcode = 1) || decide (q.launch ≤ p.launch) || decide (p.deadline < q.launch))
  else true

/-- R171: the destination of a histogram is an INT8 view of 264 elements. -/
def histView (i : Image) (p : Placed) : Bool :=
  !p.is 4 2 || decide (p.arg 4 1 = 0) || decide ((p.d i 5).f = 7 ∧ (p.d i 5).count = 264)

/-- R187: overlapping ACC commands of one step. -/
def accOrder (cs : List Placed) (i : Image) (p : Placed) : Bool :=
  if p.is 0 3 then
    cs.all (fun q => !(q.is 0 3 && decide (q.variant = p.variant ∧ q.launch ≤ p.launch ∧ (q.sect ≠ p.sect ∨ q.item ≠ p.item))
      && (decide (q.launch < p.launch) || decide (q.sect < p.sect) || decide (q.item < p.item))
      && runsMeet (q.d i 10).runs (p.d i 10).runs) || decide (q.deadline + 8 ≤ p.launch))
  else true

/-- Every copy of the ingest regions. -/
def Image.ingest (i : Image) : List (Nat × Nat) :=
  (i.regions.filter (fun r => i.ingestRegions.contains r.number)).flatMap (fun r =>
    (List.range i.ingestK).map (fun j => (r.base + j * i.ingestStride, r.length)))

/-- R373: what an update-phase command may not do. -/
def updatePhaseOk (i : Image) (p : Placed) : Bool :=
  if i.updLaunch ≤ p.launch then
    !p.is 0 6 && i.staging.updates.all (fun u => (u.copies i).all (fun c =>
      !runsMeet (p.reads i) (c.extent u) || decide (u.deadline + 8 ≤ p.launch)))
  else true

/-- R184: no command of the update phase writes the masters, momentum or statistics of an update entry. -/
def mastersOk (i : Image) (p : Placed) : Bool :=
  if i.updLaunch ≤ p.launch then i.staging.updates.all (fun u => !runsMeet (p.writes i) u.state) else true

/-- R184: what else may write in the update phase keeps off an entry's masters, momentum and statistics: a scheduled exchange whose
interval reaches it, and a peer's message that may arrive in it (R283). -/
def othersOk (i : Image) (u : UpdEntry) : Bool :=
  i.migrations.all (fun m => m.2.all (fun e => decide (e.launch + Config.exchangeTicks ≤ i.updLaunch)
    || [e.p, e.q].all (fun n => !runsMeet u.state [(n * 0x200000, 0x200000)])))
  && i.inbound.all (fun b => decide (128 * (b.2.2 + 1) + pathTime i.levels ≤ i.updLaunch)
    || ((i.region? b.2.1).map (fun r => (r.base, r.length))).all (fun r => !runsMeet u.state [r]))

/-- No command writes an ingest region, and none but the Access Engine's reads one (Table 7.11). -/
def ingestKept (i : Image) (p : Placed) : Bool :=
  !runsMeet (p.writes i) i.ingest && (decide (p.engine = 0) || !runsMeet (p.reads i) i.ingest)

def checkSequence (bs : List Byte) (i : Image) : List (Option Finding) :=
  let cs := commandsOf bs
  let inOrder := fun (p : Placed) => match (before cs p).getLast? with
    | none => true
    | some q => decide (q.launch ≤ p.launch)
  cs.map (fun p => need (inOrder p && keepOk cs i p && histOk cs p && histView i p && accOrder cs i p
      && updatePhaseOk i p && mastersOk i p && ingestKept i p) (p.finding 0x07))
    ++ eachOk i.staging.updates (fun u => !runsMeet (u.state ++ (u.copies i).flatMap (fun c => c.extent u)) i.ingest && othersOk i u)
      (inSection bs 0x07 0x000F)

/-! ### 0x08 STEP_FRAME: R41, R232, R281, R314 -/

def calOrdered : List CalEntry → Bool
  | a :: b :: cs => decide (a.slot0 ≤ b.slot0) && calOrdered (b :: cs)
  | _ => true

def checkFrame (bs : List Byte) (i : Image) : Option Finding :=
  earliest ([need (decide (i.slot % 128 = 0 ∧ 2048 ≤ i.slot ∧ i.fsLaunch % 128 = 0 ∧ i.commit + 1 ≤ i.slot)
        && decide (i.fsLaunch + fullStopTime i.levels + 8 ≤ i.updLaunch) && decide (i.fsParts = 1 + ceilDiv i.layers 7))
      (inSection bs 0x08 0x0001 0)]
    ++ (commandsOf bs).map (fun p => need (decide (p.deadline < i.slot)
        && (decide (p.launch < i.updLaunch) || decide (p.deadline ≤ i.commit))) (p.finding 0x08))
    ++ eachOk i.staging.updates (fun u => decide (i.updLaunch ≤ u.launch ∧ u.deadline ≤ i.commit)) (inSection bs 0x08 0x000F)
    ++ ((placesOf bs 0x0005).zip i.calendars).map (fun x =>
      need (calOrdered x.2.2.2 && x.2.2.2.all (fun e => decide (1 ≤ e.count))) (Finding.at 0x08 x.1.1 0 x.1.2)))

/-! ### 0x09 STREAM_KEY: R85, R167, the key rule of R66 -/

def Image.keyFor (i : Image) (k : Nat) (purposes : List Nat) : Bool := i.keys.any (fun e => decide (e.key = k) && purposes.contains e.purpose)

def attrKeyOk (i : Image) (w : Word) : Bool :=
  let a := Attr.ofWord w
  if a.sr then i.keyFor a.key [1] else decide (a.key = 0)

def commandKeyOk (i : Image) (p : Placed) : Bool :=
  let key := p.arg 20 16
  (if p.is 2 0x30 then i.keyFor key [5]
   else if p.is 2 0x31 then i.keyFor key [4]
   else if p.is 2 0x38 then
     decide (p.arg 39 2 = 2 ∧ (p.d i 0).cols.toNat % 256 = 0 ∧ p.arg 64 40 % 256 = 0)
       && (if p.arg 36 1 = 1 then i.keyFor key [3] else i.keyFor key [2, 3])
   else true)
    && (p.views i).dsts.all (fun d => attrKeyOk i d.attr)

/-- Element counts per micro-step that a MASK leaves possible: with a base above 0, base = micro-step × E for a micro-step of the
step; with base 0 any. -/
def maskCounts (i : Image) (base : Nat) : Option (List Nat) :=
  if base = 0 then none
  else some (((List.range i.micro).filter (fun m => decide (m ≠ 0 ∧ base % m = 0))).map (fun m => base / m))

/-- R167: the base of a MASK is micro-step × E, for one E of the tensor that its key belongs to, which no view of the tensor
passes. DEDUCED: assumption 25. -/
def maskBaseOk (cs : List Placed) (i : Image) (p : Placed) : Bool :=
  let same := cs.filter (fun q => q.is 2 0x31 && decide (q.arg 20 16 = p.arg 20 16))
  let fits := fun (e : Nat) => same.all (fun q => decide (q.arg 64 40 % e = 0 ∧ q.arg 64 40 / e < i.micro ∧ (q.indexView i).lastIndex < e))
  !p.is 2 0x31 || (match maskCounts i (p.arg 64 40) with
    | none => true
    | some es => es.any fits)

/-- The rotation key of an entry's layer (Table 9.12). -/
def layerKeyOk (i : Image) (u : UpdEntry) : Bool :=
  match i.staging.params[u.layer]? with
  | none => false
  | some l => i.keyFor l.key [2]

def checkKeys (bs : List Byte) (i : Image) : Option Finding :=
  earliest (eachOk i.keys (fun e => decide (e.key ≠ 0 ∧ 1 ≤ e.purpose ∧ e.purpose ≤ 5)) (inSection bs 0x09 0x0009)
    ++ [need (decide ((i.keys.map (fun e => e.key)).eraseDups.length = i.keys.length)) (inSection bs 0x09 0x0009 0)]
    ++ (commandsOf bs).map (fun p => need (commandKeyOk i p && maskBaseOk (commandsOf bs) i p) (p.finding 0x09))
    ++ eachSection bs 0x09 0x0004 (i.descs.map (fun d => d.2)) (fun d => attrKeyOk i d.attr)
    ++ eachOk i.staging.updates (layerKeyOk i) (inSection bs 0x09 0x000F)
    ++ eachOk i.staging.copies (fun c => attrKeyOk i c.attr) (inSection bs 0x09 0x000F))

/-! ### 0x0A PLAN_VARIANT: R308 -/

def covers (plan reqs : List Nat) : Bool :=
  (List.range reqs.length).all (fun l => decide ((reqs[l]?).getD 0 ≤ (plan[l]?).getD 0))

def planOk (i : Image) (p : List Nat) : Bool :=
  decide (p.length = i.layers) && (List.range i.layers).all (fun l =>
    let e := (i.entries[l]?).getD 0
    !entryPinned e || decide ((p[l]?).getD 0 = entryInit e))

def checkPlans (bs : List Byte) (i : Image) : Option Finding :=
  earliest (((placesOf bs 0x0002).zip i.plans).map (fun x => need (planOk i x.2) (Finding.at 0x0A x.1.1 0 x.1.2))
    ++ [need (covers ((i.plans[0]?).getD []) (i.entries.map entryInit)) (inSection bs 0x0A 0x0002 0),
        need (i.entries.all entryPinned || i.plans.any (fun p => covers p (i.entries.map entryCeil))) (inSection bs 0x0A 0x0002 0)])

/-! ### 0x0B QUOTA: R193, R197, R407 -/

/-- Segments of shared memory that the extents claim. -/
def claimedSegments (rs : List Region) : List Nat :=
  ((rs.filter (fun r => decide (spaceOf r.base = .shared ∧ 0 < r.length))).flatMap (fun r => segmentsIn r.base r.length)).eraseDups

def claimedPages (rs : List Region) : List Nat := (rs.flatMap Region.pages).eraseDups

/-- Segments and pages of each tier that regions take, in the fields of a quota. -/
def Hw.takes (h : Hw) (rs : List Region) : Nat × Nat × Nat :=
  let ps := claimedPages rs
  ((claimedSegments rs).length, (ps.filter (fun n => !tierIsT2 (h.tierEntry n))).length,
   (ps.filter (fun n => tierIsT2 (h.tierEntry n))).length)

/-- DEDUCED: assumption 25. -/
def withinQuota (t : Nat × Nat × Nat) (q : Word) : Bool := decide (t.1 ≤ quotaT0 q ∧ t.2.1 ≤ quotaT1 q ∧ t.2.2 ≤ quotaT2 q)

/-- R407: segments held for the firmware, counted from segment 0 of slice 0, and its pages. -/
def Hw.firmwareMeets (h : Hw) (fw : Nat × Nat) (r : Region) : Bool :=
  (claimedSegments [r]).any (fun s => decide (s < h.fld sysBase Fld.SYS_FW_HOLD.segments))
    || r.pages.any (fun n => decide (fw.1 ≤ n ∧ n < fw.1 + fw.2))

/-- DEDUCED: assumption 25. -/
def Hw.checkQuota (h : Hw) (bs : List Byte) (i : Image) : Option Finding :=
  let q := h.quotaOf i.job
  let t := h.takes i.extents
  let short := fun (sect : Nat) (n : Nat × Nat × Nat) =>
    if quotaT0 q < n.1 then (inSection bs 0x0B sect 0).sized n.1 (quotaT0 q)
    else if quotaT1 q < n.2.1 then (inSection bs 0x0B sect 0).sized n.2.1 (quotaT1 q)
    else (inSection bs 0x0B sect 0).sized n.2.2 (quotaT2 q)
  earliest (eachOk i.extents (fun r => !h.firmwareMeets h.tier.firmware r) (inSection bs 0x0B 0x0007)
    ++ [need (withinQuota t q) (short 0x0007 t), need (withinQuota i.quotas q) (short 0x0008 i.quotas)]
    ++ eachSection bs 0x0B 0x000B (i.migrations.map (fun m => m.2)) (fun e => i.pages.contains e.p && i.pages.contains e.q))

/-! ### 0x0C BUFFER: R79, R155, R212, R345 -/

/-- The declared worst case of a list. -/
def Image.worst (i : Image) (list : Nat) : Nat := ((i.lists.find? (fun l => decide (l.1 = list))).map (fun l => l.2)).getD 0

def listFits (i : Image) (list : Nat) (attr : Word) : Bool := !(Attr.ofWord attr).esc || decide (i.worst list ≤ (Attr.ofWord attr).cap)

/-- Lists of a section's descriptors and of copies that hold fewer entries than their declared worst case (R79). -/
def listFinding (i : Image) (list : Nat) (attr : Word) (f : Finding) : Option Finding :=
  need (listFits i list attr) (f.sized (i.worst list) (Attr.ofWord attr).cap)

def Hw.checkBuffers (h : Hw) (bs : List Byte) (i : Image) : List (Option Finding) :=
  let homes := i.regions.filterMap h.homeTable
  let most := (homes.map (fun t => (homes.filter (fun x => decide (x = t))).length)).foldl Nat.max 0
  ((placesOf bs 0x0004).zip i.descs).flatMap (fun x => ((List.range x.2.2.length).zip x.2.2).map (fun y =>
      listFinding i y.2.list.toNat y.2.attr (Finding.at 0x0C x.1.1 y.1 x.1.2)))
    ++ (commandsOf bs).map (fun p => need (!(p.is 1 1 && ((p.d i 0).listed || (p.d i 10).listed)) || decide (384 ≤ p.launch))
      ((p.finding 0x0C).sized p.launch 384))
    ++ [need (decide (most ≤ 256)) ((inSection bs 0x0C 0x0007 0).sized most 256)]
    ++ ((List.range i.staging.slots.length).zip i.staging.slots).map (fun x =>
      need (decide (x.2.worst ≤ x.2.pool)) ((inSection bs 0x0C 0x000F x.1).sized x.2.worst x.2.pool))
    ++ ((List.range i.staging.copies.length).zip i.staging.copies).map (fun x =>
      listFinding i x.2.list x.2.attr (inSection bs 0x0C 0x000F x.1))

/-! ### 0x0D DEADLINE: R125, R371 -/

/-- D of R123 with X_max, and of the commands of R121. -/
def arrayDuration (f m n k wA wW : Nat) : Nat :=
  if m = 0 ∨ n = 0 then 1
  else if k = 0 then m + 7
  else
    let s := if f = 0 then ceilDiv m 2 else m
    (ceilDiv k (packKp f) - 1) * Nat.max s (packLoad f) + s + 70 + (wA + m * wW)

/-- B of R371: the bytes an entry reads and writes in its stack. -/
def UpdEntry.traffic (u : UpdEntry) (i : Image) : Nat :=
  let n := u.rows * u.cols
  8 * n + (if u.mom then 8 * n else 0)
    + (if u.kind = 1 then 8 * n else 8 * u.rows) + (if u.kind = 0 then 8 * u.cols * ceilDiv u.rows u.group else 0)
    + (if u.kind = 2 then 8 * u.rows else 0)
    + (((u.copies i).filter (fun c => decide (spaceOf c.elements = .tiered))).map (fun c =>
        ((c.extent u).map (fun r => r.2)).foldl (· + ·) 0)).foldl (· + ·) 0

/-- D_u of R371. DEDUCED: assumption 25. -/
def UpdEntry.duration (u : UpdEntry) (i : Image) : Nat :=
  let n := u.rows * u.cols
  Nat.max (ceilDiv n 64) (ceilDiv (u.traffic i) 2048) + 2 * (u.copies i).length * ceilDiv n 64
    + (if u.rot then ceilDiv n 32 else 0) + 160

/-- Entries of one engine placed by launch, those of one launch in list order (R359). -/
def insertUpd (x : Nat × UpdEntry) : List (Nat × UpdEntry) → List (Nat × UpdEntry)
  | [] => [x]
  | y :: ys => if x.2.launch ≤ y.2.launch then x :: y :: ys else y :: insertUpd x ys

/-- The modelled ends of entries that run one after another (R359): index, entry, end. -/
def updEnds (i : Image) : Nat → List (Nat × UpdEntry) → List (Nat × UpdEntry × Nat)
  | _, [] => []
  | t, (k, u) :: us =>
    let e := Nat.max u.launch t + u.duration i
    (k, u, e) :: updEnds i e us

/-- Table 9.12: an entry whose modelled start plus D_u is later than its deadline (0x0D). -/
def updTiming (bs : List Byte) (i : Image) : List (Option Finding) :=
  let us := (List.range i.staging.updates.length).zip i.staging.updates
  (List.range 12).flatMap (fun d =>
    (updEnds i 0 ((us.filter (fun x => decide (x.2.engine = d))).foldr insertUpd [])).map (fun x =>
      need (decide (x.2.2 ≤ x.2.1.deadline)) { inSection bs 0x0D 0x000F x.1 with unit := d, detail := x.2.2, limit := x.2.1.deadline }))

/-! ### 0x0E PORT_DOWN and 0x0F PORT_INTERVAL: R226, R233 -/

def Hw.portUp (h : Hw) (p : Nat) : Bool := decide (h.fld (portBase p) Fld.PORT_STATUS.state = 4)

def Hw.checkPorts (h : Hw) (bs : List Byte) (i : Image) : Option Finding :=
  earliest (((placesOf bs 0x0005).zip i.calendars).map (fun x =>
      need (x.2.2.2.isEmpty || h.portUp x.2.2.1) (Finding.at 0x0E x.1.1 0 x.1.2))
    ++ ((placesOf bs 0x0006).zip i.tallies).map (fun x => need (zeroBytes x.2.2.2 || h.portUp x.2.2.1) (Finding.at 0x0E x.1.1 0 x.1.2)))

/-- Class 1 flits that a command produces, R233. -/
def flitsOf (rank : Nat) (i : Image) (p : Placed) : Nat :=
  let d := p.d i 0
  if p.is 0 4 then ceilDiv ((d.runs.map (fun r => r.2)).foldl (· + ·) 0) 224
  else if p.is 0 5 then 1
  else if p.is 0 6 then
    if p.arg 10 14 = rank then 0 else ceilDiv (ceilDiv d.count 32) (accBlocksPerFlit (accFormat d))
  else 0

def calDisjoint : List CalEntry → Bool
  | a :: b :: cs => decide (a.slot0 + a.count ≤ b.slot0) && calDisjoint (b :: cs)
  | _ => true

/-- Slots claimed for a channel in a variant. -/
def claimed (i : Image) (variant tile chan : Nat) : Nat :=
  (((i.calendars.filter (fun c => decide (c.1 = variant))).flatMap (fun c => c.2.2)).filter (fun e =>
    !e.resp && !e.tree && decide (e.tile = tile ∧ e.chan = chan))).foldl (fun n e => n + e.count) 0

/-- R242: every response window of a calendar carries the flits of the bytes that peers request of it; R232 numbers the windows in
list order. What peers request stands in their images (assumption 6). -/
def windowsOk (bs : List Byte) (variant port : Nat) (es : List CalEntry) : Bool :=
  let ws := es.filter (fun e => e.resp)
  ((List.range ws.length).zip ws).all (fun x => decide ((Config.requested bs variant port x.1 + 223) / 224 ≤ x.2.count))

def checkCalendars (bs : List Byte) (i : Image) (rank : Nat) : List (Option Finding) :=
  let cs := commandsOf bs
  let total := fun (p : Placed) => ((cs.filter (fun q => decide (q.engine = 0 ∧ q.variant = p.variant ∧ q.tile = p.tile ∧ q.unit = p.unit))).map
    (flitsOf rank i)).foldl (· + ·) 0
  ((placesOf bs 0x0005).zip i.calendars).map (fun x =>
      need (calDisjoint x.2.2.2 && x.2.2.2.all (fun e => decide (e.slot0 + e.count ≤ i.slot / 128 * 125))
        && decide ((x.2.2.2.filter (fun e => e.resp)).length ≤ 256) && windowsOk bs x.2.1 x.2.2.1 x.2.2.2) (Finding.at 0x0F x.1.1 0 x.1.2))
    ++ cs.map (fun p => need (decide (flitsOf rank i p = 0) || decide (total p ≤ claimed i p.variant p.tile p.unit)) (p.finding 0x0F))

/-! ### 0x10 BANK_BUDGET: R197 -/

def Hw.checkMigrations (h : Hw) (bs : List Byte) (i : Image) : List (Option Finding) :=
  let apart := fun (a b : MigEntry) => decide (h.laneOf a.q ≠ h.laneOf b.q) || decide (a.launch + Config.exchangeTicks ≤ b.launch)
    || decide (b.launch + Config.exchangeTicks ≤ a.launch)
  ((placesOf bs 0x000B).zip i.migrations).flatMap (fun x =>
    let es := (List.range x.2.2.length).zip x.2.2
    es.map (fun e =>
      need (decide (e.2.launch + Config.exchangeTicks ≤ e.2.deadline) && es.all (fun y => decide (y.1 = e.1) || apart e.2 y.2))
        { Finding.at 0x10 x.1.1 e.1 x.1.2 with
          unit := h.laneOf e.2.q, detail := e.2.launch + Config.exchangeTicks, limit := e.2.deadline }))

/-! ### 0x11 SLACK: R145, R254, R283, R356 -/

/-- The end of the last interval with a nonzero receive tally. -/
def lastTally (i : Image) : Nat :=
  ((i.tallies.map (fun t => ((List.range t.2.2.length).filter (fun k => decide ((t.2.2[k]?).getD 0 ≠ 0))).foldl (fun m k => Nat.max m (k + 1)) 0)).foldl
    Nat.max 0) * 128

/-- m of R283: the largest mesh latency from a port with a nonzero tally to a tile. -/
def portLatency (i : Image) (t : Nat) : Nat :=
  ((i.tallies.filter (fun x => !zeroBytes x.2.2)).map (fun x => latencyTicks (portPoint x.2.1) (tilePoint t))).foldl Nat.max 0

/-- R283: the first tick at which a command may launch that reads a region of the inbound list, of those it reads too early. -/
def inboundLimit (i : Image) (p : Placed) : Option Nat :=
  (i.inbound.filterMap (fun e =>
    if e.1 = p.variant then
      (i.region? e.2.1).bind (fun r =>
        let t := 128 * (e.2.2 + 1) + pathTime i.levels + portLatency i p.tile + 8
        if runsMeet (p.reads i) [(r.base, r.length)] = true ∧ p.launch < t then some t else none)
    else none)).head?

/-- R145: the first Full Stop launch that leaves a compute-phase command its 320 ticks. -/
def checkSlack (bs : List Byte) (i : Image) : List (Option Finding) :=
  (commandsOf bs).map (fun p =>
      if p.launch < i.updLaunch ∧ i.fsLaunch < p.deadline + 320 then some ((p.finding 0x11).sized (p.deadline + 320) i.fsLaunch)
      else (inboundLimit i p).map (fun t => (p.finding 0x11).sized p.launch t))
    ++ [need (decide (lastTally i = 0) || decide (lastTally i + 2112 ≤ i.fsLaunch))
      ((inSection bs 0x11 0x0006 0).sized (lastTally i + 2112) i.fsLaunch)]
    ++ ((List.range i.staging.slots.length).zip i.staging.slots).map (fun x =>
      need (decide (x.2.deadline + 128 ≤ i.fsLaunch)) ((inSection bs 0x11 0x000F x.1).sized (x.2.deadline + 128) i.fsLaunch))

end Sys2Proof.Machine
end

