-- ==== Sys2Proof/Machine/PortLink.lean ====
section
/-!
DEFINITION. A port's link (R226 to R237, R247, R253, R255): events, hop-by-hop fields, credits and retry, receive tallies,
the rings of Fliuf, what a flit slot sends, and the loss of a link.
-/
namespace Sys2Proof.Machine

/-! ### Events, Table 6.12 -/

/-- PORT_FLAGS bit b and its counter (Tables 6.16 and 6.17). -/
def portFlagFld (b : Nat) : Fld × Fld :=
  match b with
  | 0 => (Fld.PORT_FLAGS.fec_unc, Fld.PORT_CNT_A.fec_unc)
  | 1 => (Fld.PORT_FLAGS.crc, Fld.PORT_CNT_A.crc)
  | 2 => (Fld.PORT_FLAGS.sched_loss, Fld.PORT_CNT_B.sched_loss)
  | 3 => (Fld.PORT_FLAGS.sched_late, Fld.PORT_CNT_B.sched_late)
  | 4 => (Fld.PORT_FLAGS.misroute, Fld.PORT_CNT_C.misroute)
  | 6 => (Fld.PORT_FLAGS.link_down, Fld.PORT_CNT_D.link_down)
  | 7 => (Fld.PORT_FLAGS.lane_fault, Fld.PORT_CNT_D.lane_fault)
  | 8 => (Fld.PORT_FLAGS.rejected, Fld.PORT_CNT_E.rejected)
  | _ => (Fld.PORT_FLAGS.bad_type, Fld.PORT_CNT_E.bad_type)

/-- An event with PORT_ERR_INFO and its record (Tables 6.18 and 12.4). -/
def Hw.portEvent (h : Hw) (p b rank mtype stamp : Nat) : Hw :=
  let h := h.setFlds (portBase p) [(Fld.PORT_ERR_INFO.rank, rank), (Fld.PORT_ERR_INFO.mtype, mtype),
    (Fld.PORT_ERR_INFO.stamp, stamp), (Fld.PORT_ERR_INFO.cause, b), (Fld.PORT_ERR_INFO.tick, h.now)]
  h.raise (portBase p) (portFlagFld b).1 (portFlagFld b).2 (ringPort p) (0x40 + b)
    (h.reg (portBase p + Fld.PORT_ERR_INFO.rank.off)).toNat

/-- An event about a flit: rejected or of a bad type marks the step unclean for class 1, with its source as the suspect. -/
def Hw.flitEvent (h : Hw) (p b : Nat) (f : Flit) : Hw :=
  let h := h.portEvent p b f.src.toNat f.mtype.toNat f.stamp.toNat
  if f.cls = 1 ∧ b ≠ 4 then h.signal 11 (some (f.src, 1)) else h

/-- A fault of this rank's own link (kind 3 of Table 12.6). -/
def Hw.signalLink (h : Hw) (bit : Nat) : Hw := h.signal bit (some (BitVec.ofNat 14 h.rank, 3))

def Hw.portState (h : Hw) (p : Nat) : Nat := h.fld (portBase p) Fld.PORT_STATUS.state
def Hw.setPortState (h : Hw) (p n : Nat) : Hw := h.setFld (portBase p) Fld.PORT_STATUS.state n
def Hw.linkUp (h : Hw) (p : Nat) : Bool := decide (h.portState p = 4)

/-! ### Acknowledgement and credits, R235 and R236 -/

/-- PORT_LINK.replay as the replay buffer stands. -/
def Hw.showReplay (h : Hw) (p : Nat) : Hw := h.setFld (portBase p) Fld.PORT_LINK.replay (h.port p).replay.length

/-- The replay buffer after `lack`: everything up to the named flit is acknowledged; what remains waits anew. -/
def acknowledge (now : Word) (lack : Half) (r : List Unacked) : List Unacked :=
  match r.findIdx? (fun u => decide (u.flit.lseq = lack)) with
  | none => r
  | some i => (r.drop (i + 1)).map (fun u => { u with since := now })

/-- lack and cred of any flit received (R235, R236); what is acknowledged is not sent again. -/
def Hw.hopFields (h : Hw) (p : Nat) (f : Flit) : Hw :=
  let x := h.port p
  let left := acknowledge h.tense0 f.lack x.replay
  let h := (h.setPort p { x with
    replay := left
    resending := x.resending.filter (fun g => left.any (fun u => decide (u.flit.lseq = g.lseq))) }).showReplay p
  h.setFld (portBase p) Fld.PORT_LINK.credits
    (satNat Config.credits (h.fld (portBase p) Fld.PORT_LINK.credits + f.cred.toNat))

/-- A credit owed to the far end. -/
def Hw.returnCredit (h : Hw) (p : Nat) : Hw := h.setPort p { h.port p with owed := (h.port p).owed + 1 }

/-- A class 3 flit that waits. -/
def Hw.sendC3 (h : Hw) (p : Nat) (f : Flit) : Hw := h.setPort p { h.port p with c3 := (h.port p).c3 ++ [f] }

/-- A class 2 flit that waits. -/
def Hw.sendC2 (h : Hw) (p : Nat) (f : Flit) : Hw := h.setPort p { h.port p with c2 := (h.port p).c2 ++ [f] }

/-- R236, item 4: one RETRY_REQ naming the next expected number, until that flit arrives. -/
def Hw.askRetry (h : Hw) (p : Nat) : Hw :=
  let x := h.port p
  if x.retryAsked then h
  else
    (h.setPort p { x with retryAsked := true }).sendC3 p
      { h.flitHead 3 0x23 0 true true with msg := BitVec.ofNat 96 (x.lastRx + 1).toNat }

/-- R236, items 3 and 4: whether a class 2 flit is delivered. One already delivered is dropped. -/
def Hw.takeSeq (h : Hw) (p : Nat) (f : Flit) : Hw × Bool :=
  let x := h.port p
  let ahead := f.lseq - (x.lastRx + 1)
  if ahead = 0 then (h.setPort p { x with lastRx := f.lseq, retryAsked := false }, true)
  else if ahead.toNat < 0x8000 then ((h.returnCredit p).askRetry p, false)
  else (h.returnCredit p, false)

/-! ### Types and destinations, R238, R241, R244, R253 -/

/-- ACC in efmt 2 or 3, or rotated: options of version 2.0 (Table 6.9). -/
def accNeeds20 (f : Flit) : Bool :=
  decide (msgBits f 51 48 = 2 ∨ msgBits f 51 48 = 3) || decide (msgBits f 56 56 = 1)

/-- Table 6.6: a type of its class at a version. A class 2 ACC is rejected instead (R241). -/
def typeOk (f : Flit) (version : Nat) : Bool :=
  let c := f.cls.toNat
  match f.mtype.toNat with
  | 0x00 => decide (c = 0)
  | 0x01 => decide (c = 1 ∨ c = 2)
  | 0x02 => decide (c = 1 ∨ c = 2)
  | 0x03 => decide (c = 1 ∨ c = 2)
  | 0x04 => decide (c = 1 ∨ c = 2) && (!accNeeds20 f || decide (0x20 ≤ version))
  | 0x05 => decide (c = 2)
  | 0x10 => decide (c = 1)
  | 0x11 => decide (c = 1)
  | 0x12 => decide (c = 1)
  | 0x13 => decide (c = 1)
  | 0x14 => decide (c = 1) && decide (0x11 ≤ version)
  | 0x15 => decide (c = 1) && decide (0x11 ≤ version)
  | 0x16 => decide (c = 2)
  | 0x20 => decide (c = 3)
  | 0x21 => decide (c = 3)
  | 0x22 => decide (c = 3)
  | 0x23 => decide (c = 3)
  | 0x30 => decide (c = 2)
  | _ => false

/-- Types 0x10 to 0x15 (R244). -/
def isTree (f : Flit) : Bool := decide (0x10 ≤ f.mtype.toNat ∧ f.mtype.toNat ≤ 0x15)

/-- The completion message of alignment (R271). -/
def isCompletion (f : Flit) : Bool := decide (f.mtype.toNat = 0x11) && decide (msgBits f 63 0 = 2 ^ 64 - 1)

/-- R253, R244: a class 1 flit is for this rank and an admitted job; a tree flit for an admitted job. -/
def Hw.forUs (h : Hw) (f : Flit) : Bool :=
  let job := h.admittedAs f.job.toNat
  if isTree f then job || (h.job.isNone && isCompletion f) else job && decide (f.dst.toNat = h.rank)

/-! ### Receive tallies, R234 -/

/-- The interval of a stamp: the most recent one at or before the present interval with those low bits. -/
def Hw.stampInterval (h : Hw) (stamp : Nat) : Nat :=
  let cur := h.now / 128
  cur - (cur + 256 - stamp) % 256

/-- What the receive tallies expect in the slot that runs, by port: nothing in an idle slot, which launches only its Full
Stop (R286), and nothing in the update phase without a Clean verdict (R144). DEDUCED: assumption 62. -/
def Job.expected (j : Job) : List (Nat × List Byte) :=
  if !j.steps then []
  else
    let all := (j.img.tallies.filter (fun t => decide (t.1 = j.slotPlan))).map (fun t => t.2)
    if j.result = some .clean then all else all.map (fun t => (t.1, t.2.take (ceilDiv j.img.updLaunch 128)))

/-- The entry of a port for an interval. DEDUCED: assumption 62. -/
def tallyAt (ts : List (Nat × List Byte)) (p r : Nat) : Nat :=
  match ts.find? (fun t => decide (t.1 = p)) with
  | none => 0
  | some t => ((t.2[r]?).map (fun b => b.toNat)).getD 0

/-- What the tally of a port holds for an interval of this slot or of the one before. DEDUCED: assumption 62. -/
def Hw.tallyFor (h : Hw) (j : Job) (p i : Nat) : Option Nat :=
  let base := h.fld inflBase Fld.INFL_STEP_BASE.tick / 128
  if base ≤ i then some (tallyAt j.expected p (i - base))
  else
    match j.prev with
    | none => none
    | some v => if base ≤ i + v.1 then some (tallyAt v.2 p (i + v.1 - base)) else none

/-- The count of the interval whose lag ends now closes (R234). -/
def Hw.closeTally (h : Hw) (p : Nat) : Hw :=
  match h.job with
  | none => h
  | some j =>
    let k := (h.now - Config.tallyLag) / 128
    if !j.running || decide (h.now < Config.tallyLag + 128) then h
    else
      let i := k - 1
      let x := h.port p
      let n := x.counts.get 0 i
      let h := h.setPort p { x with counts := x.counts.filter (fun e => decide (i < e.1)) }
      match h.tallyFor j p i with
      | none => h
      | some t => if n = t then h else (h.portEvent p 2 0 0 (i % 256)).signal 9 none

def execTallyClose (p : Port) (s : State) : Host.Outcome State Fault Refusal := .next (s.onHw (fun h => h.closeTally p))

/-! ### Delivery -/

/-- Whether a flit is delivered: hop fields, order, type, destination; a delivered one is counted (R234, Table 6.18). -/
def Hw.accepts (h : Hw) (p : Nat) (f : Flit) : Hw × Bool :=
  if !h.linkUp p then (h, false)
  else
    let h := h.hopFields p f
    let q := if f.cls = 2 then h.takeSeq p f else (h, true)
    if !q.2 then q
    else
      let h := q.1
      let back := fun (h : Hw) => if f.cls = 2 then h.returnCredit p else h
      if !typeOk f (h.fld (portBase p) Fld.PORT_VER.link) then (back (h.flitEvent p 9 f), false)
      else if f.cls = 1 ∧ !h.forUs f then (h.flitEvent p 4 f, false)
      else
        let h := if f.cls = 0 then h else h.count (portBase p) Fld.PORT_RX_FLITS.count 1
        let h := if f.cls = 1 ∧ !isTree f then
            h.setPort p { h.port p with counts := (h.port p).counts.upd 0 (h.stampInterval f.stamp.toNat) (· + 1) }
          else h
        (h, true)

/-- A received flit of a row's type: delivered to `body` if the port accepts it. -/
def Hw.onFlit (h : Hw) (p : Nat) (f : Flit) (mtype : Nat) (body : Hw → Hw) : Hw :=
  let q := h.accepts p f
  if q.2 && decide (f.mtype.toNat = mtype) then body q.1 else q.1

/-! ### Fliuf's rings, R247 -/

/-- The 256 bytes of a flit (Tables 6.3 and 6.4, R229). -/
def flitImage (f : Flit) : List Byte :=
  let w0 := f.cls.toNat + f.mtype.toNat * 2 ^ 2 + f.dst.toNat * 2 ^ 8 + f.src.toNat * 2 ^ 22 + f.job.toNat * 2 ^ 36
    + f.gen.toNat * 2 ^ 44
  let w1 := f.lseq.toNat + f.lack.toNat * 2 ^ 16 + f.cred.toNat * 2 ^ 32 + f.stamp.toNat * 2 ^ 42 + f.len.toNat * 2 ^ 50
    + flagNat f.first * 2 ^ 58 + flagNat f.last * 2 ^ 59
  let body := leBytes 8 w0 ++ leBytes 8 w1 ++ leBytes 12 f.msg.toNat ++ leBytes 224 f.data.toNat
  body ++ leBytes 4 (crc32 body).toNat

/-- The flit of 256 bytes. -/
def flitOf (bs : List Byte) : Flit :=
  let w0 := leAt bs 0 8
  let w1 := leAt bs 8 8
  { cls := BitVec.ofNat 2 w0, mtype := BitVec.ofNat 6 (w0 / 2 ^ 2), dst := BitVec.ofNat 14 (w0 / 2 ^ 8)
    src := BitVec.ofNat 14 (w0 / 2 ^ 22), job := BitVec.ofNat 8 (w0 / 2 ^ 36), gen := BitVec.ofNat 16 (w0 / 2 ^ 44)
    lseq := BitVec.ofNat 16 w1, lack := BitVec.ofNat 16 (w1 / 2 ^ 16), cred := BitVec.ofNat 10 (w1 / 2 ^ 32)
    stamp := BitVec.ofNat 8 (w1 / 2 ^ 42), len := BitVec.ofNat 8 (w1 / 2 ^ 50)
    first := decide (w1 / 2 ^ 58 % 2 = 1), last := decide (w1 / 2 ^ 59 % 2 = 1)
    msg := BitVec.ofNat 96 (leAt bs 16 12), data := BitVec.ofNat 1792 (leAt bs 28 224) }

/-- The receive ring of a port is full: tail + 1 = head. -/
def Hw.ringFull (h : Hw) (p : Nat) : Bool :=
  decide ((h.fld (portBase p) Fld.PORT_UR_PTR.tail + 1) % 2 ^ h.fld (portBase p) Fld.PORT_UR_BASE.size
    = h.fld (portBase p) Fld.PORT_UR_PTR.head)

/-- A flit written into the next entry of the receive ring. -/
def Hw.ringWrite (h : Hw) (p : Nat) (f : Flit) : Hw :=
  let t := h.fld (portBase p) Fld.PORT_UR_PTR.tail
  let h := h.store (h.fld (portBase p) Fld.PORT_UR_BASE.base + 256 * t) (flitImage f)
  h.setFld (portBase p) Fld.PORT_UR_PTR.tail ((t + 1) % 2 ^ h.fld (portBase p) Fld.PORT_UR_BASE.size)

/-- A delivered flit for Fliuf: into the ring, its credit returned; a full ring holds it and its credit (R247). -/
def Hw.toFliuf (h : Hw) (p : Nat) (f : Flit) : Hw :=
  if h.ringFull p || !(h.port p).rxHeld.isEmpty then h.setPort p { h.port p with rxHeld := (h.port p).rxHeld ++ [f] }
  else (h.ringWrite p f).returnCredit p

/-- Held flits enter the ring as it frees. -/
def Hw.drainHeld (h : Hw) (p : Nat) : Nat → Hw
  | 0 => h
  | n + 1 =>
    match (h.port p).rxHeld with
    | [] => h
    | f :: fs =>
      if h.ringFull p then h
      else (((h.setPort p { h.port p with rxHeld := fs }).ringWrite p f).returnCredit p).drainHeld p n

/-! ### Loss of a link, R255 -/

/-- The code of a loss in event 0x46. DESIGN CHOICE: assumption 58. -/
def lossCode : LinkLoss → Nat
  | .framing => 0
  | .codewords => 1
  | .resends => 2

/-- The entries of a transmit ring that the port has not taken. -/
def Hw.ringPending (h : Hw) (p : Nat) : List Flit :=
  let b := portBase p
  let size := 2 ^ h.fld b Fld.PORT_UQ_BASE.size
  let head := h.fld b Fld.PORT_UQ_PTR.head
  let n := (h.fld b Fld.PORT_UQ_PTR.tail + size - head) % size
  (List.range n).map (fun i => flitOf (h.read (h.fld b Fld.PORT_UQ_BASE.base + 256 * ((head + i) % size)) 256))

/-- What a Fliuf message that a lost link discards is answered with: DONE or READ_RSP of status 2. -/
def Hw.lostAnswer (h : Hw) (f : Flit) : Option Flit :=
  let mid := msgBits f 63 48
  if f.mtype.toNat = 1 ∧ f.last then
    some { h.flitHead 2 5 h.rank true true with src := f.dst, msg := BitVec.ofNat 96 (mid * 2 ^ 48 + 2 * 2 ^ 64) }
  else if f.mtype.toNat = 2 then
    some { h.flitHead 2 3 h.rank true true with src := f.dst, msg := BitVec.ofNat 96 (mid * 2 ^ 48 + 2 * 2 ^ 80) }
  else none

/-- R255: the link is lost: flag, record, state 5; waiting class 2 flits are discarded and Fliuf's messages answered; a job
halts with cause "link fault". -/
def Hw.loseLink (h : Hw) (p : Nat) (code : Nat) : Hw :=
  let x := h.port p
  let lost := (x.replay.map (fun u => u.flit)) ++ x.c2 ++ h.ringPending p
  let answers := lost.filterMap h.lostAnswer
  let h := h.raise (portBase p) Fld.PORT_FLAGS.link_down Fld.PORT_CNT_D.link_down (ringPort p) 0x46 code
  let h := (h.setPortState p 5).setFlds (portBase p) [(Fld.PORT_VER.link, 0), (Fld.PORT_LINK.credits, 0),
    (Fld.PORT_LINK.replay, 0), (Fld.PORT_UQ_PTR.head, h.fld (portBase p) Fld.PORT_UQ_PTR.tail)]
  let h := h.setPort p { x with c2 := [], c3 := [], replay := [], resending := [], retryAsked := false, owed := 0, stage := .down }
  let h := answers.foldl (fun h f =>
    if h.ringFull p then h.setPort p { h.port p with rxHeld := (h.port p).rxHeld ++ [f] } else h.ringWrite p f) h
  h.haltFault 11

/-- While a port locks its framing again in the coarse stage of alignment, loss of framing is no lost link (R267). -/
def Hw.relocking (h : Hw) : Bool := decide (h.fld clkBase Fld.TNS_ALIGN.state = 2)

def execLinkLost (p : Port) (why : LinkLoss) (s : State) : Host.Outcome State Fault Refusal :=
  .next (s.onHw (fun h =>
    if h.linkUp p && !(decide (why = .framing) && h.relocking) then h.loseLink p (lossCode why) else h))

/-! ### Resends, R236 -/

/-- Every unacknowledged flit from number `lseq` is sent again, in order. One that has been sent eight times already loses the
link. DEDUCED: assumption 59. -/
def Hw.resendFrom (h : Hw) (p : Nat) (lseq : Half) : Hw :=
  let x := h.port p
  match x.replay.findIdx? (fun u => decide (u.flit.lseq = lseq)) with
  | none => h
  | some i =>
    let again := x.replay.drop i
    if again.any (fun u => decide (8 ≤ u.sends)) then h.loseLink p (lossCode .resends)
    else
      let r := x.replay.take i ++ again.map (fun u => { u with since := h.tense0 })
      let h := h.setPort p { x with replay := r, resending := again.map (fun u => u.flit) }
      (h.setFld (portBase p) Fld.PORT_FLAGS.retry 1).event (ringPort p) 0x45 lseq.toNat

/-- R236, item 5: a resend request. -/
def execRetryReq (p : Port) (f : Flit) (s : State) : Host.Outcome State Fault Refusal :=
  .next (s.onHw (fun h => h.onFlit p f 0x23 (fun h => h.resendFrom p (BitVec.ofNat 16 (msgBits f 15 0)))))

/-- R236, item 6: the oldest unacknowledged flit has waited 2,048 ticks. -/
def execRetryTimeout (p : Port) (s : State) : Host.Outcome State Fault Refusal :=
  .next (s.onHw (fun h =>
    match (h.port p).replay with
    | [] => h
    | u :: _ => if h.linkUp p && decide (u.since.toNat + 2048 ≤ h.now) then h.resendFrom p u.flit.lseq else h))

/-! ### Corrupted flits, R253 -/

/-- Payload bit of an interval at which flit slot j begins (R221). -/
def slotBit (j : Nat) : Nat := 1000 + 2048 * j

/-- The flit slots with a payload bit in codeword k of an interval: three or four of them (R221). -/
def codewordSlots (k : Nat) : List Nat :=
  (List.range 125).filter (fun j => decide (slotBit j < 5140 * (k + 1) ∧ 5140 * k < slotBit (j + 1)))

/-- Flits lost to an error: the step is unclean, whatever their classes were; a RETRY_REQ recovers class 2, and each class 2 flit
discarded returns its credit (R235). Their headers cannot be trusted: what PORT_ERR_INFO shows of them is left open.
DESIGN CHOICE: assumption 58. -/
def Hw.corrupt (h : Hw) (p b class2 : Nat) : Hw :=
  let w := h.freeWord
  let h := w.2.portEvent p b (bitsOf w.1 13 0) (bitsOf w.1 19 14) (bitsOf w.1 27 20)
  let h := h.setPort p { h.port p with owed := (h.port p).owed + class2 }
  (h.signalLink 8).askRetry p

/-- An uncorrectable codeword discards the slots it overlaps; codeword 0 takes the interval marker with it (R221). -/
def Hw.loseCodeword (h : Hw) (p k : Nat) (class2 : List Bool) : Hw :=
  let h := h.corrupt p 0 ((class2.take (codewordSlots k).length).filter id).length
  if k = 0 then h.setPort p { h.port p with badMarker := some (h.now / 128) } else h

def execCorruptFlit (p : Port) (x : Corruption) (s : State) : Host.Outcome State Fault Refusal :=
  .next (s.onHw (fun h =>
    if h.linkUp p then
      match x with
      | .codeword k class2 => h.loseCodeword p k class2
      | .crc _ class2 => h.corrupt p 1 (flagNat class2)
    else h))

/-! ### Transmission, R221 and R231 to R233 -/

/-- The tick of an interval in which flit slot j begins: 50 codewords of 5,440 bits, 2,125 bits a tick, each with its 5,140
payload bits first (R221). -/
def slotTick (j : Nat) : Nat := (slotBit j / 5140 * 5440 + slotBit j % 5140) / 2125

/-- The flit slots, counted from Tense 0, that begin in a tick. -/
def slotsAt (t : Nat) : List Nat :=
  ((List.range 125).filter (fun j => decide (slotTick j = t % 128))).map (fun j => 125 * (t / 128) + j)

/-- The flit slot that a transmission takes: the first that begins in this tick and has not been used. -/
def Hw.freeSlot (h : Hw) (p : Nat) : Option Nat :=
  let all := slotsAt h.now
  match all.findIdx? (fun j => decide ((h.port p).slotUsed = some j)) with
  | none => all.head?
  | some i => all[i + 1]?

/-- A flit slot counted from the step base (R232). -/
def Hw.stepSlot (h : Hw) (slot : Nat) : Nat := slot - 125 * (h.fld inflBase Fld.INFL_STEP_BASE.tick / 128)

/-- Tense in sixteenths at the instant the first bit of a flit sent now crosses the lanes, 48 ticks on (Table 6.10); the fraction is
the lane's timestamp unit's own (R270). DESIGN CHOICE: assumption 64. -/
def Hw.stamp16 (h : Hw) : Nat × Hw :=
  let w := h.freeWord
  (((h.now + 48) * 16 + bitsOf w.1 3 0) % 2 ^ 64, w.2)

/-- A probe takes its t1 as it is sent, and a reply its t3 (R269, R270). -/
def Hw.stampOut (h : Hw) (f : Flit) : Hw × Flit :=
  if f.cls = 3 ∧ f.mtype = 0x21 then
    let q := h.stamp16
    ({ q.2 with clk := { q.2.clk with sent := q.2.clk.sent ++ [BitVec.ofNat 64 q.1] } },
     { f with msg := BitVec.ofNat 96 q.1 })
  else if f.cls = 3 ∧ f.mtype = 0x22 then
    let q := h.stamp16
    let d := leBytes 224 f.data.toNat
    (q.2, { f with data := dataOf (d.take 8 ++ leBytes 8 q.1 ++ d.drop 16) })
  else (h, f)

/-- The flit as it leaves: the originating port's stamp on class 1, and the hop fields (R228). -/
def Hw.finalFlit (h : Hw) (p : Nat) (f : Flit) : Flit :=
  let x := h.port p
  { f with
    lack := x.lastRx, cred := BitVec.ofNat 10 (satNat Config.credits x.owed)
    stamp := BitVec.ofNat 8 (if f.cls = 1 then h.now / 128 else 0) }

/-- A flit leaves: credits returned, counted unless idle; ACC blocks enter the send digest of the port's slice (R358). -/
def Hw.emit (h : Hw) (p : Nat) (f : Flit) : Hw :=
  let x := h.port p
  let g := h.finalFlit p f
  let h := h.setPort p { x with owed := x.owed - satNat Config.credits x.owed, lastTx := some g }
  let h := if f.cls = 0 then h else h.count (portBase p) Fld.PORT_TX_FLITS.count 1
  if f.cls = 1 ∧ f.mtype = 4 then
    h.count (sliceBase (64 * (p / 12) + ((portPoint p).slice.getD 0))) Fld.SLC_DIG_SENT.digest (accDigest f)
  else h

/-- The idle flit (R230). -/
def idleFlit : Flit := blankFlit

/-- The class 1 flit of a slot: assigned to it and ready. With no job admitted it is the completion message of alignment, in
slot 0 of an interval (R271). -/
def Hw.dueC1 (h : Hw) (p slot : Nat) : Option TxFlit :=
  if h.job.isNone then (if slot % 125 = 0 then (h.port p).c1.head? else none)
  else (h.port p).c1.find? (fun x => decide (x.slot = h.stepSlot slot) && decide (x.ready.toNat ≤ h.now))

/-- The late class 1 flit with the earliest assigned slot. -/
def Hw.lateC1 (h : Hw) (p slot : Nat) : Option TxFlit :=
  if h.job.isNone then none
  else ((h.port p).c1.filter (fun x => decide (x.slot < h.stepSlot slot) && decide (x.ready.toNat ≤ h.now))).foldl
    (fun best x =>
      match best with
      | none => some x
      | some b => if x.slot < b.slot then some x else some b) none

def Hw.takeC1 (h : Hw) (p : Nat) (x : TxFlit) : Hw := h.setPort p { h.port p with c1 := (h.port p).c1.erase x }

/-- A transmit-ring entry that Fliuf may send (R247). DEDUCED: assumption 60. -/
def ringAllowed (f : Flit) (version : Nat) : Bool :=
  decide (f.cls = 0 ∨ f.cls = 2) && decide (f.mtype.toNat = 1 ∨ f.mtype.toNat = 2 ∨ f.mtype.toNat = 0x16 ∨ f.mtype.toNat = 0x30)
    && typeOk { f with cls := 2 } version

/-- The flit of a ring entry: the port fills cls, src and gen. DEDUCED: assumption 60. -/
def Hw.ringFlit (h : Hw) (f : Flit) : Flit :=
  { f with cls := 2, src := BitVec.ofNat 14 h.rank, gen := (h.flitHead 2 0 0 false false).gen, lseq := 0, lack := 0, cred := 0, stamp := 0 }

/-- The next class 2 flit of the rank's own: responses first, then the transmit ring; entries not allowed are skipped. -/
def Hw.nextC2 (h : Hw) (p : Nat) : Nat → Hw × Option Flit
  | 0 => (h, none)
  | n + 1 =>
    let x := h.port p
    match x.c2 with
    | f :: fs => (h.setPort p { x with c2 := fs }, some f)
    | [] =>
      match h.ringPending p with
      | [] => (h, none)
      | f :: _ =>
        let b := portBase p
        let h := h.setFld b Fld.PORT_UQ_PTR.head
          ((h.fld b Fld.PORT_UQ_PTR.head + 1) % 2 ^ h.fld b Fld.PORT_UQ_BASE.size)
        if ringAllowed f (h.fld b Fld.PORT_VER.link) then (h, some (h.ringFlit f))
        else (h.portEvent p 9 h.rank f.mtype.toNat f.stamp.toNat).nextC2 p n

/-- A hand-over WRITE that leaves for the first time (R376). -/
def Hw.noteHandover (h : Hw) (f : Flit) : Hw :=
  h.onJob (fun j =>
    if j.running && decide (j.kind = .handover) && decide (f.mtype = 1) then
      { j with handSent := j.handSent + f.len.toNat, handOpen := j.handOpen + flagNat f.last }
    else j)

/-- A new class 2 flit sent: numbered, kept for a resend, a credit spent. -/
def Hw.emitNew (h : Hw) (p : Nat) (f : Flit) : Hw :=
  let x := h.port p
  let g := { f with lseq := x.nextSeq }
  let h := h.setPort p { x with nextSeq := x.nextSeq + 1, replay := x.replay ++ [⟨g, 1, h.tense0⟩] }
  let h := (h.showReplay p).setFld (portBase p) Fld.PORT_LINK.credits (h.fld (portBase p) Fld.PORT_LINK.credits - 1)
  (h.noteHandover g).emit p g

/-- An unacknowledged flit sent once more, and counted (R236, Table 6.17). -/
def Hw.sendAgain (h : Hw) (p : Nat) (f : Flit) : Hw :=
  let x := h.port p
  let h := h.setPort p { x with
    replay := x.replay.map (fun u => if u.flit.lseq = f.lseq then { u with sends := u.sends + 1 } else u) }
  let h := h.count (portBase p) Fld.PORT_CNT_C.retry 1
  (h.setFld (portBase p) Fld.PORT_LINK.credits (h.fld (portBase p) Fld.PORT_LINK.credits - 1)).emit p f

/-- Item 4 of R231, else item 5. DEDUCED: assumption 59. -/
def Hw.sendClass2 (h : Hw) (p : Nat) : Hw :=
  let x := h.port p
  if h.fld (portBase p) Fld.PORT_LINK.credits = 0 then h.emit p idleFlit
  else
    match x.resending with
    | f :: fs => (h.setPort p { x with resending := fs }).sendAgain p f
    | [] =>
      if Config.credits ≤ x.replay.length then h.emit p idleFlit
      else
        match h.nextC2 p 4096 with
        | (h, some f) => h.emitNew p f
        | (h, none) => h.emit p idleFlit

/-- Item 2 of R231: a class 3 flit leaves, with its time where it carries one. -/
def Hw.sendControl (h : Hw) (p : Nat) (f : Flit) : Hw :=
  let q := h.stampOut f
  q.1.emit p q.2

/-- Items 2 to 5 of R231. -/
def Hw.sendRest (h : Hw) (p slot : Nat) : Hw :=
  let x := h.port p
  match x.c3 with
  | f :: fs => (h.setPort p { x with c3 := fs }).sendControl p f
  | [] =>
    match h.lateC1 p slot with
    | some t =>
      (((h.takeC1 p t).portEvent p 3 h.rank t.flit.mtype.toNat (h.now / 128 % 256)).signalLink 10).emit p t.flit
    | none => h.sendClass2 p

/-- R318: a halted rank awaiting its verdict sends its tree flits in their slots and idle flits everywhere else.
DESIGN CHOICE: assumption 61. -/
def Hw.onlyTree (h : Hw) : Bool :=
  match h.job with
  | none => false
  | some j => j.running && j.halted

/-- R231: what a flit slot sends. DESIGN CHOICE: assumption 61. -/
def Hw.transmit (h : Hw) (p slot : Nat) : Hw :=
  match h.dueC1 p slot with
  | some t =>
    if h.onlyTree && !isTree t.flit then h.emit p idleFlit else (h.takeC1 p t).emit p t.flit
  | none => if h.onlyTree then h.emit p idleFlit else h.sendRest p slot

/-- R269: in the fine stage a ping leaves at the start of each interval, 16 in all once the parent has replied as aligned.
DEDUCED: assumption 63. -/
def Hw.queuePing (h : Hw) (p slot : Nat) : Hw :=
  if h.fld clkBase Fld.TNS_ALIGN.state = 3 ∧ h.fld clkBase Fld.TNS_ALIGN.plane = p ∧ h.clk.completing = false
      ∧ !h.flag clkBase Fld.TNS_ALIGN.root ∧ slot % 125 = 0 ∧ (h.clk.pings.isEmpty ∨ h.clk.sent.length < 16) then
    h.sendC3 p (h.flitHead 3 0x21 0 true true)
  else h

/-- A port that is up sends one flit in each flit slot; during version exchange it sends its class 3 flits alone (Table 6.2). -/
def Hw.transmitSlot (h : Hw) (p : Nat) : Hw :=
  match h.freeSlot p with
  | none => h
  | some slot =>
    let h := h.setPort p { h.port p with slotUsed := some slot }
    if h.linkUp p then (h.queuePing p slot).transmit p slot
    else if h.portState p = 3 then
      match (h.port p).c3 with
      | f :: fs => (h.setPort p { h.port p with c3 := fs }).sendControl p f
      | [] => h
    else h

def execFlitSlotTransmit (p : Port) (s : State) : Host.Outcome State Fault Refusal :=
  .next (s.onHw (fun h => h.transmitSlot p))

end Sys2Proof.Machine
end

