-- ==== Sys2Proof/Machine/Vector.lean ====
section
/-!
DEFINITION. The Vector Engine (R162 to R168): arithmetic in the operation format, reductions in the order of R166, and the
generator operations DRAW, MASK and ROT (R167, R88, R89).
-/
namespace Sys2Proof.Machine

/-- The format code of opfmt: BF16, FP16, FP32, FP64 (R162). -/
def opFmt (o : BitVec 2) : Nat := 3 + o.toNat

/-- Lanes, R162. -/
def opLanes (o : BitVec 2) : Nat := if o.toNat ≤ 1 then 256 else if o.toNat = 2 then 128 else 64

/-- The elements of a source, converted to the operation format (R162); an element too large for it becomes what an IEEE
rounding gives. DESIGN CHOICE: assumption 81. -/
def Hw.vecLoad (h : Hw) (d : Desc) (o : BitVec 2) (rtz : Bool) : List Val :=
  (h.plainVals d).map (fun v => (roundVal (opFmt o) rtz v).1)

/-- A source over `n` positions; a scalar one supplies its element (0, 0) to each (R164). -/
def Hw.vecSource (h : Hw) (d : Desc) (o : BitVec 2) (rtz scalar : Bool) (n : Nat) : List Val :=
  let vs := h.vecLoad d o rtz
  if scalar then List.replicate n (valAt vs 0) else vs

/-- The results of a command, which are converted to the destination and written when it completes (R162). Only CVT reports
source values (R169): the values after their conversion to opfmt. DESIGN CHOICE: assumption 81. -/
def Hw.vecResult (h : Hw) (l : Launch) (d : Desc) (vals : List Val) (sources : Bool) : Hw :=
  let o : Output := ⟨d, vals, h.stepNo, 0, 0, sources, false⟩
  h.onRunning l.t l.queue (fun x => { x with output := some o })

/-- An operation of up to three sources, element by element (R164, R165). -/
def Hw.arith (h : Hw) (t : Nat) (opcode : Nat) (c : Cmd) (x : ArithArgs) (arity : Nat) (cvt : Bool)
    (f : Val → Val → Val → Val) : Hw :=
  let l : Launch := ⟨t, .vector, opcode, argsArith x, c⟩
  let d := h.descOf t c x.dst
  let n := d.count
  let da := h.descOf t c x.a
  let db := h.descOf t c x.b
  let dc := h.descOf t c x.c
  h.launchView l n (fun h =>
    let h := h.epochQueries l ([x.a, x.b, x.c].take arity)
    let hr := h.readFound t c.found
    let va := hr.vecSource da x.opfmt x.rtz false n
    let vb := if 2 ≤ arity then hr.vecSource db x.opfmt x.rtz x.bScalar n else []
    let vc := if 3 ≤ arity then hr.vecSource dc x.opfmt x.rtz x.cScalar n else []
    h.vecResult l d ((List.range n).map (fun i => f (valAt va i) (valAt vb i) (valAt vc i))) cvt)

/-- 1.0 -/
def Val.one : Val := .fin false 1 0

def execAdd (t : Tile) (c : Cmd) (x : ArithArgs) (s : State) : Host.Outcome State Fault Refusal :=
  .next (s.onHw (fun h => h.arith t 0x01 c x 2 false (fun a b _ => (fpAdd (opFmt x.opfmt) x.rtz a b).1)))

def execSub (t : Tile) (c : Cmd) (x : ArithArgs) (s : State) : Host.Outcome State Fault Refusal :=
  .next (s.onHw (fun h => h.arith t 0x02 c x 2 false (fun a b _ => (fpAdd (opFmt x.opfmt) x.rtz a b.neg).1)))

def execMul (t : Tile) (c : Cmd) (x : ArithArgs) (s : State) : Host.Outcome State Fault Refusal :=
  .next (s.onHw (fun h => h.arith t 0x03 c x 2 false (fun a b _ => (fpMul (opFmt x.opfmt) x.rtz a b).1)))

def execFma (t : Tile) (c : Cmd) (x : ArithArgs) (s : State) : Host.Outcome State Fault Refusal :=
  .next (s.onHw (fun h => h.arith t 0x04 c x 3 false (fun a b e => (fpFma (opFmt x.opfmt) x.rtz a b e).1)))

def execMax (t : Tile) (c : Cmd) (x : ArithArgs) (s : State) : Host.Outcome State Fault Refusal :=
  .next (s.onHw (fun h => h.arith t 0x05 c x 2 false (fun a b _ => fpMax a b)))

def execMin (t : Tile) (c : Cmd) (x : ArithArgs) (s : State) : Host.Outcome State Fault Refusal :=
  .next (s.onHw (fun h => h.arith t 0x06 c x 2 false (fun a b _ => fpMin a b)))

def execAbs (t : Tile) (c : Cmd) (x : ArithArgs) (s : State) : Host.Outcome State Fault Refusal :=
  .next (s.onHw (fun h => h.arith t 0x07 c x 1 false (fun a _ _ => a.abs)))

def execNeg (t : Tile) (c : Cmd) (x : ArithArgs) (s : State) : Host.Outcome State Fault Refusal :=
  .next (s.onHw (fun h => h.arith t 0x08 c x 1 false (fun a _ _ => a.neg)))

def execCmplt (t : Tile) (c : Cmd) (x : ArithArgs) (s : State) : Host.Outcome State Fault Refusal :=
  .next (s.onHw (fun h => h.arith t 0x09 c x 2 false (fun a b _ => if valLt a b then .one else .zero)))

def execCmpeq (t : Tile) (c : Cmd) (x : ArithArgs) (s : State) : Host.Outcome State Fault Refusal :=
  .next (s.onHw (fun h => h.arith t 0x0A c x 2 false (fun a b _ => if valEq a b then .one else .zero)))

def execSel (t : Tile) (c : Cmd) (x : ArithArgs) (s : State) : Host.Outcome State Fault Refusal :=
  .next (s.onHw (fun h => h.arith t 0x0B c x 3 false (fun a b e => if e.isNan || !e.isZero then a else b)))

def execCvt (t : Tile) (c : Cmd) (x : ArithArgs) (s : State) : Host.Outcome State Fault Refusal :=
  .next (s.onHw (fun h => h.arith t 0x0C c x 1 true (fun a _ _ => a)))

def execDiv (t : Tile) (c : Cmd) (x : ArithArgs) (s : State) : Host.Outcome State Fault Refusal :=
  .next (s.onHw (fun h => h.arith t 0x10 c x 2 false (fun a b _ => (fpDiv (opFmt x.opfmt) x.rtz a b).1)))

def execSqrt (t : Tile) (c : Cmd) (x : ArithArgs) (s : State) : Host.Outcome State Fault Refusal :=
  .next (s.onHw (fun h => h.arith t 0x11 c x 1 false (fun a _ _ => (fpSqrt (opFmt x.opfmt) x.rtz a).1)))

def execRsqrt (t : Tile) (c : Cmd) (x : ArithArgs) (s : State) : Host.Outcome State Fault Refusal :=
  .next (s.onHw (fun h => h.arith t 0x12 c x 1 false (fun a _ _ => (fpRsqrt (opFmt x.opfmt) x.rtz a).1)))

def execRecip (t : Tile) (c : Cmd) (x : ArithArgs) (s : State) : Host.Outcome State Fault Refusal :=
  .next (s.onHw (fun h => h.arith t 0x13 c x 1 false (fun a _ _ => (fpDiv (opFmt x.opfmt) x.rtz .one a).1)))

def execExp2 (t : Tile) (c : Cmd) (x : ArithArgs) (s : State) : Host.Outcome State Fault Refusal :=
  .next (s.onHw (fun h => h.arith t 0x14 c x 1 false (fun a _ _ => (fpExp2 (opFmt x.opfmt) x.rtz a).1)))

def execLog2 (t : Tile) (c : Cmd) (x : ArithArgs) (s : State) : Host.Outcome State Fault Refusal :=
  .next (s.onHw (fun h => h.arith t 0x15 c x 1 false (fun a _ _ => (fpLog2 (opFmt x.opfmt) x.rtz a).1)))

/-! ### Reductions, R166 -/

/-- Lane l after the row's elements l, l + W, … in ascending order. -/
def laneFold (f : Val → Val → Val) (start : Val) (w l : Nat) (row : List Val) : Val :=
  (List.range (ceilDiv (row.length - l) w)).foldl (fun acc i => f acc (valAt row (l + w * i))) start

/-- The tree over lanes: s = W/2, W/4, … 1. -/
def laneTree (f : Val → Val → Val) : Nat → List Val → List Val
  | 0, v => v
  | fuel + 1, v =>
    let s := v.length / 2
    laneTree f fuel ((List.range s).map (fun l => f (valAt v l) (valAt v (l + s))))

/-- A row of c elements reduced over W lanes, W = 2^k. -/
def reduceRow (f : Val → Val → Val) (start : Val) (w : Nat) (row : List Val) : Val :=
  valAt (laneTree f (Nat.log2 w) ((List.range w).map (fun l => laneFold f start w l row))) 0

/-- RSUM and RMAX: one element per row of a (R164). -/
def Hw.reduce (h : Hw) (t : Nat) (opcode : Nat) (c : Cmd) (x : ArithArgs) (f : Val → Val → Val) (start : Val) : Hw :=
  let l : Launch := ⟨t, .vector, opcode, argsArith x, c⟩
  let da := h.descOf t c x.a
  h.launchView l da.count (fun h =>
    let h := h.epochQueries l [x.a]
    let va := (h.readFound t c.found).vecSource da x.opfmt x.rtz false da.count
    let cols := da.cols.toNat
    let rows := (List.range da.rows.toNat).map (fun i =>
      reduceRow f start (opLanes x.opfmt) ((va.drop (i * cols)).take cols))
    h.vecResult l (h.descOf t c x.dst) rows false)

def execRsum (t : Tile) (c : Cmd) (x : ArithArgs) (s : State) : Host.Outcome State Fault Refusal :=
  .next (s.onHw (fun h => h.reduce t 0x20 c x (fun a b => (fpAdd (opFmt x.opfmt) x.rtz a b).1) .zero))

def execRmax (t : Tile) (c : Cmd) (x : ArithArgs) (s : State) : Host.Outcome State Fault Refusal :=
  .next (s.onHw (fun h => h.reduce t 0x21 c x fpMax (.inf true)))

/-! ### Generator operations, R167 -/

/-- The purpose of a stream key in the running image (Table 2.10). -/
def Hw.keyPurpose (h : Hw) (key : Nat) : Nat :=
  match h.job with
  | none => 0
  | some j =>
    match j.img.keys.find? (fun k => decide (k.key = key)) with
    | none => 0
    | some k => k.purpose

def Hw.seed (h : Hw) : Nat :=
  match h.job with
  | none => 0
  | some j => j.img.seed

/-- The draw for position (i, j) of a view (R167): purpose 3 takes step 0 and the position along the innermost axis. -/
def Hw.draw (h : Hw) (x : GenArgs) (d : Desc) (i j : Nat) : Nat :=
  if h.keyPurpose x.key.toNat = 3 then generate h.seed x.key.toNat 0 (x.base.toNat + d.col0.toNat + j)
  else generate h.seed x.key.toNat h.stepNo (x.base.toNat + d.index i j)

def genLaunch (t : Nat) (opcode : Nat) (c : Cmd) (x : GenArgs) : Launch := ⟨t, .vector, opcode, argsGen x, c⟩

/-- DRAW: r[31:8] × 2^−24. -/
def Hw.startDraw (h : Hw) (l : Launch) (x : GenArgs) (d : Desc) : Hw :=
  h.vecResult l d (d.places.map (fun p => .fin false (h.draw x d p.1 p.2 / 2 ^ 8 % 2 ^ 24) (-24))) false

def execDraw (t : Tile) (c : Cmd) (x : GenArgs) (s : State) : Host.Outcome State Fault Refusal :=
  .next (s.onHw (fun h =>
    let d := h.descOf t c x.dst
    let l := genLaunch t 0x30 c x
    h.launchView l d.count (fun h => h.startDraw l x d)))

/-- MASK: a where the draw's low word is at least thr × 2^8, else +0. -/
def Hw.startMask (h : Hw) (l : Launch) (x : GenArgs) (a d : Desc) : Hw :=
  let h := h.epochQueries l [x.a]
  let va := (h.readFound l.t l.c.found).vecSource a x.opfmt x.rtz false d.count
  let keep := a.places.map (fun q => decide (x.thr.toNat * 2 ^ 8 ≤ h.draw x a q.1 q.2 % 2 ^ 32))
  h.vecResult l d ((List.range d.count).map (fun i => if (keep[i]?).getD false then valAt va i else .zero)) false

def execMask (t : Tile) (c : Cmd) (x : GenArgs) (s : State) : Host.Outcome State Fault Refusal :=
  .next (s.onHw (fun h =>
    let d := h.descOf t c x.dst
    let l := genLaunch t 0x31 c x
    h.launchView l d.count (fun h => h.startMask l x (h.descOf t c x.a) d)))

/-- ROT: each segment of 256 elements rotated, or with inverse set, turned back (R88, R89). -/
def Hw.startRot (h : Hw) (l : Launch) (x : GenArgs) (a d : Desc) : Hw :=
  let h := h.epochQueries l [x.a]
  let va := (h.readFound l.t l.c.found).vecSource a x.opfmt x.rtz false d.count
  let signs := a.places.map (fun q => decide (h.draw x a q.1 q.2 % 2 = 1))
  let segs := (List.range (d.count / 256)).flatMap (fun k =>
    let v := (va.drop (256 * k)).take 256
    let sg := fun i => (signs[256 * k + i]?).getD false
    if x.inverse then unrotateSeg sg v else rotateSeg sg v)
  h.vecResult l d segs false

def execRot (t : Tile) (c : Cmd) (x : GenArgs) (s : State) : Host.Outcome State Fault Refusal :=
  .next (s.onHw (fun h =>
    let d := h.descOf t c x.dst
    let l := genLaunch t 0x38 c x
    h.launchView l d.count (fun h => h.startRot l x (h.descOf t c x.a) d)))

end Sys2Proof.Machine
end

