-- ==== Sys2Proof/Machine/Sched.lean ====
section
/-!
DEFINITION. The schedule that admission models (R292): every command of a plan variant from the step base to the slot end, cycle
of the tile engines by cycle (two a tick), with no stall, no error and no late flit. It models the command fetchers (R135, R136),
the starts and tokens of R140 and R141, the requests of the Access Engines (R148), the banks of tile memory (R132), the slice
ports (R180) and the transfers of a SEND (R480). Ticks count from the step base. What the spec does not give of the schedule is
uninterpreted (assumption 6); the readings taken here are those of assumptions 91 and 92.
-/
namespace Sys2Proof.Machine

/-! ### Durations -/

/-- ceil(log2(n + 1)). -/
def bitLength (n : Nat) : Nat := if n = 0 then 0 else Nat.log2 n + 1

/-- Table 4.9. -/
def vectorTicks (op : Nat) (opfmt : BitVec 2) (rows cols : Nat) : Nat :=
  let n := rows * cols
  let w := opLanes opfmt
  if 0x10 ≤ op ∧ op ≤ 0x15 then 4 * ceilDiv n w + 24
  else if op = 0x20 ∨ op = 0x21 then rows * (ceilDiv cols w + Nat.log2 w) + 12
  else if op = 0x38 then 9 * n / 128 + 16
  else ceilDiv n w + 12

/-- q of Table 4.6: elements in a tick. -/
def convertRate (f : Nat) : Nat := if f = 5 then 64 else if f = 6 then 32 else 128

/-- Table 4.6. -/
def convertTicks (f n : Nat) : Nat := 2 * ceilDiv n (convertRate f) + 24
def expandTicks (f n cap : Nat) : Nat := ceilDiv n (convertRate f) + 4 * bitLength cap + 24

/-- opfmt of a vector command (Table 4.7). -/
def Placed.opfmt (p : Placed) : BitVec 2 := BitVec.ofNat 2 (if p.generates then p.arg 39 2 else p.arg 43 2)

/-- The view that sets the extents of a vector command (R164). -/
def Placed.extentView (p : Placed) (i : Image) : Desc := if p.opcode = 0x20 ∨ p.opcode = 0x21 then p.d i 10 else p.d i 0

/-- Ticks from the start of a command of an array, the Vector Engine, the convert section or the Statistics Unit to the tick in
which it completes, that tick included, with no bank conflict; 1 where it completes at its start (R161). -/
def Placed.ticks (p : Placed) (i : Image) : Nat :=
  match p.engine, p.opcode with
  | _, 0 => 1
  | 1, _ => arrayDuration (p.d i 0).f (p.arg 40 10) (p.arg 50 7) (p.arg 57 32) (p.arg 94 9) (p.arg 103 9)
  | 2, op =>
    let d := p.extentView i
    if d.count = 0 then 1 else vectorTicks op p.opfmt d.rows.toNat d.cols.toNat
  | 3, 0x01 => if (p.d i 0).count = 0 then 1 else convertTicks (p.d i 0).f (p.d i 0).count
  | 3, _ => if (p.d i 0).count = 0 then 1 else expandTicks (p.d i 10).f (p.d i 0).count (Attr.ofWord (p.d i 0).attr).cap
  | _, _ => 1

/-- Ticks for which an MMUL occupies its array (R125). -/
def Placed.occupies (p : Placed) (i : Image) : Nat :=
  occupancy (p.d i 0).f (p.arg 40 10) (p.arg 50 7) (p.arg 57 32) (p.arg 94 9) (p.arg 103 9)

/-- The queue of a command (R135). -/
def Placed.queue (p : Placed) : Nat :=
  if p.engine = 0 then p.unit % 4 else if p.engine = 1 then 4 + p.unit else p.engine + 10

/-! ### Banks of tile memory, R132 -/

/-- The 64-byte lines of a run of bytes. -/
def linesOf (a n : Nat) : List Nat := if n = 0 then [] else (List.range ((a + n - 1) / 64 + 1 - a / 64)).map (fun k => a / 64 + k)

/-- The bank of a line: 32 banks, interleaved at 64 bytes. -/
def bankOfLine (line : Nat) : Nat := line % 32

/-- The order of priority of R132 as numbers: drains 0 to 7, feeders and load buses 8 to 15, then the units. -/
def bankRank (engine unit : Nat) (drain : Bool) : Nat :=
  match engine with
  | 1 => if drain then unit else 8 + unit
  | 3 => 16
  | 2 => 17
  | _ => 18
def bankRankWrite : Nat := 19
def bankRankRead : Nat := 20

/-- Elements from index `e`, `n` of them, of a view: the lines that hold them. -/
def Desc.elementLines (d : Desc) (e n : Nat) : List Nat :=
  ((List.range (Nat.min n (d.count - e))).flatMap (fun k =>
    linesOf (d.addr ((e + k) / d.cols.toNat) ((e + k) % d.cols.toNat)) (ceilDiv (fmtBits d.f) 8))).eraseDups

/-- The lines that R160 places: the reads of pass 1 of a CONVERT, its writes in pass 2 and its list header; the writes of an
EXPAND. -/
def Placed.placedLines (p : Placed) (i : Image) (k : Nat) : List Nat :=
  let s := p.d i 0
  let d := p.d i 10
  if p.is 3 1 then
    let q := convertRate s.f
    let half := ceilDiv s.count q
    if k < 12 then []
    else if k < 12 + half then s.elementLines (q * (k - 12)) q
    else if k < 12 + 2 * half then d.elementLines (q * (k - 12 - half)) q
    else if k = 2 * half + 23 ∧ (Attr.ofWord d.attr).esc = true then linesOf d.list.toNat 8
    else []
  else if p.is 3 2 then
    let q := convertRate d.f
    let lead := 12 + 4 * bitLength (Attr.ofWord s.attr).cap
    if k < lead then [] else d.elementLines (q * (k - lead)) q
  else []

/-- The lines that a command asks for in tick k from its start, each with its rank. -/
def Placed.asks (p : Placed) (i : Image) (k : Nat) : List (Nat × Nat) :=
  (p.placedLines i k).map (fun l => (bankRank p.engine p.unit false, l))
    ++ (Config.tileAccess (BitVec.ofNat 256 p.n) k).map (fun x => (bankRank p.engine p.unit x.1, x.2))

/-! ### Transfers -/

/-- Where a transfer goes: a memory address, a port, inflection control. -/
inductive Target where
  | mem (a : Nat) | port (p : Nat) | infl
deriving DecidableEq, Repr

/-- A transfer of at most 128 bytes (R148, R480). `cmd` and `k`: its command in the model and its number there; `acc`: it is
accumulated; `flit`: the flit of its command that carries it. Then the cycles at which the read is issued, its home serves it and
the data stands at the engine; at which the write is issued, is served, and ends. `lines`: lines of tile memory still to be
served at its home. -/
structure Xfer where
  cmd : Nat
  k : Nat
  tile : Nat
  chan : Nat
  src : Option Nat
  dst : Target
  len : Nat
  acc : Bool
  flit : Option Nat
  asked : Option Nat
  read : Option Nat
  got : Option Nat
  sent : Option Nat
  put : Option Nat
  done : Option Nat
  lines : List Nat
deriving DecidableEq, Repr

/-- The place of a transfer in the order in which requests are issued. -/
def Xfer.place (x : Xfer) : Nat := x.cmd * 2 ^ 40 + x.k

/-- Whether a cycle has come. -/
def due (o : Option Nat) (c : Nat) : Bool := o.any (fun x => decide (x ≤ c))

/-- The cut of a row into transfers that keep to one 128-byte line and one flit of `size` bytes; `off` is the row's place in
the message. -/
def flitCut (size : Nat) : Nat → Nat → Nat → Nat → List (Nat × Nat × Nat)
  | 0, _, _, _ => []
  | fuel + 1, a, off, len =>
    if len = 0 then []
    else
      let n := Nat.min len (Nat.min (128 - a % 128) (size - off % size))
      (a, n, off / size) :: flitCut size fuel (a + n) (off + n) (len - n)

/-- The rows of a message cut so: address, length, flit. -/
def flitPieces (size : Nat) : Nat → List (Nat × Nat) → List (Nat × Nat × Nat)
  | _, [] => []
  | off, r :: rs => flitCut size (r.2 + 1) r.1 off r.2 ++ flitPieces size (off + r.2) rs

/-- Bytes of elements in a full flit of a message: 224 of a WRITE (R240), whole blocks of an ACC (Table 6.8). -/
def Placed.flitSize (p : Placed) (i : Image) : Nat :=
  if p.is 0 6 then accBlocksPerFlit (accFormat (p.d i 0)) * 32 * (fmtBits (p.d i 0).f / 8) else 224

/-- The descriptor of a source with an ingest buffer held (R287). -/
def Placed.source (p : Placed) (i : Image) (held : Nat) : Desc :=
  let d := p.d i 0
  if d.region.toNat ≠ 0 ∧ i.ingestRegions.contains d.region.toNat = true then d.displace (held * i.ingestStride) else d

/-- What a transfer moves: source, target, length, accumulated, flit. -/
abbrev Move := Option Nat × Target × Nat × Bool × Option Nat

/-- The transfers of a command, in order; `slots` are the slots and ports of its flits. An RACC to this rank moves block by block,
each an addition (R343, R356). -/
def Placed.moves (p : Placed) (i : Image) (held : Nat) (slots : List (Nat × Nat)) : List Move :=
  let s := p.source i held
  let portOf := fun j => ((slots[j]?).map (fun x => x.2)).getD 0
  let message := fun (d : Desc) => (flitPieces (p.flitSize i) 0 d.runs)
  match p.engine, p.opcode with
  | 0, 0x01 => (copyReqs s (p.d i 10)).map (fun r => (some r.src.toNat, .mem r.dst.toNat, r.len, false, none))
  | 0, 0x02 => (p.d i 10).runs.flatMap (fun r =>
      (cutRun (r.2 / 64 + 2) r.1 r.1 r.2).map (fun q => (none, .mem q.dst.toNat, q.len, false, none)))
  | 0, 0x03 => (copyReqs s (p.d i 10)).map (fun r => (some r.src.toNat, .mem r.dst.toNat, r.len, true, none))
  | 0, 0x04 => (message s).map (fun x => (some x.1, .port (portOf x.2.2), x.2.1, false, some x.2.2))
  | 0, 0x05 => if (p.d i 0).count = 0 then [] else [(none, .port (portOf 0), 0, false, some 0)]
  | 0, 0x06 =>
    if p.arg 10 14 = i.rank then
      let home := ((i.staging.slots[p.arg 24 16]?).map (fun e => e.base)).getD sharedBase
      (flitPieces (4 * fmtBits s.f) 0 s.runs).map (fun x => (some x.1, .mem home, x.2.1, true, none))
    else (message s).map (fun x => (some x.1, .port (portOf x.2.2), x.2.1, false, some x.2.2))
  | 4, 0x03 => (List.range (ceilDiv (p.arg 10 11) 2)).map (fun _ => (none, .infl, 128, false, none))
  | _, _ => []

/-- The channel of a transfer; those of a SEND take none of the four. -/
def Placed.chan (p : Placed) : Nat := if p.engine = 0 then p.unit % 4 else 4

/-- The transfers of the k-th command as it starts at cycle c: what has no source stands at the engine at once. -/
def Placed.xfers (p : Placed) (i : Image) (held cmd c : Nat) (slots : List (Nat × Nat)) : List Xfer :=
  let ms := p.moves i held slots
  ((List.range ms.length).zip ms).map (fun x =>
    { cmd := cmd, k := x.1, tile := p.tile, chan := p.chan, src := x.2.1, dst := x.2.2.1, len := x.2.2.2.1, acc := x.2.2.2.2.1
      flit := x.2.2.2.2.2, asked := none, read := none, got := if x.2.1.isNone then some c else none
      sent := none, put := none, done := none, lines := [] })

/-- Cycles from issue to response of a request to the tiered range (Table 5.7): 256 ticks to T1, 640 to T2. -/
def Hw.tierCycles (h : Hw) (a : Nat) : Nat := if h.controllerOf a < 12 then 512 else 1280

/-- The endpoint of a target. -/
def Hw.targetPoint (h : Hw) : Target → Endpoint
  | .mem a => h.pointOf a
  | .port p => portPoint p
  | .infl => inflPoint

/-- The slice whose write port a target uses. -/
def Target.slice? : Target → Option Nat
  | .mem a => if spaceOf a = .shared then some (sliceOf a) else none
  | .port _ => none
  | .infl => some 8

def Target.tile? : Target → Option Nat
  | .mem a => if spaceOf a = .tileMem then some (tileOf a) else none
  | _ => none

def Target.tiered? : Target → Option Nat
  | .mem a => if spaceOf a = .tiered then some a else none
  | _ => none

/-- Cycle at which a request issued at `c` reaches its home. -/
def reachOf (t : Nat) (p : Endpoint) (c : Nat) : Nat := c + latency (tilePoint t) p

/-! ### The model of a variant -/

/-- A command as it is modelled: the tick at which it stands in its queue, its start and completion, the tick from which its
queue may start another, its flits' slots; for a unit's command the tick of its own that it is in, the cycles spent there, and the
lines still asked for. -/
structure Modelled where
  p : Placed
  arrives : Option Nat
  start : Option Nat
  stop : Option Nat
  free : Option Nat
  slots : List (Nat × Nat)
  own : Nat
  half : Nat
  pend : List (Nat × Nat)
deriving DecidableEq, Repr

/-- A plan variant with an ingest buffer held, modelled. -/
structure Model where
  variant : Nat
  held : Nat
  cmds : List Modelled
  xfers : List Xfer
deriving DecidableEq, Repr

def Modelled.sameQueue (a b : Modelled) : Bool := decide (a.p.tile = b.p.tile ∧ a.p.queue = b.p.queue)

/-- A list with its places. -/
def placesIn {α : Type} (l : List α) : List (Nat × α) := (List.range l.length).zip l

/-- The calendar of a port for a variant. -/
def Image.calendarOf (i : Image) (v p : Nat) : List CalEntry :=
  ((i.calendars.find? (fun c => decide (c.1 = v ∧ c.2.1 = p))).map (fun c => c.2.2)).getD []

/-- The slots of a command's flits: the next of its channel after those of the commands before it (R233). -/
def flitSlots (i : Image) (cs : List Placed) (k : Nat) (p : Placed) : List (Nat × Nat) :=
  let mine := fun (q : Placed) => decide (q.engine = 0 ∧ q.tile = p.tile ∧ q.unit = p.unit)
  if flitsOf i.rank i p = 0 then []
  else
    ((slotsNaming (i.calendarOf p.variant) p.tile p.unit).drop ((((cs.take k).filter mine).map (flitsOf i.rank i)).foldl (· + ·) 0)).take
      (flitsOf i.rank i p)

/-- A variant before its step base. -/
def modelBase (bs : List Byte) (i : Image) (v held : Nat) : Model :=
  let cs := (commandsOf bs).filter (fun p => decide (p.variant = v))
  ⟨v, held, (placesIn cs).map (fun x => ⟨x.2, none, none, none, none, flitSlots i cs x.1 x.2, 0, 0, []⟩), []⟩

/-! #### Tokens and starts, R140 and R141 -/

/-- Posts to a channel up to a tick: a token comes in the tick after its command completes. -/
def Model.posts (m : Model) (t ch u : Nat) : Nat :=
  (m.cmds.filter (fun c => decide (c.p.tile = t ∧ c.p.bits 77 1 = 1 ∧ c.p.bits 84 4 = ch) && c.stop.any (fun e => decide (e + 1 ≤ u)))).length

/-- Waits on a channel whose commands have started by a tick. -/
def Model.waits (m : Model) (t ch u : Nat) : Nat :=
  (m.cmds.filter (fun c => decide (c.p.tile = t ∧ c.p.bits 76 1 = 1 ∧ c.p.bits 80 4 = ch) && due c.start u)).length

/-- R140: the command starts in this tick. -/
def Model.starts (m : Model) (u k : Nat) (c : Modelled) : Bool :=
  c.start.isNone && due c.arrives u && decide (c.p.launch ≤ u)
    && (match ((m.cmds.take k).filter (fun q => q.sameQueue c)).getLast? with
      | none => true
      | some q => due q.free u)
    && (decide (c.p.bits 76 1 = 0) || decide (m.waits c.p.tile (c.p.bits 80 4) u < m.posts c.p.tile (c.p.bits 80 4) u))

/-- Whether a command is carried out by transfers. -/
def Placed.transfers (p : Placed) : Bool := decide (p.engine = 0 ∧ p.opcode ≠ 0) || p.is 4 3

/-- A command at its start: an array's timing is fixed (no stall); a unit's runs tick by tick; one of no transfers ends. -/
def Modelled.begin (i : Image) (u : Nat) (c : Modelled) (none? : Bool) : Modelled :=
  let c := { c with start := some u }
  if c.p.is 1 1 then
    { c with stop := some (u + c.p.ticks i - 1), free := some (u + c.p.occupies i), pend := c.p.asks i 0 }
  else if c.p.transfers then (if none? then { c with stop := some u, free := some (u + 1) } else c)
  else { c with pend := c.p.asks i 0 }

def Model.startOne (i : Image) (u : Nat) (m : Model) (k : Nat) : Model :=
  match m.cmds[k]? with
  | none => m
  | some c =>
    if m.starts u k c then
      let xs := if c.p.transfers then c.p.xfers i m.held k (2 * u) c.slots else []
      { m with cmds := m.cmds.set k (c.begin i u xs.isEmpty), xfers := m.xfers ++ xs }
    else m

/-- The commands that start in a tick, in directory order. -/
def Model.startAll (i : Image) (u : Nat) (m : Model) : Model := (List.range m.cmds.length).foldl (Model.startOne i u) m

/-! #### Issue, R148: in each cycle one request in each direction, at most 512 outstanding -/

/-- Requests of a tile's Access Engine that are outstanding. -/
def Model.outstanding (m : Model) (t c : Nat) : Nat :=
  (m.xfers.filter (fun x => decide (x.tile = t ∧ x.chan < 4)
    && ((x.asked.isSome && !due x.got c) || (x.sent.isSome && !due x.done c)))).length

/-- Channels are served in rotation: their order in a cycle, then the order of the requests. -/
def Xfer.turn (c : Nat) (x : Xfer) : Nat := (if x.chan = 4 then 0 else (x.chan + 4 - c % 4) % 4) * 2 ^ 100 + x.place

/-- The transfer is the first, by `key`, of those that may go and compete with it. -/
def firstOfRivals (xs : List Xfer) (may : Xfer → Bool) (rival : Xfer → Xfer → Bool) (key : Xfer → Nat) (x : Xfer) : Bool :=
  may x && xs.all (fun y => !(may y && rival x y) || decide (key x ≤ key y))

/-- Transfers that share an issue port: those of a tile's Access Engine, those of its SEND. -/
def Xfer.sameIssuer (x y : Xfer) : Bool := decide (x.tile = y.tile ∧ (x.chan = 4) = (y.chan = 4))

/-- The read of a transfer issued: from the tiered range it is answered after its latency. -/
def Hw.askXfer (h : Hw) (c : Nat) (x : Xfer) : Xfer :=
  match x.src with
  | none => x
  | some a =>
    let x := { x with asked := some c }
    if spaceOf a = .tiered then { x with read := some c, got := some (c + h.tierCycles a) }
    else if spaceOf a = .tileMem then { x with lines := linesOf a x.len }
    else x

/-- The write of a transfer issued: a port has it when it arrives, the tiered range answers after its latency. -/
def Hw.sendXfer (h : Hw) (c : Nat) (x : Xfer) : Xfer :=
  let x := { x with sent := some c }
  match x.dst with
  | .port p => let e := reachOf x.tile (portPoint p) c; { x with put := some e, done := some e }
  | .infl => x
  | .mem a =>
    if spaceOf a = .tiered then { x with put := some c, done := some (c + h.tierCycles a) }
    else if spaceOf a = .tileMem then { x with lines := linesOf a x.len }
    else x

def Hw.issueModel (h : Hw) (c : Nat) (m : Model) : Model :=
  let room := fun (x : Xfer) => x.chan = 4 || decide (m.outstanding x.tile c < 512)
  let mayAsk := fun (x : Xfer) => x.src.isSome && x.asked.isNone && room x
  let maySend := fun (x : Xfer) => due x.got c && x.sent.isNone && room x
  { m with xfers := m.xfers.map (fun x =>
      if firstOfRivals m.xfers mayAsk Xfer.sameIssuer (Xfer.turn c) x then h.askXfer c x
      else if firstOfRivals m.xfers maySend Xfer.sameIssuer (Xfer.turn c) x then h.sendXfer c x
      else x) }

/-! #### Slice ports, R180: one read and one write in a cycle, the accumulate unit first, then tiles in ascending order -/

/-- The slice whose read port a transfer waits for. -/
def Hw.readsSlice (h : Hw) (c : Nat) (x : Xfer) : Option Nat :=
  match x.src, x.asked with
  | some a, some q => if spaceOf a = .shared ∧ x.read.isNone = true ∧ reachOf x.tile (h.pointOf a) q ≤ c then some (sliceOf a) else none
  | _, _ => none

/-- The slice whose write port a transfer waits for; an accumulate takes the read port with it. -/
def Hw.writesSlice (h : Hw) (c : Nat) (x : Xfer) : Option Nat :=
  match x.sent with
  | none => none
  | some q => if x.put.isNone = true ∧ reachOf x.tile (h.targetPoint x.dst) q ≤ c then x.dst.slice? else none

def Xfer.sliceTurn (x : Xfer) : Nat := flagNat (!x.acc) * 2 ^ 100 + x.place

/-- The port of a slice that a transfer waits for: slice, and whether it needs the read and the write port. -/
def Hw.slicePort (h : Hw) (c : Nat) (x : Xfer) : Option (Nat × Bool × Bool) :=
  match h.readsSlice c x, h.writesSlice c x with
  | some s, _ => some (s, true, false)
  | none, some s => some (s, x.acc, true)
  | none, none => none

def slicePortsMeet : Option (Nat × Bool × Bool) → Option (Nat × Bool × Bool) → Bool
  | some a, some b => decide (a.1 = b.1) && ((a.2.1 && b.2.1) || (a.2.2 && b.2.2))
  | _, _ => false

/-- The transfers that the slices serve in a cycle. A non-scheduled transfer ahead of one costs it a cycle. -/
def Hw.serveSlices (h : Hw) (c : Nat) (m : Model) : Model :=
  let port := h.slicePort c
  { m with xfers := m.xfers.map (fun x =>
      if firstOfRivals m.xfers (fun y => (port y).isSome) (fun y z => slicePortsMeet (port y) (port z)) Xfer.sliceTurn x then
        if (h.readsSlice c x).isSome then
          { x with read := some c, got := (x.src.map (fun a => c + 1 + latency (h.pointOf a) (tilePoint x.tile))) }
        else
          { x with put := some c, done := some (c + 1 + if x.acc then latency (h.targetPoint x.dst) (tilePoint x.tile) else 0) }
      else x) }

/-! #### Banks, R132: in each bank one line in a cycle, by rank; one that is not served asks again -/

/-- A line asked for in a tile: its place in the order of priority. -/
structure Ask where
  tile : Nat
  line : Nat
  order : Nat
deriving DecidableEq, Repr

/-- The tile whose memory a transfer waits for now, and its rank there. -/
def bankHome (c : Nat) (x : Xfer) : Option (Nat × Nat) :=
  match x.sent, x.asked, x.src, x.dst.tile? with
  | some q, _, _, some t => if x.put.isNone = true ∧ reachOf x.tile (tilePoint t) q ≤ c then some (t, bankRankWrite) else none
  | none, some q, some a, _ =>
    if spaceOf a = .tileMem ∧ x.read.isNone = true ∧ reachOf x.tile (tilePoint (tileOf a)) q ≤ c then some (tileOf a, bankRankRead) else none
  | _, _, _, _ => none

def askOrder (rank k pos : Nat) : Nat := rank * 2 ^ 120 + k * 2 ^ 20 + pos

def Model.bankAsks (m : Model) (c : Nat) : List Ask :=
  (placesIn m.cmds).flatMap (fun x => (placesIn x.2.pend).map (fun y => ⟨x.2.p.tile, y.2.2, askOrder y.2.1 x.1 y.1⟩))
    ++ m.xfers.flatMap (fun x => match bankHome c x with
      | none => []
      | some tr => (placesIn x.lines).map (fun y => ⟨tr.1, y.2, askOrder tr.2 x.place y.1⟩))

/-- The bank serves this one. -/
def granted (asks : List Ask) (a : Ask) : Bool :=
  asks.all (fun b => decide (b.tile ≠ a.tile ∨ bankOfLine b.line ≠ bankOfLine a.line) || decide (a.order ≤ b.order))

/-- The numbered items of a list that are not served. -/
def unserved {α : Type} (l : List α) (served : Nat → α → Bool) : List α :=
  ((placesIn l).filter (fun y => !served y.1 y.2)).map (fun y => y.2)

def Model.serveBanks (c : Nat) (m : Model) : Model :=
  let asks := m.bankAsks c
  { m with
    cmds := (placesIn m.cmds).map (fun x =>
      { x.2 with pend := unserved x.2.pend (fun pos l => granted asks ⟨x.2.p.tile, l.2, askOrder l.1 x.1 pos⟩) })
    xfers := m.xfers.map (fun x => match bankHome c x with
      | none => x
      | some tr =>
        let left := unserved x.lines (fun pos l => granted asks ⟨tr.1, l, askOrder tr.2 x.place pos⟩)
        let x := { x with lines := left }
        if left.isEmpty = false then x
        else if tr.2 = bankRankRead then { x with read := some c, got := some (c + latency (tilePoint tr.1) (tilePoint x.tile)) }
        else { x with put := some c, done := some (c + if x.acc then latency (tilePoint tr.1) (tilePoint x.tile) else 0) }) }

/-! #### Progress -/

/-- A command that runs, at the end of a cycle: an array goes on whatever the banks did (no stall); a unit goes on to its next
tick when its lines have been served. -/
def Modelled.progress (i : Image) (c : Nat) (x : Modelled) : Modelled :=
  if x.start.isNone || x.p.transfers then x
  else if x.p.is 1 1 then
    if c % 2 = 1 ∧ x.stop.any (fun e => decide (c / 2 < e)) = true then
      { x with own := x.own + 1, pend := x.pend ++ x.p.asks i (x.own + 1) } else x
  else if x.stop.isSome then x
  else if x.half = 0 ∨ x.pend.isEmpty = false then { x with half := x.half + 1 }
  else if x.own + 1 = x.p.ticks i then { x with stop := some (c / 2), free := some (c / 2 + 1) }
  else { x with own := x.own + 1, half := 0, pend := x.p.asks i (x.own + 1) }

/-- The tick in which a flit is sent: at its slot, or when it is ready after it. -/
def flitTick (slot ready : Nat) : Nat := Nat.max (slot / 125 * 128 + slotTick (slot % 125)) ready

/-- The tick in which the last byte of flit j of a command reaches its port. -/
def flitReady (xs : List Xfer) (j : Nat) : Nat :=
  ceilDiv (((xs.filter (fun x => decide (x.flit = some j))).map (fun x => x.put.getD 0)).foldl Nat.max 0) 2

/-- The tick in which a command carried out by transfers completes, once all of them have ended (Table 4.3, R480). -/
def Modelled.ended (x : Modelled) (xs : List Xfer) : Nat :=
  let last := (xs.map (fun y => y.done.getD 0)).foldl Nat.max 0 / 2
  if x.p.is 4 3 then last + 1
  else if x.p.is 0 5 then x.start.getD 0 + Config.remoteTicks (BitVec.ofNat 256 x.p.n)
  else ((placesIn x.slots).map (fun s => flitTick s.2.1 (flitReady xs s.1))).foldl Nat.max last

def Modelled.finish (xfers : List Xfer) (k : Nat) (x : Modelled) : Modelled :=
  let xs := xfers.filter (fun y => decide (y.cmd = k))
  if x.start.isSome && x.p.transfers && x.stop.isNone && xs.all (fun y => y.done.isSome) then
    { x with stop := some (x.ended xs), free := some (x.ended xs + 1) }
  else x

def Model.progress (i : Image) (c : Nat) (m : Model) : Model :=
  { m with cmds := (placesIn m.cmds).map (fun x => (x.2.progress i c).finish m.xfers x.1) }

/-! #### The command fetchers, R135 and R136 -/

/-- Cycles from a fetch to the arrival of the command: the latency of the tier that holds the stream. -/
def Hw.fetchCycles (h : Hw) (t a : Nat) : Nat :=
  if spaceOf a = .tiered then h.tierCycles a else latency (tilePoint t) (h.pointOf a) + latency (h.pointOf a) (tilePoint t)

/-- The place among the image's streams of the stream that a command stands in. -/
def streamOf (bs : List Byte) (p : Placed) : Nat := ((placesOf bs 0x0003).findIdx? (fun e => decide (e.1 = p.sect))).getD 0

/-- Commands of a queue that have been fetched and have not started. -/
def Model.queued (m : Model) (c : Modelled) : Nat :=
  (m.cmds.filter (fun q => q.sameQueue c && q.arrives.isSome && q.start.isNone)).length

/-- In each cycle the fetcher takes the next command of each stream, if its queue has an entry free. -/
def Hw.fetchModel (h : Hw) (bs : List Byte) (i : Image) (c : Nat) (m : Model) : Model :=
  { m with cmds := m.cmds.map (fun x =>
      if x.arrives.isNone && m.cmds.all (fun q => decide (q.p.sect ≠ x.p.sect ∨ x.p.item ≤ q.p.item) || q.arrives.isSome)
          && decide (m.queued x < queueDepth x.p.queue) then
        { x with arrives := some (ceilDiv (c + h.fetchCycles x.p.tile (i.streamAddr (streamOf bs x.p))) 2) }
      else x) }

/-! #### The slot -/

/-- One cycle. -/
def Hw.modelCycle (h : Hw) (bs : List Byte) (i : Image) (c : Nat) (m : Model) : Model :=
  let m := if c % 2 = 0 then m.startAll i (c / 2) else m
  h.fetchModel bs i c ((Model.serveBanks c (h.serveSlices c (h.issueModel c m))).progress i c)

/-- A variant from the step base to the slot end. -/
def Hw.modelVariant (h : Hw) (bs : List Byte) (i : Image) (v held : Nat) : Model :=
  let m := modelBase bs i v held
  if m.cmds.isEmpty then m else (List.range (2 * i.slot)).foldl (fun m c => h.modelCycle bs i c m) m

/-- Every plan variant with every ingest buffer (R287, R292). -/
def Hw.schedule (h : Hw) (bs : List Byte) (i : Image) : List Model :=
  (List.range i.variants).flatMap (fun v => (List.range i.ingestK).map (fun k => h.modelVariant bs i v k))

end Sys2Proof.Machine
end

