-- ==== Sys2Proof/Machine/Timed.lean ====
section
/-!
DEFINITION. The checks of admission that the modelled schedule decides (R294, Table 7.11): tokens and replay safety, escape-table
fills, deadlines, flit slots, slice ports and the die bridge, the bank budget of Table 5.7, the slack of the command fetchers. The
readings taken where the spec names a limit without its measure are those of assumptions 91 and 92.
-/
namespace Sys2Proof.Machine

/-- A finding on a modelled command: the modelled tick of the failure and the limit (R297). -/
def Modelled.finding (x : Modelled) (code detail limit : Nat) : Finding := { x.p.finding code with detail := detail, limit := limit }

/-- The findings on the commands of every model. -/
def eachModelled (ms : List Model) (f : Model → Nat → Modelled → Option Finding) : List (Option Finding) :=
  ms.flatMap (fun m => (placesIn m.cmds).map (fun x => f m x.1 x.2))

/-- The command that stands before another in its queue. -/
def Model.before (m : Model) (k : Nat) (x : Modelled) : Option Modelled := ((m.cmds.take k).filter (fun q => q.sameQueue x)).getLast?

/-- The transfers of the k-th command. -/
def Model.xfersOf (m : Model) (k : Nat) : List Xfer := m.xfers.filter (fun x => decide (x.cmd = k))

/-! ### 0x07 SEQUENCE: R141, R328, R386 -/

/-- R141: a post that would bring its channel above 15. -/
def Model.tooMany (m : Model) (x : Modelled) : Bool :=
  let ch := x.p.bits 84 4
  decide (x.p.bits 77 1 = 1) && x.stop.any (fun e => decide (15 + m.waits x.p.tile ch e < m.posts x.p.tile ch (e + 1)))

/-- R141: a wait that no post supplies: its command stands at the head of its queue and never starts. -/
def Model.unsupplied (m : Model) (k : Nat) (x : Modelled) : Bool :=
  decide (x.p.bits 76 1 = 1) && x.start.isNone && x.arrives.isSome
    && (match m.before k x with
      | none => true
      | some q => q.free.isSome)

/-- What is left of runs of bytes without those of one run. -/
def cutOut (rs : List (Nat × Nat)) (x : Nat × Nat) : List (Nat × Nat) :=
  (rs.flatMap (fun r =>
    let next := Nat.max r.1 (x.1 + x.2)
    [(r.1, Nat.min r.2 (x.1 - r.1)), (next, r.1 + r.2 - next)])).filter (fun r => decide (0 < r.2))

/-- The bytes that two lists of runs share. -/
def commonRuns (a b : List (Nat × Nat)) : List (Nat × Nat) :=
  (a.flatMap (fun x => b.map (fun y =>
    let lo := Nat.max x.1 y.1
    (lo, Nat.min (x.1 + x.2) (y.1 + y.2) - lo)))).filter (fun r => decide (0 < r.2))

/-- What a command reads or accumulates into. -/
def Placed.takes (p : Placed) (i : Image) : List (Nat × Nat) := p.reads i ++ (if p.is 0 3 then (p.d i 10).runs else [])

/-- R328: bytes that a compute-phase command takes, of those that compute-phase commands of the step write, have been written by
the time it starts. -/
def Model.replaySafe (m : Model) (i : Image) (x : Modelled) : Bool :=
  match x.start with
  | none => true
  | some s =>
    let writers := m.cmds.filter (fun w => decide (w.p.launch < i.updLaunch))
    let early := fun (w : Modelled) => w.stop.any (fun e => decide (e < s))
    let late := (writers.filter (fun w => !early w)).flatMap (fun w => w.p.writes i)
    let written := (writers.filter early).flatMap (fun w => w.p.writes i)
    decide (i.updLaunch ≤ x.p.launch) || (written.foldl cutOut (commonRuns (x.p.takes i) late)).isEmpty

/-- R386: a COPY that records the epoch slot completes before the launch of the command that checks it. -/
def Model.epochOk (m : Model) (i : Image) (x : Modelled) : Bool :=
  (x.p.views i).srcs.all (fun d => !d.epoch || m.cmds.any (fun q =>
    q.p.is 0 1 && decide (q.p.tile = x.p.tile) && q.stop.any (fun e => decide (e < x.p.launch)) && (q.p.d i 10).epoch
      && decide ((q.p.d i 10).eslot = d.eslot)))

def sequenceFindings (ms : List Model) (i : Image) : List (Option Finding) :=
  eachModelled ms (fun m k x => need (!m.tooMany x && !m.unsupplied k x && m.replaySafe i x && m.epochOk i x) (x.p.finding 0x07))

/-! ### 0x0C BUFFER: R155 -/

/-- Ticks of an escape-table fill with the declared worst case: the header, the binary search, the entries at 8 a tick.
DESIGN CHOICE: assumption 91. -/
def fillTicks (worst : Nat) : Nat := 1 + bitLength worst + ceilDiv worst 8

/-- A listed operand: its list is written in the slot, each writing of it ends 384 ticks before the launch or begins no earlier
than it, and its fill fits the 384 ticks. -/
def Model.fillOk (m : Model) (i : Image) (x : Modelled) (d : Desc) : Bool :=
  let list := [(d.list.toNat, 8 + 8 * (Attr.ofWord d.attr).cap)]
  let writers := m.cmds.filter (fun w => runsMeet (w.p.writes i) list)
  let early := fun (w : Modelled) => w.stop.any (fun e => decide (e + 384 ≤ x.p.launch))
  !d.listed || (writers.any early && writers.all (fun w => early w || w.start.all (fun s => decide (x.p.launch ≤ s)))
    && decide (fillTicks (i.worst d.list.toNat) ≤ 384))

def bufferFindings (ms : List Model) (i : Image) : List (Option Finding) :=
  eachModelled ms (fun m _ x => need (!x.p.is 1 1 || (m.fillOk i x (x.p.d i 0) && m.fillOk i x (x.p.d i 10)))
    (x.finding 0x0C x.p.launch 384))

/-! ### 0x0D DEADLINE: completions, and R125 -/

/-- R125: an MMUL launched before the occupancy of the one before it ends. -/
def Model.occupied (m : Model) (k : Nat) (x : Modelled) : Option Nat :=
  if x.p.is 1 1 then (m.before k x).bind (fun q => q.free.filter (fun f => decide (x.p.launch < f))) else none

def deadlineFindings (ms : List Model) (i : Image) : List (Option Finding) :=
  eachModelled ms (fun m k x => match m.occupied k x with
    | some f => some (x.finding 0x0D x.p.launch f)
    | none => need (x.stop.any (fun e => decide (e ≤ x.p.deadline))) (x.finding 0x0D (x.stop.getD i.slot) x.p.deadline))

/-! ### 0x0F PORT_INTERVAL: flits, slice ports, the die bridge, mesh links -/

/-- R233: the first flit of a command that is not ready by the start of its slot: port, tick ready, tick of the slot. -/
def Model.lateFlit (m : Model) (k : Nat) (x : Modelled) : Option (Nat × Nat × Nat) :=
  ((placesIn x.slots).map (fun s => (s.2.2, flitReady (m.xfersOf k) s.1, flitTick s.2.1 0))).find? (fun e => decide (e.2.2 < e.2.1))

/-- The interval of a cycle. -/
def intervalOf (c : Nat) : Nat := c / 256

/-- Requests that reach a slice: read or write port, slice, interval. An accumulate takes both ports (R180, R184). -/
def Hw.sliceLoad (h : Hw) (x : Xfer) : List (Bool × Nat × Nat) :=
  let read := match x.src, x.asked with
    | some a, some q => if spaceOf a = .shared then [(false, sliceOf a, intervalOf (reachOf x.tile (h.pointOf a) q))] else []
    | _, _ => []
  let write := match x.dst.slice?, x.sent with
    | some s, some q =>
      let n := intervalOf (reachOf x.tile (h.targetPoint x.dst) q)
      (true, s, n) :: (if x.acc then [(false, s, n)] else [])
    | _, _ => []
  read ++ write

/-- The crossings of a transfer: from which die, in which interval, how many bytes. -/
def Hw.bridgeLoad (h : Hw) (x : Xfer) : List (Nat × Nat × Nat) :=
  let here := (tilePoint x.tile).die
  let read := match x.src, x.read with
    | some a, some c => if (h.pointOf a).die = here then [] else [((h.pointOf a).die, intervalOf c, x.len)]
    | _, _ => []
  let write := match x.sent with
    | none => []
    | some c => if (h.targetPoint x.dst).die = here then [] else [(here, intervalOf c, x.len)]
  read ++ write

/-- 10 TB/s in an interval of 160 ns (R32). -/
def bridgeBytes : Nat := 1600000

/-! #### What peers send, R240 and R356 -/

/-- A class 1 flit of a receive tally: the place of the tally among the image's, the port, where its data land, the cycle of its
delivery, and its blocks. What peers send is not in the image: assumption 6. -/
structure Arrival where
  tally : Nat
  port : Nat
  addr : Nat
  cycle : Nat
  blocks : Nat
deriving DecidableEq, Repr

/-- The flits that the receive tallies of a variant count (R234). -/
def arrivals (bs : List Byte) (i : Image) (v : Nat) : List Arrival :=
  ((placesIn i.tallies).filter (fun t => decide (t.2.1 = v))).flatMap (fun t => (placesIn t.2.2.2).flatMap (fun n =>
    (List.range n.2.toNat).map (fun k =>
      let a := Config.arriving bs v t.2.2.1 n.1 k
      ⟨t.1, t.2.2.1, a.1, a.2.1, a.2.2⟩)))

/-- The 128-byte lines of runs of bytes, by their addresses. -/
def lines128 (rs : List (Nat × Nat)) : List Nat :=
  (rs.filter (fun r => decide (0 < r.2))).flatMap (fun r =>
    (List.range ((r.1 + r.2 - 1) / 128 + 1 - r.1 / 128)).map (fun k => (r.1 / 128 + k) * 128))

/-- The cycle at which the data of a flit reach their home. -/
def Hw.arrives (h : Hw) (x : Arrival) : Nat := x.cycle + latency (portPoint x.port) (h.pointOf x.addr)

/-- Requests of a flit to a slice: an addition in both ports for each block of a contribution (R356), else a write of each line. -/
def Hw.arrivalLoad (h : Hw) (i : Image) (x : Arrival) : List (Bool × Nat × Nat) :=
  let n := intervalOf (h.arrives x)
  let sums := i.staging.slots.any (fun e => decide (e.base ≤ x.addr ∧ x.addr < e.base + 128 * e.blocks))
  if spaceOf x.addr ≠ .shared then []
  else if sums then
    (List.range (Nat.max 1 (Nat.min 6 x.blocks))).flatMap (fun _ => [(true, sliceOf x.addr, n), (false, sliceOf x.addr, n)])
  else (lines128 [(x.addr, 224)]).map (fun a => (true, sliceOf a, n))

/-- Requests of an update entry to slices: its gradient's blocks are read and its copies written evenly over its duration (R180,
R371). DESIGN CHOICE: assumption 92. -/
def updateLoad (i : Image) (u : UpdEntry) (stop : Nat) : List (Bool × Nat × Nat) :=
  let span := u.duration i
  let spread := fun (write : Bool) (as : List Nat) => (placesIn as).flatMap (fun a =>
    if spaceOf a.2 = .shared then [(write, sliceOf a.2, (stop - span + a.1 * span / as.length) / 128)] else [])
  spread false (lines128 ((u.slots i).map (fun e => (e.base, 128 * e.blocks))))
    ++ spread true (lines128 ((u.copies i).flatMap (fun c => c.extent u)))

/-- The update entries as they are modelled: place, entry, end. -/
def Image.entryEnds (i : Image) : List (Nat × UpdEntry × Nat) :=
  (List.range 12).flatMap (fun d =>
    updEnds i 0 (((placesIn i.staging.updates).filter (fun x => decide (x.2.engine = d))).foldr insertUpd []))

/-- Requests of a model to slices, and bytes over the bridge. -/
def Hw.sliceLoads (h : Hw) (bs : List Byte) (i : Image) (m : Model) : List (Bool × Nat × Nat) :=
  m.xfers.flatMap h.sliceLoad ++ (arrivals bs i m.variant).flatMap (h.arrivalLoad i)
    ++ i.entryEnds.flatMap (fun x => updateLoad i x.2.1 x.2.2)

/-- The crossing of a flit's data. -/
def Hw.arrivalCrossing (h : Hw) (x : Arrival) : List (Nat × Nat × Nat) :=
  if (portPoint x.port).die = (h.pointOf x.addr).die then [] else [((portPoint x.port).die, intervalOf (h.arrives x), 224)]

def Hw.bridgeLoads (h : Hw) (bs : List Byte) (i : Image) (m : Model) : List (Nat × Nat × Nat) :=
  m.xfers.flatMap h.bridgeLoad ++ (arrivals bs i m.variant).flatMap h.arrivalCrossing

/-- Of the requests `mine` one to a slice port that has more in its interval than its 256 cycles serve (R180): its port, slice and
interval. -/
def fullSlice (all mine : List (Bool × Nat × Nat)) : Option (Bool × Nat × Nat) :=
  mine.find? (fun l => decide (256 < (all.filter (fun y => decide (y = l))).length))

/-- Of the crossings `mine` one in whose interval the bridge carries too much in its direction (R34). -/
def fullBridge (all mine : List (Nat × Nat × Nat)) : Option (Nat × Nat × Nat) :=
  mine.find? (fun l =>
    decide (bridgeBytes < ((all.filter (fun y => decide (y.1 = l.1 ∧ y.2.1 = l.2.1))).map (fun y => y.2.2)).foldl (· + ·) 0))

/-- A finding on an over-subscribed slice port or bridge: the first tick of the interval and its end. -/
def loadFinding (f : Finding) : Option (Bool × Nat × Nat) → Option (Nat × Nat × Nat) → Option Finding
  | some s, _ => some { f with unit := s.2.1, detail := 128 * s.2.2, limit := 128 * s.2.2 + 128 }
  | none, some b => some { f with unit := b.1, detail := 128 * b.2.1, limit := 128 * b.2.1 + 128 }
  | none, none => none

def Hw.portFindings (h : Hw) (ms : List Model) (bs : List Byte) (i : Image) : List (Option Finding) :=
  ms.flatMap (fun m =>
    let slices := h.sliceLoads bs i m
    let bridge := h.bridgeLoads bs i m
    (placesIn m.cmds).map (fun c =>
      let xs := m.xfersOf c.1
      match m.lateFlit c.1 c.2, loadFinding (c.2.finding 0x0F 0 0) (fullSlice slices (xs.flatMap h.sliceLoad))
          (fullBridge bridge (xs.flatMap h.bridgeLoad)) with
      | some e, _ => some { c.2.finding 0x0F e.2.1 e.2.2 with unit := e.1 }
      | none, some f => some f
      | none, none => need (xs.isEmpty || !Config.meshFull bs m.variant m.held c.1) (c.2.finding 0x0F (c.2.start.getD 0) 0))
    ++ (placesIn (placesOf bs 0x0006)).map (fun x =>
      let mine := (arrivals bs i m.variant).filter (fun a => decide (a.tally = x.1))
      loadFinding (Finding.at 0x0F x.2.1 0 x.2.2) (fullSlice slices (mine.flatMap (h.arrivalLoad i)))
        (fullBridge bridge (mine.flatMap h.arrivalCrossing)))
    ++ i.entryEnds.map (fun x =>
      loadFinding (inSection bs 0x0F 0x000F x.1) (fullSlice slices (updateLoad i x.2.1 x.2.2)) none))

/-! ### 0x10 BANK_BUDGET: R204 and the access rule of R197 -/

/-- A request to a controller: 0 to 11 the stacks, 12 to 19 the channels. `issued` and `reach` in ticks, `back` the ticks of the
way back to the requester. -/
structure BankReq where
  cmd : Nat
  ctl : Nat
  addr : Nat
  bank : Nat
  number : Nat
  row : Nat
  issued : Nat
  reach : Nat
  back : Nat
deriving DecidableEq, Repr

/-- The row of a bank that an address lies in (Tables 5.4 and 5.5). -/
def Hw.rowOf (h : Hw) (a : Nat) : Nat :=
  let f := tierFrame (h.tierEntry (pageOf a))
  if h.controllerOf a < 12 then f / 12 else f / 8 * 16 + a / 2 ^ 17 % 16

def Hw.bankReq (h : Hw) (x : Xfer) (a c : Nat) : BankReq :=
  ⟨x.cmd, h.controllerOf a, a, h.bankOf a, h.refreshBankOf a, h.rowOf a, c / 2, ceilDiv (reachOf x.tile (h.pointOf a) c) 2,
   latencyTicks (h.pointOf a) (tilePoint x.tile)⟩

/-- The requests of a transfer to the tiered range. -/
def Hw.bankReqs (h : Hw) (x : Xfer) : List BankReq :=
  (match x.src, x.asked with
    | some a, some c => if spaceOf a = .tiered then [h.bankReq x a c] else []
    | _, _ => [])
  ++ (match x.dst.tiered?, x.sent with
    | some a, some c => [h.bankReq x a c]
    | _, _ => [])

/-- The requests of a peer's flit to the tiered range, which no command of this rank waits for: under the number of no command. -/
def Hw.arrivalReqs (h : Hw) (none_ : Nat) (x : Arrival) : List BankReq :=
  if spaceOf x.addr ≠ .tiered then []
  else
    let c := x.cycle
    let home := h.pointOf x.addr
    (lines128 [(x.addr, 224)]).map (fun a =>
      ⟨none_, h.controllerOf a, a, h.bankOf a, h.refreshBankOf a, h.rowOf a, c / 2, ceilDiv (h.arrives x) 2,
        latencyTicks home (portPoint x.port)⟩)

def BankReq.isT2 (q : BankReq) : Bool := decide (12 ≤ q.ctl)
/-- The pseudo-channel or subchannel, numbered over the module. -/
def BankReq.bus (q : BankReq) : Nat := q.ctl * 64 + (if q.isT2 then q.bank / 16 else q.bank / 32)
def BankReq.bankKey (q : BankReq) : Nat := q.ctl * 2048 + q.bank
/-- Ticks of one request on the data bus, between activations of a bank, and to the response (Table 5.7). -/
def BankReq.beat (q : BankReq) : Nat := if q.isT2 then 6 else 4
def BankReq.cycle (q : BankReq) : Nat := if q.isT2 then 48 else 40
def BankReq.latency (q : BankReq) : Nat := if q.isT2 then 640 else 256

/-- Requests in the order in which they reach their controllers; of one tick in command order (R204). -/
def insertReq (q : BankReq) : List BankReq → List BankReq
  | [] => [q]
  | r :: rs => if q.reach ≤ r.reach then q :: r :: rs else r :: insertReq q rs

/-- How buses and banks stand: a bus's first free tick and its last four activations; a bank's last activation and open row. -/
structure BankSt where
  buses : SMap (Nat × List Nat)
  banks : SMap (Nat × Nat)
deriving DecidableEq, Repr

/-- The first tick from `t` at which a bank is not in refresh (R202, R204), the step base lying `phase` ticks into a period. -/
def afterRefresh (q : BankReq) (phase t : Nat) : Nat :=
  let start := if q.isT2 then 96 * q.number else 48 * q.number
  let span := if q.isT2 then 224 else 160
  let d := (t + phase + 1536 - start % 1536) % 1536
  if d < span then t + (span - d) else t

/-- The tick at which a request is served under the limits of Table 5.7. -/
def BankSt.serve (st : BankSt) (phase : Nat) (q : BankReq) : BankSt × Nat :=
  let bus := st.buses.get (0, []) q.bus
  let t := Nat.max q.reach bus.1
  match st.banks.find? q.bankKey with
  | some (last, row) =>
    if row = q.row then
      let s := afterRefresh q phase t
      (⟨st.buses.insert q.bus (s + q.beat, bus.2), st.banks⟩, s)
    else
      let four := if q.isT2 then 0 else ((bus.2[3]?).map (fun a => a + 24)).getD 0
      let s := afterRefresh q phase (Nat.max (Nat.max t (last + q.cycle)) four)
      (⟨st.buses.insert q.bus (s + q.beat, (s :: bus.2).take 4), st.banks.insert q.bankKey (s, q.row)⟩, s)
  | none =>
    let four := if q.isT2 then 0 else ((bus.2[3]?).map (fun a => a + 24)).getD 0
    let s := afterRefresh q phase (Nat.max t four)
    (⟨st.buses.insert q.bus (s + q.beat, (s :: bus.2).take 4), st.banks.insert q.bankKey (s, q.row)⟩, s)

/-- Requests with the ticks at which they are served. -/
def serveAll (phase : Nat) : BankSt → List BankReq → List (BankReq × Nat)
  | _, [] => []
  | st, q :: qs =>
    let r := st.serve phase q
    (q, r.2) :: serveAll phase r.1 qs

/-- The request is answered within its latency, behind one non-scheduled transfer (Table 5.7). DESIGN CHOICE: assumption 92. -/
def answered (q : BankReq) (served : Nat) : Bool := decide (served + 2 * q.beat + q.back ≤ q.issued + q.latency)

/-- Table 5.7: at most 64 tags of a T1 bank and 8,192 of a stack controller are held as a request is issued. -/
def tagsOk (all : List BankReq) (q : BankReq) : Bool :=
  let held := all.filter (fun r => decide (r.ctl = q.ctl ∧ r.issued ≤ q.issued ∧ q.issued < r.issued + 256))
  q.isT2 || (decide ((held.filter (fun r => decide (r.bank = q.bank))).length ≤ 64) && decide (held.length ≤ 8192))

/-- The requests of a model that break a limit, with the ticks at which they are served: a step base may lie at any multiple of
128 ticks in a refresh period (R202, R284). -/
def Hw.bankBreaks (h : Hw) (bs : List Byte) (i : Image) (m : Model) : List (BankReq × Nat) :=
  let all := (m.xfers.flatMap h.bankReqs
    ++ (arrivals bs i m.variant).flatMap (fun x => h.arrivalReqs (m.cmds.length + x.tally) x)).foldr insertReq []
  (List.range 12).flatMap (fun p => (serveAll (128 * p) ⟨[], []⟩ all).filter (fun r => !answered r.1 r.2 || !tagsOk all r.1))

/-- The unit that a bank-budget finding concerns: the stack or the channel. -/
def BankReq.unit (q : BankReq) : Nat := if q.isT2 then q.ctl - 12 else q.ctl

def Hw.bankFindings (h : Hw) (ms : List Model) (bs : List Byte) (i : Image) : List (Option Finding) :=
  ms.flatMap (fun m =>
    let bad := h.bankBreaks bs i m
    let on := fun (cmd : Nat) (f : Finding) => (bad.find? (fun r => decide (r.1.cmd = cmd))).map (fun r =>
      { f with unit := r.1.unit, detail := r.2, limit := r.1.issued + r.1.latency })
    (placesIn m.cmds).map (fun x => on x.1 (x.2.finding 0x10 0 0))
      ++ (placesIn (placesOf bs 0x0006)).map (fun x => on (m.cmds.length + x.1) (Finding.at 0x10 x.2.1 0 x.2.2)))

/-- Requests of a model to a controller issued in a span of ticks. -/
def Hw.requestsIn (h : Hw) (m : Model) (ctl start stop : Nat) : Nat :=
  ((m.xfers.flatMap h.bankReqs).filter (fun q => decide (q.ctl = ctl ∧ start ≤ q.issued ∧ q.issued < stop))).length

/-- Table 9.12: an entry's traffic beside the commands' requests to its stack while it runs: 2,048 bytes a tick.
DESIGN CHOICE: assumption 92. -/
def Hw.updateTraffic (h : Hw) (ms : List Model) (bs : List Byte) (i : Image) : List (Option Finding) :=
  let us := (List.range i.staging.updates.length).zip i.staging.updates
  (List.range 12).flatMap (fun d =>
    (updEnds i 0 ((us.filter (fun x => decide (x.2.engine = d))).foldr insertUpd [])).map (fun x =>
      let start := x.2.2 - x.2.1.duration i
      need (ms.all (fun m => decide (128 * h.requestsIn m d start x.2.2 + x.2.1.traffic i ≤ 2048 * (x.2.2 - start))))
        { inSection bs 0x10 0x000F x.1 with unit := d, detail := start, limit := x.2.2 }))

/-- Whether a transfer has a request to a page between two ticks. -/
def Hw.touchesPage (h : Hw) (x : Xfer) (pages : List Nat) (start stop : Nat) : Bool :=
  (h.bankReqs x).any (fun q => pages.contains (pageOf q.addr) && decide (q.issued < stop ∧ start < q.issued + q.latency))

/-- Pages of runs of bytes. -/
def runPages (rs : List (Nat × Nat)) : List Nat :=
  (rs.filter (fun r => decide (spaceOf r.1 = .tiered ∧ 0 < r.2))).flatMap (fun r => (Region.pages ⟨0, 0, 2, r.1, r.2⟩))

/-- R197: no scheduled access to P or Q within the interval of an exchange: of a command, of an update entry, or of a peer's
message (R283). The exchange, 32,768 requests on its lane and as many on the stack, fits beside the commands' requests.
DESIGN CHOICE: assumption 92. -/
def Hw.exchangeOk (h : Hw) (ms : List Model) (i : Image) (v : Nat) (e : MigEntry) : Bool :=
  let stop := e.launch + Config.exchangeTicks
  let mine := ms.filter (fun m => decide (m.variant = v))
  let room := fun (m : Model) (ctl units beat : Nat) =>
    decide (h.requestsIn m ctl e.launch stop + 32768 ≤ units * Config.exchangeTicks / beat)
  mine.all (fun m => m.xfers.all (fun x => !h.touchesPage x [e.p, e.q] e.launch stop)
      && room m (h.controllerOf (e.p * 0x200000)) 64 4 && room m (12 + h.laneOf e.q) 4 6)
    && i.entryEnds.all (fun x => decide (stop ≤ x.2.2 - x.2.1.duration i ∨ x.2.2 ≤ e.launch)
      || (runPages (x.2.1.state ++ (x.2.1.copies i).flatMap (fun c => c.extent x.2.1))).all (fun n => decide (n ≠ e.p ∧ n ≠ e.q)))
    && i.inbound.all (fun b => decide (b.1 ≠ v) || decide (128 * (b.2.2 + 1) + pathTime i.levels ≤ e.launch)
      || ((i.region? b.2.1).map Region.pages).all (fun ps => !ps.contains e.p && !ps.contains e.q))

def Hw.exchangeFindings (h : Hw) (ms : List Model) (bs : List Byte) (i : Image) : List (Option Finding) :=
  ((placesOf bs 0x000B).zip i.migrations).flatMap (fun x =>
    eachOk x.2.2 (h.exchangeOk ms i x.1.2.variant) (fun k =>
      let e := (x.2.2[k]?).getD ⟨0, 0, 0, 0⟩
      { Finding.at 0x10 x.1.1 k x.1.2 with unit := h.laneOf e.q, detail := e.launch, limit := e.launch + Config.exchangeTicks }))

/-! ### 0x11 SLACK: R136, R173 -/

def slackFindings (ms : List Model) (i : Image) : List (Option Finding) :=
  eachModelled ms (fun _ _ x =>
    let a := x.arrives.getD i.slot
    let e := x.stop.getD i.slot
    if x.p.launch < a + 8 then some (x.finding 0x11 a (x.p.launch - 8))
    else need (!x.p.is 4 3 || decide (e < i.fsLaunch)) (x.finding 0x11 e i.fsLaunch))

end Sys2Proof.Machine
end

