-- ==== Sys2Proof/Machine/Energy.lean ====
section
/-!
DEFINITION. The energy model of admission (R295, R296, Table 7.12): the modelled power of every tick of a slot from the ten
coefficients of the device record, and the windows of 1 ms and 10 µs of the repeated profile. What of the activity stands in which
tick is that of assumption 93.
-/
namespace Sys2Proof.Machine

/-- The rows of Table 7.12, as the device record numbers them. -/
def coefficient (e : List Nat) (k : Nat) : Nat := (e[k]?).getD 0

/-- One milliwatt for one tick of 1.25 ns, in fJ. -/
def milliwattTick : Nat := 1250

/-- The part of `n` that falls in tick t, evenly over `span` ticks from `start`. -/
def evenly (n start span t : Nat) : Nat := if start ≤ t ∧ t < start + span then ceilDiv n span else 0

def sumOf {α : Type} (l : List α) (f : α → Nat) : Nat := (l.map f).foldl (· + ·) 0

/-- The cells of the compounds within the extent of an array command (R296). -/
def extentCells (f m n k : Nat) : Nat :=
  if m = 0 then 0 else Nat.min k (packKp f) * ceilDiv n (packLanes f) * (packSide f * packSide f)

/-- Bytes of tile memory that a command of a unit reads and writes: of an array its extents, of the others their views. -/
def Placed.unitBytes (p : Placed) (i : Image) : Nat :=
  if p.is 1 1 then
    let m := p.arg 40 10
    let n := p.arg 50 7
    let k := p.arg 57 32
    let bits := fun (lo : Nat) => fmtBits (p.d i lo).f
    let start := match p.arg 91 2 with
      | 1 => m * n * bits 20
      | 2 => n * bits 20
      | _ => 0
    ceilDiv (m * k * bits 0 + n * k * bits 10 + start + (if p.arg 93 1 = 1 then 0 else m * n * bits 30)) 8
  else sumOf (p.reads i ++ p.writes i) (fun r => r.2)

/-- Energy of the arrays, the Vector Engine and the units' own accesses to tile memory in tick t, of one command. -/
def Modelled.energy (i : Image) (e : List Nat) (t : Nat) (x : Modelled) : Nat :=
  match x.start with
  | none => 0
  | some s =>
    let span := x.stop.getD i.slot + 1 - s
    let f := (x.p.d i 0).f
    (if x.p.is 1 1 ∧ s ≤ t ∧ t < s + x.p.occupies i then
        extentCells f (x.p.arg 40 10) (x.p.arg 50 7) (x.p.arg 57 32) * coefficient e 0 else 0)
      + (if x.p.engine = 2 ∧ x.p.opcode ≠ 0 ∧ s ≤ t ∧ t < s + span then coefficient e 1 else 0)
      + (if x.p.engine = 0 ∨ x.p.is 4 3 then 0 else evenly (x.p.unitBytes i) s span t * coefficient e 2)
      + (if x.p.is 0 5 then 0 else sumOf (placesIn x.slots) (fun y => flagNat (decide (flitTick y.2.1 0 = t)) * coefficient e 7))

/-- The row of Table 7.12 for bytes at an address. -/
def Hw.byteRow (h : Hw) (a : Nat) : Nat :=
  match spaceOf a with
  | .tileMem => 2
  | .shared => 3
  | _ => if h.controllerOf a < 12 then 4 else 5

/-- Energy of the bytes that a transfer moves in tick t at either end; an accumulate reads what it writes. -/
def Hw.xferEnergy (h : Hw) (e : List Nat) (t : Nat) (x : Xfer) : Nat :=
  let at' := fun (o : Option Nat) => o.any (fun c => decide (c / 2 = t))
  (match x.src with
    | some a => if at' x.read then x.len * coefficient e (h.byteRow a) else 0
    | none => 0)
  + (match x.dst with
    | .mem a => if at' x.put then x.len * (1 + flagNat x.acc) * coefficient e (h.byteRow a) else 0
    | _ => 0)

/-- Energy of the update entries in tick t: B of R371 in their stack and the accumulators that they read in shared memory. -/
def updateEnergy (i : Image) (e : List Nat) (t : Nat) : Nat :=
  sumOf i.entryEnds (fun x =>
    let n := x.2.1.duration i
    evenly (x.2.1.traffic i) (x.2.2 - n) n t * coefficient e 4
      + evenly (sumOf (x.2.1.slots i) (fun s => 128 * s.blocks)) (x.2.2 - n) n t * coefficient e 3)

/-- Energy of the exchanges of a variant in tick t: 4 MiB in each tier (R196). -/
def exchangeEnergy (i : Image) (e : List Nat) (v t : Nat) : Nat :=
  sumOf (i.migrations.filter (fun m => decide (m.1 = v))) (fun m =>
    sumOf m.2 (fun x => evenly 0x400000 x.launch Config.exchangeTicks t * (coefficient e 4 + coefficient e 5)))

/-- Flits that a calendar sends in tick t beside those of the channels: response windows and the tree. -/
def calendarFlits (i : Image) (v t : Nat) (treeOnly : Bool) : Nat :=
  sumOf (i.calendars.filter (fun c => decide (c.1 = v))) (fun c =>
    sumOf (c.2.2.filter (fun x => x.tree || (x.resp && !treeOnly))) (fun x =>
      (x.slots.filter (fun s => decide (flitTick s 0 = t))).length))

/-- Flits that a variant receives, a hundred-and-twenty-eighth of an interval's tally in each of its ticks. -/
def talliedFlits (i : Image) (v t : Nat) : Nat :=
  sumOf (i.tallies.filter (fun x => decide (x.1 = v))) (fun x => ((x.2.2[t / 128]?).map (fun b => b.toNat)).getD 0)

/-- The terms that hold in every tick of every slot: ports in state 4, housekeeping. -/
def Hw.staticEnergy (h : Hw) (e : List Nat) : Nat :=
  (((List.range 24).filter h.portUp).length * coefficient e 6 + coefficient e 8) * milliwattTick

/-- The modelled energy of tick t of a variant, in fJ (R295). -/
def Hw.tickEnergy (h : Hw) (i : Image) (e : List Nat) (m : Model) (t : Nat) : Nat :=
  let live := sumOf m.cmds (Modelled.energy i e t) + sumOf m.xfers (h.xferEnergy e t) + updateEnergy i e t + exchangeEnergy i e m.variant t
    + calendarFlits i m.variant t false * coefficient e 7 + ceilDiv (talliedFlits i m.variant t * coefficient e 7) 128
  ceilDiv ((live + h.staticEnergy e) * coefficient e 9) 1000000

/-- The modelled energy of tick t of the idle slot: the Full Stop's flits and the static terms (R286). -/
def Hw.idleEnergy (h : Hw) (i : Image) (e : List Nat) (t : Nat) : Nat :=
  ceilDiv ((calendarFlits i 0 t true * coefficient e 7 + h.staticEnergy e) * coefficient e 9) 1000000

/-- The checked profile P(t): the largest of all variants and the idle slot, tick by tick. -/
def Hw.profile (h : Hw) (ms : List Model) (i : Image) (e : List Nat) : List Nat :=
  (List.range i.slot).map (fun t => (ms.map (fun m => h.tickEnergy i e m t)).foldl Nat.max (h.idleEnergy i e t))

/-- The first tick offset whose window is above the limit; each pair is the tick that leaves the window and the one that joins. -/
def firstOver (limit : Nat) : Nat → Nat → List (Nat × Nat) → Option Nat
  | _, _, [] => none
  | t, s, x :: xs => if limit < s then some t else firstOver limit (t + 1) (s + x.2 - x.1) xs

/-- The first window of `w` ticks of the repeated profile that averages above `milliwatts`. -/
def overWindow (prof : List Nat) (w milliwatts : Nat) : Option Nat :=
  let r := w % prof.length
  firstOver (milliwatts * milliwattTick * w) 0 (w / prof.length * sumOf prof id + sumOf (prof.take r) id)
    (prof.zip (prof.drop r ++ prof.take r))

/-- 0x12 ENERGY_1MS and 0x13 ENERGY_10US: 2,000 W over 800,000 ticks, 2,300 W over 8,000. The limit of the record is the window.
DESIGN CHOICE: assumption 93. -/
def Hw.checkEnergy (h : Hw) (ms : List Model) (i : Image) (e : List Nat) : List (Option Finding) :=
  let prof := h.profile ms i e
  [(overWindow prof 800000 2000000).map (fun t => { Finding.header 0x12 with detail := t, limit := 800000 }),
   (overWindow prof 8000 2300000).map (fun t => { Finding.header 0x13 with detail := t, limit := 8000 })]

end Sys2Proof.Machine
end

