-- ==== Sys2Proof/Machine/Admission.lean ====
section
/-!
DEFINITION. Admission (R291 to R298), the admission of a successor (R374), and the end of a release (R423): the checks in the
order of Table 7.11, the refusal record, the module loaded, the Job Status Word.
-/
namespace Sys2Proof.Machine

/-- The staged image: as many bytes as its header says, of those that were put. DESIGN CHOICE: assumption 24. -/
def MgmtSt.staged (m : MgmtSt) : List Byte :=
  let byte := fun i => m.image.get 0 i
  let n := leNat ((List.range 8).map (fun i => byte (8 + i)))
  (List.range (Nat.min n m.imageLen)).map byte

/-! ### 0x02 and 0x04 -/

/-- R279, R410: an unowned module refuses every image. -/
def State.checkSignature (s : State) (bs : List Byte) : Option Finding :=
  need (s.xof.owned && sigOk s.mgmt.bcr.imageKeys (bs.take (bs.length - 128)) (bs.drop (bs.length - 128)))
    (inSection bs 0x02 0x7FFF 0)

/-- R249, R250, R356: features beyond the domain version (Table 6.9). DEDUCED: assumption 25. -/
def checkFeature (bs : List Byte) (i : Image) (version : Nat) : Option Finding :=
  let racc := (commandsOf bs).filter (fun p => p.is 0 6)
  earliest ([need (decide (i.feature ≤ version)) (Finding.header 0x04)]
    ++ eachOk i.staging.slots (fun e => decide (0x20 ≤ version) || (decide (e.efmts < 4) && !e.rot)) (inSection bs 0x04 0x000F)
    ++ racc.map (fun p => need (decide (0x20 ≤ version) || (decide (accFormat (p.d i 0) < 2)
        && decide (p.arg 24 16 < i.staging.rotFrom))) (p.finding 0x04))
    ++ [need (decide (0x20 ≤ version) || decide (i.staging.switchStep = 0 ∧ i.gen = 0)) (Finding.header 0x04),
        need (decide (0x21 ≤ version) || decide (i.planes = 1)) (Finding.header 0x04)])

/-- The checks from 0x07 on that the modelled schedule decides, with those of the same codes that the bytes decide, and the energy
checks; of one code the first item counts (R293). -/
def Hw.checkSchedule (h : Hw) (bs : List Byte) (i : Image) (energy : List Nat) (ms : List Model) : Option Finding :=
  firstOf [earliest (checkSequence bs i ++ sequenceFindings ms i), checkFrame bs i, checkKeys bs i, checkPlans bs i, h.checkQuota bs i,
    earliest (h.checkBuffers bs i ++ bufferFindings ms i), earliest (deadlineFindings ms i ++ updTiming bs i), h.checkPorts bs i,
    earliest (checkCalendars bs i h.rank ++ h.portFindings ms bs i),
    earliest (h.checkMigrations bs i ++ h.bankFindings ms bs i ++ h.updateTraffic ms bs i ++ h.exchangeFindings ms bs i),
    earliest (checkSlack bs i ++ slackFindings ms i), firstOf (h.checkEnergy ms i energy)]

/-- The checks from 0x05 on, whose codes ascend. -/
def Hw.checkRest (h : Hw) (bs : List Byte) (i : Image) (map : BitVec 4096) (energy : List Nat) : Option Finding :=
  firstOf [h.checkEncoding bs i, checkArrays bs map, h.checkSchedule bs i energy (h.schedule bs i)]

/-! ### The first image of a job -/

/-- 0x03 DOMAIN. -/
def Hw.checkDomain (h : Hw) (i : Image) : Option Finding :=
  need (decide (i.rank = h.rank ∧ i.domain = h.clk.domain) && decide (1 ≤ i.levels ∧ i.levels ≤ 3) && h.aligned && h.job.isNone)
    (Finding.header 0x03)

/-- Only a successor names a switch step (Table 9.2). DEDUCED: assumption 25. -/
def checkSwitch (bs : List Byte) (i : Image) : Option Finding := need (decide (i.staging.switchStep = 0)) (inSection bs 0x01 0x000F 0)

/-- The refusal record of the staged image, if it is refused: of the failing check with the lowest code (R293). -/
def State.admissionFinding (s : State) (bs : List Byte) : Option (BitVec 256) :=
  let i := imageOf bs
  (firstOf [checkFormat bs, checkSwitch bs i, s.checkSignature bs, s.hw.checkDomain i, checkFeature bs i s.hw.domainVer,
    s.hw.checkRest bs i s.mgmt.record.map s.mgmt.record.energy]).map Finding.record

/-! ### A successor, Table 9.15a -/

def Hw.checkSuccessorDomain (h : Hw) (j : Job) (i : Image) : Option Finding :=
  let r := j.img
  need (decide (i.job = r.job ∧ i.rank = r.rank ∧ i.domain = r.domain ∧ i.levels = r.levels ∧ i.seed = r.seed)
      && decide (i.gen = (h.fld inflBase Fld.INFL_COMMIT_STATE.layout_gen + 1) % 2 ^ 16 ∧ i.gen ≠ 0) && h.aligned)
    (Finding.header 0x03)

def Hw.checkSuccessorStep (h : Hw) (bs : List Byte) (i : Image) : Option Finding :=
  need (decide (h.fld inflBase Fld.INFL_COMMIT_STEP.step + 1 < i.staging.switchStep)) (inSection bs 0x01 0x000F 0)

/-- A region of the successor that meets one of the running image is the same region. -/
def checkSuccessorRegions (bs : List Byte) (j : Job) (i : Image) : Option Finding :=
  firstOf (eachOk i.regions (fun r => j.img.extents.all (fun x => !meets r.base r.length x.base x.length
    || decide (x.base = r.base ∧ x.length = r.length ∧ x.kind = r.kind))) (inSection bs 0x07 0x0007))

/-- The table and the plan variants are the running ones. -/
def checkSuccessorPlans (bs : List Byte) (j : Job) (i : Image) : Option Finding :=
  let r := j.img
  need (decide (i.plans = r.plans ∧ i.profiles = r.profiles ∧ i.entries = r.entries ∧ i.skipLimit = r.skipLimit))
    (inSection bs 0x0A 0x000A 0)

def Hw.checkUnion (h : Hw) (bs : List Byte) (j : Job) (i : Image) : Option Finding :=
  need (withinQuota (h.takes (j.img.extents ++ i.extents)) (h.quotaOf i.job)) (inSection bs 0x0B 0x0007 0)

/-- The finding with the lowest code; of equal codes the first. DEDUCED: assumption 27. -/
def lowestOf (l : List (Option Finding)) : Option Finding :=
  l.foldl (fun best f => match best, f with
    | none, f => f
    | some b, none => some b
    | some b, some f => if f.code < b.code then some f else some b) none

/-- DEDUCED: assumption 27. -/
def State.successorFinding (s : State) (j : Job) (bs : List Byte) : Option (BitVec 256) :=
  let i := imageOf bs
  let h := s.hw
  (lowestOf [checkFormat bs, h.checkSuccessorStep bs i, s.checkSignature bs, h.checkSuccessorDomain j i,
    (if 0x20 ≤ h.domainVer then checkFeature bs i h.domainVer else some (Finding.header 0x04)),
    h.checkRest bs i s.mgmt.record.map s.mgmt.record.energy, checkSuccessorRegions bs j i, checkSuccessorPlans bs j i,
    h.checkUnion bs j i]).map Finding.record

/-! ### The end of an admission -/

/-- Words of Table 11.18's extra field for an image: its job, then its generation. DESIGN CHOICE: assumption 26. -/
def imageExtra (i : Image) : BitVec 48 := BitVec.ofNat 48 (i.job + i.gen * 2 ^ 16)

/-- The final reply of an admission, also cached for a repeated request of its session (R414). DESIGN CHOICE: assumption 24. -/
def State.admissionReply (s : State) (status : Nat) (data : List Byte) : State :=
  let s := match s.mgmt.asker with
    | none => s
    | some a => match s.mgmt.sessions.find? a.1 with
      | none => s
      | some x =>
        if x.lastSeq = some a.2 then
          { s with mgmt := { s.mgmt with sessions := s.mgmt.sessions.insert a.1 { x with cachedStatus := status, cachedData := data } } }
        else s
  { s with mgmt := { s.mgmt with asker := none } }.answer ⟨false, status, 0, data⟩

def recordBytes (r : BitVec 256) : List Byte := leBytes 32 r.toNat

/-- R297: the refusal record kept. DESIGN CHOICE: assumption 24. -/
def State.keepRecord (s : State) (r : BitVec 256) : State := { s with mgmt := { s.mgmt with refusal := r } }

/-- R298: the image loaded and measured; state 2. DESIGN CHOICE: assumption 26. -/
def State.admitted (s : State) (bs : List Byte) : State :=
  let i := imageOf bs
  let s := (s.onHw (fun h => h.admitImage i)).measureSlot 3 4 (imageExtra i) (Config.sha384 bs)
  let s := s.measureTable.onHw (fun h => h.jsw ([(Fld.SYS_JSW.state, 2), (Fld.SYS_JSW.code, 0)] ++ h.opEnd 1 0))
  (s.keepRecord 0).admissionReply 0 (recordBytes 0)

/-- A refusal: state 6 with the code. -/
def State.refused (s : State) (r : BitVec 256) : State :=
  let s := s.onHw (fun h => h.jsw ([(Fld.SYS_JSW.state, 6), (Fld.SYS_JSW.code, r.toNat % 2 ^ 8)] ++ h.opEnd 1 2))
  (s.keepRecord r).admissionReply 8 (recordBytes r)

/-- The end of a successor's admission: it is measured, and waits for its switch step. A rank that refused it knows the step
at which it must halt (R375). -/
def State.successorEnd (s : State) (bs : List Byte) : State :=
  match s.hw.job with
  | none => (s.onHw (fun h => h.jsw (h.opEnd 2 1))).admissionReply 6 []
  | some j =>
    if j.result = some .halt then (s.onHw (fun h => h.jsw (h.opEnd 2 1))).admissionReply 6 []
    else
      match s.successorFinding j bs with
      | some r =>
        let asked := if (checkFormat bs).isNone then some (imageOf bs).staging.switchStep else j.switchAt
        ((s.onHw (fun h => (h.onJob (fun j => { j with switchAt := asked })).jsw (h.opEnd 2 2))).keepRecord r).admissionReply 8
          (recordBytes r)
      | none =>
        let i := imageOf bs
        let s := (s.onHw (fun h => (h.onJob (fun j => { j with successor := some i, switchAt := some i.staging.switchStep })).jsw
          (h.opEnd 2 0))).measureSlot 4 5 (imageExtra i) (Config.sha384 bs)
        (s.keepRecord 0).admissionReply 0 (recordBytes 0)

/-- An admission that runs comes to its end (R291 to R298, R374). DESIGN CHOICE: assumption 24. -/
def State.endAdmission (s : State) : State :=
  let bs := s.mgmt.staged
  if s.mgmt.successorOp then { s with mgmt := { s.mgmt with successorOp := false } }.successorEnd bs
  else if s.hw.jswState = 1 then
    match s.admissionFinding bs with
    | some r => s.refused r
    | none => s.admitted bs
  else s

def execAdmissionComplete (s : State) : Host.Outcome State Fault Refusal := .next s.endAdmission

/-! ### The end of a release, R423 -/

def State.endRelease (s : State) : State :=
  if s.hw.jswState = 8 then
    let s := s.onHw (fun h => match h.job with
      | none => h
      | some j => h.release j)
    (((s.clearSlot 3).clearSlot 4).clearSlot 5).onHw (fun h =>
      h.jsw ([(Fld.SYS_JSW.state, 0), (Fld.SYS_JSW.code, 0)] ++ h.opEnd 6 0))
  else s

def execReleaseComplete (s : State) : Host.Outcome State Fault Refusal := .next s.endRelease

end Sys2Proof.Machine
end

