-- ==== Sys2Proof/Machine/Clocks.lean ====
section
/-!
DEFINITION. Clocks and Tense (R258 to R274, R288, R303): the reference monitor, the alignment of Tense, interval markers, lane
FIFOs, reads of TNS_NOW, the fill of an ingest buffer.
-/
namespace Sys2Proof.Machine

/-! ### Events, Table 7.20 -/

/-- CLK_FLAGS bit b and its counter (Tables 7.16 and 7.17). -/
def clkFlagFld (b : Nat) : Fld × Fld :=
  match b with
  | 0 => (Fld.CLK_FLAGS.ref_lost, Fld.CLK_CNT_A.ref_lost)
  | 1 => (Fld.CLK_FLAGS.pll_unlock, Fld.CLK_CNT_A.pll_unlock)
  | 2 => (Fld.CLK_FLAGS.tense_div, Fld.CLK_CNT_B.tense_div)
  | 3 => (Fld.CLK_FLAGS.drift, Fld.CLK_CNT_B.drift)
  | 4 => (Fld.CLK_FLAGS.align_fail, Fld.CLK_CNT_C.align_fail)
  | _ => (Fld.CLK_FLAGS.fifo, Fld.CLK_CNT_C.fifo)

/-- A clock or Tense event with its record of code 0x58 + b (Table 12.4). -/
def Hw.clkEvent (h : Hw) (b detail : Nat) : Hw :=
  h.raise clkBase (clkFlagFld b).1 (clkFlagFld b).2 ringModule (0x58 + b) detail

def Hw.alignState (h : Hw) : Nat := h.fld clkBase Fld.TNS_ALIGN.state

/-- TNS_ALIGN.state takes a value; SYS_FLAGS.align records a change (Table 11.13). -/
def Hw.setAlign (h : Hw) (n : Nat) : Hw :=
  if h.alignState = n then h
  else (h.setFld clkBase Fld.TNS_ALIGN.state n).setFld sysBase Fld.SYS_FLAGS.align 1

/-! ### The reference monitor, R262 -/

/-- R262: the job halts, the root PLL goes to the crystal and the core clocks stop until its release, Tense is unaligned.
The PLL that runs from the crystal already does not switch again. DEDUCED: assumption 65. -/
def Hw.holdover (h : Hw) : Hw :=
  let h := h.haltFault 12
  let h := { h with clk := { h.clk with goodWindows := 0, fromCrystal := true,
                                        coresStopped := h.clk.coresStopped
                                          || (h.flag clkBase Fld.CLK_STATUS.root && !h.clk.fromCrystal) } }
  (h.setAlign 0).setFld clkBase Fld.CLK_STATUS.holdover 1

/-- A window of 1,024 crystal cycles holds 4,096 ± 8 reference cycles. -/
def goodWindow (count : Nat) : Bool := decide (4088 ≤ count ∧ count ≤ 4104)

/-- The reference has been released: the monitor goes on over it (R262). -/
def Hw.monitored (h : Hw) : Bool :=
  h.flag clkBase Fld.CLK_STATUS.ref || h.flag clkBase Fld.CLK_STATUS.root || h.clk.fromCrystal

/-- DEDUCED: assumption 65. -/
def Hw.refWindow (h : Hw) (count : Nat) : Hw :=
  if !h.flag clkBase Fld.CLK_STATUS.xtal then h
  else if goodWindow count then
    let h := { h with clk := { h.clk with goodWindows := h.clk.goodWindows + 1 } }
    if h.monitored && decide (2 ≤ h.clk.goodWindows) then h.setFld clkBase Fld.CLK_STATUS.ref 1 else h
  else if h.monitored then
    (({ h with clk := { h.clk with goodWindows := 0 } }.clkEvent 0 0).setFld clkBase Fld.CLK_STATUS.ref 0).holdover
  else { h with clk := { h.clk with goodWindows := 0 } }

def execRefWindow (count : Half) (s : State) : Host.Outcome State Fault Refusal :=
  .next (s.onHw (fun h => h.refWindow count.toNat))

def execPllSlip (s : State) : Host.Outcome State Fault Refusal :=
  .next (s.onHw (fun h => if h.flag clkBase Fld.CLK_STATUS.root then (h.clkEvent 1 0).holdover else h))

/-- R27: the copies of Tense differ; what die 1's copy then holds is left open. DESIGN CHOICE: assumption 64. -/
def execTenseDivergence (s : State) : Host.Outcome State Fault Refusal :=
  .next (s.onHw (fun h =>
    let w := h.freeWord
    ({ w.2 with tense1 := w.1 }.clkEvent 2 0).haltFault 14))

/-! ### Lane FIFOs, R260 -/

/-- The lane group and unit of an interface (Table 12.4, code 0x5D). -/
def laneDetail (i : LaneInterface) : Nat :=
  match i with
  | .port p => 0 + 4 * p.val
  | .ethernet i => 1 + 4 * i.val
  | .stack d => 2 + 4 * d.val
  | .channel c => 3 + 4 * c.val

/-- A lane FIFO fault loses its interface alone: a port's link, a memory unit, or a management link. Which reason the record
of the lost link names is left open. DESIGN CHOICE: assumption 58. -/
def State.loseLane (s : State) (i : LaneInterface) : State :=
  let s := s.onHw (fun h => h.clkEvent 5 (laneDetail i))
  match i with
  | .port p => s.onHw (fun h =>
      let w := h.freeWord
      if h.linkUp p then w.2.loseLink p (bitsOf w.1 1 0) else h)
  | .ethernet i => { s with mgmt := { s.mgmt with linksUp := s.mgmt.linksUp.erase i.val } }
  | .stack d => s.onHw (fun h => if h.ctlState d = 3 then h else h.loseCtl d)
  | .channel c => s.onHw (fun h => if h.ctlState (12 + c) = 3 then h else h.loseCtl (12 + c))

def execLaneFifoFault (i : LaneInterface) (s : State) : Host.Outcome State Fault Refusal := .next (s.loseLane i)

/-! ### Reads of TNS_NOW, R265 -/

/-- The requester of an access: a hart, the debug port, management. -/
def requesterKey (r : Outsider) : Nat :=
  match r with
  | .fetch h => h.val
  | .load h => h.val
  | .store h => h.val
  | .debug => 16
  | .management => 17

/-- A 64-bit read (part 0 or 3), a read of the low half (1), which latches the high half, or of the high half (2). -/
def State.readTense (s : State) (r : Outsider) (part : Nat) : State :=
  let t := s.hw.tense0
  let k := requesterKey r
  let hi := BitVec.ofNat 32 (bitsOf t 63 32)
  match part with
  | 1 =>
    (s.onHw (fun h => { h with clk := { h.clk with latch := h.clk.latch.insert k hi } })).answer
      (Resp.ok (BitVec.ofNat 64 (bitsOf t 31 0)))
  | 2 =>
    (s.onHw (fun h => { h with clk := { h.clk with latch := h.clk.latch.erase k } })).answer
      (Resp.ok (((s.hw.clk.latch.find? k).getD hi).zeroExtend 64))
  | _ => s.answer (Resp.ok t)

def execTnsNowRead (r : Outsider) (part : BitVec 2) (s : State) : Host.Outcome State Fault Refusal :=
  .next (s.onAccess (.tnsNowRead r part) (fun s => s.readTense r part.toNat))

/-! ### Ingest, R288 -/

/-- TNS_INGEST.fill: buffer next_fill becomes filled; a bus error while none is free. -/
def State.fillBuffer (s : State) : State :=
  match s.hw.job with
  | none => s.answer Resp.bus
  | some j =>
    let n := s.hw.fld clkBase Fld.TNS_INGEST.filled
    if j.img.ingestK ≤ n + flagNat (s.hw.flag clkBase Fld.TNS_INGEST.holding) then s.answer Resp.bus
    else
      (s.onHw (fun h => h.setFlds clkBase [(Fld.TNS_INGEST.filled, n + 1),
        (Fld.TNS_INGEST.next_fill, (h.fld clkBase Fld.TNS_INGEST.next_fill + 1) % j.img.ingestK)])).answer (Resp.ok 0)

def execIngestFill (s : State) : Host.Outcome State Fault Refusal :=
  .next (s.onAccess .ingestFill (fun s => s.fillBuffer))

/-! ### Alignment, R267 to R272 -/

/-- TNS_ALIGN.arm is allowed: no job is admitted and the port on plane a is in state 4. -/
def Hw.mayArm (h : Hw) : Bool :=
  h.job.isNone && decide (h.fld clkBase Fld.TNS_ALIGN.plane < 24) && h.linkUp (h.fld clkBase Fld.TNS_ALIGN.plane)

def Hw.clearAlignment (h : Hw) : Hw :=
  { h with clk := { h.clk with locked := [], completing := false, pings := [], sent := [] } }

def State.armAlignment (s : State) : State :=
  if s.hw.mayArm then
    (s.onHw (fun h => (h.clearAlignment.setAlign 1).setFld clkBase Fld.TNS_ALIGN.cause 0)).answer (Resp.ok 0)
  else s.answer Resp.bus

def execAlignArm (s : State) : Host.Outcome State Fault Refusal :=
  .next (s.onAccess .alignArm (fun s => s.armAlignment))

/-- The sync edge in the armed state: both copies of Tense are loaded on one common edge (R27, R267). -/
def Hw.coarseLoad (h : Hw) : Hw :=
  let h := h.event ringModule 0x69 h.now
  let h := { h with clk := { h.clk with aligned := false } }
  (h.loadTense (h.reg (clkBase + Fld.TNS_SYNC.value.off))).setAlign 2

def execSyncPulse (s : State) : Host.Outcome State Fault Refusal :=
  .next (s.onHw (fun h => if h.alignState = 1 then h.coarseLoad else h))

/-- The lowest link version negotiated on a port in state 4. -/
def Hw.lowestVersion (h : Hw) : Nat :=
  (((List.range 24).filter h.linkUp).map (fun p => h.fld (portBase p) Fld.PORT_VER.link)).foldl Nat.min 0xFF

/-- R271: the completion message, with the magnitude of theta - c in sixteenths. DEDUCED: assumption 65. -/
def Hw.sendCompletion (h : Hw) (residual : Nat) : Hw :=
  let p := h.fld clkBase Fld.TNS_ALIGN.plane
  let f := { h.flitHead 1 0x10 0 true true with
    msg := BitVec.ofNat 96 (2 ^ 64 - 1 + 2 ^ 80)
    len := 24
    data := dataOf (leBytes 8 1 ++ leBytes 8 (0xFF - h.lowestVersion) ++ leBytes 8 residual) }
  let h := { h with clk := { h.clk with completing := true } }
  h.placeFlit p 0 h.now f

/-- The coarse stage ends when every port in state 4 has its framing locked to the new Tense; the time root completes at
once (R267, R271). DEDUCED: assumption 63. -/
def Hw.lockFraming (h : Hw) (p : Nat) : Hw :=
  let h := { h with clk := { h.clk with locked := p :: h.clk.locked.erase p } }
  if (List.range 24).all (fun q => !h.linkUp q || h.clk.locked.contains q) then
    let h := h.setAlign 3
    if h.flag clkBase Fld.TNS_ALIGN.root then h.sendCompletion 0 else h
  else h

/-- A time parent's reply is worth: state 4, or the time root in state 2 or higher (R268). -/
def Hw.repliesAligned (h : Hw) : Bool :=
  decide (h.alignState = 4) || (h.flag clkBase Fld.TNS_ALIGN.root && decide (2 ≤ h.alignState))

/-- R268, R270: a probe is answered with its own time and the times of its receipt and, as the reply is sent, of the reply. -/
def execAlignPing (p : Port) (f : Flit) (received : Word) (s : State) : Host.Outcome State Fault Refusal :=
  .next (s.onHw (fun h => h.onFlit p f 0x21 (fun h =>
    h.sendC3 p { h.flitHead 3 0x22 0 true true with
      msg := BitVec.ofNat 96 (msgBits f 63 0)
      len := 17
      data := dataOf (leBytes 8 received.toNat ++ leBytes 8 0 ++ leBytes 1 (flagNat h.repliesAligned)) })))

/-- Twice the offset and the round trip of an exchange, in sixteenths (R269). -/
def exchangeOf (t1 t2 t3 t4 : Word) : Int × Int :=
  ((t2 - t1).toInt - (t4 - t3).toInt, (t4 - t1).toInt - (t3 - t2).toInt)

/-- The module is in its fine stage and waits for echoes. -/
def Hw.fineStage (h : Hw) : Bool :=
  decide (h.alignState = 3) && !h.clk.completing && !h.flag clkBase Fld.TNS_ALIGN.root

/-- The pings that may still give an exchange once the echo of the one sent at `t1` is here: before the first aligned echo those
after it, from then on the sixteen that begin with it (R269). None where no such ping is known. -/
def stillCounted (first aligned : Bool) (t1 : Word) (sent : List Word) : Option (List Word) :=
  match sent.findIdx? (fun t => decide (t = t1)) with
  | none => none
  | some i => some (if !aligned then (if first then sent.drop (i + 1) else sent) else if first then (sent.drop i).take 16 else sent)

/-- An echo with the aligned flag gives an exchange, the first one of sixteen; one without is discarded. -/
def Hw.takeEcho (h : Hw) (p : Nat) (f : Flit) (t4 : Word) : Hw :=
  if h.fineStage && decide (h.fld clkBase Fld.TNS_ALIGN.plane = p) then
    let t1 := BitVec.ofNat 64 (msgBits f 63 0)
    let aligned := decide (f.data.toNat / 2 ^ 128 % 2 = 1)
    match stillCounted h.clk.pings.isEmpty aligned t1 h.clk.sent with
    | none => h
    | some sent =>
      let x := exchangeOf t1 (partWord f.data 0) (partWord f.data 1) t4
      { h with clk := { h.clk with sent := sent, pings := if aligned then h.clk.pings ++ [x] else h.clk.pings } }
  else h

def execAlignEcho (p : Port) (f : Flit) (received : Word) (s : State) : Host.Outcome State Fault Refusal :=
  .next (s.onHw (fun h => h.onFlit p f 0x22 (fun h => h.takeEcho p f received)))

/-- The exchange with the smallest round trip, the earliest among equals. -/
def bestExchange : List (Int × Int) → Option (Int × Int)
  | [] => none
  | x :: xs =>
    match bestExchange xs with
    | none => some x
    | some y => if y.2 < x.2 then some y else some x

/-- `n / 32` rounded to the nearest whole number, ties to even. -/
def round32th (n : Int) : Int :=
  let q := n / 32
  let r := n % 32
  if r < 16 then q else if 16 < r then q + 1 else if q % 2 = 0 then q else q + 1

/-- R269: the correction of the best exchange. Whether an odd half sixteenth of theta - c rounds up is left open.
DESIGN CHOICE: assumption 64. -/
def Hw.fineCorrection (h : Hw) (x : Int × Int) : Hw :=
  let c := round32th x.1
  let w := h.freeWord
  let h := w.2
  let rest := x.1 - 32 * c
  let residual := rest / 2 + (if rest % 2 = 0 then 0 else Int.ofNat (bitsOf w.1 0 0))
  let h := h.loadTense (h.tense0 + BitVec.ofInt 64 c)
  let h := h.setFlds clkBase [(Fld.TNS_OFFSET.correction, unsigned 32 c), (Fld.TNS_OFFSET.residual, unsigned 16 residual),
    (Fld.TNS_OFFSET.rtt, unsigned 16 (x.2 / 16))]
  let h := h.event ringModule 0x6A (h.reg (clkBase + Fld.TNS_OFFSET.correction.off)).toNat
  h.sendCompletion residual.natAbs

/-- The 16 exchanges are over and at least 8 echoes were valid. -/
def execFineCorrection (s : State) : Host.Outcome State Fault Refusal :=
  .next (s.onHw (fun h =>
    if h.fineStage && decide (16 ≤ h.clk.sent.length) && decide (8 ≤ h.clk.pings.length) then
      match bestExchange h.clk.pings with
      | none => h
      | some x => h.fineCorrection x
    else h))

/-- Alignment fails with a cause of Table 7.3. -/
def Hw.alignFail (h : Hw) (cause : Nat) : Hw :=
  ((h.setAlign 5).setFld clkBase Fld.TNS_ALIGN.cause cause).clkEvent 4 0

/-- Alignment has completed: the domain version in every port, baselines and the largest deviation begin anew. How many hops
the time root is away is known now; the spec does not say from what, so the count is left open. DESIGN CHOICE: assumption 64. -/
def Hw.alignDone (h : Hw) (version : Nat) : Hw :=
  let w := h.freeWord
  let h := w.2
  let hops := if h.flag clkBase Fld.TNS_ALIGN.root then 0 else bitsOf w.1 2 0 % 7
  let h := (List.range 24).foldl (fun h p =>
    (h.setFld (portBase p) Fld.PORT_VER.domain version).setPort p { h.port p with baseline := none }) h
  let h := { h with clk := { h.clk with aligned := true } }
  (h.setAlign 4).setFlds clkBase [(Fld.TNS_ALIGN.hops, hops), (Fld.TNS_DRIFT.sixteenths, 0), (Fld.TNS_DRIFT.port, 0),
    (Fld.TNS_DRIFT.late, 0)]

/-- R271: the merged completion message. -/
def Hw.takeCompletion (h : Hw) (p : Nat) (f : Flit) : Hw :=
  if isCompletion f && decide (h.alignState = 3) && h.clk.completing && decide (h.fld clkBase Fld.TNS_ALIGN.plane = p) then
    let h := { h with clk := { h.clk with completing := false } }
    if (partWord f.data 0).toNat = h.clk.domain then h.alignDone (0xFF - (partWord f.data 1).toNat) else h.alignFail 5
  else h

def execAlignComplete (p : Port) (f : Flit) (s : State) : Host.Outcome State Fault Refusal :=
  .next (s.onHw (fun h => h.onFlit p f 0x11 (fun h => h.takeCompletion p f)))

/-- The limit of the present stage has passed (Table 7.3); the fine stage's limit runs from the first aligned reply.
DEDUCED: assumption 63. -/
def execAlignTimeout (s : State) : Host.Outcome State Fault Refusal :=
  .next (s.onHw (fun h =>
    match h.alignState with
    | 1 => h.alignFail 1
    | 2 => h.alignFail 2
    | 3 => if h.clk.completing then h.alignFail 4 else if h.clk.pings.isEmpty then h else h.alignFail 3
    | _ => h))

/-! ### Interval markers, R273 -/

/-- TNS_DRIFT keeps the deviation of largest magnitude. -/
def Hw.noteDeviation (h : Hw) (p : Nat) (d : Int) : Hw :=
  if h.fld clkBase Fld.TNS_DRIFT.sixteenths < d.natAbs then
    h.setFlds clkBase [(Fld.TNS_DRIFT.sixteenths, d.natAbs), (Fld.TNS_DRIFT.port, p),
      (Fld.TNS_DRIFT.late, flagNat (decide (0 < d)))]
  else h

/-- A marker measured against the baseline; the first one is the baseline. More than 16 sixteenths is drift. -/
def Hw.measureMarker (h : Hw) (p : Nat) (offset : Int) : Hw :=
  match (h.port p).baseline with
  | none => h.setPort p { h.port p with baseline := some offset }
  | some b =>
    let d := offset - b
    let h := h.noteDeviation p d
    if 16 < d.natAbs then
      ((h.clkEvent 3 (h.reg (clkBase + Fld.TNS_DRIFT.sixteenths.off)).toNat).setAlign 0).haltFault 13
    else h

/-- The FEC symbols corrected since the last marker are counted (R253); a marker in an uncorrectable codeword is ignored (R221). -/
def execIntervalMarker (p : Port) (offset corrected : BitVec 16) (s : State) : Host.Outcome State Fault Refusal :=
  .next (s.onHw (fun h =>
    if !h.linkUp p then h
    else
      let h := h.count (portBase p) Fld.PORT_FEC_CORR.symbols corrected.toNat
      if (h.port p).badMarker = some (h.now / 128) then h
      else if h.alignState = 2 then h.lockFraming p
      else if h.clk.aligned then h.measureMarker p offset.toInt
      else h))

end Sys2Proof.Machine
end

