-- ==== Sys2Proof/Machine/Slots.lean ====
section
/-!
DEFINITION. The step slots of a job (R143, R284 to R289, R375, R386, R424, R439): the start at T0, the boundary between two
slots, the switch to a successor image, and the results window.
-/
namespace Sys2Proof.Machine

/-! ### What the next slot is, R44, R45, R55, R285, R375 -/

/-- The kind of the slot that follows one with a verdict other than Halt. -/
def Job.nextKind (j : Job) : SlotKind :=
  match j.kind, j.result with
  | .idle, _ => if j.allReady then .step else .idle
  | .handover, _ => if j.allReady then .step else .handover
  | _, some .unclean => .replay
  | _, some .skip => if j.allReady then .step else .idle
  | _, _ => if j.allReady && !j.snapshotCarried then .step else .idle

/-! ### The boundary on a tile, R143, R386, R439 -/

/-- The running commands stopped, what they have not written discarded: their ends are traced as stopped (R437). -/
def Hw.stopRunning (h : Hw) (t : Nat) : Hw :=
  (h.tile t).running.foldl (fun h e => e.2.foldl (fun h r =>
    let c := r.cmd
    h.traceRec t c.trace (engineCode (queueEngine e.1)) c.unit.toNat c.tag.toNat true (h.past c.deadline.toNat) true) h) h

/-- What a tile keeps across a slot boundary: its descriptor store, and in its arrays the registers of the cells, with no
command in occupancy. -/
def TileSt.cleared (x : TileSt) : TileSt :=
  { TileSt.empty with
    desc := x.desc
    arrays := x.arrays.mapVals ArrSt.empty (fun _ a => { a with left := 0, fill := [], lags := [], wide := false }) }

/-- The commands of the stream section `k` as they stand in memory, with their tags (R136, R139).
DESIGN CHOICE: assumption 69. -/
def Hw.streamCmds (h : Hw) (i : Image) (k : Nat) : List QCmd :=
  match i.streams[k]? with
  | none => []
  | some s => (List.range s.cmds.length).map (fun n =>
      ⟨BitVec.ofNat 32 n, BitVec.ofNat 256 (h.readNat (i.streamAddr k + 32 * n) 32)⟩)

/-- The streams of a plan variant on a tile, by engine code. DESIGN CHOICE: assumption 69. -/
def Hw.streamsOf (h : Hw) (i : Image) (plan t : Nat) : SMap (List QCmd) :=
  (List.range i.streams.length).foldl (fun (m : SMap (List QCmd)) k =>
    match i.streams[k]? with
    | none => m
    | some s => if s.variant = plan ∧ s.tile = t then m.set [] s.engine (h.streamCmds i k) else m) []

/-- R143 and R386 on one tile, and the streams of the new slot. -/
def Hw.tileBoundary (h : Hw) (i : Image) (plan : Nat) (runs : Bool) (t : Nat) : Hw :=
  let h := h.stopRunning t
  let x := { (h.tile t).cleared with streams := if runs then h.streamsOf i plan t else [] }
  let h := (h.setTile t x.fetch).setReg (tileBase t + Fld.TILE_TOKENS.ch.off) 0
  let h := h.setFlds (tileBase t)
    [(Fld.TILE_STATUS.running, 1), (Fld.TILE_STATUS.unclean, 0), (Fld.TILE_STATUS.plan, plan)]
  let h := h.setFld (tileBase t) Fld.AE_REQ.outstanding 0
  let h := (List.range 8).foldl (fun h u => h.setFlds (arrBase t u)
    [(Fld.ARR_STATUS.busy, 0), (Fld.ARR_STATUS.stalled, 0), (Fld.ARR_STATUS.skew, 0)]) h
  engines.foldl (fun h e => h.engineStatus t e) h

/-- TRC_CTL settings taken at once: enable, all, wrap, and clear (Table 12.9, R438). -/
def Hw.traceSettings (h : Hw) (t : Nat) (v : BitVec 5) : Hw :=
  let x := h.traceNow t
  let x := if v.getLsbD 3 then { x with live := [], next := 0, lost := 0 } else x
  let h := h.setTrace t { x with pending := none }
  h.setFlds (tileBase t) [(Fld.TRC_CTL.enable, flagNat (v.getLsbD 0)), (Fld.TRC_CTL.all, flagNat (v.getLsbD 1)),
    (Fld.TRC_CTL.wrap, flagNat (v.getLsbD 2))]

/-- R439: the trace settings that wait for the boundary. -/
def Hw.tracePending (h : Hw) : Hw :=
  h.dbg.traces.foldl (fun h e =>
    match e.2.pending with
    | none => h
    | some v => h.traceSettings e.1 v) h

/-! ### The boundary on the other units -/

/-- R358: the digests of a slice roll over, and the ended slot is recorded. -/
def Hw.rollDigest (h : Hw) (step replay : Nat) (idle : Bool) (s : Nat) : Hw :=
  let b := sliceBase s
  h.setFlds b
    [(Fld.SLC_DIG_LAST_SENT.digest, h.fld b Fld.SLC_DIG_SENT.digest),
     (Fld.SLC_DIG_LAST_RECV.digest, h.fld b Fld.SLC_DIG_RECV.digest), (Fld.SLC_DIG_SENT.digest, 0),
     (Fld.SLC_DIG_RECV.digest, 0), (Fld.SLC_DIG_STEP.step, step), (Fld.SLC_DIG_STEP.replay, replay),
     (Fld.SLC_DIG_STEP.idle, flagNat idle)]

/-- The engines' staged values, runs and misses of the ended slot. -/
def Hw.resetEngines (h : Hw) : Hw :=
  let h := (List.range 12).foldl (fun h d => h.setFld (stackBase d) Fld.UPE_STATUS.busy 0) h
  { h with upes := h.upes.mapVals UpeSt.empty (fun _ u =>
      { u with layers := u.layers.mapVals UpeLayer.none (fun _ x => x.unstage), running := none, ran := [], missed := [] }) }

/-- The class 1 flits that the ended slot left unsent, and whether a calendar runs. DESIGN CHOICE: assumption 61. -/
def Hw.resetPorts (h : Hw) (plan : Nat) : Hw :=
  (List.range 24).foldl (fun h p =>
    let h := h.setPort p { h.port p with c1 := [] }
    let mine := match h.job with
      | none => false
      | some j => j.img.calendars.any (fun c => decide (c.1 = plan ∧ c.2.1 = p))
    h.setFld (portBase p) Fld.PORT_STATUS.sched (flagNat mine)) h

/-- R288: the buffer that follows the last held one becomes held. -/
def Hw.holdBuffer (h : Hw) (j : Job) : Hw :=
  let b := if j.img.ingestK = 0 then 0 else (j.lastHeld + 1) % j.img.ingestK
  let h := h.setFlds clkBase [(Fld.TNS_INGEST.held, b), (Fld.TNS_INGEST.holding, 1),
    (Fld.TNS_INGEST.filled, h.fld clkBase Fld.TNS_INGEST.filled - 1)]
  h.onJob (fun j => { j with lastHeld := b })

/-- The number of bits set among the 16 causes. -/
def causeCount (n : Nat) : Nat := ((List.range 16).filter (fun i => decide (n / 2 ^ i % 2 = 1))).length

/-- The causes of the new slot: those carried from the last one; in an idle slot they only count (R317, R324). -/
def Hw.startCauses (h : Hw) (j : Job) (steps : Bool) : Hw :=
  let h := if steps then h else h.count inflBase Fld.INFL_CNT_A.unclean_local (causeCount j.carried)
  let h := h.setFld inflBase Fld.INFL_LOCAL.causes j.carried
  h.onJob (fun j => { j with
    first := if steps then j.carriedFirst else 0xFFFFFFFFFFFFFFFF#64
    carried := 0, carriedFirst := 0xFFFFFFFFFFFFFFFF#64 })

/-- A new step: the working copy set from the committed one, a buffer held, the regions of an old layout released, and, after
a Clean commit, pending quotas (R313, R288, R375, R52). DEDUCED: assumption 70. -/
def Hw.startStep (h : Hw) (j : Job) : Hw :=
  let h := { h with infl := { h.infl with working := h.infl.committed } }
  let h := (h.freeRegions j.released j.img.extents).onJob (fun j => { j with released := [] })
  let h := if j.cleanCommit then (h.applyQuotas).onJob (fun j => { j with cleanCommit := false }) else h
  h.holdBuffer j

/-! ### The boundary, R143 -/

/-- The step counter and replay count that the ended slot carried. -/
def Hw.endedSlot (h : Hw) (j : Job) : Nat × Nat :=
  (h.stepNo - flagNat (j.steps && j.committed && decide (j.result = some .clean)), j.slotReplay)

/-- The Full Stop of the new slot holds nothing yet but the reports carried into it (R317, R441). -/
def Job.openSlot (j : Job) (kind : SlotKind) (plan replay : Nat) : Job :=
  { j with
    kind := kind, launched := false, parts := [], result := none, allReady := false, snapshotCarried := false
    faultClean := j.steps && decide (j.result = some .clean)
    behind := j.behind || (j.halted && j.steps && !j.committed && decide (j.result = some .clean))
    reports := j.carriedReports, carriedReports := []
    committed := false, hazardDump := false, produced := [], respSent := [], slotPlan := plan, slotReplay := replay
    prev := if j.running then some (j.img.slot / 128, j.expected) else none }

/-- The boundary of a slot on a rank that is not halted. -/
def Hw.liveBoundary (h : Hw) (j : Job) (kind : SlotKind) : Hw :=
  let steps := decide (kind = .step) || decide (kind = .replay)
  let ended := h.endedSlot j
  let h := if kind = .replay then h
    else h.setFlds inflBase [(Fld.INFL_RUN_STATE.plan, h.fld inflBase Fld.INFL_COMMIT_STATE.plan),
      (Fld.INFL_RUN_STATE.replay, 0)]
  let plan := h.fld inflBase Fld.INFL_RUN_STATE.plan
  let h := h.onJob (fun j => j.openSlot kind plan (h.fld inflBase Fld.INFL_RUN_STATE.replay))
  let h := (List.range 128).foldl (fun h s => h.rollDigest ended.1 ended.2 (!j.steps) s) h
  let h := (h.resetEngines).resetPorts plan
  let h := { h with infl := { h.infl with records := [] } }
  let h := if kind = .step then h.startStep j else h
  let h := h.startCauses j steps
  let h := h.tracePending
  let h := j.img.tiles.foldl (fun h t => h.tileBoundary j.img plan steps t) h
  (h.setFld inflBase Fld.INFL_RUN_STATE.phase (if steps then 1 else 4)).jsw []

/-- After a halt no slot-boundary action takes place (R447): the rank only follows the slots to its Halt verdict (R318).
DEDUCED: assumptions 67, 74. -/
def Hw.haltedBoundary (h : Hw) (j : Job) (kind : SlotKind) : Hw :=
  h.onJob (fun j' => j'.openSlot kind j.slotPlan j.slotReplay)

/-- The successor takes over at the end of this slot (R375). DEDUCED: assumption 68. -/
def Hw.switchDue (h : Hw) (j : Job) : Bool :=
  j.steps && decide (j.result = some .clean) && j.committed && (j.switchGen h.stepNo).isSome

/-- The end of a slot on a running rank with a verdict other than Halt. DEDUCED: assumptions 68, 74. -/
def Hw.slotEnds (h : Hw) (j : Job) : Bool := j.running && j.result.isSome && h.reached j.img.slot

def Hw.nextBase (h : Hw) (j : Job) : Hw := h.count inflBase Fld.INFL_STEP_BASE.tick j.img.slot

/-- A step-slot boundary. At a switching slot's end SUCCESSOR_SWITCH is the boundary. -/
def execSlotBoundary (s : State) : Host.Outcome State Fault Refusal :=
  .next (s.onHw (fun h =>
    match h.job with
    | none => h
    | some j =>
      if h.slotEnds j && !h.switchDue j then
        (if j.halted then h.haltedBoundary j j.nextKind else h.liveBoundary j j.nextKind).nextBase j
      else h))

/-! ### The successor, R375 -/

/-- The job under its successor image: the first hand-over slot, whose T0 is the end of the switching slot. -/
def Job.switched (j : Job) (i : Image) (t0 : Word) : Job :=
  { j with
    img := i, t0 := t0, successor := none, switchAt := none, handSent := 0, handOpen := 0, handFailed := false, handReceived := 0
    released := j.img.extents.filter (fun r => !i.extents.any (fun x => decide (x.base = r.base ∧ x.length = r.length ∧ x.kind = r.kind))) }

/-- The units of the old image that the successor does not use are no longer shown as admitted. -/
def Hw.switchUnits (h : Hw) (old new : Image) : Hw :=
  (old.tiles.foldl (fun h t => h.setFld (tileBase t) Fld.TILE_STATUS.running 0) (h.showUnits old false)).showUnits new true

/-- DEDUCED: assumption 68. -/
def Hw.switchTo (h : Hw) (j : Job) (i : Image) : Hw :=
  let h := (h.liveBoundary j .handover).nextBase j
  let h := h.onJob (fun j => j.switched i (h.reg (inflBase + Fld.INFL_STEP_BASE.tick.off)))
  let h := (h.loadImage i).switchUnits j.img i
  let h := i.pages.foldl (fun h n => h.ownPage n (some i.job)) h
  let h := h.resetPorts (h.fld inflBase Fld.INFL_RUN_STATE.plan)
  let h := h.setFlds inflBase [(Fld.INFL_STATUS.parts, i.fsParts), (Fld.INFL_RUN_STATE.replay_limit, i.replayLimit)]
  let h := i.tiles.foldl (fun h t => h.tileBoundary i (h.fld inflBase Fld.INFL_RUN_STATE.plan) false t) h
  h.setFld clkBase Fld.TNS_START.tick (h.fld inflBase Fld.INFL_STEP_BASE.tick)

/-- The switch is due, and a successor is admitted. -/
def Hw.switches (h : Hw) : Option (Job × Image) :=
  match h.job with
  | none => none
  | some j =>
    match j.successor with
    | none => none
    | some i => if h.slotEnds j && h.switchDue j && !j.halted then some (j, i) else none

/-- The switch clears the measurement of the old image (R428). DEDUCED: assumption 27. -/
def execSuccessorSwitch (s : State) : Host.Outcome State Fault Refusal :=
  .next (match s.hw.switches with
    | none => s
    | some x => (s.onHw (fun h => h.switchTo x.1 x.2)).clearSlot 3)

/-! ### The start, R285 -/

/-- T0: the first idle slot (R285); a share that is not wholly placed by now refuses the start. -/
def Hw.startJob (h : Hw) (j : Job) : Hw :=
  if j.restore.isSome then h.refuseStart 3
  else
    let h := h.setFlds inflBase
      [(Fld.INFL_STEP_BASE.tick, j.t0.toNat), (Fld.INFL_RUN_STATE.plan, h.fld inflBase Fld.INFL_COMMIT_STATE.plan),
       (Fld.INFL_RUN_STATE.phase, if j.halted then 5 else 4)]
    let plan := h.fld inflBase Fld.INFL_RUN_STATE.plan
    let h := h.onJob (fun j => { j.openSlot .idle plan 0 with running := true })
    let h := (h.resetPorts plan).tracePending
    let h := j.img.tiles.foldl (fun h t => h.tileBoundary j.img plan false t) h
    h.jsw [(Fld.SYS_JSW.state, 4), (Fld.SYS_JSW.code, 0)]

def execJobStart (s : State) : Host.Outcome State Fault Refusal :=
  .next (s.onHw (fun h =>
    match h.job with
    | none => h
    | some j => if j.started && !j.running && decide (j.result ≠ some .halt) && decide (j.t0.toNat ≤ h.now) then h.startJob j else h))

/-! ### The results window, R424 and R425 -/

/-- Table 11.17. -/
def resultEntry (step tick plan replays count flags : Nat) (values : List Byte) : List Byte :=
  leBytes 8 step ++ leBytes 8 tick ++ leBytes 1 plan ++ leBytes 1 replays ++ leBytes 1 count ++ leBytes 1 flags
    ++ leBytes 4 0 ++ values ++ List.replicate (104 - values.length) 0

/-- The error of a read by the system block: it only counts (R189). -/
def Hw.systemRead (h : Hw) (addr : Nat) (found : Ecc) : Hw :=
  if spaceOf addr ≠ .shared then h
  else
    match found with
    | .clean => h
    | .corrected => h.sliceEvent (sliceOf addr) 0 addr false
    | .uncorrectable => h.sliceEvent (sliceOf addr) 1 addr false

/-- The capture of the results record after a Clean commit with `replays`; an error of the read writes zeros and sets flags
bit 0. -/
def State.captureResults (s : State) (replays : Nat) (found : Ecc) : State :=
  let h := s.hw
  let count := h.fld sysBase Fld.SYS_RES_CFG.count
  let addr := h.fld sysBase Fld.SYS_RES_CFG.addr
  let bad := decide (found = .uncorrectable)
  let values := if bad then List.replicate (8 * count) 0 else h.read addr (8 * count)
  let e := resultEntry h.stepNo (h.fld inflBase Fld.INFL_COMMIT_TICK.tick) (h.fld inflBase Fld.INFL_COMMIT_STATE.plan)
    replays count (flagNat bad) values
  let s := { s with mgmt := { s.mgmt with window := s.mgmt.window.insert (h.stepNo % 64) e } }
  s.onHw (fun h => (((h.systemRead addr found).setFld sysBase Fld.SYS_RES_LAST.step h.stepNo).setFld sysBase
    Fld.SYS_FLAGS.result 1).onJob (fun j => { j with resultsDue := none }))

def execResultsCapture (found : Ecc) (s : State) : Host.Outcome State Fault Refusal :=
  .next (match s.hw.job.bind (fun j => j.resultsDue) with
    | none => s
    | some r => s.captureResults r found)

end Sys2Proof.Machine
end

