-- ==== Sys2Proof/Machine/Debug.lean ====
section
/-!
DEFINITION. Controls of the debug unit: trace settings (R438, R439), capture and release by register (R445, R446), the collector
table (R443, R454).
-/
namespace Sys2Proof.Machine

/-- R439: settings written to TRC_CTL wait for the slot boundary while a job is admitted; the view does not. A clear that
waits stays asked for. -/
def Hw.writeTrace (h : Hw) (t : Nat) (v : BitVec 5) : Hw :=
  let h := h.setFld (tileBase t) Fld.TRC_CTL.view (flagNat (v.getLsbD 4))
  match h.job with
  | none => h.traceSettings t v
  | some _ =>
    let x := h.trace t
    let clears := match x.pending with
      | none => false
      | some w => w.getLsbD 3
    h.setTrace t { x with pending := some (if clears then v ||| 8 else v) }

def execTraceControlWrite (t : Tile) (v : BitVec 5) (s : State) : Host.Outcome State Fault Refusal :=
  .next (s.onAccess (.traceControlWrite t v) (fun s => (s.onHw (fun h => h.writeTrace t v)).answer (Resp.ok 0)))

/-- TRC_CTL with the settings as last written: those that wait, or those in force. -/
def Hw.traceAsked (h : Hw) (t : Nat) : Word :=
  match (h.trace t).pending with
  | none => h.reg (tileBase t + Fld.TRC_CTL.enable.off)
  | some w => withBits (h.reg (tileBase t + Fld.TRC_CTL.enable.off)) 2 0 (w.toNat % 8)

/-- TRC_CTL.clear beside settings that stay as they are. -/
def Hw.clearTrace (h : Hw) (t : Nat) : Hw :=
  let w := h.traceAsked t
  h.writeTrace t (BitVec.ofNat 5 (bitsOf w 2 0 + 8 + flagNat (bitOf w 4) * 16))

def execTraceClear (t : Tile) (s : State) : Host.Outcome State Fault Refusal :=
  .next (s.onAccess (.traceClear t) (fun s => (s.onHw (fun h => h.clearTrace t)).answer (Resp.ok 0)))

/-- DBG_CAPTURE.request: a refusal while copies are held, else a capture of row 5 in the tick after the write (Table 12.7). -/
def Hw.askCapture (h : Hw) : Hw :=
  if h.flag dbgBase Fld.DBG_STATUS.held then h.capture 5 else { h with dbg := { h.dbg with asked := true } }

def execCaptureRequest (s : State) : Host.Outcome State Fault Refusal :=
  .next (s.onAccess .captureRequest (fun s => (s.onHw Hw.askCapture).answer (Resp.ok 0)))

def execCaptureRelease (s : State) : Host.Outcome State Fault Refusal :=
  .next (s.onAccess .captureRelease (fun s => (s.onHw Hw.releaseCapture).answer (Resp.ok 0)))

/-- FLT_CTL.clear: no entry is valid, and the next delivery takes the first; the count of deliveries runs on. -/
def Hw.clearCollector (h : Hw) : Hw :=
  { h with dbg := { h.dbg with collector := [] } }.setFlds dbgBase [(Fld.FLT_STAT.next, 0), (Fld.FLT_STAT.full, 0)]

def execCollectorClear (s : State) : Host.Outcome State Fault Refusal :=
  .next (s.onAccess .collectorClear (fun s => (s.onHw Hw.clearCollector).answer (Resp.ok 0)))

end Sys2Proof.Machine
end

