-- ==== Sys2Proof/Machine/Fliuf.lean ====
section
/-!
DEFINITION. Fliuf's peripherals (R392 to R398): clock enables, the PLIC, the machine timer, UARTs, I2C and SPI controllers,
GPIO, timers and watchdogs, and the Fliuf restart.
-/
namespace Sys2Proof.Machine

/-! ### Clock enables, R263 and R394 -/

/-- Enable bits of CLK_PERI_EN (Table 7.17). -/
def periUart (i : Nat) : Nat := i
def periI2c (i : Nat) : Nat := 4 + i
def periSpi (i : Nat) : Nat := 8 + i
def periGpio : Nat := 10
def periTimer : Nat := 11
def periWdt : Nat := 12
def periEth (i : Nat) : Nat := 13 + i
def periQspi : Nat := 15

def Hw.periOn (h : Hw) (b : Nat) : Bool := bitOf (h.reg (clkBase + Fld.CLK_PERI_EN.uart.off)) b

/-- Every register of a block back at its reset word. DEDUCED: assumption 66. -/
def Hw.resetBlock (h : Hw) (base size : Nat) : Hw :=
  { h with regs := h.regs.filter (fun e => decide (e.1 < base ∨ base + size ≤ e.1)) }

/-- The block of an enable bit: base and size (Table 11.3). -/
def periBlock (b : Nat) : Nat × Nat :=
  if b < 4 then (uartBase b, 0x1000)
  else if b < 8 then (i2cBase (b - 4), 0x1000)
  else if b < 10 then (spiBase (b - 8), 0x1000)
  else if b = 10 then (gpioBase, 0x1000)
  else if b = 11 then (tmrBase 0, 0x1000)
  else if b = 12 then (wdtBase 0, 0x4000)
  else if b = 13 then (fliufBase + 0x470000, 0x10000)
  else if b = 14 then (fliufBase + 0x480000, 0x10000)
  else (fliufBase + 0x490000, 0x10000)

/-- What watchdog i has still to count down, in array-clock ticks. -/
def State.watchdogLeft (s : State) (i : Nat) : Word := s.fliuf.wdtLeft.get 0 i

/-- Watchdog i counts: its block is clocked and WDT_CTL.enable is set. -/
def State.watchdogRuns (s : State) (i : Nat) : Bool := s.hw.periOn periWdt && s.hw.flag (wdtBase i) Fld.WDT_CTL.enable

/-- WDT_CTL.period in array-clock ticks: a unit is 2^16 cycles of the 200 MHz peripheral clock, 2^18 ticks (R397). -/
def Hw.watchdogTicks (h : Hw) (i : Nat) : Word := BitVec.ofNat 64 (h.fld (wdtBase i) Fld.WDT_CTL.period * 2 ^ 18)

/-- The count of watchdog i starts again from WDT_CTL.period. -/
def State.loadWatchdog (s : State) (i : Nat) : State :=
  { s with fliuf := { s.fliuf with wdtLeft := s.fliuf.wdtLeft.set 0 i (s.hw.watchdogTicks i) } }

/-- A watchdog from its reset state; WDT_CTL.enable is cleared by a module reset alone (Table 11.5), so it stays, and with it
set the count starts from the reset period. DEDUCED: assumption 66. -/
def State.resetWatchdog (s : State) (i : Nat) : State :=
  let en := s.hw.fld (wdtBase i) Fld.WDT_CTL.enable
  let s := s.onHw (fun h => (h.resetBlock (wdtBase i) 0x1000).setFld (wdtBase i) Fld.WDT_CTL.enable en)
  let s := { s with fliuf := { s.fliuf with wdtFirst := s.fliuf.wdtFirst.erase i, wdtLeft := s.fliuf.wdtLeft.erase i } }
  if en = 1 then s.loadWatchdog i else s

/-- A peripheral that is enabled again starts from its reset state (R263). I2C 0's own address is that of the straps (R474).
DEDUCED: assumption 66. -/
def State.resetPeripheral (s : State) (b : Nat) : State :=
  if b = periWdt then (List.range 4).foldl State.resetWatchdog s
  else
    let s := s.onHw (fun h => h.resetBlock (periBlock b).1 (periBlock b).2)
    let s := if b = periI2c 0 then
        s.onHw (fun h => h.setFld (i2cBase 0) Fld.I2C_ADDR.own (0x40 + s.power.modid.toNat))
      else s
    let f := s.fliuf
    { s with fliuf := { f with
        uarts := if b < 4 then f.uarts.erase b else f.uarts
        i2cs := if 4 ≤ b ∧ b < 8 then f.i2cs.erase (b - 4) else f.i2cs
        spiBusy := if b = 8 ∨ b = 9 then f.spiBusy.erase (b - 8) else f.spiBusy
        ethEvent := if b = 13 ∨ b = 14 then f.ethEvent.erase (b - 13) else f.ethEvent
        qspiDone := if b = 15 then false else f.qspiDone
        tmrLeft := if b = periTimer then [] else f.tmrLeft } }

/-- CLK_PERI_EN takes a value: peripherals newly enabled start from reset. -/
def State.setPeri (s : State) (v : Nat) : State :=
  let new := (List.range 16).filter (fun b => !s.hw.periOn b && decide (v / 2 ^ b % 2 = 1))
  let s := new.foldl State.resetPeripheral s
  s.onHw (fun h => h.setReg (clkBase + Fld.CLK_PERI_EN.uart.off) (BitVec.ofNat 64 v))

def execPeripheralEnable (v : Half) (s : State) : Host.Outcome State Fault Refusal :=
  .next (s.onAccess (.peripheralEnable v) (fun s => (s.setPeri v.toNat).answer (Resp.ok 0)))

/-- A register command of a gated block returns a bus error (R394). -/
def State.gated (s : State) (b : Nat) (body : State → State) : State :=
  if s.hw.periOn b then body s else s.answer Resp.bus

/-- What happens at a peripheral happens only while its clock runs. -/
def State.ifClocked (s : State) (b : Nat) (body : State → State) : State := if s.hw.periOn b then body s else s

/-! ### UARTs, R396 -/

def State.uart (s : State) (i : Nat) : Uart := s.fliuf.uarts.get Uart.empty i

/-- A UART with its counts (Table 11.4). -/
def State.setUart (s : State) (i : Nat) (u : Uart) : State :=
  { s with
    fliuf := { s.fliuf with uarts := s.fliuf.uarts.set Uart.empty i u }
    hw := s.hw.setFlds (uartBase i) [(Fld.UART_STATUS.rx_count, u.rx.length), (Fld.UART_STATUS.tx_count, u.tx.length),
      (Fld.UART_STATUS.tx_idle, flagNat (u.tx.isEmpty && u.shift.isNone))] }

/-- A write queues a byte; it is ignored when the transmit FIFO is full. -/
def State.uartPut (s : State) (i : Nat) (v : Byte) : State :=
  let u := s.uart i
  (if u.tx.length < 64 then s.setUart i { u with tx := u.tx ++ [v] } else s).answer (Resp.ok 0)

def execUartDataWrite (i : Fin 4) (v : Byte) (s : State) : Host.Outcome State Fault Refusal :=
  .next (s.onAccess (.uartDataWrite i v) (fun s => s.gated (periUart i) (fun s => s.uartPut i v)))

/-- A read takes the oldest received byte, or returns 0 when the FIFO is empty. -/
def State.uartTake (s : State) (i : Nat) : State :=
  let u := s.uart i
  match u.rx with
  | [] => s.answer (Resp.ok 0)
  | b :: bs => (s.setUart i { u with rx := bs }).answer (Resp.ok (b.zeroExtend 64))

def execUartDataRead (i : Fin 4) (s : State) : Host.Outcome State Fault Refusal :=
  .next (s.onAccess (.uartDataRead i) (fun s => s.gated (periUart i) (fun s => s.uartTake i)))

/-- The bits set in a byte. -/
def byteOnes (v : Byte) : Nat := ((List.range 8).filter (fun k => v.getLsbD k)).length

/-- The parity bit that UART_CTL asks for. -/
def parityBit (odd : Bool) (v : Byte) : Bool := decide ((byteOnes v + flagNat odd) % 2 = 1)

/-- A character arrives: its errors are flagged, and its byte enters the receive FIFO or is lost. Tables 11.4 and
12.18 give the W1C flags of the peripherals no event counter, and none is kept. DEDUCED: assumptions 66 and 80. -/
def State.uartArrive (s : State) (i : Nat) (v : Byte) (parity stopHigh lineLow : Bool) : State :=
  let b := uartBase i
  let s := s.onHw (fun h =>
    let bad := h.flag b Fld.UART_CTL.parity && decide (parity ≠ parityBit (h.flag b Fld.UART_CTL.odd) v)
    let h := if bad then h.setFld b Fld.UART_STATUS.parity_err 1 else h
    let h := if stopHigh then h else h.setFld b Fld.UART_STATUS.frame_err 1
    if lineLow then h.setFld b Fld.UART_STATUS.brk 1 else h)
  let u := s.uart i
  if u.rx.length < 64 then s.setUart i { u with rx := u.rx ++ [v] }
  else s.onHw (fun h => h.setFld b Fld.UART_STATUS.overrun 1)

def execUartReceive (i : Fin 4) (v : Byte) (parity stopHigh lineLow : Bool) (s : State) : Host.Outcome State Fault Refusal :=
  .next (s.ifClocked (periUart i) (fun s =>
    if s.hw.flag (uartBase i) Fld.UART_CTL.rx_en && !s.hw.flag (uartBase i) Fld.UART_CTL.loop then
      s.uartArrive i v parity stopHigh lineLow
    else s))

/-- The shift register has sent its character and takes the next; with loop set the character returns to the receiver. -/
def State.uartShift (s : State) (i : Nat) : State :=
  let u := s.uart i
  let b := uartBase i
  let s' := s.setUart i { u with shift := u.tx.head?, tx := u.tx.drop 1 }
  match u.shift with
  | none => s'
  | some v =>
    if s.hw.flag b Fld.UART_CTL.loop && s.hw.flag b Fld.UART_CTL.rx_en then
      s'.uartArrive i v (parityBit (s.hw.flag b Fld.UART_CTL.odd) v) true false
    else s'

def execUartTransmit (i : Fin 4) (s : State) : Host.Outcome State Fault Refusal :=
  .next (s.ifClocked (periUart i) (fun s => if s.hw.flag (uartBase i) Fld.UART_CTL.tx_en then s.uartShift i else s))

/-! ### I2C controllers, R396 -/

def State.i2c (s : State) (i : Nat) : I2c := s.fliuf.i2cs.get I2c.empty i
def State.setI2c (s : State) (i : Nat) (x : I2c) : State :=
  { s with fliuf := { s.fliuf with i2cs := s.fliuf.i2cs.set I2c.empty i x } }

/-- I2C_CTL.start: START, then the address and direction of I2C_ADDR, in the controller role. -/
def State.i2cBegin (s : State) (i : Nat) : State :=
  if s.hw.flag (i2cBase i) Fld.I2C_CTL.ctl then
    (s.setI2c i ⟨none, false, true⟩).onHw (fun h =>
      h.setFlds (i2cBase i) [(Fld.I2C_STATUS.busy, 1), (Fld.I2C_STATUS.tx_empty, 0)])
  else s

def execI2cStart (i : Fin 4) (s : State) : Host.Outcome State Fault Refusal :=
  .next (s.onAccess (.i2cStart i) (fun s => s.gated (periI2c i) (fun s => (s.i2cBegin i).answer (Resp.ok 0))))

/-- I2C_CTL.stop: STOP after the current byte; at once when none is on the way. -/
def State.i2cHalt (s : State) (i : Nat) : State :=
  let x := s.i2c i
  if !s.hw.flag (i2cBase i) Fld.I2C_STATUS.busy then s
  else if x.addressing || x.sending.isSome || s.hw.flag (i2cBase i) Fld.I2C_ADDR.read then s.setI2c i { x with stopAsked := true }
  else s.onHw (fun h => h.setFld (i2cBase i) Fld.I2C_STATUS.busy 0)

def execI2cStop (i : Fin 4) (s : State) : Host.Outcome State Fault Refusal :=
  .next (s.onAccess (.i2cStop i) (fun s => s.gated (periI2c i) (fun s => (s.i2cHalt i).answer (Resp.ok 0))))

/-- A write of I2C_DATA sends a byte. -/
def State.i2cSend (s : State) (i : Nat) (v : Byte) : State :=
  (s.setI2c i { s.i2c i with sending := some v }).onHw (fun h =>
    (h.setFld (i2cBase i) Fld.I2C_DATA.data v.toNat).setFld (i2cBase i) Fld.I2C_STATUS.tx_empty 0)

/-- A received byte stands in I2C_DATA; a wrong packet error code is flagged. -/
def Hw.i2cReceived (h : Hw) (i : Nat) (v : Byte) (pecRight : Bool) : Hw :=
  let b := i2cBase i
  let h := h.setFlds b [(Fld.I2C_DATA.data, v.toNat), (Fld.I2C_STATUS.rx_ready, 1)]
  if h.flag b Fld.I2C_CTL.pec && !pecRight then h.setFld b Fld.I2C_STATUS.pec_err 1 else h

/-- A byte of a transfer ends: the address, a byte sent or a byte received. -/
def State.i2cEnd (s : State) (i : Nat) (ack pecRight : Bool) (received : Byte) : State :=
  let b := i2cBase i
  let x := s.i2c i
  let reads := !x.addressing && s.hw.flag b Fld.I2C_ADDR.read
  let s := s.onHw (fun h =>
    if reads then h.i2cReceived i received pecRight
    else
      let h := h.setFld b Fld.I2C_STATUS.tx_empty 1
      if ack then h else h.setFld b Fld.I2C_STATUS.nack 1)
  let s := s.setI2c i ⟨none, false, false⟩
  if x.stopAsked then s.onHw (fun h => h.setFld b Fld.I2C_STATUS.busy 0) else s

def State.i2cByte (s : State) (i : Nat) (ack arbLost pecRight : Bool) (received : Byte) : State :=
  let b := i2cBase i
  if s.hw.flag b Fld.I2C_STATUS.busy then
    if arbLost then
      (s.setI2c i I2c.empty).onHw (fun h => h.setFlds b
        [(Fld.I2C_STATUS.arb_lost, 1), (Fld.I2C_STATUS.busy, 0), (Fld.I2C_STATUS.tx_empty, 1)])
    else s.i2cEnd i ack pecRight received
  else if s.hw.flag b Fld.I2C_CTL.tgt then s.onHw (fun h => h.i2cReceived i received pecRight)
  else s

def execI2cByte (i : Fin 4) (ack arbLost pecRight : Bool) (received : Byte) (s : State) : Host.Outcome State Fault Refusal :=
  .next (s.ifClocked (periI2c i) (fun s => s.i2cByte i ack arbLost pecRight received))

/-! ### SPI controllers, R396 -/

/-- SPI_CTL.go. -/
def State.spiBegin (s : State) (i : Nat) : State :=
  { s with fliuf := { s.fliuf with spiBusy := i :: s.fliuf.spiBusy.erase i } }

def execSpiExchange (i : Fin 2) (s : State) : Host.Outcome State Fault Refusal :=
  .next (s.onAccess (.spiExchange i) (fun s => s.gated (periSpi i) (fun s => (s.spiBegin i).answer (Resp.ok 0))))

/-- The exchange completed: the bytes received replace those sent. -/
def State.spiEnd (s : State) (i : Nat) (received : BitVec 128) : State :=
  if s.fliuf.spiBusy.contains i then
    let b := spiBase i
    let n := s.hw.fld b Fld.SPI_CTL.len + 1
    let old := (s.hw.reg (b + 0x10)).toNat + (s.hw.reg (b + 0x18)).toNat * 2 ^ 64
    let new := received.toNat % 2 ^ (8 * n) + old / 2 ^ (8 * n) * 2 ^ (8 * n)
    let s := { s with fliuf := { s.fliuf with spiBusy := s.fliuf.spiBusy.erase i } }
    s.onHw (fun h => ((h.setReg (b + 0x10) (BitVec.ofNat 64 new)).setReg (b + 0x18) (BitVec.ofNat 64 (new / 2 ^ 64))).setFld b
      Fld.SPI_STATUS.done 1)
  else s

def execSpiDone (i : Fin 2) (received : BitVec 128) (s : State) : Host.Outcome State Fault Refusal :=
  .next (s.ifClocked (periSpi i) (fun s => s.spiEnd i received))

/-! ### GPIO, R396 and R478 -/

/-- A line's level changes; lines 12 to 31 carry no signal (R478). -/
def State.gpioChange (s : State) (line : Nat) (level : Bool) : State :=
  if line < 12 ∧ s.fliuf.gpioLevel.getLsbD line ≠ level then
    let s := { s with fliuf := { s.fliuf with gpioLevel := s.fliuf.gpioLevel ^^^ BitVec.ofNat 32 (2 ^ line) } }
    s.ifClocked periGpio (fun s => s.onHw (fun h => h.setFld gpioBase ⟨Fld.GPIO_EDGE.edge.off, line, line⟩ 1))
  else s

def execGpioEdge (line : BitVec 5) (level : Bool) (s : State) : Host.Outcome State Fault Refusal :=
  .next (s.gpioChange line.toNat level)

/-! ### Timers, R389 and R396 -/

/-- What timer i has still to count down. -/
def State.timerLeft (s : State) (i : Nat) : Word := s.fliuf.tmrLeft.get 0 i

/-- Timer i counts: its block is clocked and TMR_CTL.run is set. -/
def State.timerRuns (s : State) (i : Nat) : Bool := s.hw.periOn periTimer && s.hw.flag (tmrBase i) Fld.TMR_CTL.run

/-- The count of timer i starts again from TMR_LOAD. -/
def State.loadTimer (s : State) (i : Nat) : State :=
  { s with fliuf := { s.fliuf with tmrLeft := s.fliuf.tmrLeft.set 0 i (s.hw.reg (tmrBase i + Fld.TMR_LOAD.ticks.off)) } }

/-- Timer i has counted down to zero: expired is set and the count reloads. DESIGN CHOICE: assumption 77. -/
def State.timerExpires (s : State) (i : Nat) : State :=
  if s.hw.flag (tmrBase i) Fld.TMR_CTL.run && decide (s.timerLeft i = 0) then
    (s.loadTimer i).onHw (fun h => h.setFld (tmrBase i) Fld.TMR_STATUS.expired 1)
  else s

def execTimerExpiry (i : Fin 4) (s : State) : Host.Outcome State Fault Refusal :=
  .next (s.ifClocked periTimer (fun s => s.timerExpires i))

def State.hart (s : State) (h : Nat) : HartSt := s.fliuf.harts.get HartSt.reset h
def State.setHart (s : State) (h : Nat) (x : HartSt) : State :=
  { s with fliuf := { s.fliuf with harts := s.fliuf.harts.set HartSt.reset h x } }

/-- A hart's timer interrupt is pending while mtime is at or above its mtimecmp (R389, Table 11.3). -/
def execMtimeCompare (h : Hart) (s : State) : Host.Outcome State Fault Refusal :=
  .next (s.setHart h { s.hart h with mtip := decide ((s.hart h).mtimecmp.toNat ≤ s.fliuf.mtime.toNat) })

/-! ### Restart, R398 -/

/-- A Fliuf restart: harts at the firmware entry, every cache level, PLIC, comparators and gated peripherals reset, sessions
closed; dirty lines are lost, and the watchdogs keep their state.
DEDUCED: assumption 76. -/
def State.fliufRestart (s : State) : State :=
  let entry := BitVec.ofNat 64 (s.hw.fld sysBase Fld.SYS_FW_ENTRY.entry)
  let f := s.fliuf
  let harts := (List.range 16).foldl (fun (m : SMap HartSt) k =>
    let x := m.get HartSt.reset k
    m.set HartSt.reset k { HartSt.reset with run := .running, pc := entry, msip := x.msip }) f.harts
  let s := { s with
    fliuf := { f with
      harts := harts, plicPriority := [], plicEnable := [], plicThreshold := []
      lines := [], icaches := [], dcaches := [], writing := [] }
    mgmt := { s.mgmt with sessions := [] } }
  let s := ((List.range 16).filter (fun b => decide (b ≠ periWdt))).foldl State.resetPeripheral s
  s.onHw (fun h => (h.setReg (clkBase + Fld.CLK_PERI_EN.uart.off) (BitVec.ofNat 64 s.mgmt.bcr.periEn)).countSat sysBase
    Fld.SYS_STATUS.fw_restarts 1)

/-! ### Watchdogs, R397 -/

/-- WDT_KICK: 0x5A reloads the count; another value is ignored and counted. -/
def State.kick (s : State) (i : Nat) (v : Byte) : State :=
  if v = 0x5A then
    ({ s with fliuf := { s.fliuf with wdtFirst := s.fliuf.wdtFirst.erase i } }).loadWatchdog i
  else s.onHw (fun h => h.count (wdtBase i) Fld.WDT_STATUS.bad_kicks 1)

def execWdtKick (i : Fin 4) (v : Byte) (s : State) : Host.Outcome State Fault Refusal :=
  .next (s.onAccess (.wdtKick i v) (fun s => s.gated periWdt (fun s => (s.kick i v).answer (Resp.ok 0))))

end Sys2Proof.Machine
end

