-- ==== Sys2Proof/Machine/Views.lean ====
section
/-!
DEFINITION. What the control space shows (R20 to R22, R436): every register as a read returns it, whether it is kept as a
word of its own or shown from another part of the state, and the record ranges of rings and traces. Reading a view changes
nothing; reads with a side effect are in Regs.lean.
-/
namespace Sys2Proof.Machine

/-! ### Rings and traces, R433 to R439 -/

/-- Rings of a window: offset of the records, offset of RING_STAT, ring number (Table 12.2). -/
def ringsOf (w : Win) (u : Nat) : List (Nat × Nat × Nat) :=
  match w with
  | .tile => (List.range 5).map (fun e => (0x8000 + e * 0x1000, 0xD000 + e * 0x10, ringTile u e))
  | .slice => [(0x8000, 0x9000, ringSlice u)]
  | .stack => [(0x6000, 0x7000, ringStack u), (0xC000, 0xD000, ringUpe u)]
  | .lpd => [(0x6000, 0x7000, ringLpd)]
  | .port => [(0x8000, 0x9000, ringPort u)]
  | .debug => [(0x12000, 0x13000, ringModule), (0x10000, 0x11000, ringFliuf)]
  | _ => []

/-- Record k of a buffer of `size` records whose next record takes index `next`; zeros where none is valid. -/
def recordAt (live : List EventRec) (size next k : Nat) : EventRec :=
  (live[(k + size + live.length - next) % size]?).getD ⟨0, 0⟩

/-- The copy of a ring that is read: its records and lost count. -/
def Ring.copy (r : Ring) (captured : Bool) : List EventRec × Nat :=
  if captured then (r.capLive, r.capLost) else (r.live, r.lost)

/-- The index that the next record of the copy takes. -/
def Ring.next (r : Ring) (captured : Bool) : Nat := (if captured then r.capWritten else r.written) % 256

/-- RING_STAT of a copy (Table 12.5); written counts the live copy. DEDUCED: assumption 43. -/
def Ring.stat (r : Ring) (captured : Bool) : Word :=
  let c := r.copy captured
  BitVec.ofNat 64 (r.next captured + flagNat (decide (c.1.length = 256)) * 2 ^ 8 + c.2 * 2 ^ 16 + r.written * 2 ^ 32)

def Ring.record (r : Ring) (captured : Bool) (k : Nat) : EventRec := recordAt (r.copy captured).1 256 (r.next captured) k

/-- The ring as it stands now. -/
def Hw.ringNow (h : Hw) (n : Nat) : Ring := (h.ring n).drain h.now

def Trace.copy (x : Trace) (captured : Bool) : List EventRec × Nat × Nat :=
  if captured then (x.capLive, x.capLost, x.capNext) else (x.live, x.lost, x.next)

/-- TRC_STAT of a copy (Table 12.9). -/
def Trace.stat (x : Trace) (captured : Bool) : Word :=
  let c := x.copy captured
  BitVec.ofNat 64 (c.2.2 + flagNat (decide (c.1.length = 640)) * 2 ^ 10 + c.2.1 * 2 ^ 16 + x.written * 2 ^ 32)

def Trace.record (x : Trace) (captured : Bool) (k : Nat) : EventRec :=
  recordAt (x.copy captured).1 640 (x.copy captured).2.2 k

/-- Word 0 or 1 of a record. -/
def EventRec.word (e : EventRec) (i : Nat) : Word := if i = 0 then e.w0 else e.w1

/-- A ring's records or registers at an offset of a window. -/
def Hw.ringView (h : Hw) (base o : Nat) : List (Nat × Nat × Nat) → Option Word
  | [] => none
  | (recs, regs, n) :: rs =>
    let view := bitOf (h.reg (base + regs + 8)) 0
    if recs ≤ o ∧ o < recs + 0x1000 then some (((h.ringNow n).record view ((o - recs) / 16)).word ((o - recs) / 8 % 2))
    else if o = regs then some ((h.ringNow n).stat view)
    else if o = regs + 8 then
      some (BitVec.ofNat 64 (flagNat view + 2 * flagNat (h.flag dbgBase Fld.DBG_STATUS.held)))
    else h.ringView base o rs

/-! ### Registers shown from other parts of the state -/

/-- TIER_QUOTA shows the pending value while one waits (Table 5.20). -/
def Hw.quotaShown (h : Hw) (n : Nat) : Word := (h.tier.pendingQuota.find? n).getD (h.quotaOf n)

def Hw.quotaStatus (h : Hw) (n : Nat) : Word :=
  BitVec.ofNat 64 (flagNat (h.tier.pendingQuota.find? n).isSome + 2 * flagNat (h.tier.rejected.contains n))

def Hw.lpdView (h : Hw) (o : Nat) : Option Word :=
  let job := h.fld lpdBase Fld.TIER_QSEL.job
  let page := h.fld lpdBase Fld.TIER_SEL.page
  match o with
  | 0x8008 => some (if page < Config.tierPages then BitVec.ofNat 64 (bitsOf (h.tierEntry page) 31 0) else 0)
  | 0x8018 => some (h.quotaShown job)
  | 0x8020 => some (h.tierUse job)
  | 0x8028 => some (h.quotaStatus job)
  | 0x8030 => some 0
  | _ => none

/-- The table state of the selected layer (Table 8.17). -/
def Hw.layerView (h : Hw) (l : Nat) : Word :=
  let c := (h.infl.committed.layers[l]?).getD LayerSt.none
  let w := (h.infl.working.layers[l]?).getD LayerSt.none
  BitVec.ofNat 64 (c.req + w.req * 2 ^ 3 + c.up * 2 ^ 6 + c.dn * 2 ^ 14 + c.silent * 2 ^ 30 + c.uw * 2 ^ 46
    + flagNat c.silentAlarm * 2 ^ 62 + flagNat c.uwAlarm * 2 ^ 63)

/-- The inflections of a layer in the variants of the job (Table 8.17). -/
def Hw.variantView (h : Hw) (l : Nat) : Word :=
  match h.job with
  | none => 0
  | some j => BitVec.ofNat 64 (((List.range 16).map (fun v => (((j.img.plans[v]?).bind (fun p => p[l]?)).getD 0) * 2 ^ (3 * v))).foldl (· + ·) 0)

/-- The rank runs its update phase: Table 1.13 shows phase 3. -/
def Hw.updating (h : Hw) : Bool := h.cleanSlot && h.reached h.updLaunch

def Hw.inflView (h : Hw) (o : Nat) : Option Word :=
  let l := h.fld inflBase Fld.INFL_SEL.layer
  let known := decide (l < h.infl.entries.length)
  if o = 0x18 then
    some (if h.updating then withBits (h.reg (inflBase + 0x18)) 15 12 3 else h.reg (inflBase + 0x18))
  else if o = 0x208 then some ((h.infl.entries[l]?).getD 0)
  else if o = 0x210 then some (if known then h.layerView l else 0)
  else if o = 0x218 then some (if known then h.variantView l else 0)
  else if 0x220 ≤ o ∧ o < 0x240 then some (if known then (h.infl.merged[4 * l + (o - 0x220) / 8]?).getD 0 else 0)
  else if 0x1000 ≤ o ∧ o < 0x1400 then some ((h.infl.stagedP[(o - 0x1000) / 8]?).getD 0)
  else if 0x2000 ≤ o ∧ o < 0x4000 then some ((h.infl.stagedE[(o - 0x2000) / 8]?).getD 0)
  else none

/-- The staging slot that a slice's selector names, if it is homed there (Table 9.17). -/
def Hw.shownSlot (h : Hw) (sl : Nat) : Option (Nat × SlotEntry) :=
  let k := h.fld (sliceBase sl) Fld.SLC_STG_SEL.slot
  match h.job.bind (fun j => j.img.staging.slots[k]?) with
  | none => none
  | some e => if spaceOf e.base = .shared ∧ sliceOf e.base = sl then some (k, e) else none

/-- Blocks of a slot that are complete, and blocks that are held. -/
def Hw.slotProgress (h : Hw) (k : Nat) (e : SlotEntry) : Word :=
  let complete := ((List.range e.blocks).filter (fun b => decide (h.nextOf k e b = e.n))).length
  BitVec.ofNat 64 (complete + (h.poolUsed k e).length * 2 ^ 32)

def Hw.sliceView (h : Hw) (sl o : Nat) : Option Word :=
  if 0x1088 ≤ o ∧ o < 0x10A8 then
    some (match h.shownSlot sl with
      | none => 0
      | some (_, e) => (e.words[(o - 0x1088) / 8]?).getD 0)
  else if o = 0x10A8 then
    some (match h.shownSlot sl with
      | none => 0
      | some (k, e) => h.slotProgress k e)
  else none

/-- Table 4.17: a queue of the engine has a head that has reached its launch tick. -/
def Hw.engineWaits (h : Hw) (t : Nat) (e : Engine) : Bool :=
  (engineQueues e).any (fun q => match (h.tile t).queue q with
    | [] => false
    | c :: _ => h.tileRuns t && h.reached c.launch && (decide (c.launch < h.updLaunch) || h.cleanSlot))

/-- Table 4.17: a command that runs started after its launch tick. -/
def Hw.engineLate (h : Hw) (t : Nat) (e : Engine) : Bool :=
  (engineQueues e).any (fun q => ((h.tile t).runs q).any (fun r => r.late))

/-- TILE_ENG_STATUS of engine k as it stands now. -/
def Hw.engineView (h : Hw) (t k : Nat) : Word :=
  let w := h.reg (tileBase t + 0x40 + 8 * k)
  match engines[k]? with
  | none => w
  | some e => withBits w 2 1 (flagNat (h.engineWaits t e) + 2 * flagNat (h.engineLate t e))

/-- TILE_STATUS with the update phase (Table 4.13). -/
def Hw.tileStatusView (h : Hw) (t : Nat) : Word :=
  withBits (h.reg (tileBase t)) 3 3 (flagNat (h.flag (tileBase t) Fld.TILE_STATUS.running && h.updating))

/-- SU_DATA3 of a record with no d holds −128 and 127 (Table 4.10), at reset too. DESIGN CHOICE: assumption 81. -/
def Hw.tileView (h : Hw) (t o : Nat) : Option Word :=
  if o = 0 then some (h.tileStatusView t)
  else if 0x40 ≤ o ∧ o < 0x68 then some (h.engineView t ((o - 0x40) / 8))
  else if 0x508 ≤ o ∧ o < 0x528 then
    let key := summaryKey (h.fld (tileBase t) Fld.SU_SEL.layer) (h.flag (tileBase t) Fld.SU_SEL.role)
    some ((((h.tile t).summary.get SumRec.none key).words[(o - 0x508) / 8]?).getD 0)
  else if o = 0xD088 then some ((h.traceNow t).stat (h.flag (tileBase t) Fld.TRC_CTL.view))
  else if 0xD800 ≤ o ∧ o < 0x10000 then
    some (((h.traceNow t).record (h.flag (tileBase t) Fld.TRC_CTL.view) ((o - 0xD800) / 16)).word (o / 8 % 2))
  else none

/-- UPE_LSTATE: the layer record that UPE_LSEL names (Table 9.21). -/
def Hw.stackView (h : Hw) (d o : Nat) : Option Word :=
  if o = 0x8040 then
    let x := h.upeLayer d (h.fld (stackBase d) Fld.UPE_LSEL.layer)
    some (BitVec.ofNat 64 (unsigned 8 x.oState + unsigned 8 x.oCur * 2 ^ 8 + unsigned 8 x.u * 2 ^ 16 + flagNat x.active * 2 ^ 24))
  else none

def Hw.debugView (h : Hw) (o : Nat) : Option Word :=
  if 0x100000 ≤ o ∧ o < 0x110000 then
    let bs := (h.dbg.collector.find? ((o - 0x100000) / 256)).getD []
    some (wordAt bs ((o - 0x100000) % 256 / 8))
  else none

/-- The zone of a temperature sensor, Table 13.6. -/
def zoneOf (sensor : Nat) : Nat :=
  if sensor < 16 then 0 else if sensor < 32 then 1 else if sensor < 38 then 2 else if sensor < 44 then 3
  else if sensor < 52 then 4 else if sensor < 56 then 5 else 6

/-- Nominal rail voltages in mV and the groups of the rails, Table 13.2. -/
def railNominal : List Nat := [800, 1800, 5000, 1800, 1800, 1100, 1050, 1200, 400, 500, 750, 850, 850, 750, 750]
def railGroup : List Nat := [0, 0, 1, 2, 2, 3, 3, 3, 4, 4, 4, 5, 5, 6, 6]

/-- PWR_RAIL: a rail that is on lies within 3 % of its nominal voltage (R460); where within it, and its current, are live
measurements that nothing in the state gives. DESIGN CHOICE: assumption 40. -/
def PowerSt.railView (x : PowerSt) (free k : Nat) : Word :=
  let nominal := (railNominal[k]?).getD 0
  let w := Config.freeWord free
  if 15 ≤ k then 0
  else if x.groupsOn < (railGroup[k]?).getD 0 then BitVec.ofNat 64 (flagNat (x.railsLocal.contains k) * 2 ^ 33)
  else
    BitVec.ofNat 64 (ceilDiv (nominal * 97) 100 + bitsOf w 15 0 % (nominal * 6 / 100) + bitsOf w 31 16 * 2 ^ 16 + 2 ^ 32
      + flagNat (x.railsLocal.contains k) * 2 ^ 33)

def PowerSt.view (x : PowerSt) (h : Hw) (o : Nat) : Option Word :=
  match o with
  | 0x00 => some (withBits (h.reg pwrBase) 9 5 x.modid.toNat)
  | 0x50 => some (x.railView h.free (h.fld pwrBase Fld.PWR_RAIL_SEL.rail))
  | 0x60 =>
    let k := h.fld pwrBase Fld.PWR_TEMP_SEL.sensor
    some (if k < 58 then BitVec.ofNat 64 ((x.temps.get 0 k).toNat + flagNat (x.invalid.contains k) * 2 ^ 16 + zoneOf k * 2 ^ 17)
      else 0)
  | _ => none

def XofSt.view (x : XofSt) (o : Nat) : Option Word :=
  if o = 0 then
    some (BitVec.ofNat 64 (flagNat x.owner.isSome + 2 * flagNat x.debugOpen + 4 * flagNat x.locked + x.svn % 128 * 2 ^ 8))
  else if 0x400 ≤ o ∧ o < 0x800 then some (wordAt (x.slotBytes ((o - 0x400) / 64)) ((o - 0x400) % 64 / 8))
  else if o = 0x800 then some (wordAt (keyId (Config.publicKey x.identity)) 0)
  else if 0x808 ≤ o ∧ o < 0x838 then
    some (match x.owner with
      | none => 0
      | some d => wordAt (digestBytes d) ((o - 0x808) / 8))
  else if o = 0x840 ∨ o = 0x848 then some (BitVec.ofNat 64 (x.serial.toNat / 2 ^ (64 * ((o - 0x840) / 8))))
  else none

/-- The levels that GPIO_IN shows: line 10 as it is driven, lines 12 to 31 as 0 (R478). -/
def State.gpioIn (s : State) : Word :=
  let out := bitOf (s.hw.reg (gpioBase + 8)) 10 && bitOf (s.hw.reg (gpioBase + 0x10)) 10
  BitVec.ofNat 64 (s.fliuf.gpioLevel.toNat % 1024 + flagNat out * 1024 + flagNat (s.fliuf.gpioLevel.getLsbD 11) * 2048)

/-- The blocks of the peripheral window that show other parts of the state. -/
def State.fliufView (s : State) (o : Nat) : Option Word :=
  if o = 0x440000 then some s.gpioIn
  else if o = 0x4A0000 then some (withBits (s.hw.reg sysBase) 3 3 (flagNat s.xof.owner.isSome))
  else if 0x4A4000 ≤ o ∧ o < 0x4A6000 then
    some (wordAt ((s.mgmt.window.find? ((o - 0x4A4000) / 0x80)).getD []) ((o - 0x4A4000) % 0x80 / 8))
  else none

/-- What stands at an offset of a window beside the words kept as registers. -/
def State.shown (s : State) (w : Win) (u o : Nat) : Option Word :=
  match w with
  | .tile => s.hw.tileView u o
  | .slice => s.hw.sliceView u o
  | .stack => s.hw.stackView u o
  | .lpd => s.hw.lpdView o
  | .port => none
  | .bridge => none
  | .clk => if o = 0x100 then some s.hw.tense0 else none
  | .infl => s.hw.inflView o
  | .power => s.power.view s.hw o
  | .xof => s.xof.view o
  | .fliuf => s.fliufView o
  | .debug => s.hw.debugView o

/-! ### A register as a read returns it -/

/-- The bits of a register whose fields have one of the access types. -/
def RegDef.maskOf (r : RegDef) (acc : Access) : Word :=
  (r.fields.filter (fun f => decide (f.acc = acc))).foldl (fun m f => withBits m f.hi f.lo (2 ^ (f.hi + 1 - f.lo) - 1)) 0

/-- The 64-bit word at an aligned control-space address; write-only fields and reserved offsets read as zero (R19, R21). -/
def State.view (s : State) (a : Nat) : Word :=
  match locate a with
  | none => 0
  | some (w, u, o) =>
    match s.hw.ringView (a - o) o (ringsOf w u) with
    | some v => v
    | none =>
      match s.shown w u o with
      | some v => v
      | none =>
        match regAt w o with
        | none => 0
        | some r => s.hw.reg a &&& ~~~(r.maskOf .wo)

end Sys2Proof.Machine
end

