-- ==== Sys2Proof/Machine/Plic.lean ====
section
/-!
DEFINITION. Interrupts (R392, Table 11.2): the sources as functions of the state, claim and complete, the register layout of
the RISC-V PLIC and of the ACLINT timer and software-interrupt devices (PRESUMED from those specifications, assumption 8).
-/
namespace Sys2Proof.Machine

/-! ### Sources, Table 11.2 -/

/-- Whether a register's W1C flags hold a set bit. -/
def flagSet (w : Win) (o : Nat) (v : Word) : Bool :=
  match regAt w o with
  | none => false
  | some r => decide (v &&& r.maskOf .w1c ≠ 0)

/-- A W1C flag of one of the chosen windows is set; the Update Engines' half of a stack window is not among them.
DEDUCED: assumption 95. -/
def Hw.anyFlag (h : Hw) (among : Win → Bool) : Bool :=
  h.regs.any (fun e =>
    match locate e.1 with
    | none => false
    | some (w, _, o) => among w && !(decide (w = .stack) && decide (0x8000 ≤ o)) && flagSet w o e.2)

def tileOrSlice : Win → Bool
  | .tile => true
  | .slice => true
  | _ => false

def memoryOrLink : Win → Bool
  | .stack => true
  | .lpd => true
  | .port => true
  | .bridge => true
  | .clk => true
  | _ => false

/-- A port's receive ring holds an unread entry (R247). -/
def Hw.ringWaits (h : Hw) (p : Nat) : Bool :=
  decide (h.fld (portBase p) Fld.PORT_UR_PTR.head ≠ h.fld (portBase p) Fld.PORT_UR_PTR.tail)

/-- The conditions that UART_CTL.ien enables (Table 11.4). -/
def Hw.uartAsks (h : Hw) (i : Nat) : Bool :=
  let b := uartBase i
  let ien := h.fld b Fld.UART_CTL.ien
  let st := h.reg (b + 8)
  (decide (ien % 2 = 1) && decide (h.fld b Fld.UART_CTL.rx_level ≤ h.fld b Fld.UART_STATUS.rx_count))
    || (decide (ien / 2 % 2 = 1) && decide (h.fld b Fld.UART_STATUS.tx_count ≤ h.fld b Fld.UART_CTL.tx_level))
    || (decide (ien / 4 % 2 = 1) && decide (bitsOf st 19 16 ≠ 0))

def Hw.i2cAsks (h : Hw) (i : Nat) : Bool :=
  decide ((h.reg (i2cBase i + 8)).toNat % 64 &&& h.fld (i2cBase i) Fld.I2C_CTL.ien ≠ 0)

/-- Source n of Table 11.2 is asserted. A gated peripheral asserts none (R394). -/
def State.source (s : State) (n : Nat) : Bool :=
  let h := s.hw
  if n = 0 then false
  else if n ≤ 24 then h.ringWaits (n - 1)
  else if n ≤ 26 then h.periOn (periEth (n - 25)) && s.fliuf.ethEvent.contains (n - 25)
  else if n ≤ 30 then h.periOn (periUart (n - 27)) && h.uartAsks (n - 27)
  else if n ≤ 34 then h.periOn (periI2c (n - 31)) && h.i2cAsks (n - 31)
  else if n ≤ 36 then h.periOn (periSpi (n - 35)) && h.flag (spiBase (n - 35)) Fld.SPI_STATUS.done
  else if n = 37 then h.periOn periGpio && decide (h.fld gpioBase Fld.GPIO_EDGE.edge &&& h.fld gpioBase Fld.GPIO_IEN.ien ≠ 0)
  else if n ≤ 41 then h.periOn periTimer && h.flag (tmrBase (n - 38)) Fld.TMR_STATUS.expired
  else if n ≤ 45 then h.periOn periWdt && h.flag (wdtBase (n - 42)) Fld.WDT_STATUS.first
  else if n = 46 then h.periOn periQspi && s.fliuf.qspiDone
  else if n = 47 then h.flag xofBase Fld.XOF_CMD_STATUS.done
  else if n = 48 then h.flag sysBase Fld.SYS_FLAGS.jsw
  else if n = 49 then h.flag sysBase Fld.SYS_FLAGS.verdict
  else if n = 50 then h.flag sysBase Fld.SYS_FLAGS.result
  else if n = 51 then h.anyFlag tileOrSlice
  else if n = 52 then h.anyFlag memoryOrLink || !h.tier.rejected.isEmpty || h.tier.bridgeUncFlag || h.flag sysBase Fld.SYS_FLAGS.wb_err
  else if n = 53 then decide (h.reg (pwrBase + 8) ≠ 0)
  else if n = 54 then decide (h.reg (inflBase + 0x108) ≠ 0)
  else if n = 55 then h.flag sysBase Fld.SYS_FLAGS.align
  else false

/-! ### Claim and complete -/

def State.priorityOf (s : State) (n : Nat) : Nat := s.fliuf.plicPriority.get 0 n

/-- A source that a context may claim: asserted, enabled for it and of a priority above 0. -/
def State.claimable (s : State) (ctx n : Nat) : Bool :=
  s.source n && bitOf (s.fliuf.plicEnable.get 0 ctx) n && decide (0 < s.priorityOf n)

/-- The claimable source of the highest priority, the lowest number among equals; 0 when there is none. -/
def State.claim (s : State) (ctx : Nat) : Nat :=
  ((List.range 64).filter (fun n => s.claimable ctx n)).foldl (fun best n =>
    if best = 0 ∨ s.priorityOf best < s.priorityOf n then n else best) 0

/-- The external interrupt of a context: a claimable source above its threshold. -/
def State.externalInterrupt (s : State) (ctx : Nat) : Bool :=
  (List.range 64).any (fun n => s.claimable ctx n && decide (s.fliuf.plicThreshold.get 0 ctx < s.priorityOf n))

/-- A claim answers the source and removes nothing: every source is level-sensitive (R392). -/
def execPlicClaim (ctx : BitVec 5) (s : State) : Host.Outcome State Fault Refusal :=
  .next (s.onAccess (.plicClaim ctx) (fun s => s.answer (Resp.ok (BitVec.ofNat 64 (s.claim ctx.toNat)))))

/-- A completion changes nothing that an asserted source does not assert again. -/
def execPlicComplete (ctx : BitVec 5) (source : BitVec 6) (s : State) : Host.Outcome State Fault Refusal :=
  .next (s.onAccess (.plicComplete ctx source) (fun s => s.answer (Resp.ok 0)))

/-! ### The PLIC's registers, 32 bits each -/

/-- The enable word, 0 or 1, of a context. PRESUMED: assumption 8. -/
def enableWord (e : Word) (i : Nat) : Nat := if i = 0 then bitsOf e 31 0 else bitsOf e 63 32

/-- PRESUMED: assumption 8. -/
def State.plicRead (s : State) (o : Nat) : Nat :=
  if o < 0x100 then s.priorityOf (o / 4)
  else if o = 0x1000 ∨ o = 0x1004 then
    ((List.range 32).map (fun i => flagNat (s.source (i + 8 * (o - 0x1000))) * 2 ^ i)).foldl (· + ·) 0
  else if 0x2000 ≤ o ∧ o < 0x3000 then
    if (o - 0x2000) % 0x80 / 4 < 2 then enableWord (s.fliuf.plicEnable.get 0 ((o - 0x2000) / 0x80)) ((o - 0x2000) % 0x80 / 4) else 0
  else if 0x200000 ≤ o ∧ o < 0x220000 then
    if o % 0x1000 = 0 then s.fliuf.plicThreshold.get 0 ((o - 0x200000) / 0x1000)
    else if o % 0x1000 = 4 then s.claim ((o - 0x200000) / 0x1000)
    else 0
  else 0

/-- The PLIC with a 32-bit register written; priorities and thresholds hold 0 to 7, source 0 does not exist.
PRESUMED: assumption 8. -/
def FliufSt.plicWrite (f : FliufSt) (o v : Nat) : FliufSt :=
  if o < 0x100 then if o = 0 then f else { f with plicPriority := f.plicPriority.set 0 (o / 4) (v % 8) }
  else if 0x2000 ≤ o ∧ o < 0x3000 ∧ (o - 0x2000) % 0x80 / 4 < 2 then
    let ctx := (o - 0x2000) / 0x80
    let e := f.plicEnable.get 0 ctx
    let e := if (o - 0x2000) % 0x80 / 4 = 0 then withBits e 31 0 (v / 2 * 2) else withBits e 63 32 v
    { f with plicEnable := f.plicEnable.set 0 ctx e }
  else if 0x200000 ≤ o ∧ o < 0x220000 ∧ o % 0x1000 = 0 then
    { f with plicThreshold := f.plicThreshold.set 0 ((o - 0x200000) / 0x1000) (v % 8) }
  else f

/-! ### The ACLINT devices: MSWI at 0x40_0000, MTIMER at 0x40_4000 -/

/-- A 32-bit word of the devices: msip, mtimecmp, mtime. PRESUMED: assumption 8. -/
def State.aclintRead (s : State) (o : Nat) : Nat :=
  if o < 0x40 then flagNat (s.hart (o / 4)).msip
  else if 0x4000 ≤ o ∧ o < 0x4080 then
    let c := (s.hart ((o - 0x4000) / 8)).mtimecmp
    if o % 8 = 0 then bitsOf c 31 0 else bitsOf c 63 32
  else if o = 0xBFF8 then bitsOf s.fliuf.mtime 31 0
  else if o = 0xBFFC then bitsOf s.fliuf.mtime 63 32
  else 0

/-- A write: mtime is not written, since R389 makes its counter monotonic. PRESUMED: assumption 8; DEDUCED: assumption 42. -/
def State.aclintWrite (s : State) (o v : Nat) : State :=
  if o < 0x40 then s.setHart (o / 4) { s.hart (o / 4) with msip := decide (v % 2 = 1) }
  else if 0x4000 ≤ o ∧ o < 0x4080 then
    let k := (o - 0x4000) / 8
    let x := s.hart k
    let c := if o % 8 = 0 then withBits x.mtimecmp 31 0 v else withBits x.mtimecmp 63 32 v
    s.setHart k { x with mtimecmp := c, mtip := decide (c.toNat ≤ s.fliuf.mtime.toNat) }
  else s

/-- A 32-bit word of the interrupt devices, by its offset in the peripheral window. PRESUMED: assumption 8. -/
def State.irqRead (s : State) (o : Nat) : Nat := if o < 0x400000 then s.plicRead o else s.aclintRead (o - 0x400000)

/-- PRESUMED: assumption 8. -/
def State.irqWrite (s : State) (o v : Nat) : State :=
  if o < 0x400000 then { s with fliuf := s.fliuf.plicWrite o v } else s.aclintWrite (o - 0x400000) v

end Sys2Proof.Machine
end

