-- ==== Sys2Proof/Machine/PortMsg.lean ====
section
/-!
DEFINITION. The messages a port receives (R238 to R247, R443) and the training of its link (R224, R225, R248).
-/
namespace Sys2Proof.Machine

/-- An idle flit carries the hop-by-hop fields alone (R230). -/
def execIdle (p : Port) (f : Flit) (s : State) : Host.Outcome State Fault Refusal :=
  .next (s.onHw (fun h => h.onFlit p f 0 id))

/-! ### Tiered lines that end late or failed, R203 and R208 -/

/-- The 128-byte lines of `n` bytes at `a` in the tiered range. -/
def tierLines (a n : Nat) : List Nat :=
  if n = 0 ∨ spaceOf a ≠ .tiered then []
  else (List.range ((a + n - 1) / 128 - a / 128 + 1)).map (fun i => 128 * (a / 128 + i))

/-- How a line ended: 0 sound, 1 late, 2 failed (Table 6.7); in a lost unit every line fails (R211). -/
def Hw.lineStatus (h : Hw) (ended : List (Addr × Bool)) (line : Nat) : Nat :=
  if h.inLost line then 2
  else
    match ended.find? (fun e => decide (e.1.toNat / 128 = line / 128)) with
    | none => 0
    | some e => if e.2 then 1 else 2

/-- A line that is read: one that a failed write left undefined fails (R203). -/
def Hw.readStatus (h : Hw) (ended : List (Addr × Bool)) (line : Nat) : Nat :=
  let n := h.lineStatus ended line
  if n = 0 ∧ h.poisoned line then 2 else n

/-- The worst status of a list. DEDUCED: assumption 56. -/
def worst (ns : List Nat) : Nat := ns.foldl Nat.max 0

/-- The controller's event of a line that ended so. -/
def Hw.lineEvent (h : Hw) (line status : Nat) : Hw :=
  if status = 0 then h
  else if h.inLost line then h.ctlErr (h.controllerOf line) line 4
  else if status = 1 then h.lateEvent line
  else h.ctlFail (h.controllerOf line) line false

/-- The bytes of a range counted at the controllers that moved them, line by line, and their pages touched from outside Fliuf
software (R198). -/
def Hw.tierBytes (h : Hw) (a n : Nat) (write : Bool) : Hw :=
  (tieredParts [(a, n)]).foldl (fun h r =>
    let h := h.touchPage (pageOf r.1)
    if h.inLost r.1 then h else h.ctlBytes (h.controllerOf r.1) r.2 write) h

/-! ### WRITE, R240 to R242 -/

/-- The DONE that answers a class 2 WRITE. -/
def Hw.doneFlit (h : Hw) (dst mid status : Nat) : Flit :=
  { h.flitHead 2 5 dst true true with msg := BitVec.ofNat 96 (mid * 2 ^ 48 + status * 2 ^ 64) }

/-- Status so far of a message, as its parts come in; forgotten at the last part. DEDUCED: assumption 56. -/
def Hw.noteStatus (h : Hw) (p src mid status : Nat) (last : Bool) : Hw × Nat :=
  let x := h.port p
  let mine := fun (e : Nat × Nat × Nat) => decide (e.1 = src ∧ e.2.1 = mid)
  let n := match x.failing.find? mine with
    | none => status
    | some e => Nat.max e.2.2 status
  let rest := x.failing.filter (fun e => !mine e)
  (h.setPort p { x with failing := if last ∨ n = 0 then rest else rest ++ [(src, mid, n)] }, n)

/-- Bytes of hand-over WRITEs received into regions of kind 1 (R376). -/
def Hw.noteReceived (h : Hw) (a n : Nat) : Hw :=
  h.onJob (fun j =>
    if j.running && decide (j.kind = .handover)
        && j.img.regions.any (fun r => decide (r.kind = 1) && decide (r.base ≤ a ∧ a + n ≤ r.base + r.length)) then
      { j with handReceived := j.handReceived + n }
    else j)

/-- The bytes of one flit performed; lines that end late or failed are left undefined. The last flit completes the write of the
whole message (R150). DEDUCED: assumption 56. -/
def Hw.performWrite (h : Hw) (f : Flit) (a : Nat) (bs : List Byte) (ended : List (Addr × Bool)) : Hw :=
  let bad := (tierLines a bs.length).filter (fun l => decide (h.lineStatus ended l ≠ 0))
  let whole := (tierLines a bs.length).filter (fun l => decide (a ≤ l ∧ l + 128 ≤ a + bs.length))
  let h := ((h.store a bs).keepLost h).tierBytes a bs.length true
  let h := whole.foldl (fun h l => h.cure l 128) h
  let h := bad.foldl (fun h l =>
    let n := h.lineStatus ended l
    let h := h.lineEvent l n
    if n = 2 ∧ !h.inLost l then h.poison l else h) h
  let h := if f.cls = 1 ∧ bad ≠ [] then h.signalOwn 5 else h
  if f.last then h.bumpTouched [(a - 224 * msgBits f 79 64, 224 * msgBits f 79 64 + bs.length)] else h

/-- A part of a class 2 WRITE ends with a status; the last one is answered by DONE. -/
def Hw.endWrite (h : Hw) (p : Nat) (f : Flit) (status : Nat) : Hw :=
  let q := h.noteStatus p f.src.toNat (msgBits f 63 48) status f.last
  if f.last then q.1.sendC2 p (q.1.doneFlit f.src.toNat (msgBits f 63 48) q.2) else q.1

/-- A WRITE flit: performed or rejected (R241); the last of a class 2 message is answered by DONE. -/
def Hw.onWrite (h : Hw) (p : Nat) (f : Flit) (ended : List (Addr × Bool)) : Hw :=
  let a := msgBits f 47 0
  let bs := flitBytes f
  let rejected := !h.remoteReach a bs.length || (decide (f.cls = 2) && h.remoteClosed a bs.length)
  let status := if rejected then 3 else worst ((tierLines a bs.length).map (h.lineStatus ended))
  let h := if rejected then h.flitEvent p 8 f else h.performWrite f a bs ended
  if f.cls = 1 then h
  else
    let h := if rejected then h else h.noteReceived a bs.length
    (h.endWrite p f status).returnCredit p

/-- The bytes of a WRITE go from the port's slice to their memory over the mesh; the die bridge may discard them (R33). What the
bridge discards of a class 2 message is not performed, and its DONE says that it failed. DESIGN CHOICE: assumption 82. -/
def Hw.carryWrite (h : Hw) (p : Nat) (f : Flit) (ended : List (Addr × Bool)) (bridge : Ecc) : Hw :=
  let a := msgBits f 47 0
  if !h.remoteReach a f.len.toNat then h.onWrite p f ended
  else if bridgeLoses (portPoint p) (h.pointOf a) bridge then
    let h := h.bridgeFault (portPoint p).die true
    if f.cls = 1 then h else (h.endWrite p f 2).returnCredit p
  else (h.cross (portPoint p) (h.pointOf a) bridge id).onWrite p f ended

def execWrite (p : Port) (f : Flit) (ended : List (Addr × Bool)) (bridge : Ecc) (s : State) :
    Host.Outcome State Fault Refusal :=
  .next (s.onHw (fun h => h.onFlit p f 1 (fun h => h.carryWrite p f ended bridge)))

/-! ### READ_REQ, R241 and R242 -/

/-- One part of the answer: the bytes from `off`, or zeros with the status of a line that ended late or failed. -/
def Hw.answerPart (h : Hw) (f : Flit) (ended : List (Addr × Bool)) (k : Nat) : Flit :=
  let a := msgBits f 47 0
  let total := msgBits f 87 64
  let n := Nat.min 224 (total - 224 * k)
  let status := worst ((tierLines (a + 224 * k) n).map (h.readStatus ended))
  let bs := if status = 0 then h.read (a + 224 * k) n else List.replicate n 0
  { h.flitHead f.cls.toNat 3 f.src.toNat (decide (k = 0)) (decide (k + 1 = ceilDiv total 224)) with
    msg := BitVec.ofNat 96 (224 * k + msgBits f 63 48 * 2 ^ 48 + k * 2 ^ 64 + status * 2 ^ 80)
    data := dataOf bs, len := BitVec.ofNat 8 n }

/-- The answer of a rejected request: status 3 and no data. -/
def Hw.rejectedAnswer (h : Hw) (f : Flit) : Flit :=
  { h.flitHead f.cls.toNat 3 f.src.toNat true true with
    msg := BitVec.ofNat 96 (msgBits f 63 48 * 2 ^ 48 + 3 * 2 ^ 80) }

/-- The answer's flits sent: class 2 as class 2, class 1 in the next slots of the request's response window. -/
def Hw.sendAnswer (h : Hw) (p : Nat) (f : Flit) (a : Nat) (g : Flit) : Hw :=
  if f.cls = 2 then h.sendC2 p g
  else
    match h.job with
    | none => h
    | some j =>
      let key := p * 256 + msgBits f 95 88
      let k := j.respSent.get 0 key
      match (h.windowSlots p (msgBits f 95 88))[k]? with
      | none => h
      | some slot =>
        let h := { h with job := some { j with respSent := j.respSent.set 0 key (k + 1) } }
        h.placeFlit p slot (h.now + latencyTicks (h.pointOf a) (portPoint p)) g

/-- An error of tile memory on a non-scheduled access only counts (R133). -/
def Hw.tileEccQuiet (h : Hw) (t : Nat) (found : Ecc) (a : Nat) : Hw :=
  let detail := (a - tileMemBase) % 0x80000 / 8 * 4
  match found with
  | .clean => h
  | .corrected => h.raise (tileBase t) Fld.TILE_FLAGS.ecc_corr Fld.TILE_CNT_D.ecc_corr (ringTile t 0) 6 detail
  | .uncorrectable => h.raise (tileBase t) Fld.TILE_FLAGS.ecc_unc Fld.TILE_CNT_D.ecc_unc (ringTile t 0) 7 detail

/-- What SECDED found in a shared word the request read: a scheduled access marks the step unclean (R189, R213). -/
def Hw.remoteReadEcc (h : Hw) (f : Flit) (found : Ecc) (a : Nat) : Hw :=
  match spaceOf a with
  | .shared =>
    if f.cls = 1 then h.sliceEcc found a
    else
      match found with
      | .clean => h
      | .corrected => h.sliceEvent (sliceOf a) 0 a false
      | .uncorrectable => h.sliceEvent (sliceOf a) 1 a false
  | .tileMem => if f.cls = 1 then h.tileEcc (tileOf a) 0 (findAt found a) else h.tileEccQuiet (tileOf a) found a
  | _ => h

/-- The bytes of a request at the target as its memory delivers them; an uncorrectable word reads as zero. -/
def Hw.asTarget (h : Hw) (found : Ecc) (a : Nat) : Hw := if spaceOf a = .tiered then h else h.seenWith found a

/-- A READ_REQ answered by ceil(bytes / 224) READ_RSP flits in ascending part, or rejected. -/
def Hw.onReadReq (h : Hw) (p : Nat) (f : Flit) (found : Ecc) (ended : List (Addr × Bool)) : Hw :=
  let a := msgBits f 47 0
  let total := msgBits f 87 64
  let h :=
    if !h.remoteReach a total then
      let h := h.flitEvent p 8 f
      h.sendAnswer p f a (h.rejectedAnswer f)
    else
      let lines := tierLines a total
      let h := h.remoteReadEcc f found a
      let parts := (List.range (ceilDiv total 224)).map ((h.asTarget found a).answerPart f ended)
      let h := lines.foldl (fun h l => h.lineEvent l (h.readStatus ended l)) h
      parts.foldl (fun h g => h.sendAnswer p f a g) (h.tierBytes a total false)
  if f.cls = 2 then h.returnCredit p else h

/-- The data come back from their memory to the port over the mesh; what the die bridge discards is never answered (R33).
DESIGN CHOICE: assumption 82. -/
def Hw.carryRead (h : Hw) (p : Nat) (f : Flit) (found : Ecc) (ended : List (Addr × Bool)) (bridge : Ecc) : Hw :=
  let a := msgBits f 47 0
  if !h.remoteReach a (msgBits f 87 64) then h.onReadReq p f found ended
  else if bridgeLoses (h.pointOf a) (portPoint p) bridge then
    let h := h.bridgeFault (h.pointOf a).die true
    if f.cls = 2 then h.returnCredit p else h
  else (h.cross (h.pointOf a) (portPoint p) bridge id).onReadReq p f found ended

def execReadReq (p : Port) (f : Flit) (found : Ecc) (ended : List (Addr × Bool)) (bridge : Ecc) (s : State) :
    Host.Outcome State Fault Refusal :=
  .next (s.onHw (fun h => h.onFlit p f 2 (fun h => h.carryRead p f found ended bridge)))

/-! ### READ_RSP, R149 and R242 -/

/-- The RREAD that a message number belongs to: its tile, channel and command. -/
def Hw.rreadOf (h : Hw) (mid : Nat) : Option (Nat × Nat × Running) :=
  h.tiles.findSome? (fun e => [0, 1, 2, 3].findSome? (fun q =>
    match e.2.runs q with
    | [] => none
    | r :: _ => if r.opcode = 5 ∧ r.region.toNat = mid then some (e.1, q, r) else none))

/-- A failed part: the tile's tier_err event, whose fault report is kind 2 about the answering rank (Table 12.6).
DEDUCED: assumption 56. -/
def Hw.readRspErr (h : Hw) (t : Nat) (src : Rank) (a : Nat) : Hw :=
  let h := h.setFlds (tileBase t) [(Fld.AE_ERR_ADDR.addr, a), (Fld.AE_ERR_ADDR.status, 2)]
  (h.tileMark t 0 5 (h.reg (tileBase t + Fld.AE_ERR_ADDR.addr.off)).toNat).signal 5 (some (src, 2))

/-- The requests of an RREAD that a flit answers: those whose bytes it carries; a rejection answers all. -/
def Running.answered (r : Running) (f : Flit) : List (Nat × Req) :=
  let o := msgBits f 47 0
  r.reqs.filter (fun e =>
    let at' := e.2.src.toNat - r.remote.toNat
    decide (msgBits f 83 80 = 3) || decide (o ≤ at' ∧ at' + e.2.len ≤ o + f.len.toNat))

/-- A class 1 READ_RSP: its bytes reach the destination of the RREAD, over the die bridge where that lies on the other die. -/
def Hw.takeRsp (h : Hw) (p : Nat) (f : Flit) (bridge : Ecc) : Hw :=
  match h.rreadOf (msgBits f 63 48) with
  | none => h
  | some (t, q, r) =>
    let status := msgBits f 83 80
    h.cross (portPoint p) (tilePoint t) bridge (fun h =>
      let h := if status = 0 then h else h.readRspErr t f.src (r.remote.toNat + msgBits f 47 0)
      (r.answered f).foldl (fun h e =>
        if status = 0 then
          h.deliver t q e.1 e.2 (((flitBytes f).drop (e.2.src.toNat - r.remote.toNat - msgBits f 47 0)).take e.2.len) 0
        else h.endReq t q e.1 false) h)

def execReadRsp (p : Port) (f : Flit) (bridge : Ecc) (s : State) : Host.Outcome State Fault Refusal :=
  .next (s.onHw (fun h => h.onFlit p f 3 (fun h => if f.cls = 2 then h.toFliuf p f else h.takeRsp p f bridge)))

/-! ### The other messages -/

/-- R349: an ACC flit goes on to the slice that homes its slot; one of class 2 is rejected (R241). -/
def execAccFlit (p : Port) (f : Flit) (found bridge : Ecc) (s : State) : Host.Outcome State Fault Refusal :=
  .next (s.onHw (fun h => h.onFlit p f 4 (fun h =>
    let joins := 64 * (p.toNat / 12) + (portPoint p).slice.getD 0
    if f.cls = 2 then (h.flitEvent p 8 f).returnCredit p
    else h.cross (portPoint p) (slicePoint ((h.slotSlice? f).getD joins)) bridge (fun h => h.deliverAcc joins f false found))))

/-- The answer of a hand-over WRITE (R376). -/
def Hw.noteDone (h : Hw) (status : Nat) : Hw :=
  h.onJob (fun j =>
    if j.running && decide (j.kind = .handover) then
      if status = 0 then { j with handOpen := j.handOpen - 1 } else { j with handFailed := true }
    else j)

def execDone (p : Port) (f : Flit) (s : State) : Host.Outcome State Fault Refusal :=
  .next (s.onHw (fun h => h.onFlit p f 5 (fun h => (h.noteDone (msgBits f 67 64)).toFliuf p f)))

/-- R244: a barrier release is delivered and counted. -/
def execBarDown (p : Port) (f : Flit) (s : State) : Host.Outcome State Fault Refusal :=
  .next (s.onHw (fun h => h.onFlit p f 0x13 id))

/-- R244, R319: a part of the merged Full Stop. -/
def execFsDown (p : Port) (f : Flit) (s : State) : Host.Outcome State Fault Refusal :=
  .next (s.onHw (fun h => h.onFlit p f 0x11 (fun h => h.takePart f)))

/-- Bits set in a reporter bitmap. -/
def bitCount (d : BitVec 1792) : Nat := ((List.range 1792).filter (fun i => d.getLsbD i)).length

/-- Table 12.10: the entry of a delivered fault report. -/
def Hw.collectorEntry (h : Hw) (j : Job) (f : Flit) : List Byte :=
  leBytes 8 (h.slotStep j) ++ leBytes 8 (msgBits f 95 32) ++ leBytes 2 (msgBits f 13 0) ++ leBytes 1 (msgBits f 17 14)
    ++ leBytes 1 (msgBits f 23 18) ++ leBytes 2 (bitCount f.data) ++ leBytes 1 (h.fld inflBase Fld.INFL_RUN_STATE.replay)
    ++ leBytes 1 (flagNat (!j.steps)) ++ leBytes 8 h.now ++ leBytes 224 f.data.toNat

/-- R443: the collector rank writes the report into its next entry; another rank discards it,
flagged in flt_bad, for which Table 12.18 has no counter. DEDUCED: assumption 80. -/
def Hw.collect (h : Hw) (f : Flit) : Hw :=
  match h.job with
  | none => h.setFld dbgBase Fld.DBG_FLAGS.flt_bad 1
  | some j =>
    if j.img.collector = h.rank then
      let k := h.fld dbgBase Fld.FLT_STAT.next
      let h := { h with dbg := { h.dbg with collector := h.dbg.collector.insert k (h.collectorEntry j f) } }
      let h := h.setFlds dbgBase [(Fld.FLT_STAT.next, k + 1),
        (Fld.FLT_STAT.full, flagNat (h.flag dbgBase Fld.FLT_STAT.full || decide (k = 255)))]
      h.count dbgBase Fld.FLT_STAT.delivered 1
    else h.setFld dbgBase Fld.DBG_FLAGS.flt_bad 1

def execFaultDeliver (p : Port) (f : Flit) (s : State) : Host.Outcome State Fault Refusal :=
  .next (s.onHw (fun h => h.onFlit p f 0x15 (fun h => h.collect f)))

/-- R247, R420: a flit of the management tunnel enters the receive ring. The datagram it carries, when whole, is a command
of its own. -/
def execMgmt (p : Port) (f : Flit) (s : State) : Host.Outcome State Fault Refusal :=
  .next (s.onHw (fun h => h.onFlit p f 0x30 (fun h => h.toFliuf p f)))

/-! ### The rings' pointers, R247 -/

/-- Software advances the transmit tail: pointers count modulo 2^size. DEDUCED: assumption 57. -/
def Hw.setUqTail (h : Hw) (p tail : Nat) : Hw :=
  h.setFld (portBase p) Fld.PORT_UQ_PTR.tail (tail % 2 ^ h.fld (portBase p) Fld.PORT_UQ_BASE.size)

def execUqTailWrite (p : Port) (tail : Half) (s : State) : Host.Outcome State Fault Refusal :=
  .next (s.onAccess (.uqTailWrite p tail) (fun s => (s.onHw (fun h => h.setUqTail p tail.toNat)).answer (Resp.ok 0)))

/-- Software advances the receive head: held flits enter the ring and their credits return. DEDUCED: assumption 57. -/
def Hw.setUrHead (h : Hw) (p head : Nat) : Hw :=
  (h.setFld (portBase p) Fld.PORT_UR_PTR.head (head % 2 ^ h.fld (portBase p) Fld.PORT_UR_BASE.size)).drainHeld p
    (h.port p).rxHeld.length

def execUrHeadWrite (p : Port) (head : Half) (s : State) : Host.Outcome State Fault Refusal :=
  .next (s.onAccess (.urHeadWrite p head) (fun s => (s.onHw (fun h => h.setUrHead p head.toNat)).answer (Resp.ok 0)))

/-! ### Training, R224, R225 and R248 -/

/-- The sequence of Table 6.2 begins at the lane check; flits that wait for the receive ring stay. -/
def Hw.trainFrom (h : Hw) (p : Nat) : Hw :=
  let h := h.setPort p { PortSt.empty with rxHeld := (h.port p).rxHeld, stage := .laneCheck }
  h.setFlds (portBase p) [(Fld.PORT_STATUS.state, 1), (Fld.PORT_TRAIN.lane_open, 0), (Fld.PORT_TRAIN.lane_short, 0),
    (Fld.PORT_TRAIN.lane_dead, 0), (Fld.PORT_VER.link, 0), (Fld.PORT_LINK.credits, 0), (Fld.PORT_LINK.replay, 0)]

/-- R224: PORT_TRAIN.start; a port whose enable bit is clear does not train. -/
def State.startTraining (s : State) (p : Nat) : State :=
  match s.hw.job with
  | some _ => s.answer Resp.bus
  | none =>
    (s.onHw (fun h =>
      if h.flag (portBase p) Fld.PORT_TRAIN.enable then (h.trainFrom p).setFld (portBase p) Fld.PORT_TRAIN.attempts 0
      else h)).answer (Resp.ok 0)

def execPortTrainStart (p : Port) (s : State) : Host.Outcome State Fault Refusal :=
  .next (s.onAccess (.portTrainStart p) (fun s => s.startTraining p))

/-- The sequence ends in state 5. -/
def Hw.portDown (h : Hw) (p : Nat) : Hw :=
  (h.setPort p { h.port p with stage := .down, c3 := [] }).setPortState p 5

/-- The TRAIN_VER of this module: 2.1 down to 1.0, a Watevel T8 (R248). DEDUCED: assumption 57. -/
def Hw.trainVerFlit (h : Hw) : Flit :=
  { h.flitHead 3 0x20 0 true true with
    msg := BitVec.ofNat 96 (h.clk.vmax + 0x10 * 2 ^ 8 + 2 ^ 16) }

/-- A stage ended well. -/
def Hw.stageDone (h : Hw) (p : Nat) (precode inverted : Nat) : Hw :=
  let x := h.port p
  match x.stage with
  | .laneCheck => (h.setPort p { x with stage := .training }).setPortState p 2
  | .training =>
    (h.setPort p { x with stage := .framing }).setFlds (portBase p)
      [(Fld.PORT_TRAIN.precode, precode), (Fld.PORT_TRAIN.inverted, inverted)]
  | .framing =>
    let h := h.setPort p { x with stage := .version }
    (h.sendC3 p (h.trainVerFlit)).setPortState p 3
  | _ => h

/-- A stage failed or passed its duration: from the lane check again, and after three attempts down. -/
def Hw.stageFailed (h : Hw) (p : Nat) : Hw :=
  let n := h.fld (portBase p) Fld.PORT_TRAIN.attempts + 1
  let h := h.setFld (portBase p) Fld.PORT_TRAIN.attempts n
  if 3 ≤ n then h.portDown p else h.trainFrom p

/-- R225: lanes found open, shorted or dead. -/
def Hw.laneFault (h : Hw) (p : Nat) (opened short dead : Nat) : Hw :=
  let h := h.setFlds (portBase p) [(Fld.PORT_TRAIN.lane_open, opened), (Fld.PORT_TRAIN.lane_short, short),
    (Fld.PORT_TRAIN.lane_dead, dead)]
  let h := h.raise (portBase p) Fld.PORT_FLAGS.lane_fault Fld.PORT_CNT_D.lane_fault (ringPort p) 0x47
    (bitsOf (h.reg (portBase p + Fld.PORT_TRAIN.lane_open.off)) 25 2)
  h.portDown p

/-- The port trains. -/
def TrainStage.active (s : TrainStage) : Bool :=
  match s with
  | .laneCheck => true
  | .training => true
  | .framing => true
  | .version => true
  | _ => false

def execTrainingStageEnd (p : Port) (r : StageEnd) (s : State) : Host.Outcome State Fault Refusal :=
  .next (s.onHw (fun h =>
    if (h.port p).stage.active then
      match r with
      | .done a b => h.stageDone p a.toNat b.toNat
      | .failed => h.stageFailed p
      | .laneFault a b c => h.laneFault p a.toNat b.toNat c.toNat
    else h))

/-- R248: the link runs at the smaller vmax if it is at least the larger vmin; else there is no common version.
DEDUCED: assumption 57. -/
def Hw.exchangeVersion (h : Hw) (p : Nat) (f : Flit) : Hw :=
  let b := portBase p
  let link := Nat.min (msgBits f 7 0) h.clk.vmax
  let least := Nat.max (msgBits f 15 8) 0x10
  let h := h.setFlds b [(Fld.PORT_VER.peer, msgBits f 7 0), (Fld.PORT_VER.peer_kind, msgBits f 17 16)]
  if link < least then h.portDown p
  else
    (h.setPort p { h.port p with stage := .up }).setFlds b
      [(Fld.PORT_VER.link, link), (Fld.PORT_STATUS.state, 4), (Fld.PORT_LINK.credits, Config.credits)]

def execTrainVer (p : Port) (f : Flit) (s : State) : Host.Outcome State Fault Refusal :=
  .next (s.onHw (fun h =>
    if h.portState p = 3 ∧ f.cls = 3 ∧ f.mtype = 0x20 then h.exchangeVersion p f else h.onFlit p f 0x20 id))

end Sys2Proof.Machine
end

