-- ==== Sys2Proof/Machine/Staged.lean ====
section
/-!
DEFINITION. Writes of inflection control (R334 to R336): the staged table and its commit, requests for a snapshot and a stop;
the firmware's hold on shared memory (R407).
-/
namespace Sys2Proof.Machine

/-- R335: the staged generation becomes one more than the installed one. DEDUCED: assumption 44. -/
def Hw.commitStage (h : Hw) : Hw :=
  match h.job with
  | none => h
  | some _ =>
    let g := (h.infl.committed.gen + 1) % 2 ^ 16
    { h with infl := { h.infl with stagedGen := g } }.setFld inflBase Fld.INFL_STATUS.staged g

def execStageCommit (s : State) : Host.Outcome State Fault Refusal :=
  .next (s.onAccess .stageCommit (fun s => (s.onHw Hw.commitStage).answer (Resp.ok 0)))

/-- R334: the snapshot bit of this rank's contributions. -/
def Hw.requestSnapshot (h : Hw) : Hw :=
  match h.job with
  | none => h
  | some _ => (h.onJob (fun j => { j with snapBit := true })).setFld inflBase Fld.INFL_STAGE.snap_pending 1

def execSnapshotRequest (s : State) : Host.Outcome State Fault Refusal :=
  .next (s.onAccess .snapshotRequest (fun s => (s.onHw Hw.requestSnapshot).answer (Resp.ok 0)))

/-- R334: the stop bit of this rank's contributions. -/
def Hw.requestStop (h : Hw) : Hw := h.onJob (fun j => { j with stopBit := true })

def execStopRequest (s : State) : Host.Outcome State Fault Refusal :=
  .next (s.onAccess .stopRequest (fun s => (s.onHw Hw.requestStop).answer (Resp.ok 0)))

/-- R336: the staged copy is open while a job is admitted and nothing staged waits to be installed. -/
def Hw.stageOpen (h : Hw) : Bool := h.job.isSome && decide (h.infl.stagedGen ≤ h.infl.committed.gen)

/-- R336: floor, ceil, profile, silent_wd and uw_wd of a staged entry; nothing of a pinned layer's. -/
def stagedEntry (installed old v : Word) : Word :=
  if entryPinned installed then old
  else withBits (withBits old 8 3 (bitsOf v 8 3)) 15 10 (bitsOf v 15 10)

/-- Word `i` of the staged entries or profiles written. DEDUCED: assumption 44. -/
def InflSt.stage (x : InflSt) (entry : Bool) (i : Nat) (v : Word) : InflSt :=
  if entry then
    let e := stagedEntry ((x.entries[i]?).getD 0) ((x.stagedE[i]?).getD 0) v
    { x with stagedE := x.stagedE.set i e }
  else { x with stagedP := x.stagedP.set i v }

/-- A write of INFL_STGE `i` (entry) or INFL_STGP `i`. DEDUCED: assumption 44. -/
def State.writeStaged (s : State) (entry : Bool) (i : Nat) (v : Word) : State :=
  if s.hw.stageOpen then (s.onHw (fun h => { h with infl := h.infl.stage entry i v })).answer (Resp.ok 0)
  else s.answer Resp.bus

def execStagedTableWrite (entry : Bool) (i : BitVec 10) (v : Word) (s : State) : Host.Outcome State Fault Refusal :=
  .next (s.onAccess (.stagedTableWrite entry i v) (fun s => s.writeStaged entry i.toNat v))

/-- R407: the hold may only shrink; a larger value is ignored. -/
def Hw.lowerHold (h : Hw) (n : Nat) : Hw :=
  if n ≤ h.fld sysBase Fld.SYS_FW_HOLD.segments then h.setFld sysBase Fld.SYS_FW_HOLD.segments n else h

def execFwHoldWrite (v : BitVec 10) (s : State) : Host.Outcome State Fault Refusal :=
  .next (s.onAccess (.fwHoldWrite v) (fun s => (s.onHw (fun h => h.lowerHold v.toNat)).answer (Resp.ok 0)))

end Sys2Proof.Machine
end

