-- ==== Sys2Proof/Machine/Regs.lean ====
section
/-!
DEFINITION. Accesses of the control space from outside the schedule (R18 to R21, R38, R393 to R395): reads with a side effect,
writes of plain registers, and writes that start something. Every requester of a register (a Fliuf core, the debug port,
management) comes here.
-/
namespace Sys2Proof.Machine

/-! ### Widths, R18 -/

/-- An aligned 64-bit access or an aligned 32-bit half. -/
def regWidth (a n : Nat) : Bool := decide (n = 8 ∧ a % 8 = 0) || decide (n = 4 ∧ a % 4 = 0)

/-- The bits of the register that an access covers. -/
def coverMask (a n : Nat) : Word :=
  if n = 8 then 0xFFFFFFFFFFFFFFFF#64 else if a % 8 = 0 then 0xFFFFFFFF#64 else 0xFFFFFFFF00000000#64

/-- A written value at its place in the register. -/
def placed (a n : Nat) (v : Word) : Word := if n = 8 then v else if a % 8 = 0 then v &&& 0xFFFFFFFF#64 else v <<< 32

/-- What a read of `n` bytes at `a` takes from the register. -/
def taken (a n : Nat) (v : Word) : Word := if n = 8 then v else if a % 8 = 0 then v &&& 0xFFFFFFFF#64 else v >>> 32

/-- Whether the written bits set bit `i`. -/
def asks (m v : Word) (i : Nat) : Bool := bitOf m i && bitOf v i

/-- The register after a write of the bits `m` of `v` (Table 0.7). -/
def RegDef.written (r : RegDef) (old m v : Word) : Word :=
  let rw := r.maskOf .rw &&& m
  let w := (old &&& ~~~rw) ||| (v &&& rw)
  (w &&& ~~~(r.maskOf .w1c &&& m &&& v)) ||| (r.maskOf .w1s &&& m &&& v)

/-- A plain register written; a reserved offset ignores it (R21). -/
def Hw.plainWrite (h : Hw) (a : Nat) (m v : Word) : Hw :=
  match locate a with
  | none => h
  | some (w, _, o) =>
    match regAt w o with
    | none => h
    | some r => h.setReg a (r.written (h.reg a) m v)

/-- What the register would hold. -/
def Hw.wouldHold (h : Hw) (a : Nat) (m v : Word) : Word := (h.plainWrite a m v).reg a

def State.plain (s : State) (a : Nat) (m v : Word) : State := (s.onHw (fun h => h.plainWrite a m v)).answer (Resp.ok 0)

/-! ### Bus errors, R18 and R40 -/

/-- A bus error counted in the target unit; a fault report or an unclean step never follows from it. A write refused in the
tiered range counts at the controller of its page, whose registers show no such count. DESIGN CHOICE: assumption 45. -/
def Hw.countBusError (h : Hw) (a : Nat) (write : Bool) : Hw :=
  match spaceOf a with
  | .shared => h.sliceEvent (sliceOf a) 2 a write
  | .tileMem => h.tileMark (tileOf a) 0 8 (a + flagNat write * 2 ^ 48)
  | .tiered =>
    let c := h.controllerOf a
    if write then h.setCtl c { h.ctl c with refusedWrites := (h.ctl c).refusedWrites + 1 } else h
  | .control =>
    match locate a with
    | some (.tile, t, _) => h.tileMark t 0 8 (a + flagNat write * 2 ^ 48)
    | some (.slice, sl, _) => h.sliceEvent sl 2 a write
    | _ => h
  | .outside => h

/-- An access of another width or alignment than R18 allows: a bus error, which a tile or a slice counts. -/
def State.badWidth (s : State) (a : Nat) (write : Bool) : State := (s.onHw (fun h => h.countBusError a write)).answer Resp.bus

/-! ### Writes that start something, by window -/

def State.tileWrite (s : State) (t o a : Nat) (m v : Word) : State :=
  if o = 0xD080 then
    let w := (s.hw.traceAsked t &&& ~~~m) ||| (v &&& m)
    let clear := asks m v 3
    (s.onHw (fun h => h.writeTrace t (BitVec.ofNat 5 (bitsOf w 2 0 + flagNat clear * 8 + flagNat (bitOf w 4) * 16)))).answer
      (Resp.ok 0)
  else s.plain a m v

def State.sliceWrite (s : State) (sl o a : Nat) (m v : Word) : State :=
  if o = 8 then
    let r := s.hw.segCfgWrite sl (bitsOf (s.hw.wouldHold a m v) 15 0)
    { s with hw := r.1 }.answer (if r.2 then Resp.bus else Resp.ok 0)
  else s.plain a m v

def State.lpdWrite (s : State) (o a : Nat) (m v : Word) : State :=
  let job := s.hw.fld lpdBase Fld.TIER_QSEL.job
  match o with
  | 0x8018 => (s.onHw (fun h => h.writeQuota job ((h.quotaShown job &&& ~~~m) ||| (v &&& m)))).answer (Resp.ok 0)
  | 0x8028 =>
    (s.onHw (fun h => if asks m v 1 then { h with tier := { h.tier with rejected := h.tier.rejected.erase job } } else h)).answer
      (Resp.ok 0)
  | 0x8030 => (s.onHw (fun h => h.migWrite v m)).answer (Resp.ok 0)
  | _ => s.plain a m v

/-- A ring's base may be written while the ring is empty (Table 6.19). -/
def State.ringBaseWrite (s : State) (a : Nat) (empty : Bool) (m v : Word) : State :=
  if empty then s.plain a m v else s.answer Resp.bus

def State.portWrite (s : State) (p o a : Nat) (m v : Word) : State :=
  let b := portBase p
  match o with
  | 0x08 =>
    if s.hw.job.isSome then (if m &&& 3#64 = 0 then s.plain a m v else s.answer Resp.bus)
    else
      let s := s.plain a m v
      if asks m v 1 then s.startTraining p else s
  | 0x70 => s.ringBaseWrite a (decide (s.hw.fld b Fld.PORT_UQ_PTR.head = s.hw.fld b Fld.PORT_UQ_PTR.tail)) m v
  | 0x80 => s.ringBaseWrite a (decide (s.hw.fld b Fld.PORT_UR_PTR.head = s.hw.fld b Fld.PORT_UR_PTR.tail)) m v
  | 0x78 => (s.onHw (fun h => if bitOf m 16 then h.setUqTail p (bitsOf v 31 16) else h)).answer (Resp.ok 0)
  | 0x88 => (s.onHw (fun h => if bitOf m 0 then h.setUrHead p (bitsOf v 15 0) else h)).answer (Resp.ok 0)
  | _ => s.plain a m v

def State.clkWrite (s : State) (o a : Nat) (m v : Word) : State :=
  match o with
  | 0x28 => (s.setPeri (bitsOf (s.hw.wouldHold a m v) 15 0)).answer (Resp.ok 0)
  | 0x108 =>
    if s.hw.job.isSome then (if m &&& 0x1F1#64 = 0 then s.plain a m v else s.answer Resp.bus)
    else
      let t := s.plain a m v
      if asks m v 0 then
        if t.hw.mayArm then t.armAlignment else s.answer Resp.bus
      else t
  | 0x130 => if asks m v 16 then s.fillBuffer else s.answer (Resp.ok 0)
  | _ => s.plain a m v

def State.inflWrite (s : State) (o a : Nat) (m v : Word) : State :=
  if o = 0x140 then
    (s.onHw (fun h =>
      let h := if asks m v 0 then h.commitStage else h
      let h := if asks m v 1 then h.requestSnapshot else h
      if asks m v 2 then h.requestStop else h)).answer (Resp.ok 0)
  else if 0x1000 ≤ o ∧ o < 0x1400 then
    let i := (o - 0x1000) / 8
    s.writeStaged false i (((s.hw.infl.stagedP[i]?).getD 0 &&& ~~~m) ||| (v &&& m))
  else if 0x2000 ≤ o ∧ o < 0x4000 then
    let i := (o - 0x2000) / 8
    s.writeStaged true i (((s.hw.infl.stagedE[i]?).getD 0 &&& ~~~m) ||| (v &&& m))
  else s.plain a m v

/-- XOF_CMD.go through the register: the command takes its arguments from the mailbox, whose layout the spec does not give
(assumption 7); what they are is left open. DESIGN CHOICE: assumption 7. -/
def State.runMailbox (s : State) (op : Nat) : State :=
  let w := Config.freeWord s.hw.free
  let key := Config.freeSecret (s.hw.free + 1)
  let nonce := Config.freeNonce (s.hw.free + 2)
  let pub := Config.publicKey (Config.freeSecret (s.hw.free + 3))
  let data := (List.range (bitsOf w 63 55)).map (fun i => Config.freeByte (s.hw.free + 4 + i))
  let s := s.onHw (fun h => { h with free := h.free + 4 + 512 })
  match op with
  | 1 => s.runHash data
  | 2 => s.runVerify pub key (sigOf data)
  | 3 => s.runAttest nonce
  | 4 => s.runSessionKey pub nonce
  | 5 => s.runSessionHello pub (BitVec.ofNat 32 w.toNat)
  | 6 => s.runTag key data
  | 7 => s.runMeasure (BitVec.ofNat 4 w.toNat) (BitVec.ofNat 8 (bitsOf w 11 4)) (BitVec.ofNat 48 nonce.toNat)
      (BitVec.ofNat 48 (bitsOf w 63 16)) (BitVec.ofNat 32 key.toNat)
  | 8 => s.runClear (BitVec.ofNat 4 w.toNat)
  | 9 => s.runFlashOpen (bitOf w 0)
  | 10 => s.runRaiseSvn
  | 11 => s.runProvision key
  | 12 => s.runRandom (BitVec.ofNat 10 (bitsOf w 8 0))
  | _ => s.xofStart (xofEnds op 3)

def State.xofWrite (s : State) (o a : Nat) (m v : Word) : State :=
  if o = 0x18 then
    if s.xofFree then
      let t := s.plain a m v
      if asks m v 63 then t.runMailbox (t.hw.fld xofBase Fld.XOF_CMD.op) else t
    else s.answer Resp.bus
  else s.plain a m v

def State.debugWrite (s : State) (o a : Nat) (m v : Word) : State :=
  match o with
  | 0x20 =>
    (s.onHw (fun h =>
      let h := if asks m v 1 then h.releaseCapture else h
      if asks m v 0 then h.capture 5 else h)).answer (Resp.ok 0)
  | 0x38 => (s.onHw (fun h => if asks m v 0 then h.clearCollector else h)).answer (Resp.ok 0)
  | _ => s.plain a m v

/-! ### The peripheral window, R393 and R394 -/

/-- The enable bit of the block at an offset (Table 11.3). -/
def enableBit (o : Nat) : Option Nat :=
  if o < 0x410000 then none
  else if o < 0x414000 then some (periUart ((o - 0x410000) / 0x1000))
  else if 0x420000 ≤ o ∧ o < 0x424000 then some (periI2c ((o - 0x420000) / 0x1000))
  else if 0x430000 ≤ o ∧ o < 0x432000 then some (periSpi ((o - 0x430000) / 0x1000))
  else if 0x440000 ≤ o ∧ o < 0x441000 then some periGpio
  else if 0x450000 ≤ o ∧ o < 0x451000 then some periTimer
  else if 0x460000 ≤ o ∧ o < 0x464000 then some periWdt
  else if 0x470000 ≤ o ∧ o < 0x490000 then some (periEth ((o - 0x470000) / 0x10000))
  else if 0x490000 ≤ o ∧ o < 0x4A0000 then some periQspi
  else none

/-- The management Ethernet and QSPI controllers, whose registers are internal to firmware (R395).
DESIGN CHOICE: assumption 41. -/
def internalBlock (o : Nat) : Bool := decide (0x470000 ≤ o ∧ o < 0x4A0000)

/-- Only a hart in machine mode reaches them. DESIGN CHOICE: assumption 41. -/
def State.reachesInternal (s : State) (r : Outsider) : Bool :=
  match r with
  | .fetch h => decide ((s.hart h.val).view.mode = 3)
  | .load h => decide ((s.hart h.val).view.mode = 3)
  | .store h => decide ((s.hart h.val).view.mode = 3)
  | .debug => false
  | .management => false

def romAt (o : Nat) : Bool := decide (0x800000 ≤ o ∧ o < 0x840000)
def sramAt (o : Nat) : Bool := decide (0x900000 ≤ o ∧ o < 0xA00000)

def State.uartWrite (s : State) (i o a : Nat) (m v : Word) : State :=
  if o % 0x1000 = 0x10 then (if bitOf m 0 then s.uartPut i (BitVec.ofNat 8 v.toNat) else s.answer (Resp.ok 0)) else s.plain a m v

def State.i2cWrite (s : State) (i o a : Nat) (m v : Word) : State :=
  match o % 0x1000 with
  | 0x00 =>
    let s := s.plain a m v
    let s := if asks m v 5 then s.i2cBegin i else s
    if asks m v 6 then s.i2cHalt i else s
  | 0x10 => if bitOf m 0 then (s.i2cSend i (BitVec.ofNat 8 v.toNat)).answer (Resp.ok 0) else s.answer (Resp.ok 0)
  | _ => s.plain a m v

def State.spiWrite (s : State) (i o a : Nat) (m v : Word) : State :=
  let t := s.plain a m v
  if o % 0x1000 = 0 ∧ asks m v 10 then t.spiBegin i else t

/-- Timer j counts down from TMR_LOAD once TMR_CTL.run is set (Table 11.4). -/
def State.tmrWrite (s : State) (j o a : Nat) (m v : Word) : State :=
  let t := s.plain a m v
  if o % 0x20 = 8 ∧ asks m v 0 ∧ s.hw.flag (tmrBase j) Fld.TMR_CTL.run = false then t.loadTimer j else t

/-- WDT_CTL holds once enable is set: enable is cleared by a module reset alone, the rest is ignored (Table 11.5). The count
starts from WDT_CTL.period. -/
def State.wdtWrite (s : State) (i o a : Nat) (m v : Word) : State :=
  match o % 0x1000 with
  | 0x00 =>
    if s.hw.flag (wdtBase i) Fld.WDT_CTL.enable then s.answer (Resp.ok 0)
    else
      let t := s.plain a m v
      if asks m v 0 then t.loadWatchdog i else t
  | 0x08 => if bitOf m 0 then (s.kick i (BitVec.ofNat 8 v.toNat)).answer (Resp.ok 0) else s.answer (Resp.ok 0)
  | _ => s.plain a m v

/-- The fields of the Job Status Word that firmware writes (Table 11.16). -/
def jswFields (w : Word) : List (Fld × Nat) :=
  [Fld.SYS_JSW.state, Fld.SYS_JSW.op, Fld.SYS_JSW.progress, Fld.SYS_JSW.code, Fld.SYS_JSW.last_op, Fld.SYS_JSW.last_result].map
    (fun f => (f, bitsOf w f.hi f.lo))

/-- A job runs: from its start to its end (Table 11.13, SYS_RES_CFG). -/
def Hw.jobRuns (h : Hw) : Bool :=
  match h.job with
  | none => false
  | some j => j.running

def State.sysWrite (s : State) (o a : Nat) (m v : Word) : State :=
  match o with
  | 0x30 => (s.onHw (fun h => if bitOf m 0 then h.lowerHold (bitsOf v 9 0) else h)).answer (Resp.ok 0)
  | 0x40 => (s.onHw (fun h => h.jsw (jswFields (h.wouldHold a m v)))).answer (Resp.ok 0)
  | 0x48 => if s.hw.jobRuns then s.answer Resp.bus else s.plain a m v
  | _ => s.plain a m v

/-- The two 32-bit words that an access of the interrupt devices covers. -/
def irqWords (o : Nat) (m : Word) : List Nat := (if bitOf m 0 then [o] else []) ++ (if bitOf m 32 then [o + 4] else [])

def State.irqWriteAll (s : State) (o : Nat) (m v : Word) : State :=
  ((irqWords o m).foldl (fun s k => s.irqWrite k (if k = o then bitsOf v 31 0 else bitsOf v 63 32)) s).answer (Resp.ok 0)

/-- A register of the peripheral window written, its block clocked. -/
def State.fliufWrite (s : State) (o a : Nat) (m v : Word) : State :=
  if o < 0x410000 then s.irqWriteAll o m v
  else if o < 0x414000 then s.uartWrite ((o - 0x410000) / 0x1000) o a m v
  else if 0x420000 ≤ o ∧ o < 0x424000 then s.i2cWrite ((o - 0x420000) / 0x1000) o a m v
  else if 0x430000 ≤ o ∧ o < 0x432000 then s.spiWrite ((o - 0x430000) / 0x1000) o a m v
  else if 0x450000 ≤ o ∧ o < 0x450080 then s.tmrWrite ((o - 0x450000) / 0x20) o a m v
  else if 0x460000 ≤ o ∧ o < 0x464000 then s.wdtWrite ((o - 0x460000) / 0x1000) o a m v
  else if internalBlock o then s.answer (Resp.ok 0)
  else if 0x4A0000 ≤ o ∧ o < 0x4B0000 then s.sysWrite (o - 0x4A0000) a m v
  else s.plain a m v

/-- The block answers: its clock is on, and the requester may reach it. -/
def State.blockOpen (s : State) (r : Outsider) (o : Nat) : Bool :=
  (match enableBit o with
    | none => true
    | some b => s.hw.periOn b) && (!internalBlock o || s.reachesInternal r)

/-! ### A write of a register -/

/-- The bits `m` of `v` written to the register at the aligned address `a`. -/
def State.writeWord (s : State) (r : Outsider) (a : Nat) (m v : Word) : State :=
  match locate a with
  | none => s.answer Resp.bus
  | some (w, u, o) =>
    match w with
    | .tile => s.tileWrite u o a m v
    | .slice => s.sliceWrite u o a m v
    | .stack => s.plain a m v
    | .lpd => s.lpdWrite o a m v
    | .port => s.portWrite u o a m v
    | .bridge => s.answer (Resp.ok 0)
    | .clk => s.clkWrite o a m v
    | .infl => s.inflWrite o a m v
    | .power => s.plain a m v
    | .xof => s.xofWrite o a m v
    | .fliuf => if s.blockOpen r o then s.fliufWrite o a m v else s.answer Resp.bus
    | .debug => s.debugWrite o a m v

/-- The memories of the peripheral window: a byte of the boot ROM or the boot SRAM. -/
def State.bootByte (s : State) (a : Nat) : Byte :=
  if romAt (a - fliufBase) then Config.bootRom (a - fliufBase - 0x800000) else s.hw.byte a

/-- Whether an address lies in the boot ROM or the boot SRAM. -/
def bootMemory (a : Nat) : Bool := decide (fliufBase ≤ a) && (romAt (a - fliufBase) || sramAt (a - fliufBase))

/-- A control-space write of `n` bytes (R18, R38). The boot ROM takes no write (Table 11.1). -/
def State.writeReg (s : State) (r : Outsider) (a n : Nat) (v : Word) : State :=
  if bootMemory a then
    if sramAt (a - fliufBase) then (s.onHw (fun h => h.write a (leBytes n v.toNat))).answer (Resp.ok 0) else s.answer Resp.bus
  else if regWidth a n then s.writeWord r (a / 8 * 8) (coverMask a n) (placed a n v)
  else s.badWidth a true

/-! ### A read of a register -/

/-- The part of TNS_NOW that an access covers (R265). -/
def tensePart (a n : Nat) : Nat := if n = 8 then 0 else if a % 8 = 0 then 1 else 2

/-- The fields of a register that a read clears (RC of Table 0.7), within the bits that the read covers. -/
def Hw.readClears (h : Hw) (a : Nat) (m : Word) : Hw :=
  match locate a with
  | none => h
  | some (w, _, o) =>
    match regAt w o with
    | none => h
    | some r => if r.maskOf .rc = 0 then h else h.setReg a (h.reg a &&& ~~~(r.maskOf .rc &&& m))

/-- The register's own value answered. -/
def State.answerView (s : State) (a n : Nat) : State :=
  (s.answer (Resp.ok (taken a n (s.view (a / 8 * 8))))).onHw (fun h => h.readClears (a / 8 * 8) (coverMask a n))

/-- A received byte taken from I2C_DATA. -/
def State.i2cTake (s : State) (i a n : Nat) : State :=
  (s.answerView a n).onHw (fun h => if a % 8 = 0 then h.setFld (i2cBase i) Fld.I2C_STATUS.rx_ready 0 else h)

/-- An answer that nothing in the state gives (R395, R460). DESIGN CHOICE: assumptions 40, 41. -/
def State.answerFree (s : State) (a n : Nat) : State :=
  (s.onHw (fun h => { h with free := h.free + 1 })).answer (Resp.ok (taken a n (Config.freeWord s.hw.free)))

def State.fliufRead (s : State) (o a n : Nat) : State :=
  if o < 0x410000 then
    let lo := s.irqRead (o / 8 * 8)
    let hi := s.irqRead (o / 8 * 8 + 4)
    s.answer (Resp.ok (taken a n (BitVec.ofNat 64 (lo + hi * 2 ^ 32))))
  else if o < 0x414000 ∧ o % 0x1000 = 0x10 then s.uartTake ((o - 0x410000) / 0x1000)
  else if 0x420000 ≤ o ∧ o < 0x424000 ∧ o / 8 * 8 % 0x1000 = 0x10 then s.i2cTake ((o - 0x420000) / 0x1000) a n
  else if internalBlock o then s.answerFree a n
  else s.answerView a n

/-- A control-space read of `n` bytes. -/
def State.readReg (s : State) (r : Outsider) (a n : Nat) : State :=
  if bootMemory a then s.answer (Resp.ok (BitVec.ofNat 64 (leNat ((List.range n).map (fun i => s.bootByte (a + i))))))
  else if regWidth a n then
    match locate a with
    | none => s.answer Resp.bus
    | some (w, _, o) =>
      if w = .fliuf then (if s.blockOpen r o then s.fliufRead o a n else s.answer Resp.bus)
      else if w = .clk ∧ o / 8 = 0x20 then s.readTense r (tensePart a n)
      else if w = .power ∧ o / 8 = 0xA then (s.answerView a n).onHw (fun h => { h with free := h.free + 1 })
      else s.answerView a n
  else s.badWidth a false

end Sys2Proof.Machine
end

