-- ==== Sys2Proof/Machine/Outside.lean ====
section
/-!
DEFINITION. Accesses to the physical map from outside the schedule (R35 to R40, R178 to R189, R391, R455): what the debug port,
a management operation or a core past its caches reads and writes, the slice cache, and the errors they meet.
-/
namespace Sys2Proof.Machine

/-! ### Answers -/

/-- R391: a bus error to the requester; a hart takes it as an access fault of the cause of its access. -/
def State.deny (s : State) (r : Outsider) (a : Nat) (write : Bool) : State :=
  let s := match r with
    | .fetch h => s.hartFault h 1 a
    | .load h => s.hartFault h (if write then 7 else 5) a
    | .store h => s.hartFault h 7 a
    | .debug => s
    | .management => s
  s.answer Resp.bus

/-- An access that ended in a bus error faults its hart. -/
def State.denied (s : State) (r : Outsider) (a : Nat) (write : Bool) : State :=
  if s.resp.busError then s.deny r a write else s

/-- A counted bus error (R40). -/
def State.refuse (s : State) (a : Nat) (write : Bool) : State := (s.onHw (fun h => h.countBusError a write)).answer Resp.bus

def State.give (s : State) (bs : List Byte) : State := s.answer ⟨false, 0, BitVec.ofNat 64 (leNat bs), bs⟩

/-! ### The slice cache, R181 -/

/-- Sets of a slice's cache. -/
def Hw.cacheSets (h : Hw) (sl : Nat) : Nat := h.cacheSegments sl * 128

/-- R181: an access from outside goes through the home cache of its page. -/
def Hw.goesThroughCache (h : Hw) (a : Nat) : Bool :=
  bitOf (h.tierEntry (pageOf a)) 19 && decide (0 < h.cacheSegments (homeSlice (pageOf a)))

/-- The DRAM finding of a request made for an access. -/
def dramFinding (found : Ecc) : DramFinding :=
  match found with
  | .clean => .clean
  | .corrected => .corrected
  | .uncorrectable => .uncorrectable

/-- The least recently used line of a full set leaves the cache, written back if dirty. -/
def Hw.evict (h : Hw) (sl set : Nat) : Hw :=
  let x := h.slice sl
  let mine := x.cache.filter (fun l => decide (l.line % h.cacheSets sl = set))
  match mine.getLast? with
  | none => h
  | some l =>
    if mine.length < 16 then h
    else (h.setSlice sl { x with cache := x.cache.erase l }).writeBack [l]

/-- The line put in front of its cache. -/
def Hw.putLine (h : Hw) (sl : Nat) (l : CacheLine) : Hw :=
  let x := h.slice sl
  h.setSlice sl { x with cache := l :: x.cache.filter (fun m => decide (m.line ≠ l.line)) }

/-- The line of an address made present: a hit, or a miss that fetches it from its tier; none when the fetch fails. -/
def Hw.lineOf (h : Hw) (a : Nat) (found : Ecc) : Hw × Option CacheLine :=
  let sl := homeSlice (pageOf a)
  let n := a / 128
  match (h.slice sl).cache.find? (fun l => decide (l.line = n)) with
  | some l => (h.count (sliceBase sl) Fld.SLC_CACHE_HIT.count 1, some l)
  | none =>
    let h := (h.count (sliceBase sl) Fld.SLC_CACHE_MISS.count 1).countRequest (pageOf a)
    match h.serve (n * 128) 128 none (dramFinding found) with
    | (h, .failed) => (h, none)
    | (h, .ok bs) => (h.evict sl (n % h.cacheSets sl), some ⟨n, false, bs⟩)

/-- Bytes of a line replaced from an offset. -/
def overlay (old new : List Byte) (off : Nat) : List Byte := old.take off ++ new ++ old.drop (off + new.length)

/-- The part of an access within one line: a read answers its bytes; none is a failed request. -/
def Hw.cachedPart (h : Hw) (a n : Nat) (write : Option (List Byte)) (found : Ecc) : Hw × Option (List Byte) :=
  match h.lineOf a found with
  | (h, none) => (h, none)
  | (h, some l) =>
    let sl := homeSlice (pageOf a)
    match write with
    | none => (h.putLine sl l, some (sub l.data (a % 128) n))
    | some bs => (h.putLine sl ⟨l.line, true, overlay l.data bs (a % 128)⟩, some [])

/-- The same part at the tier itself. -/
def Hw.directPart (h : Hw) (a n : Nat) (write : Option (List Byte)) (found : Ecc) : Hw × Option (List Byte) :=
  match (h.countRequest (pageOf a)).serve a n write (dramFinding found) with
  | (h, .failed) => (h, none)
  | (h, .ok bs) => (h, some bs)

def Hw.tierPart (h : Hw) (a n : Nat) (write : Option (List Byte)) (found : Ecc) : Hw × Option (List Byte) :=
  if h.goesThroughCache a then h.cachedPart a n write found else h.directPart a n write found

/-- The parts of a range that lie in one 128-byte line each. -/
def linePieces (a : Nat) : Nat → Nat → List (Nat × Nat)
  | 0, _ => []
  | fuel + 1, n =>
    if n = 0 then []
    else
      let k := Nat.min n (128 - a % 128)
      (a, k) :: linePieces (a + k) fuel (n - k)

/-- A range of the tiered range accessed; it ends at the first part that fails. DESIGN CHOICE: assumption 48. -/
def Hw.tierAccess (h : Hw) (a n : Nat) (write : Option (List Byte)) (found : Ecc) : Hw × Option (List Byte) :=
  (linePieces a (n + 1) n).foldl (fun x p =>
    match x.2 with
    | none => x
    | some bs =>
      let w := write.map (fun d => sub d (p.1 - a) p.2)
      match x.1.tierPart p.1 p.2 w (if p.1 = a then found else .clean) with
      | (h, none) => (h, none)
      | (h, some cs) => (h, some (bs ++ cs))) (h, some [])

/-- A page of the range is in an exchange, or its subchannel in retraining: the access waits (R199, R206). -/
def Hw.heldUp (h : Hw) (a n : Nat) : Bool :=
  decide (spaceOf a = .tiered) && (linePieces a (n + 1) n).any (fun p =>
    tierBusy (h.tierEntry (pageOf p.1))
      || (decide (12 ≤ h.controllerOf p.1) && ((h.ctl (h.controllerOf p.1)).retrain.find? (subchannelOf p.1)).isSome))

/-- A command that waits for an exchange or a retraining; it is served again when one ends. -/
def State.hold (s : State) (i : Instr) : State :=
  s.onHw (fun h => { h with tier := { h.tier with waiting := h.tier.waiting ++ [i] } })

/-- Pages that something other than Fliuf software touches (R198). -/
def State.touches (s : State) (r : Outsider) (a n : Nat) : State :=
  match r with
  | .debug => s.onHw (fun h => if spaceOf a = .tiered then (linePieces a (n + 1) n).foldl (fun h p => h.touchPage (pageOf p.1)) h else h)
  | .management =>
    s.onHw (fun h => if spaceOf a = .tiered then (linePieces a (n + 1) n).foldl (fun h p => h.touchPage (pageOf p.1)) h else h)
  | _ => s

/-! ### Reads and writes of the physical map -/

/-- A shared-memory read: a cache segment reads as zero (R36); an uncorrectable word gives a bus error
(R189). -/
def State.sharedRead (s : State) (a n : Nat) (found : Ecc) : State :=
  let bs := s.hw.engineRead a n
  if !s.hw.scratchpad ((a - sharedBase) / 0x40000) then s.give bs
  else
    let s := s.onHw (fun h => h.systemRead a found)
    if found = .uncorrectable then s.refuse a false else s.give bs

/-- A read of tile memory (R133). -/
def State.tileRead (s : State) (a n : Nat) (found : Ecc) : State :=
  let s := s.onHw (fun h => h.tileEccQuiet (tileOf a) found a)
  if found = .uncorrectable then s.refuse a false else s.give (s.hw.read a n)

/-- Whether a range stays in the range of Table 1.3 in which it begins. -/
def sameSpace (a n : Nat) : Bool := decide (spaceOf (a + n - 1) = spaceOf a)

/-- A read of `n` bytes of the physical map. DESIGN CHOICE: assumption 48. -/
def State.physRead (s : State) (r : Outsider) (a n : Nat) (found : Ecc) : State :=
  if !sameSpace a n then s.answer Resp.bus
  else
    match spaceOf a with
    | .tiered =>
      match (s.touches r a n).hw.tierAccess a n none found with
      | (h, some bs) => { s with hw := h }.give bs
      | (h, none) => { s with hw := h }.answer Resp.bus
    | .shared => s.sharedRead a n found
    | .tileMem => s.tileRead a n found
    | .control =>
      if bootMemory a && bootMemory (a + n - 1) then s.give ((List.range n).map (fun i => s.bootByte (a + i))) else s.readReg r a n
    | .outside => s.answer Resp.bus

/-- A shared-memory write: one to a cache segment is a bus error (R36). -/
def State.sharedWrite (s : State) (a : Nat) (bs : List Byte) : State :=
  if (segmentsIn a bs.length).all s.hw.scratchpad then (s.onHw (fun h => h.store a bs)).answer (Resp.ok 0)
  else s.refuse a true

/-- A write of the boot SRAM; the boot ROM takes none (Table 11.1). -/
def State.bootWrite (s : State) (a : Nat) (bs : List Byte) : State :=
  if sramAt (a - fliufBase) then (s.onHw (fun h => h.write a bs)).answer (Resp.ok 0) else s.answer Resp.bus

/-- A write of the physical map; one that R40 or R290 closes is a counted bus error without effect.
DESIGN CHOICE: assumption 48. -/
def State.physWrite (s : State) (r : Outsider) (a : Nat) (bs : List Byte) (found : Ecc) : State :=
  if !sameSpace a bs.length then s.answer Resp.bus
  else if s.hw.writeClosed a bs.length then s.refuse a true
  else
    match spaceOf a with
    | .tiered =>
      match (s.touches r a bs.length).hw.tierAccess a bs.length (some bs) found with
      | (h, some _) => { s with hw := h }.answer (Resp.ok 0)
      | (h, none) => { s with hw := h }.answer Resp.bus
    | .shared => s.sharedWrite a bs
    | .tileMem => (s.onHw (fun h => h.store a bs)).answer (Resp.ok 0)
    | .control =>
      if bootMemory a && bootMemory (a + bs.length - 1) then s.bootWrite a bs
      else s.writeReg r a bs.length (BitVec.ofNat 64 (leNat bs))
    | .outside => s.answer Resp.bus

/-- A read past the core caches; a hart's bus error is its access fault. -/
def State.outsideRead (s : State) (r : Outsider) (a n : Nat) (found : Ecc) : State := (s.physRead r a n found).denied r a false

def State.outsideWrite (s : State) (r : Outsider) (a : Nat) (bs : List Byte) (found : Ecc) : State :=
  (s.physWrite r a bs found).denied r a true

/-- One access of up to 8 bytes. -/
def State.outsideAccess (s : State) (r : Outsider) (a n : Nat) (write : Option Word) (found : Ecc) : State :=
  match write with
  | none => s.outsideRead r a n found
  | some v => s.outsideWrite r a (leBytes n v.toNat) found

/-- A register write: 64 bits, or 32 bits of either half (R18). -/
def execRegisterWrite (r : Outsider) (addr : Addr) (wide : Bool) (v : Word) (s : State) : Host.Outcome State Fault Refusal :=
  .next (s.onAccess (.registerWrite r addr wide v) (fun s =>
    if spaceOf addr.toNat = .control then
      (s.writeReg r addr.toNat (if wide then 8 else 4) v).denied r addr.toNat true
    else s.deny r addr.toNat true))

/-- R427, R455: the debug port reaches the physical map while the debug-open fuse is set, and nothing but IDCODE otherwise. -/
def execDebugBusAccess (addr : Addr) (width : BitVec 4) (write : Option Word) (found : Ecc) (s : State) :
    Host.Outcome State Fault Refusal :=
  .next (if s.xof.debugOpen then
      s.onAccess (.debugBusAccess addr width write found) (fun s =>
        if s.hw.heldUp addr.toNat width.toNat then s.hold (.debugBusAccess addr width write found)
        else s.outsideAccess .debug addr.toNat width.toNat write found)
    else s.answer Resp.bus)

/-! ### Atomic operations, R188 -/

/-- R188: the bytes meet a scheduled region of the admitted image (R40), the copies of its ingest regions among them (R287). -/
def Hw.scheduledRegion (h : Hw) (a n : Nat) : Bool :=
  match h.job with
  | none => false
  | some j => (j.img.extents ++ j.released).any (fun r => meets a n r.base r.length)

/-- Where an atomic operation is performed: a scratchpad segment, no scheduled region. PRESUMED: assumption 46. -/
def Hw.atomicAllowed (h : Hw) (a n : Nat) : Bool :=
  decide (spaceOf a = .shared) && decide (a % n = 0) && h.scratchpad ((a - sharedBase) / 0x40000) && !h.scheduledRegion a n

/-- The value an AMO writes, over `n` bytes. -/
def amoResult (op : Amo) (n : Nat) (old v : Word) : Word :=
  let w := 8 * n
  let x := old.toNat % 2 ^ w
  let y := v.toNat % 2 ^ w
  let sx := signed w x
  let sy := signed w y
  BitVec.ofNat 64 (match op with
    | .lr => x
    | .sc => y
    | .swap => y
    | .add => x + y
    | .xor => x ^^^ y
    | .and => x &&& y
    | .or => x ||| y
    | .min => if sx ≤ sy then x else y
    | .max => if sy ≤ sx then x else y
    | .minu => if x ≤ y then x else y
    | .maxu => if y ≤ x then x else y)

/-- The old value as the core receives it, sign-extended from its width. -/
def loaded (n : Nat) (old : Nat) : Word := BitVec.ofNat 64 (unsigned 64 (signed (8 * n) old))

def Hw.reserves (h : Hw) (k : Hart) (a : Nat) : Bool :=
  (h.slice (sliceOf a)).reserve.any (fun r => decide (r.1 = k ∧ r.2.toNat / 8 = a / 8))

/-- The hart's reservation taken away, or set to an address. -/
def Hw.setReservation (h : Hw) (sl : Nat) (k : Hart) (a : Option Addr) : Hw :=
  let x := h.slice sl
  let rest := x.reserve.filter (fun r => decide (r.1 ≠ k))
  h.setSlice sl { x with reserve := match a with
    | none => rest
    | some b => rest ++ [(k, b)] }

/-- The operation at the slice, whose word holds `old`: LR reserves, SC writes if the reservation stands and answers 0 or 1, the
others answer the old value. Its lanes count as accumulate operations. PRESUMED: assumption 46. -/
def State.atomicWith (s : State) (k : Hart) (op : Amo) (a n : Nat) (old : Nat) (v : Word) : State :=
  let sl := sliceOf a
  match op with
  | .lr => (s.onHw (fun h => h.setReservation sl k (some (BitVec.ofNat 48 a)))).answer (Resp.ok (loaded n old))
  | .sc =>
    if s.hw.reserves k a then
      (s.onHw (fun h => (h.store a (leBytes n v.toNat)).setReservation sl k none)).answer (Resp.ok 0)
    else (s.onHw (fun h => h.setReservation sl k none)).answer (Resp.ok 1)
  | _ =>
    let new := amoResult op n (BitVec.ofNat 64 old) v
    (s.onHw (fun h => (h.store a (leBytes n new.toNat)).count (sliceBase sl) Fld.SLC_ACC_OPS.count 1)).answer
      (Resp.ok (loaded n old))

/-- SC reads no word of its slice. -/
def amoReads (op : Amo) : Bool := decide (op ≠ .sc)

/-- The same with what SECDED finds in the word read (R189): an uncorrectable word is zero, the result computed with it is
written, and the core also receives a bus error. DEDUCED: assumption 46. -/
def State.atomic (s : State) (k : Hart) (op : Amo) (a n : Nat) (v : Word) (found : Ecc) : State :=
  let found := if amoReads op then found else .clean
  let s := s.onHw (fun h => h.systemRead a found)
  let old := if found = .uncorrectable then 0 else s.hw.readNat a n
  let t := s.atomicWith k op a n old v
  if found = .uncorrectable then t.refuse a true else t

/-- An atomic operation at a physical address. -/
def State.atomicAt (s : State) (k : Hart) (op : Amo) (a n : Nat) (v : Word) (found : Ecc) : State :=
  if s.hw.atomicAllowed a n then s.atomic k op a n v found
  else if spaceOf a = .outside then s.answer Resp.bus
  else s.refuse a true

end Sys2Proof.Machine
end

