-- ==== Sys2Proof/Machine/Caches.lean ====
section
/-!
DEFINITION. What a Fliuf core reaches and how (R39, R387, R388, R390, R391): Sv48 translation, physical memory protection, the core caches with the
cache-block operations of Zicbom, write-backs and their errors, and the accesses of the physical map from outside the schedule.
-/
namespace Sys2Proof.Machine

/-! ### The lines of the core caches, R388 -/

/-- Bytes of a line of the core caches, Table 11.1. -/
def coreLineBytes : Nat := 64

/-- Lines that the second-level cache holds: 8 MiB (R388). -/
def l2Lines : Nat := 131072

/-- Lines that a core's instruction or data cache holds: 64 KiB (R388). -/
def l1Lines : Nat := 1024

/-- Table 11.1: the addresses whose bytes the core caches hold. -/
def Hw.coreCached (h : Hw) (a : Nat) : Bool :=
  match spaceOf a with
  | .tiered => true
  | .shared => h.scratchpad ((a - sharedBase) / 0x40000)
  | .control => bootMemory a
  | _ => false

def FliufSt.coreLine? (f : FliufSt) (n : Nat) : Option CoreLine := f.lines.find? (fun l => decide (l.line = n))

/-- The line put in front of the others. -/
def FliufSt.putLine (f : FliufSt) (l : CoreLine) : FliufSt :=
  { f with lines := l :: f.lines.filter (fun m => decide (m.line ≠ l.line)) }

/-- The line leaves every cache. -/
def FliufSt.dropLine (f : FliufSt) (n : Nat) : FliufSt :=
  { f with
    lines := f.lines.filter (fun m => decide (m.line ≠ n))
    icaches := f.icaches.mapVals [] (fun _ x => x.erase n)
    dcaches := f.dcaches.mapVals [] (fun _ x => x.erase n) }

/-- The core's own cache holds a copy of the line. Which copy it replaces is not given, and no value depends on it.
DESIGN CHOICE: assumption 89. -/
def FliufSt.noteCopy (f : FliufSt) (r : Outsider) (n : Nat) : FliufSt :=
  let add := fun (x : List Nat) => (n :: x.erase n).take l1Lines
  match r with
  | .fetch k => { f with icaches := f.icaches.upd [] k.val add }
  | .load k => { f with dcaches := f.dcaches.upd [] k.val add }
  | .store k => { f with dcaches := f.dcaches.upd [] k.val add }
  | _ => f

/-! ### Write-backs, R391 -/

/-- A dirty line met an error on its way to memory: the line is recorded, and source 52 is asserted through SYS_FLAGS. -/
def Hw.writebackError (h : Hw) (a : Nat) : Hw :=
  (h.setFld sysBase Fld.SYS_WB_ADDR.addr a).raise sysBase Fld.SYS_FLAGS.wb_err Fld.SYS_CNT_A.wb_err ringFliuf 0x70 a

/-- A dirty line goes to memory; a bus error or a failed request on its way is a write-back error. One to a page in an exchange
waits (R199). DEDUCED: assumption 89. -/
def State.writeBackLine (s : State) (r : Outsider) (l : CoreLine) : State :=
  let a := coreLineBytes * l.line
  if !l.dirty then s
  else if s.hw.heldUp a coreLineBytes then { s with fliuf := { s.fliuf with writing := s.fliuf.writing ++ [l] } }
  else
    let t := s.physWrite r a l.data .clean
    let u := if t.resp.busError then t.onHw (fun h => h.writebackError a) else t
    { u with resp := s.resp }

/-- The write-backs that waited go to memory, in order. -/
def State.resumeWriteBacks (s : State) : State :=
  s.fliuf.writing.foldl (fun s l => s.writeBackLine .debug l) { s with fliuf := { s.fliuf with writing := [] } }

/-- A line of the second-level cache met an error on its way to memory; it is in no cache any more. DEDUCED: assumption 89. -/
def execWritebackError (line : Addr) (s : State) : Host.Outcome State Fault Refusal :=
  .next { s with hw := s.hw.writebackError line.toNat, fliuf := s.fliuf.dropLine (line.toNat / coreLineBytes) }

/-! ### Fills -/

/-- Room for one more line: a full cache gives up a line. Which one is not given, so a value left open picks it.
DESIGN CHOICE: assumption 89. -/
def State.makeRoom (s : State) (r : Outsider) : State :=
  if s.fliuf.lines.length < l2Lines then s
  else
    let w := s.hw.freeWord
    match s.fliuf.lines[w.1.toNat % s.fliuf.lines.length]? with
    | none => s
    | some l => ({ s with hw := w.2, fliuf := s.fliuf.dropLine l.line }).writeBackLine r l

/-- What came of a line that a core needs: its bytes, a bus error, or a wait for an exchange of its page. -/
inductive Fill where
  | line (l : CoreLine) | bus | wait
deriving DecidableEq, Repr

/-- A line present in the core caches, fetched from memory if need be. A line whose write-back waits is not fetched again
before it. -/
def State.fillLine (s : State) (r : Outsider) (n : Nat) (found : Ecc) : State × Fill :=
  match s.fliuf.coreLine? n with
  | some l => ({ s with fliuf := s.fliuf.noteCopy r n }, .line l)
  | none =>
    let a := coreLineBytes * n
    if s.hw.heldUp a coreLineBytes || s.fliuf.writing.any (fun l => decide (l.line = n)) then (s, .wait)
    else
      let t := s.physRead r a coreLineBytes found
      if t.resp.busError then (t, .bus)
      else
        let l : CoreLine := ⟨n, false, t.resp.data⟩
        let t := t.makeRoom r
        ({ t with fliuf := (t.fliuf.putLine l).noteCopy r n }, .line l)

/-- The parts of an access in one line each. -/
def coreParts (a n : Nat) : List (Nat × Nat) :=
  let k := coreLineBytes - a % coreLineBytes
  if n ≤ k then [(a, n)] else [(a, k), (a + k, n - k)]

/-! ### Cached accesses -/

/-- How an access of a core ended: with its answer given, or it waits for an exchange. -/
inductive Reach where
  | done | wait
deriving DecidableEq, Repr

/-- A cached read, part by part. -/
def State.readParts (s : State) (r : Outsider) (found : Ecc) (acc : List Byte) : List (Nat × Nat) → State × Reach
  | [] => (s.give acc, .done)
  | p :: ps =>
    match s.fillLine r (p.1 / coreLineBytes) found with
    | (t, .line l) => t.readParts r .clean (acc ++ sub l.data (p.1 % coreLineBytes) p.2) ps
    | (t, .bus) => (t.answer Resp.bus, .done)
    | (t, .wait) => (t, .wait)

/-- A cached write, part by part: its lines become dirty (write-back, R388). -/
def State.writeParts (s : State) (r : Outsider) (found : Ecc) (a : Nat) (bs : List Byte) : List (Nat × Nat) → State × Reach
  | [] => (s.answer (Resp.ok 0), .done)
  | p :: ps =>
    match s.fillLine r (p.1 / coreLineBytes) found with
    | (t, .line l) =>
      let l' : CoreLine := ⟨l.line, true, overlay l.data (sub bs (p.1 - a) p.2) (p.1 % coreLineBytes)⟩
      ({ t with fliuf := t.fliuf.putLine l' }).writeParts r .clean a bs ps
    | (t, .bus) => (t.answer Resp.bus, .done)
    | (t, .wait) => (t, .wait)

/-- A cache-block operation on the line of an address (Zicbom): clean writes it back, flush also invalidates it, inval only
invalidates it. -/
def State.cacheBlock (s : State) (r : Outsider) (op : AccessOp) (a : Nat) : State :=
  let n := a / coreLineBytes
  let t := match s.fliuf.coreLine? n with
    | none => s
    | some l =>
      match op with
      | .clean => ({ s with fliuf := s.fliuf.putLine { l with dirty := false } }).writeBackLine r l
      | .flush => ({ s with fliuf := s.fliuf.dropLine n }).writeBackLine r l
      | .inval => { s with fliuf := s.fliuf.dropLine n }
      | _ => s
  t.answer (Resp.ok 0)

/-- A core's access of a physical address: through its caches where Table 11.1 says so. -/
def State.coreAccess (s : State) (r : Outsider) (a n : Nat) (op : AccessOp) (found : Ecc) : State × Reach :=
  let cached := s.hw.coreCached a
  match op with
  | .read => if cached then s.readParts r found [] (coreParts a n) else (s.physRead r a n found, .done)
  | .write v =>
    if bootMemory a && romAt (a - fliufBase) then (s.answer Resp.bus, .done)
    else if cached then s.writeParts r found a (leBytes n v.toNat) (coreParts a n)
    else (s.physWrite r a (leBytes n v.toNat) found, .done)
  | op => if spaceOf a = .outside then (s.answer Resp.bus, .done) else (s.cacheBlock r op a, .done)

/-! ### Physical memory protection, R387 -/

/-- The kinds of access that protection and translation tell apart. -/
inductive Intent where
  | fetch | load | store
deriving DecidableEq, Repr

/-- The bytes of a PMP entry, whose predecessor's pmpaddr is `before`: its base and size; none where it is off.
PRESUMED: assumption 90. -/
def pmpRange (before : Nat) (e : Byte × BitVec 54) : Option (Nat × Nat) :=
  let x := e.2.toNat
  match e.1.toNat / 8 % 4 with
  | 1 => some (4 * before, 4 * (x - before))
  | 2 => some (4 * x, 4)
  | 3 =>
    let ones := ((List.range 54).find? (fun i => !e.2.getLsbD i)).getD 54
    some (4 * (x / 2 ^ (ones + 1) * 2 ^ (ones + 1)), 2 ^ (ones + 3))
  | _ => none

/-- The right that an entry's pmpcfg gives. PRESUMED: assumption 90. -/
def pmpRight (x : Intent) (cfg : Byte) : Bool :=
  match x with
  | .fetch => cfg.getLsbD 2
  | .load => cfg.getLsbD 0
  | .store => cfg.getLsbD 1

/-- The first entry that meets an access decides it, and must hold all of it; it binds machine mode only where it is locked. Where
none meets it, machine mode alone goes on. PRESUMED: assumption 90. -/
def pmpAllows (mode : BitVec 2) (x : Intent) (a n before : Nat) : List (Byte × BitVec 54) → Bool
  | [] => decide (mode = 3)
  | e :: es =>
    match pmpRange before e with
    | some (b, size) =>
      if a < b + size ∧ b < a + n then
        decide (b ≤ a ∧ a + n ≤ b + size) && ((decide (mode = 3) && !e.1.getLsbD 7) || pmpRight x e.1)
      else pmpAllows mode x a n e.2.toNat es
    | none => pmpAllows mode x a n e.2.toNat es

/-! ### Sv48, R39 -/

def Intent.of (r : Outsider) (op : AccessOp) : Intent :=
  match r, op with
  | .fetch _, _ => .fetch
  | _, .write _ => .store
  | _, _ => .load

/-- mcause of a page fault: 12 fetch, 13 load, 15 store, atomic or cache-block operation. PRESUMED: assumption 90. -/
def pageCause (r : Outsider) (write : Bool) : Nat :=
  match r with
  | .fetch _ => 12
  | .load _ => if write then 15 else 13
  | _ => 15

/-- Whether a leaf entry lets the access through: readable, writable or executable as asked, the page the user's or not, its
accessed bit set and for a store its dirty bit. PRESUMED: assumption 90. -/
def pteAllows (p : Paging) (x : Intent) (e : Word) : Bool :=
  let right := match x with
    | .fetch => bitOf e 3
    | .load => bitOf e 1 || (p.mxr && bitOf e 3)
    | .store => bitOf e 2
  let mine := if p.mode = 0 then bitOf e 4 else !bitOf e 4 || (p.sum && decide (x ≠ .fetch))
  right && mine && bitOf e 6 && (decide (x ≠ .store) || bitOf e 7)

/-- A valid entry: V set, no write without read, no reserved bit. PRESUMED: assumption 90. -/
def pteValid (e : Word) : Bool := bitOf e 0 && (bitOf e 1 || !bitOf e 2) && decide (bitsOf e 63 54 = 0)

/-- How a walk ended: at a physical address, in a page fault, in a bus error, or it waits. -/
inductive SvWalk where
  | to (a : Nat) | page | bus | wait
deriving DecidableEq, Repr

/-- The walk from the table at page `table`, with `level` levels below it (3 at the root). The entries are read through the
caches, as loads that protection may refuse. PRESUMED: assumption 90. -/
def State.walk (s : State) (r : Outsider) (p : Paging) (x : Intent) (va : Nat) (table : Nat) : Nat → State × SvWalk
  | 0 => (s, .page)
  | level + 1 =>
    let a := table * 4096 + va / 2 ^ (12 + 9 * level) % 512 * 8
    if !pmpAllows p.mode .load a 8 0 p.pmp then (s, .bus)
    else match s.coreAccess r a 8 .read .clean with
    | (t, .wait) => (t, .wait)
    | (t, .done) =>
      if t.resp.busError then (t, .bus)
      else
        let e := t.resp.value
        let ppn := bitsOf e 53 10
        let size := 2 ^ (9 * level)
        if !pteValid e then (t, .page)
        else if bitOf e 1 || bitOf e 3 then
          if pteAllows p x e && decide (ppn % size = 0) then (t, .to (ppn * 4096 + va % (size * 4096))) else (t, .page)
        else t.walk r p x va ppn level

/-- A virtual address of Sv48 holds bit 47 in every bit above it. -/
def canonical48 (va : Nat) : Bool := decide (va < 2 ^ 47 ∨ 2 ^ 64 - 2 ^ 47 ≤ va)

/-- The physical address of an access, translated where the core translates (R39). -/
def State.translate (s : State) (r : Outsider) (p : Paging) (x : Intent) (addr : Nat) : State × SvWalk :=
  match p.root with
  | none => (s, .to addr)
  | some root =>
    if p.mode = 3 then (s, .to addr)
    else if canonical48 addr then s.walk r p x addr root.toNat 4
    else (s, .page)

/-- The hart that makes an access. -/
def hartOf (r : Outsider) : Option Hart :=
  match r with
  | .fetch h => some h
  | .load h => some h
  | .store h => some h
  | _ => none

/-- The hart as it stands when it makes an access: what its software has set since (mode, satp, status, PMP entries) comes with
the access. DESIGN CHOICE: assumption 78. -/
def State.asHart (s : State) (k : Hart) (paging : Option Paging) : State :=
  match paging with
  | none => s
  | some p => s.setHart k { s.hart k with view := p }

/-- A page fault of the hart that made the access; it receives no data. -/
def State.pageFault (s : State) (r : Outsider) (addr : Nat) (write : Bool) : State :=
  match hartOf r with
  | none => s.answer Resp.bus
  | some h => (s.hartFault h (pageCause r write) addr).answer Resp.bus

/-! ### The commands -/

/-- Whether an access changes memory: its fault is that of a store. -/
def opWrites (op : AccessOp) : Bool := decide (op ≠ .read)

/-- A hart's access: translated, and made at its physical address where protection lets it. `s` is the state before, should the
access wait. -/
def State.hartAccess (s : State) (k : Hart) (r : Outsider) (addr n : Nat) (op : AccessOp) (paging : Option Paging) (found : Ecc) :
    State × Reach :=
  let q := s.asHart k paging
  let p := (q.hart k).view
  let x := Intent.of r op
  match q.translate r p x addr with
  | (_, .wait) => (s, .wait)
  | (t, .page) => (t.pageFault r addr (opWrites op), .done)
  | (t, .bus) => (t.deny r addr (opWrites op), .done)
  | (t, .to a) =>
    if !pmpAllows p.mode x a n 0 p.pmp then (t.deny r addr (opWrites op), .done)
    else match t.coreAccess r a n op found with
    | (_, .wait) => (s, .wait)
    | (u, .done) => (u.denied r addr (opWrites op), .done)

/-- An access of the debug port or management, which no core cache serves; a cache-block operation is not theirs. -/
def State.plainAccess (s : State) (r : Outsider) (a n : Nat) (op : AccessOp) (found : Ecc) : State × Reach :=
  match op with
  | .read => if s.hw.heldUp a n then (s, .wait) else (s.outsideRead r a n found, .done)
  | .write v => if s.hw.heldUp a n then (s, .wait) else (s.outsideWrite r a (leBytes n v.toNat) found, .done)
  | _ => (s.answer (Resp.ok 0), .done)

/-- What an access reaches, or that it waits for an exchange (R199). -/
def State.nonscheduled (s : State) (r : Outsider) (addr : Word) (width : BitVec 4) (op : AccessOp) (paging : Option Paging)
    (found : Ecc) : State :=
  let q := match hartOf r with
    | none => s.plainAccess r addr.toNat width.toNat op found
    | some k => s.hartAccess k r addr.toNat width.toNat op paging found
  match q.2 with
  | .done => q.1
  | .wait => s.hold (.nonscheduledAccess r addr width op paging found)

def execNonscheduledAccess (r : Outsider) (addr : Word) (width : BitVec 4) (op : AccessOp) (paging : Option Paging) (found : Ecc)
    (s : State) : Host.Outcome State Fault Refusal :=
  .next (s.onAccess (.nonscheduledAccess r addr width op paging found) (fun s => s.nonscheduled r addr width op paging found))

/-- An atomic operation of a core (R188): translated, and performed at the slice past the caches. -/
def State.amo (s : State) (k : Hart) (op : Amo) (addr : Word) (double : Bool) (v : Word) (paging : Option Paging) (found : Ecc) :
    State :=
  let n := if double then 8 else 4
  let q := s.asHart k paging
  let p := (q.hart k).view
  match q.translate (.store k) p .store addr.toNat with
  | (_, .wait) => s.hold (.atomicMemoryOperation k op addr double v paging found)
  | (t, .page) => t.pageFault (.store k) addr.toNat true
  | (t, .bus) => t.deny (.store k) addr.toNat true
  | (t, .to a) =>
    if !pmpAllows p.mode .store a n 0 p.pmp then t.deny (.store k) addr.toNat true
    else (t.atomicAt k op a n v found).denied (.store k) addr.toNat true

def execAtomicMemoryOperation (h : Hart) (op : Amo) (addr : Word) (double : Bool) (v : Word) (paging : Option Paging) (found : Ecc)
    (s : State) : Host.Outcome State Fault Refusal :=
  .next (s.onAccess (.atomicMemoryOperation h op addr double v paging found) (fun s => s.amo h op addr double v paging found))

end Sys2Proof.Machine
end

