-- ==== Sys2Proof/Machine/Convert.lean ====
section
/-!
DEFINITION. The convert section (R158 to R160): CONVERT, the two-pass conversion of a view to a whole shard, and EXPAND, the
decoding of a narrow view.
-/
namespace Sys2Proof.Machine

/-- A source decoded, with its agreement faults; its conversion to the destination is written and counted when the command
completes, and its report has source values or not. CONVERT (`sources`) reads the whole list, EXPAND searches it (R78, R159).
DEDUCED: assumption 52. -/
def Hw.convertSection (h : Hw) (l : Launch) (src : DescNo) (s d : Desc) (sources : Bool) : Hw :=
  let h := h.epochQueries l [src]
  let dec := (h.readFound l.t l.c.found).decodeView s h.stepNo (!sources)
  let h := h.cmdEvents l.t .conversion 2 l.c dec.faults
  let o : Output := ⟨d, dec.vals, h.stepNo, dec.faults, 0, sources, false⟩
  h.onRunning l.t l.queue (fun x => { x with output := some o })

def execConvert (t : Tile) (c : Cmd) (src dst : DescNo) (s : State) : Host.Outcome State Fault Refusal :=
  .next (s.onHw (fun h =>
    let sd := h.descOf t c src
    let l : Launch := ⟨t, .conversion, 1, argsSrcDst src dst, c⟩
    h.launchView l sd.count (fun h => h.convertSection l src sd (h.descOf t c dst) true)))

def execExpand (t : Tile) (c : Cmd) (src dst : DescNo) (s : State) : Host.Outcome State Fault Refusal :=
  .next (s.onHw (fun h =>
    let sd := h.descOf t c src
    let l : Launch := ⟨t, .conversion, 2, argsSrcDst src dst, c⟩
    h.launchView l sd.count (fun h => h.convertSection l src sd (h.descOf t c dst) false)))

end Sys2Proof.Machine
end

