-- ==== Sys2Proof/Machine/Reset.lean ====
section
/-!
DEFINITION. Module reset (R22, R274, R472, Table 13.9) and the boot sequence that follows it (R399 to R410): what each kind of
reset keeps, the checks of the boot ROM, the records applied, recovery mode.
-/
namespace Sys2Proof.Machine

/-! ### What a module reset does, R274 and R472 -/

/-- The kinds of reset that Table 13.9 tells apart, as bits of SYS_RESET_CAUSE (Table 11.13). -/
inductive ResetKind where
  | powerOn | strap | message | mmp | watchdog | debug
deriving DecidableEq, Repr

/-- DEDUCED: assumption 16. -/
def ResetKind.bit (k : ResetKind) : Nat :=
  match k with
  | .powerOn => 0
  | .strap => 1
  | .message => 2
  | .mmp => 3
  | .watchdog => 4
  | .debug => 5

/-- A RESET message alone keeps clocks, Tense, alignment and port training. DEDUCED: assumption 17. -/
def ResetKind.keeps (k : ResetKind) : Bool := decide (k = .message)

/-- Registers of the clocks and the alignment that such a reset keeps: CLK_STATUS, the counters of Table 7.17 (R302), TNS_ALIGN,
TNS_SYNC, TNS_OFFSET, TNS_DRIFT; of a port PORT_STATUS, PORT_TRAIN, PORT_VER and PORT_LINK. DEDUCED: assumption 17. -/
def keptRegister (a : Nat) : Bool :=
  match locate a with
  | some (.clk, _, o) => [0x0, 0x10, 0x18, 0x20, 0x108, 0x110, 0x118, 0x120].contains o
  | some (.port, _, o) => [0x0, 0x8, 0x10, 0x60].contains o
  | _ => false

/-- PWR_LAST stands in the always-on domain, so no module reset touches it (R475); PWR_VIN and PWR_AVG are live measurements,
which have no reset value (R22). -/
def alwaysOn (a : Nat) : Bool := [pwrBase + 0x28, pwrBase + 0x30, pwrBase + 0x38].contains a

/-- The page whose frame at reset is that of page `n` now (R191): memory keeps its frames in self refresh (R472), and the
placement returns to that of reset. DESIGN CHOICE: assumption 14. -/
def Hw.resetPage (h : Hw) (n : Nat) : Nat :=
  let e := h.tierEntry n
  if bitOf e 18 then bitsOf e 17 0 + Config.tierT1 else bitsOf e 17 0

/-- The address that the byte now at `a` has when pages move as `f` says. DESIGN CHOICE: assumption 14. -/
def movedTo (f : Nat → Nat) (a : Nat) : Nat := if spaceOf a = .tiered then f (a / 0x200000) * 0x200000 + a % 0x200000 else a

/-- The bytes of the tiered range under another placement; `poison` names undefined 128-byte lines.
DESIGN CHOICE: assumption 14. -/
def Hw.movePages (h : Hw) (f : Nat → Nat) : Hw :=
  { h with
    mem := h.mem.foldl (fun m e => m.set blankByte (movedTo f e.1) e.2) []
    tier := { h.tier with poison := h.tier.poison.map (fun l => movedTo f (l * 128) / 128) } }

/-- A port whose training stands: what was to be sent for the job or for Fliuf is gone, and the credits of flits that waited
for the receive ring are owed. DEDUCED: assumption 17. -/
def PortSt.kept (x : PortSt) : PortSt :=
  { x with c1 := [], c2 := [], rxHeld := [], owed := x.owed + x.rxHeld.length, counts := [], failing := [] }

/-- The hardware in reset: every register at its reset word and no unit holding anything, but for what the kind keeps.
Memory keeps its bytes; a protective off alone destroys them (R465). DESIGN CHOICE: assumption 14; DEDUCED: assumption 23. -/
def Hw.moduleReset (h : Hw) (k : ResetKind) : Hw :=
  let m := h.movePages h.resetPage
  let regs := h.regs.filter (fun e => alwaysOn e.1 || (k.keeps && keptRegister e.1))
  let h' := { Hw.reset with free := h.free, mem := m.mem, regs := regs, tier := { TierSt.empty with poison := m.tier.poison } }
  let h' := if k.keeps then
      { h' with
        tense0 := h.tense0, tense1 := h.tense1
        ports := h.ports.mapVals PortSt.empty (fun _ x => x.kept)
        clk := { h.clk with latch := [], resetAt := none } }
    else h'
  let h' := h'.setFld sysBase Fld.SYS_RESET_CAUSE.cause (2 ^ k.bit)
  let h' := if k.keeps then (List.range 24).foldl (fun h p => h.setFld (portBase p) Fld.PORT_STATUS.sched 0) h' else h'
  if h.jswOp = 0 then h' else h'.setFlds sysBase [(Fld.SYS_JSW.last_op, h.jswOp), (Fld.SYS_JSW.last_result, 3)]

/-- Flash as an abandoned commit leaves it (R418, R466): the sectors programmed so far, the rest erased. How many were
programmed is left open; the last one, which holds the signature, was not. DESIGN CHOICE: assumption 15. -/
def State.tearFlash (s : State) : State :=
  match s.mgmt.flashWindow with
  | none => s
  | some firmware =>
    let start := if firmware then firmwareAt else bcrAt
    let size := if firmware then 0x1100000 else 0x10000
    let sectors := ceilDiv s.mgmt.flashLen 0x1000
    let done := (Config.freeWord s.hw.free).toNat % (Nat.max sectors 1) * 0x1000
    let old := s.mgmt.flash.filter (fun e => decide (e.1 < start ∨ start + size ≤ e.1))
    let new := (List.range (Nat.min done s.mgmt.flashLen)).foldl (fun (m : SMap Byte) i =>
      m.set blankFlash (start + i) (s.mgmt.flashStage.get 0 i)) old
    { s with
      hw := { s.hw with free := s.hw.free + 1 }
      mgmt := { s.mgmt with flash := new, flashWindow := none } }

/-- Fliuf in reset: harts held, the levels of the GPIO lines as they stand; mtime counts on with the clocks.
DESIGN CHOICE: assumption 15. -/
def FliufSt.moduleReset (f : FliufSt) (k : ResetKind) : FliufSt :=
  { FliufSt.empty with gpioLevel := f.gpioLevel, mtime := if k.keeps then f.mtime else 0 }

/-- Management in reset: flash stays, and whether the next boot is to enter recovery. DESIGN CHOICE: assumption 15. -/
def MgmtSt.moduleReset (m : MgmtSt) (recovery : Bool) : MgmtSt :=
  { MgmtSt.empty with flash := m.flash, recoveryAsked := recovery }

/-- Xofisel in reset: its fuses stay. -/
def XofSt.moduleReset (x : XofSt) : XofSt :=
  { XofSt.blank with secret := x.secret, serial := x.serial, macs := x.macs, owner := x.owner, svn := x.svn, debugOpen := x.debugOpen }

/-- A module reset of a kind, up to the release of the clocks. PWR_EN's level and the module ID stay visible.
DESIGN CHOICE: assumption 14; DEDUCED: assumption 16. -/
def State.moduleReset (s : State) (k : ResetKind) (recovery : Bool) : State :=
  let s := s.tearFlash
  let hw := (s.hw.moduleReset k).setFld pwrBase Fld.PWR_STATUS.en (flagNat s.power.enHigh)
  { s with
    hw := hw
    fliuf := s.fliuf.moduleReset k
    mgmt := s.mgmt.moduleReset recovery
    xof := s.xof.moduleReset }

/-! ### Boot, R405 to R408 -/

/-- DESIGN CHOICE: assumption 19. -/
def State.setStage (s : State) (n : Nat) : State := s.onHw (fun h => h.setFld sysBase Fld.SYS_STATUS.stage n)

/-- R408, R409: recovery mode for a reason: stage 4, both management ports enabled. DESIGN CHOICE: assumption 19. -/
def State.recovery (s : State) (reason : Nat) : State :=
  let s := s.onHw (fun h => h.setFlds sysBase [(Fld.SYS_STATUS.stage, 4), (Fld.SYS_STATUS.reason, reason)])
  let s := s.onHw (fun h => h.setFld clkBase Fld.CLK_PERI_EN.eth 3)
  { s with mgmt := { s.mgmt with recoveryAsked := false } }

/-- A verified device record: its measurement, the arrays it enables (R4). DEDUCED: assumption 20. -/
def State.applyRecord (s : State) (bs : List Byte) : State :=
  let r := recordOf bs
  let s := { s with mgmt := { s.mgmt with record := r } }.measureSlot 0 1 0 (Config.sha384 (sub bs 0 768))
  s.onHw (fun h => (List.range 4096).foldl (fun h k =>
    h.setFld (arrBase (k / 8) (k % 8)) Fld.ARR_STATUS.enabled (flagNat (r.map.getLsbD k))) h)

/-- The page that a placement gives a frame. -/
def pageAt (rs : List Run) (t2 : Bool) (frame : Nat) : Option Nat :=
  (rs.find? (fun r => decide (r.t2 = t2) && decide (r.frame ≤ frame ∧ frame < r.frame + r.count))).map
    (fun r => r.page + (frame - r.frame))

/-- The Tier Map takes the tier layout (R191, R406); memory stays in its frames. -/
def Hw.applyLayout (h : Hw) (rs : List Run) : Hw :=
  let new := placement rs
  let h := h.movePages (fun n => (pageAt new (bitOf (h.tierEntry n) 18) (bitsOf (h.tierEntry n) 17 0)).getD n)
  rs.foldl (fun h r => (List.range r.count).foldl (fun h i =>
    let e := withBits (h.tierEntry (r.page + i)) 17 0 (r.frame + i)
    h.setTierEntry (r.page + i) (withBits e 18 18 (flagNat r.t2))) h) h

/-- PORT_TRAIN.enable of every port; an enabled port that is off starts to train (R224). -/
def Hw.applyPlanes (h : Hw) (planes : Nat) : Hw :=
  (List.range 24).foldl (fun h p =>
    let on := decide (planes / 2 ^ p % 2 = 1)
    let h := h.setFld (portBase p) Fld.PORT_TRAIN.enable (flagNat on)
    if on && decide ((h.port p).stage = .off) then h.trainFrom p else h) h

/-- R406: the registers that Table 11.8 names, the Tier Map, the firmware pages and the hold on segments. -/
def Hw.applyBcr (h : Hw) (bs : List Byte) (bodyLength : Nat) : Hw :=
  let rank := leAt bs 16 2
  let quota := BitVec.ofNat 64 (leAt bs 40 4 + leAt bs 44 4 * 2 ^ 14 + leAt bs 48 4 * 2 ^ 32)
  let h := { h with clk := { h.clk with rank := rank, domain := leAt bs 18 2, vmax := leAt bs 23 1 } }
  let h := h.setFlds clkBase [(Fld.TNS_ALIGN.plane, leAt bs 22 1), (Fld.TNS_ALIGN.root, flagNat (decide (leAt bs 20 2 = rank))),
    (Fld.TNS_SYNC.value, leAt bs 32 8)]
  let h := { h with tier := { h.tier with
    quota := (List.range 256).foldl (fun (m : SMap Word) j => m.set 0 j quota) [], firmware := (leAt bs 52 4, leAt bs 56 4) } }
  let h := (List.range 128).foldl (fun h s => h.setFld (sliceBase s) Fld.SLC_SEG_CFG.cache (leAt bs (256 + 2 * s) 2)) h
  let h := (h.applyLayout (layoutRuns bs)).setFld sysBase Fld.SYS_FW_HOLD.segments (firmwareSegments bodyLength)
  h.applyPlanes (leAt bs 24 4)

/-- A verified and consistent BCR: its measurement, and its application. DEDUCED: assumption 20. -/
def State.applyBcr (s : State) (bs : List Byte) (bodyLength : Nat) : State :=
  let s := { s with mgmt := { s.mgmt with bcr := bcrOf bs } }.measureSlot 1 2 0 (Config.sha384 (bs.take (bs.length - 128)))
  s.onHw (fun h => h.applyBcr bs bodyLength)

/-- A verified firmware image: its body in shared memory, its measurement, slots 0 to 2 locked. -/
def State.takeFirmware (s : State) (bs : List Byte) : State :=
  let s := (s.onHw (fun h => h.store sharedBase (sub bs 256 (fwLength bs)))).measureSlot 2 3 0 (fwMeasure bs)
  { s with xof := { s.xof with locked := true, fwSvn := fwSvn bs } }

/-- Stage 2 of Table 11.11; the last check is that of an MMP RESET with its recovery flag (reason 7).
DESIGN CHOICE: assumption 19. -/
def State.bootFirmware (s : State) (flashError : Option (Fin 3)) : State :=
  let bs := s.mgmt.fwImage
  let owner := if s.xof.owned then some s.mgmt.bcr.ownerKey else none
  let s := s.setStage 2
  if flashError = some 2 then s.recovery 6
  else if !fwSigned owner bs then s.recovery 4
  else if fwSvn bs < s.xof.svn then s.recovery 5
  else if s.mgmt.recoveryAsked then s.recovery 7
  else s.takeFirmware bs

/-- Stage 1: the Boot Configuration Record. DESIGN CHOICE: assumption 19; DEDUCED: assumption 20. -/
def State.bootConfig (s : State) (flashError : Option (Fin 3)) : State :=
  let bs := s.mgmt.bcrImage
  let n := fwLength (s.mgmt.flashRead firmwareAt 256)
  let s := s.setStage 1
  if flashError = some 1 then s.recovery 6
  else if !bcrSigned s.xof.owner bs then s.recovery 2
  else if !bcrConsistent bs n then s.recovery 3
  else (s.applyBcr bs n).bootFirmware flashError

/-- The boot sequence on hart 0, up to the release of the harts; a flash read error may befall the device record (0), the
BCR (1) or the firmware (2). DESIGN CHOICE: assumption 19. -/
def State.boot (s : State) (flashError : Option (Fin 3)) : State :=
  let s := { s with xof := { s.xof with owned := s.xof.owner.isSome } }
  let s := s.onHw (fun h => h.setFlds clkBase [(Fld.CLK_PERI_EN.qspi, 1)])
  let s := s.setHart 0 { HartSt.reset with run := .running }
  let bs := s.mgmt.flashRead 0 896
  if flashError = some 0 then s.recovery 6
  else if !recordOk bs then s.recovery 1
  else (s.applyRecord bs).bootConfig flashError

/-! ### Firmware entry, R405 -/

/-- A unit whose training fails is lost (R211). -/
def Hw.trainUnit (h : Hw) (untrained : List (Fin 20)) (c : Nat) : Hw :=
  if h.ctlState c ≠ 0 then h
  else if untrained.any (fun u => decide (u.val = c)) then h.loseCtl c
  else h.setCtlState c 1

/-- Memory training, which firmware does after entry (R406): each unit whose lane clocks run is in service, or lost if its
training fails. DESIGN CHOICE: assumption 21. -/
def Hw.trainMemory (h : Hw) (untrained : List (Fin 20)) : Hw :=
  let lanes := h.fld clkBase Fld.CLK_STATUS.lanes
  let h := if lanes / 4 % 2 = 1 then (List.range 12).foldl (fun h d => h.trainUnit untrained d) h else h
  if lanes / 8 % 2 = 1 then (List.range 8).foldl (fun h c => h.trainUnit untrained (12 + c)) h else h

/-- Every hart at the firmware entry in machine mode. DESIGN CHOICE: assumption 78. -/
def FliufSt.enter (f : FliufSt) (entry : Word) : FliufSt :=
  { f with harts := (List.range 16).foldl (fun (m : SMap HartSt) k =>
    m.set HartSt.reset k { HartSt.reset with run := .running, pc := entry }) f.harts }

/-- The firmware has been verified: stage 2, its slots locked. -/
def State.mayEnter (s : State) : Bool := decide (s.hw.fld sysBase Fld.SYS_STATUS.stage = 2) && s.xof.locked

/-- DESIGN CHOICE: assumption 21. -/
def State.enterFirmware (s : State) (untrained : List (Fin 20)) : State :=
  let entry := sharedBase + fwEntry (s.mgmt.flashRead firmwareAt 256)
  let s := (s.setStage 3).onHw (fun h => h.setFld sysBase Fld.SYS_FW_ENTRY.entry entry)
  let s := { s with fliuf := s.fliuf.enter (BitVec.ofNat 64 entry) }
  (s.setPeri s.mgmt.bcr.periEn).onHw (fun h => h.trainMemory untrained)

def execFirmwareEntry (untrained : List (Fin 20)) (s : State) : Host.Outcome State Fault Refusal :=
  .next (if s.mayEnter then s.enterFirmware untrained else s)

/-! ### The release of the clocks, R261 and R262 -/

/-- The rails stand: PWR_STATUS.state is 3 (Table 13.8). -/
def State.powered (s : State) : Bool := decide (s.hw.fld pwrBase Fld.PWR_STATUS.state = 3)

/-- The clock sequence may run: the input power is good, and RESET_N is high (R471, R473). -/
def State.sequencing (s : State) : Bool :=
  decide (4 ≤ s.power.stage) && decide (2 ≤ s.hw.fld pwrBase Fld.PWR_STATUS.state ∧ s.hw.fld pwrBase Fld.PWR_STATUS.state ≤ 3)
    && s.power.resetHigh

/-- The root PLL is released: for the first time, which starts Tense and mtime at 0 and the boot (R264, R389, R405); from the
crystal, after the core clocks stopped; or back on the reference after two good windows (R262). -/
def State.releaseRoot (s : State) (flashError : Option (Fin 3)) : State :=
  if s.hw.flag clkBase Fld.CLK_STATUS.root then
    if s.hw.clk.coresStopped then s.onHw (fun h => { h with clk := { h.clk with coresStopped := false } })
    else if s.hw.clk.fromCrystal && decide (2 ≤ s.hw.clk.goodWindows) then
      s.onHw (fun h => { h with clk := { h.clk with fromCrystal := false } }.setFlds clkBase
        [(Fld.CLK_STATUS.holdover, 0), (Fld.CLK_STATUS.ref, 1)])
    else s
  else if s.powered && (s.hw.flag clkBase Fld.CLK_STATUS.ref || s.hw.clk.fromCrystal) then
    let s := s.onHw (fun h => (h.loadTense 0).setFld clkBase Fld.CLK_STATUS.root 1)
    { s with fliuf := { s.fliuf with mtime := 0 } }.boot flashError
  else s

/-- A lane PLL group is released, if the BCR starts it (Table 11.8) or recovery mode needs it (R409).
DESIGN CHOICE: assumption 21. -/
def State.releaseLanes (s : State) (g : Nat) (untrained : List (Fin 20)) : State :=
  let asked := decide (s.mgmt.bcr.lanes / 2 ^ g % 2 = 1) || (decide (g = 1) && decide (s.hw.fld sysBase Fld.SYS_STATUS.stage = 4))
  if asked && s.powered && s.hw.flag clkBase Fld.CLK_STATUS.ref then
    let s := s.onHw (fun h => h.setFld clkBase ⟨Fld.CLK_STATUS.lanes.off, 4 + g, 4 + g⟩ 1)
    if s.hw.fld sysBase Fld.SYS_STATUS.stage = 3 then s.onHw (fun h => h.trainMemory untrained) else s
  else s

/-- A stability counter of Table 7.2 completes. -/
def State.releaseClock (s : State) (c : ClockSource) (flashError : Option (Fin 3)) (untrained : List (Fin 20)) : State :=
  match c with
  | .crystal => s.onHw (fun h => h.setFld clkBase Fld.CLK_STATUS.xtal 1)
  | .reference =>
    if s.hw.flag clkBase Fld.CLK_STATUS.xtal && decide (2 ≤ s.hw.clk.goodWindows) then
      s.onHw (fun h => h.setFld clkBase Fld.CLK_STATUS.ref 1)
    else s
  | .rootPll => s.releaseRoot flashError
  | .nethenLanes => s.releaseLanes 0 untrained
  | .ethernetLanes => s.releaseLanes 1 untrained
  | .hbmLanes => s.releaseLanes 2 untrained
  | .lpddrLanes => s.releaseLanes 3 untrained

/-! ### The RESET message, R246 -/

/-- A reset by RESET message: the boot starts at the reset tick (R405). DEDUCED: assumption 17; DESIGN CHOICE: assumption 18. -/
def State.resetByMessage (s : State) (flashError : Option (Fin 3)) : State := (s.moduleReset .message false).boot flashError

/-- A RESET delivered: its tick is kept, and the flit goes to the receive ring (R247); one whose tick has passed resets at once
and is flagged. DESIGN CHOICE: assumption 18. -/
def execResetMessage (p : Port) (f : Flit) (s : State) : Host.Outcome State Fault Refusal :=
  let q := s.hw.accepts p f
  let s' := { s with hw := q.1 }
  .next (if q.2 && decide (f.mtype = 0x16) then
      if msgBits f 63 0 < s'.hw.now then
        let r := (s'.onHw (fun h => h.returnCredit p)).resetByMessage none
        r.onHw (fun h => h.portEvent p 9 f.src.toNat f.mtype.toNat f.stamp.toNat)
      else
        s'.onHw (fun h => { h.toFliuf p f with clk := { h.clk with resetAt := some (BitVec.ofNat 64 (msgBits f 63 0)) } })
    else s')

/-- Tick at has come. -/
def execGlobalReset (flashError : Option (Fin 3)) (s : State) : Host.Outcome State Fault Refusal :=
  .next (match s.hw.clk.resetAt with
    | none => s
    | some a => if a.toNat ≤ s.hw.now then s.resetByMessage flashError else s)

/-! ### Watchdogs, R397 -/

/-- A flash commit that a Fliuf restart abandons (R418): the operation ends. DESIGN CHOICE: assumption 15. -/
def State.abandonCommit (s : State) : State :=
  match s.mgmt.flashWindow with
  | none => s
  | some _ => s.tearFlash.onHw (fun h => h.jsw (h.opEnd 5 3))

/-- What a second expiry does: nothing more, a Fliuf restart, a module reset. DESIGN CHOICE: assumption 22. -/
def State.watchdogAction (s : State) (i action : Nat) : State :=
  match action with
  | 1 => (s.abandonCommit.fliufRestart).onHw (fun h => h.event ringFliuf 0x72 i)
  | 2 => s.moduleReset .watchdog false
  | _ => s

/-- A first expiry is flagged and reloads the count; a second one without a valid kick acts. Action 3 is reserved, and its effect
is left open: none is taken. DESIGN CHOICE: assumption 22; that the second expiry reloads the count as the first does: assumption 77. -/
def State.watchdogExpires (s : State) (i : Nat) : State :=
  let t := s.loadWatchdog i
  if s.fliuf.wdtFirst.contains i then t.watchdogAction i (s.hw.fld (wdtBase i) Fld.WDT_CTL.action)
  else
    ({ t with fliuf := { t.fliuf with wdtFirst := i :: s.fliuf.wdtFirst } }).onHw (fun h =>
      (h.setFld (wdtBase i) Fld.WDT_STATUS.first 1).event ringFliuf 0x71 i)

/-- Watchdog i expires once its count is zero. DESIGN CHOICE: assumption 77. -/
def execWatchdogExpiry (i : Fin 4) (s : State) : Host.Outcome State Fault Refusal :=
  .next (s.ifClocked periWdt (fun s =>
    if s.hw.flag (wdtBase i) Fld.WDT_CTL.enable && decide (s.watchdogLeft i = 0) then s.watchdogExpires i else s))

/-! ### The debug module, R455 and R472 -/

/-- A hart halted, resumed or reset; or the module reset of Table 13.9. It is reached while the debug-open fuse is set. -/
def State.debugOp (s : State) (op : DebugOp) : State :=
  match op with
  | .halt h => s.setHart h { s.hart h with run := .halted }
  | .resume h => s.setHart h { s.hart h with run := .running }
  | .resetHart h => s.setHart h { HartSt.reset with run := (s.hart h).run, mtimecmp := (s.hart h).mtimecmp, mtip := (s.hart h).mtip,
                                                    msip := (s.hart h).msip }
  | .resetModule => s.moduleReset .debug false

def execDebugModuleAccess (op : DebugOp) (s : State) : Host.Outcome State Fault Refusal :=
  .next (if s.xof.debugOpen then (s.debugOp op).answer (Resp.ok 0) else s.answer Resp.bus)

/-! ### The reset pin, R473 -/

/-- RESET_N low for 10 µs holds the module in reset; it has no effect before the rails stand nor during a protective off. -/
def State.resetPin (s : State) (high : Bool) : State :=
  let s := ({ s with power := { s.power with resetHigh := high } }).gpioChange 2 high
  if !high && s.powered then s.moduleReset .strap false else s

def execResetN (high : Bool) (s : State) : Host.Outcome State Fault Refusal := .next (s.resetPin high)

end Sys2Proof.Machine
end

