-- ==== Sys2Proof/Machine/Mmp.lean ====
section
/-!
DEFINITION. The Morruna Management Protocol (R409 to R425): sessions, sequence numbers and cached replies, and each message's
action. A request reaches the model after its UDP layer; `MmpHeader` says whether its tag is right. Reply payloads whose layout
the spec does not give hold their items in the order the spec names them (assumption 9).
-/
namespace Sys2Proof.Machine

/-! ### Requests, R413 to R415 -/

/-- A status of Table 11.15 with a reply's payload. -/
abbrev Reply := Nat × List Byte

def okReply : Reply := (0, [])
def stateReply : Reply := (6, [])
def busyReply : Reply := (4, [])

/-- MMP is served by the boot ROM in recovery mode and by firmware once it runs, while the core clocks run. -/
def State.serves (s : State) : Bool :=
  (decide (s.hw.fld sysBase Fld.SYS_STATUS.stage = 3) || decide (s.hw.fld sysBase Fld.SYS_STATUS.stage = 4))
    && s.hw.flag clkBase Fld.CLK_STATUS.root && !s.hw.clk.coresStopped

def State.inRecovery (s : State) : Bool := decide (s.hw.fld sysBase Fld.SYS_STATUS.stage = 4)

def State.session? (s : State) (n : Word32) : Option Session := s.mgmt.sessions.find? n.toNat

/-- A session after a request of its host, whose time it keeps (R414). -/
def State.putSession (s : State) (n : Word32) (x : Session) : State :=
  { s with mgmt := { s.mgmt with sessions := s.mgmt.sessions.insert n.toNat { x with lastAt := s.fliuf.mtime } } }

def State.closeSession (s : State) (n : Word32) : State :=
  { s with mgmt := { s.mgmt with sessions := s.mgmt.sessions.erase n.toNat } }

def State.reply (s : State) (r : Reply) : State := s.answer ⟨false, r.1, 0, r.2⟩

/-- A refusal whose status the spec does not name: any status but OK. DESIGN CHOICE: assumption 28. -/
def State.openRefusal (s : State) : State × Reply :=
  (s.onHw (fun h => { h with free := h.free + 1 }), (1 + bitsOf (Config.freeWord s.hw.free) 31 0 % 12, []))

/-- A row of Table 11.14: served in recovery mode, needs an authorised session, least version. -/
structure MmpRow where
  recovery : Bool
  authorised : Bool
  version : Nat
deriving DecidableEq, Repr

/-- The session's state and the module's mode against the row; none: the request may be performed. -/
def State.rowRefusal (s : State) (row : MmpRow) (x : Session) : Option Reply :=
  if s.inRecovery then if row.recovery then none else some (12, [])
  else if row.authorised && !x.authorised then some (3, [])
  else if x.version < row.version then some (2, [])
  else none

/-- A request performed: its seq accepted, its answer cached while its session lives (R414). -/
def State.performed (s : State) (h : MmpHeader) (x : Session) (body : State → Session → State × Reply) : State :=
  let x := { x with lastSeq := some h.seq }
  let r := body (s.putSession h.session x) x
  let t := match r.1.session? h.session with
    | none => r.1
    | some y => r.1.putSession h.session { y with cachedStatus := r.2.1, cachedData := r.2.2 }
  t.reply r.2

/-- A message dropped for its tag (R413). PRESUMED: assumption 9. -/
def State.dropTag (s : State) (h : MmpHeader) : State :=
  s.onHw (fun x => (x.count sysBase Fld.SYS_CNT_B.bad_tag 1).event ringFliuf 0x74 h.session.toNat)

/-- R413, R414: a request of an open session, in the order of its seq. -/
def State.sequenced (s : State) (row : MmpRow) (h : MmpHeader) (x : Session) (body : State → Session → State × Reply) : State :=
  let go := s.performed h x (fun s x =>
    match s.rowRefusal row x with
    | some r => (s, r)
    | none => body s x)
  match x.lastSeq with
  | none => go
  | some n =>
    if n.toNat < h.seq.toNat then go
    else (s.putSession h.session x).reply (if n = h.seq then (x.cachedStatus, x.cachedData) else (10, []))

/-- A request that reaches the module. A session that is not open has no status of its own.
PRESUMED: assumption 9; DESIGN CHOICE: assumption 28. -/
def State.request (s : State) (row : MmpRow) (h : MmpHeader) (body : State → Session → State × Reply) : State :=
  if !s.serves then s
  else
    match s.session? h.session with
    | none =>
      let q := s.openRefusal
      q.1.reply q.2
    | some x =>
      if (h.tagged && !h.tagRight) || (x.authorised && !h.tagged) then s.dropTag h
      else s.sequenced row h x body

/-- Rows of Table 11.14. -/
def rowAnyR : MmpRow := ⟨true, false, 0x10⟩
def rowAny : MmpRow := ⟨false, false, 0x10⟩
def rowAuth : MmpRow := ⟨false, true, 0x10⟩
def rowAuthR : MmpRow := ⟨true, true, 0x10⟩
def rowAuth11 : MmpRow := ⟨false, true, 0x11⟩

/-! ### Sessions -/

/-- The session identifiers ascend from 1; one in use is passed over. PRESUMED: assumption 9. -/
def MgmtSt.freshId (m : MgmtSt) : Nat :=
  let used := m.sessions.map (fun e => e.1)
  ((List.range 9).map (fun i => (m.nextSession + i - 1) % (2 ^ 32 - 1) + 1)).find? (fun n => !used.contains n) |>.getD m.nextSession

/-- The common version, if any. -/
def commonVersion (vmin vmax : Nat) : Option Nat :=
  let v := Nat.min vmax 0x11
  if Nat.max vmin 0x10 ≤ v then some v else none

/-- The payload limit of a session (R412). -/
def sessionLimit (asked : Nat) : Nat := if asked = 0 then Config.mmpPayload else Nat.min asked 8912

/-- R413: the session opened, and what the module signs. -/
def State.openSession (s : State) (version : Nat) (limit : Nat) (hostKey : BitVec 776) : State × Reply :=
  let n := s.mgmt.freshId
  let q := s.freshKey
  let s := q.2
  let e := q.1.1
  let nonce := q.1.2
  let x : Session := ⟨false, version, limit, none, 0, [], helloDigest hostKey (Config.publicKey e) nonce n, e, hostKey, nonce, 0, 0⟩
  let data := leBytes 1 version ++ leBytes 4 n ++ s.helloBytes e nonce hostKey n ++ leBytes 16 s.xof.serial.toNat
    ++ leBytes 2 s.hw.rank
  let s := (s.putSession (BitVec.ofNat 32 n) x)
  ({ s with
      mgmt := { s.mgmt with nextSession := n % (2 ^ 32 - 1) + 1 }
      xof := { s.xof with ephemeral := some e } }, (0, data))

/-- HELLO. A ninth session finds the table full. -/
def State.hello (s : State) (vmin vmax limit : Nat) (hostKey : BitVec 776) : State × Reply :=
  match commonVersion vmin vmax with
  | none => (s, (1, leBytes 1 0x10 ++ leBytes 1 0x11))
  | some v =>
    if Config.maxSessions ≤ s.mgmt.sessions.length then (s, busyReply)
    else s.openSession v (sessionLimit limit) hostKey

def execHello (vmin vmax : Byte) (limit : Half) (hostKey : BitVec 776) (s : State) : Host.Outcome State Fault Refusal :=
  .next (if s.serves then
      let r := s.hello vmin.toNat vmax.toNat limit.toNat hostKey
      r.1.reply r.2
    else s)

/-- A refused AUTH (Tables 11.13 and 12.4). DEDUCED: assumption 29. -/
def State.refuseAuth (s : State) (n : Word32) : State × Reply :=
  (s.onHw (fun h => (h.count sysBase Fld.SYS_CNT_A.auth_fail 1).event ringFliuf 0x73 n.toNat), (3, []))

/-- AUTH: an operator certificate of role 2 and its signature over the HELLO digest. In recovery mode no session is authorised
(Table 11.14). DEDUCED: assumption 29. -/
def State.authorise (s : State) (h : MmpHeader) (x : Session) (cert : Cert) (sig : BitVec 768) : State × Reply :=
  if !s.inRecovery && s.mgmt.bcr.accepts cert 2 && Config.ecdsaVerify cert.key x.digest sig then
    (s.putSession h.session { x with authorised := true, key := Config.ecdhKey x.ephemeral x.hostKey x.nonce }, okReply)
  else s.refuseAuth h.session

def execAuth (h : MmpHeader) (cert : Cert) (sig : BitVec 768) (s : State) : Host.Outcome State Fault Refusal :=
  .next (s.request rowAnyR h (fun s x => s.authorise h x cert sig))

def execBye (h : MmpHeader) (s : State) : Host.Outcome State Fault Refusal :=
  .next (s.request rowAnyR h (fun s _ => (s.closeSession h.session, okReply)))

/-- R414: a session closes after 60 s, which are 48,000,000,000 ticks of mtime, without a request. -/
def State.silent (s : State) (x : Session) : Bool := decide (48000000000 ≤ (s.fliuf.mtime - x.lastAt).toNat)

def execSessionTimeout (session : Word32) (s : State) : Host.Outcome State Fault Refusal :=
  .next (match s.session? session with
    | none => s
    | some x => if s.silent x then s.closeSession session else s)

/-! ### Reading -/

/-- STATUS. PRESUMED: assumption 9. -/
def State.statusData (s : State) : List Byte :=
  leBytes 8 (s.view (sysBase + 0x40)).toNat ++ leBytes 32 s.mgmt.refusal.toNat
    ++ [0x0, 0x8, 0x10, 0x18, 0x20, 0x28].flatMap (fun o => leBytes 8 (s.view (inflBase + o)).toNat)
    ++ leBytes 8 (s.view sysBase).toNat

def execStatus (h : MmpHeader) (s : State) : Host.Outcome State Fault Refusal :=
  .next (s.request rowAnyR h (fun s _ => (s, (0, s.statusData))))

/-- RESULTS: of the eight steps from `step`, the entries that the window still holds. PRESUMED: assumption 9. -/
def State.resultsData (s : State) (step : Nat) : List Byte :=
  (List.range 8).flatMap (fun i =>
    match s.mgmt.window.find? ((step + i) % 64) with
    | none => []
    | some bs => if leAt bs 0 8 = step + i then bs else [])

def execResults (h : MmpHeader) (step : Word) (s : State) : Host.Outcome State Fault Refusal :=
  .next (s.request rowAny h (fun s _ => (s, (0, s.resultsData step.toNat))))

/-- The reply of an access that met a bus error: the payload gives the address. -/
def busReply (a : Nat) : Reply := (7, leBytes 8 a)

/-- A list of registers: more than 128 are a message of wrong length (Tables 11.14 and 11.15), and one whose bytes pass the
session's payload limit is too large. DEDUCED: assumption 32. -/
def Session.listRefusal (x : Session) (entries bytes : Nat) : Option Reply :=
  if 128 < entries then some (2, []) else if x.limit < bytes then some (9, []) else none

/-- Registers read in order; the first bus error ends it. DEDUCED: assumption 32. -/
def State.readRegs (s : State) (acc : List Byte) : List Addr → State × Reply
  | [] => (s, (0, acc))
  | a :: as =>
    let t := if spaceOf a.toNat = .control then s.readReg .management a.toNat 8 else s.answer Resp.bus
    if t.resp.busError then (t, busReply a.toNat) else t.readRegs (acc ++ leBytes 8 t.resp.value.toNat) as

def execRegRead (h : MmpHeader) (addrs : List Addr) (s : State) : Host.Outcome State Fault Refusal :=
  .next (s.request rowAny h (fun s x =>
    match x.listRefusal addrs.length (8 * addrs.length) with
    | some r => (s, r)
    | none => s.readRegs [] addrs))

/-- Registers written in order; the first bus error ends it (Table 11.14). DEDUCED: assumption 32. -/
def State.writeRegs (s : State) : List (Addr × Word) → State × Reply
  | [] => (s, okReply)
  | (a, v) :: ws =>
    let t := if spaceOf a.toNat = .control then s.writeReg .management a.toNat 8 v else s.answer Resp.bus
    if t.resp.busError then (t, busReply a.toNat) else t.writeRegs ws

def execRegWrite (h : MmpHeader) (writes : List (Addr × Word)) (s : State) : Host.Outcome State Fault Refusal :=
  .next (s.request rowAuth h (fun s x =>
    match x.listRefusal writes.length (16 * writes.length) with
    | some r => (s, r)
    | none => s.writeRegs writes))

/-- The widths in which a range of the control space is accessed: 8 bytes each, or one aligned half. -/
def controlPieces (a n : Nat) : List (Nat × Nat) :=
  if n = 4 then [(a, 4)] else (List.range (ceilDiv n 8)).map (fun i => (a + 8 * i, Nat.min 8 (n - 8 * i)))

/-- MEM_READ of the control space. -/
def State.readPieces (s : State) (a : Nat) (acc : List Byte) : List (Nat × Nat) → State × Reply
  | [] => (s, (0, acc))
  | (b, n) :: ps =>
    let t := s.readReg .management b n
    if t.resp.busError then (t, busReply a) else t.readPieces a (acc ++ leBytes n t.resp.value.toNat) ps

/-- DESIGN CHOICE: assumption 13. -/
def State.memRead (s : State) (x : Session) (a n : Nat) (found : Ecc) : State × Reply :=
  if x.limit < n then (s, (9, []))
  else if n = 0 then (s, okReply)
  else if sameSpace a n && decide (spaceOf a = .control) then s.readPieces a [] (controlPieces a n)
  else
    let t := s.outsideRead .management a n found
    (t, if t.resp.busError then busReply a else (0, t.resp.data))

/-- Whether a request would be performed now: its session is open, its tag right, its seq new and its row served. -/
def State.performs (s : State) (row : MmpRow) (h : MmpHeader) : Bool :=
  s.serves && (match s.session? h.session with
    | none => false
    | some x => !((h.tagged && !h.tagRight) || (x.authorised && !h.tagged)) && (s.rowRefusal row x).isNone
        && (match x.lastSeq with
          | none => true
          | some n => decide (n.toNat < h.seq.toNat)))

/-- A memory operation of a page in an exchange waits for it (R199); its repetition waits with it. -/
def State.requestMemory (s : State) (i : Instr) (h : MmpHeader) (a n : Nat) (body : State → Session → State × Reply) : State :=
  if s.performs rowAuth h && s.hw.heldUp a n then (if s.hw.tier.waiting.contains i then s else s.hold i)
  else s.request rowAuth h body

def execMemRead (h : MmpHeader) (addr : Addr) (len : Half) (found : Ecc) (s : State) : Host.Outcome State Fault Refusal :=
  .next (s.requestMemory (.memRead h addr len found) h addr.toNat len.toNat (fun s x => s.memRead x addr.toNat len.toNat found))

/-- MEM_WRITE of the control space. -/
def State.writePieces (s : State) (a : Nat) (bs : List Byte) : List (Nat × Nat) → State × Reply
  | [] => (s, okReply)
  | (b, n) :: ps =>
    let t := s.writeReg .management b n (BitVec.ofNat 64 (leAt bs (b - a) n))
    if t.resp.busError then (t, busReply a) else t.writePieces a bs ps

def State.memWrite (s : State) (x : Session) (a : Nat) (bs : List Byte) : State × Reply :=
  if x.limit < bs.length then (s, (9, []))
  else if bs.isEmpty then (s, okReply)
  else if sameSpace a bs.length && decide (spaceOf a = .control) then s.writePieces a bs (controlPieces a bs.length)
  else
    let t := s.outsideWrite .management a bs .clean
    (t, if t.resp.busError then busReply a else okReply)

def execMemWrite (h : MmpHeader) (addr : Addr) (data : List Byte) (s : State) : Host.Outcome State Fault Refusal :=
  .next (s.requestMemory (.memWrite h addr data) h addr.toNat data.length (fun s x => s.memWrite x addr.toNat data))

/-! ### The job, R415, R423 -/

/-- Bytes laid over a sparse store. -/
def putBytes (d : Byte) (m : SMap Byte) : Nat → List Byte → SMap Byte
  | _, [] => m
  | a, b :: bs => putBytes d (m.set d a b) (a + 1) bs

/-- The bytes that the firmware's pages hold, of which staging is a part. -/
def MgmtSt.stagingSpace (m : MgmtSt) : Nat := m.bcr.fwPages * 0x200000

/-- IMAGE_PUT: a chunk of an image in the staging pages; its payload holds 8 bytes beside the chunk. -/
def State.putImage (s : State) (x : Session) (off : Nat) (data : List Byte) : State × Reply :=
  if decide (x.limit < data.length + 8) || decide (s.mgmt.stagingSpace < off + data.length) then (s, (9, []))
  else
    ({ s with mgmt := { s.mgmt with
        image := putBytes 0 s.mgmt.image off data, imageLen := Nat.max s.mgmt.imageLen (off + data.length) } }, okReply)

def execImagePut (h : MmpHeader) (off : Word32) (data : List Byte) (s : State) : Host.Outcome State Fault Refusal :=
  .next (s.request rowAuth h (fun s x => s.putImage x off.toNat data))

/-- DESIGN CHOICE: assumption 24. -/
def State.setAsker (s : State) (h : MmpHeader) : State :=
  { s with mgmt := { s.mgmt with asker := some (h.session.toNat, h.seq) } }

/-- ADMIT: states 0, 6 and 7. -/
def State.askAdmission (s : State) (h : MmpHeader) : State × Reply :=
  let n := s.hw.jswState
  if n = 1 then (s, busyReply)
  else if n = 0 ∨ n = 6 ∨ n = 7 then
    ((s.setAsker h).onHw (fun h => h.jsw [(Fld.SYS_JSW.state, 1), (Fld.SYS_JSW.op, 1), (Fld.SYS_JSW.progress, 0), (Fld.SYS_JSW.code, 0)]),
      okReply)
  else (s, stateReply)

def execAdmitJob (h : MmpHeader) (s : State) : Host.Outcome State Fault Refusal :=
  .next (s.request rowAuth h (fun s _ => s.askAdmission h))

/-- R285: the start-refusal code found at receipt, if any. -/
def startCode (now t0 : Nat) : Nat := if t0 < now + 8000 then 1 else if t0 % 128 ≠ 0 then 2 else 0

/-- A restore address beyond the 48-bit map names no memory. DEDUCED: assumption 32. -/
def restoreAddr (v : Word) : Option Addr :=
  if v = 0 then none else if v.toNat < 2 ^ 48 then some (BitVec.ofNat 48 v.toNat) else some (BitVec.ofNat 48 (2 ^ 48 - 1))

/-- The start accepted: T0, results capture (R424), restore address, state 3. -/
def Hw.acceptStart (h : Hw) (t0 restore : Word) (resAddr : Addr) (resCount : Nat) : Hw :=
  let h := h.onJob (fun j => { j with started := true, t0 := t0, restore := restoreAddr restore })
  let h := h.setFld clkBase Fld.TNS_START.tick t0.toNat
  let h := h.setFlds sysBase [(Fld.SYS_RES_CFG.addr, resAddr.toNat), (Fld.SYS_RES_CFG.count, resCount), (Fld.SYS_RES_CFG.enable, 1)]
  h.jsw [(Fld.SYS_JSW.state, 3), (Fld.SYS_JSW.code, 0)]

/-- START: state 2. -/
def State.startRequest (s : State) (t0 restore : Word) (resAddr : Addr) (resCount : Nat) : State × Reply :=
  if s.hw.jswState ≠ 2 then (s, stateReply)
  else
    let code := startCode s.hw.now t0.toNat
    if code ≠ 0 then
      (s.onHw (fun h => h.jsw [(Fld.SYS_JSW.state, 7), (Fld.SYS_JSW.code, code)]), (8, leBytes 1 code))
    else (s.onHw (fun h => h.acceptStart t0 restore resAddr resCount), okReply)

def execStart (h : MmpHeader) (t0 restore : Word) (resAddr : Addr) (resCount : BitVec 4) (s : State) :
    Host.Outcome State Fault Refusal :=
  .next (s.request rowAuth h (fun s _ => s.startRequest t0 restore resAddr resCount.toNat))

/-- STOP: states 3 and 4. -/
def State.stopRequested (s : State) : State × Reply :=
  if s.hw.jswState = 3 ∨ s.hw.jswState = 4 then (s.onHw Hw.requestStop, okReply) else (s, stateReply)

def execStop (h : MmpHeader) (s : State) : Host.Outcome State Fault Refusal :=
  .next (s.request rowAuth h (fun s _ => s.stopRequested))

/-- SNAPSHOT: the destination, and with the flag a request (R334). -/
def State.snapshotAsked (s : State) (dest : Addr) (request : Bool) : State × Reply :=
  match s.hw.job with
  | none => (s, (5, []))
  | some j =>
    if j.sharePending then (s, busyReply)
    else
      (s.onHw (fun h =>
        let h := h.onJob (fun j => { j with snapDest := some dest })
        if request then h.requestSnapshot else h), okReply)

def execSnapshot (h : MmpHeader) (dest : Addr) (request : Bool) (s : State) : Host.Outcome State Fault Refusal :=
  .next (s.request rowAuth h (fun s _ => s.snapshotAsked dest request))

/-- RELEASE: states 2, 5 and 7, through state 8. -/
def State.releaseAsked (s : State) : State × Reply :=
  let n := s.hw.jswState
  if n = 2 ∨ n = 5 ∨ n = 7 then
    (s.onHw (fun h => h.jsw [(Fld.SYS_JSW.state, 8), (Fld.SYS_JSW.op, 6), (Fld.SYS_JSW.progress, 0), (Fld.SYS_JSW.code, 0)]), okReply)
  else (s, stateReply)

def execRelease (h : MmpHeader) (s : State) : Host.Outcome State Fault Refusal :=
  .next (s.request rowAuth h (fun s _ => s.releaseAsked))

/-- SUCCESSOR: state 4. -/
def State.successorAsked (s : State) (h : MmpHeader) : State × Reply :=
  if s.mgmt.successorOp then (s, busyReply)
  else if s.hw.jswState = 4 then
    let s := s.setAsker h
    ({ s with mgmt := { s.mgmt with successorOp := true } }.onHw (fun h =>
      h.jsw [(Fld.SYS_JSW.op, 2), (Fld.SYS_JSW.progress, 0)]), okReply)
  else (s, stateReply)

def execSuccessor (h : MmpHeader) (s : State) : Host.Outcome State Fault Refusal :=
  .next (s.request rowAuth11 h (fun s _ => s.successorAsked h))

/-- QUOTA: TIER_QUOTA of a job, which TIER_QSEL selects (R194). DEDUCED: assumption 30. -/
def execQuota (h : MmpHeader) (job : Byte) (v : Word) (s : State) : Host.Outcome State Fault Refusal :=
  .next (s.request rowAuth h (fun s _ =>
    (s.onHw (fun h => (h.setFld lpdBase Fld.TIER_QSEL.job job.toNat).writeQuota job.toNat v), okReply)))

/-! ### Attestation -/

def execAttest (h : MmpHeader) (nonce : BitVec 256) (s : State) : Host.Outcome State Fault Refusal :=
  .next (s.request rowAny h (fun s _ => (s, (0, s.attestReport nonce))))

/-- The length of the chain in flash: a count, then a length and the bytes of each certificate (R417), within its 64 KiB. -/
def MgmtSt.chainLength (m : MgmtSt) : Nat :=
  (List.range (leNat (m.flashRead 0x10000 4))).foldl (fun n _ =>
    if n < 0x10000 then n + 4 + leNat (m.flashRead (0x10000 + n) 4) else n) 4

def execCerts (h : MmpHeader) (s : State) : Host.Outcome State Fault Refusal :=
  .next (s.request rowAnyR h (fun s _ => (s, (0, s.mgmt.flashRead 0x10000 (Nat.min s.mgmt.chainLength 0x10000)))))

/-- PROVISION: while the owner-key fuse is blank (R410). DESIGN CHOICE: assumption 33. -/
def State.provisionAsked (s : State) (key : BitVec 776) : State × Reply :=
  if s.xof.owner.isSome then (s, stateReply) else (s.provision (keyDigest key), okReply)

def execProvision (h : MmpHeader) (key : BitVec 776) (s : State) : Host.Outcome State Fault Refusal :=
  .next (s.request rowAny h (fun s _ => s.provisionAsked key))

/-! ### Flash, R418 -/

/-- FLASH_PUT: staged bytes; in recovery mode staging stands in shared memory from segment 0 of slice 0. Bytes for another target
start staging anew. -/
def State.putFlash (s : State) (x : Session) (firmware : Bool) (off : Nat) (data : List Byte) : State × Reply :=
  if decide (x.limit < data.length) || decide (0x1100000 < off + data.length) then (s, (9, []))
  else
    let fresh := decide (s.mgmt.flashTarget ≠ some firmware)
    let old := if fresh then [] else s.mgmt.flashStage
    let n := if fresh then 0 else s.mgmt.flashLen
    let s := if s.inRecovery then s.onHw (fun h => h.store (sharedBase + off) data) else s
    ({ s with mgmt := { s.mgmt with
        flashTarget := some firmware, flashStage := putBytes 0 old off data, flashLen := Nat.max n (off + data.length) } }, okReply)

def execFlashPut (h : MmpHeader) (firmware : Bool) (off : Word32) (data : List Byte) (s : State) : Host.Outcome State Fault Refusal :=
  .next (s.request rowAuthR h (fun s x => s.putFlash x firmware off.toNat data))

/-- FLASH_COMMIT: verified, and the write window opened; or VERIFY, with flash unchanged. DEDUCED: assumption 31. -/
def State.commitFlash (s : State) : State × Reply :=
  match s.mgmt.flashWindow, s.mgmt.flashTarget with
  | some _, _ => (s, busyReply)
  | none, some firmware =>
    if s.stageGood firmware then
      ({ s with mgmt := { s.mgmt with flashWindow := some firmware } }.onHw (fun h =>
        h.jsw [(Fld.SYS_JSW.op, 5), (Fld.SYS_JSW.progress, 0)]), okReply)
    else
      (s.onHw (fun h => h.raise xofBase Fld.XOF_FLAGS.verify_fail Fld.XOF_CNT.verify_fail ringFliuf 0x75 9), (11, []))
  | none, none =>
    (s.onHw (fun h => h.raise xofBase Fld.XOF_FLAGS.verify_fail Fld.XOF_CNT.verify_fail ringFliuf 0x75 9), (11, []))

def execFlashCommit (h : MmpHeader) (s : State) : Host.Outcome State Fault Refusal :=
  .next (s.request rowAuthR h (fun s _ => s.commitFlash))

/-- The region erased and programmed with the staged bytes. -/
def MgmtSt.programmed (m : MgmtSt) (firmware : Bool) : SMap Byte :=
  let start := if firmware then firmwareAt else bcrAt
  let size := if firmware then 0x1100000 else 0x10000
  putBytes blankFlash (m.flash.filter (fun e => decide (e.1 < start ∨ start + size ≤ e.1))) start
    ((List.range m.flashLen).map (fun i => m.flashStage.get 0 i))

/-- Programming ends: the window closes, source 46 is raised, and the operation ends. -/
def State.endCommit (s : State) : State :=
  match s.mgmt.flashWindow with
  | none => s
  | some firmware =>
    { s with
      mgmt := { s.mgmt with flash := s.mgmt.programmed firmware, flashWindow := none }
      fliuf := { s.fliuf with qspiDone := true }
      hw := s.hw.jsw (s.hw.opEnd 5 0) }

def execFlashCommitComplete (s : State) : Host.Outcome State Fault Refusal := .next s.endCommit

/-- RESET: always performed; its flag asks for recovery mode (R408, R415). The clocks start anew (Table 13.9). -/
def execMmpReset (h : MmpHeader) (recovery : Bool) (s : State) : Host.Outcome State Fault Refusal :=
  .next (s.request rowAuthR h (fun s _ => (s.moduleReset .mmp recovery, okReply)))

/-! ### The tunnel, R420 -/

/-- The flits of a tunnelled datagram. Its message number is left open. DEDUCED: assumption 32. -/
def Hw.tunnelFlits (h : Hw) (session rank mid : Nat) (inner : List Byte) : List Flit :=
  let parts := chunks 224 (inner.length + 1) inner
  (List.range parts.length).map (fun k =>
    let bs := (parts[k]?).getD []
    { h.flitHead 2 0x30 rank (decide (k = 0)) (decide (k + 1 = parts.length)) with
      msg := BitVec.ofNat 96 (session % 2 ^ 16 + mid % 2 ^ 16 * 2 ^ 16 + k * 2 ^ 32 + parts.length * 2 ^ 48)
      data := dataOf bs, len := BitVec.ofNat 8 bs.length })

/-- PROXY: on the lowest-numbered port in state 4. With none the spec names no status. DESIGN CHOICE: assumption 28. -/
def State.tunnel (s : State) (session rank : Nat) (inner : List Byte) : State × Reply :=
  match (List.range 24).find? s.hw.linkUp with
  | none => s.openRefusal
  | some p =>
    (s.onHw (fun h =>
      let w := h.freeWord
      let x := w.2.port p
      w.2.setPort p { x with c2 := x.c2 ++ w.2.tunnelFlits session rank (bitsOf w.1 15 0) inner }), okReply)

def execProxy (h : MmpHeader) (rank : Rank) (inner : List Byte) (s : State) : Host.Outcome State Fault Refusal :=
  .next (s.request rowAuth11 h (fun s _ => s.tunnel h.session.toNat rank.toNat inner))

/-! ### The management ports, R411 -/

/-- A datagram that is not MMP to the module's port, or whose source lies outside the allow prefix. -/
def execUnacceptedDatagram (s : State) : Host.Outcome State Fault Refusal :=
  .next (if s.serves then s.onHw (fun h => h.count sysBase Fld.SYS_CNT_B.dropped 1) else s)

/-- A management port has an event (Table 11.2). -/
def State.ethEvent (s : State) (i : Nat) : State :=
  { s with fliuf := { s.fliuf with ethEvent := i :: s.fliuf.ethEvent.erase i } }

/-- The MAC address of a management port, from the fuses. PRESUMED: assumption 94. -/
def XofSt.mac (x : XofSt) (i : Nat) : BitVec 48 := BitVec.ofNat 48 (x.macs.toNat / 2 ^ (48 * i))

/-- R409: the link-local address whose interface identifier is the modified EUI-64 of a MAC address. PRESUMED: assumption 94. -/
def linkLocal (mac : BitVec 48) : BitVec 128 :=
  0xFE80#16 ++ 0#48 ++ ((BitVec.ofNat 24 (mac.toNat / 2 ^ 24) ^^^ 0x020000#24) ++ 0xFFFE#16 ++ BitVec.ofNat 24 mac.toNat)

/-- The IPv6 addresses of a management port (R409, Table 11.8): the one of the Boot Configuration Record, all zero for none, which
recovery mode takes when its reason is 4 to 7, and in recovery mode the link-local one. -/
def State.portAddresses (s : State) (i : Nat) : List (BitVec 128) :=
  let own := if i = 0 then s.mgmt.bcr.addrA else s.mgmt.bcr.addrB
  let r := s.hw.fld sysBase Fld.SYS_STATUS.reason
  (if s.inRecovery then [linkLocal (s.xof.mac i)] else [])
    ++ (if own ≠ 0 ∧ (s.inRecovery = true → 4 ≤ r ∧ r ≤ 7) then [own] else [])

/-- What ICMPv6 answers (R411): to an echo request its own body; to Neighbor Discovery of an address of the port, whose 16 bytes the
body is, that address and the port's MAC address. PRESUMED: assumption 94. -/
def State.icmpAnswer (s : State) (i : Nat) (echo : Bool) (body : List Byte) : Option (List Byte) :=
  if echo then some body
  else if body.length = 16 ∧ BitVec.ofNat 128 (beNat body) ∈ s.portAddresses i then some (body ++ beBytes 6 (s.xof.mac i).toNat)
  else none

def execIcmpv6Message (port : Fin 2) (echo : Bool) (body : List Byte) (s : State) : Host.Outcome State Fault Refusal :=
  .next (if s.serves then
      match s.icmpAnswer port.val echo body with
      | none => s.ethEvent port.val
      | some bs => (s.ethEvent port.val).reply (0, bs)
    else s)

/-- A management link comes up or drops. It comes up only while its controller and its lanes are clocked.
DEDUCED: assumption 34. -/
def State.linkTrained (s : State) (i : Nat) (up : Bool) : State :=
  let clocked := s.hw.periOn (periEth i) && decide (s.hw.fld clkBase Fld.CLK_STATUS.lanes / 2 % 2 = 1)
  let others := s.mgmt.linksUp.erase i
  if up then
    if clocked then { s with mgmt := { s.mgmt with linksUp := i :: others } }.ethEvent i else s
  else { s with mgmt := { s.mgmt with linksUp := others } }.ethEvent i

def execManagementLinkTraining (i : Fin 2) (up : Bool) (s : State) : Host.Outcome State Fault Refusal := .next (s.linkTrained i.val up)

end Sys2Proof.Machine
end

