-- ==== Sys2Proof/Machine/Dump.lean ====
section
/-!
DEFINITION. Hang dumps (R447 to R450): the sections of a dump as firmware builds it, and the DUMP messages.
-/
namespace Sys2Proof.Machine

/-! ### Sections, Table 12.14 -/

/-- The registers at `base + o` for offsets from `lo` to `hi`, as a read returns them. -/
def State.window (s : State) (base lo hi : Nat) : List Byte :=
  (List.range ((hi - lo) / 8 + 1)).flatMap (fun i => leBytes 8 (s.view (base + lo + 8 * i)).toNat)

def EventRec.bytes (e : EventRec) : List Byte := leBytes 8 e.w0.toNat ++ leBytes 8 e.w1.toNat

/-- 0x01: step state, inflection control's registers, the last refusal record. -/
def State.stateSection (s : State) : Section :=
  ⟨0x01, 0, s.window inflBase 0 0x28 ++ s.window inflBase 0x100 0x140 ++ leBytes 32 s.mgmt.refusal.toNat⟩

/-- 0x02: a ring's captured copy. -/
def Hw.ringSection (h : Hw) (n : Nat) : Section :=
  let r := h.ring n
  ⟨0x02, n, leBytes 8 (r.stat true).toNat ++ (List.range 256).flatMap (fun k => (r.record true k).bytes)⟩

/-- 0x03: a trace buffer's captured copy. -/
def Hw.traceSection (h : Hw) (t : Nat) : Section :=
  let x := h.trace t
  ⟨0x03, t, leBytes 8 (x.stat true).toNat ++ (List.range 640).flatMap (fun k => (x.record true k).bytes)⟩

/-- A queue: its count, then its commands. -/
def queueBytes (q : List QCmd) : List Byte := leBytes 2 q.length ++ q.flatMap (fun c => leBytes 32 c.bits.toNat)

/-- 0x04: a tile: its window, its arrays, its queues in the order of Table 4.1, its epoch slots. -/
def State.tileSection (s : State) (t : Nat) : Section :=
  let x := s.hw.tile t
  ⟨0x04, t, s.window (tileBase t) 0 0x520
    ++ (List.range 8).flatMap (fun u => s.window (arrBase t u) 0 0x1F8)
    ++ (List.range 15).flatMap (fun q => queueBytes (x.queues.get [] q))
    ++ (List.range 256).flatMap (fun k =>
      let e := (x.epochs.find? k).getD (0, 0)
      leBytes 2 e.1.toNat ++ leBytes 2 e.2.toNat)⟩

/-- 0x05: a slice. -/
def State.sliceSection (s : State) (sl : Nat) : Section :=
  let b := sliceBase sl
  ⟨0x05, sl, s.window b 0 0x38 ++ s.window b 0x1000 0x1068 ++ s.window b Fld.SLC_EPOCH.epoch.off (Fld.SLC_EPOCH.epoch.off + 8 * 255)⟩

/-- 0x06: a stack controller, or 12 for the LPDDR5X controller. -/
def State.memorySection (s : State) (d : Nat) : Section :=
  ⟨0x06, d, if d < 12 then s.window (stackBase d) 0 0x38 else s.window lpdBase 0 0x38 ++ s.window lpdBase 0x8000 0x8048⟩

/-- 0x07: a port. -/
def State.portSection (s : State) (p : Nat) : Section := ⟨0x07, p, s.window (portBase p) 0 0x88⟩

/-- 0x08: an Update Engine with its layer table. -/
def State.engineSection (s : State) (d : Nat) : Section :=
  ⟨0x08, d, s.window (stackBase d) 0x8000 0x8040 ++ (List.range 1024).flatMap (fun l => (s.hw.upeLayer d l).bytes)⟩

/-- 0x09: clocks and Tense, power. -/
def State.clockSection (s : State) : Section := ⟨0x09, 0, s.window clkBase 0 0x130 ++ s.window pwrBase 0 0x60⟩

/-- 0x0A: the collector table with FLT_STAT, on the collector rank. -/
def State.collectorSection (s : State) : List Section :=
  match s.hw.job with
  | none => []
  | some j =>
    if j.img.collector = s.hw.rank then
      [⟨0x0A, 0, leBytes 8 (s.view (dbgBase + 0x30)).toNat ++ s.window dbgBase 0x100000 0x10FFF8⟩]
    else []

/-- 0x0B: a layout that firmware defines: its bytes are left open. DESIGN CHOICE: assumption 33. -/
def Hw.firmwareSection (h : Hw) : Section := ⟨0x0B, 0, (List.range 128).map (fun i => Config.freeByte (h.free + i))⟩

/-- The sections of a capture dump, and of a halt dump (R449). -/
def State.captureSections (s : State) : List Section :=
  s.stateSection :: ((List.range 2739).map s.hw.ringSection ++ (List.range 512).map s.hw.traceSection)

def State.haltSections (s : State) : List Section :=
  s.captureSections ++ (List.range 512).map s.tileSection ++ (List.range 128).map s.sliceSection
    ++ (List.range 13).map s.memorySection ++ (List.range 24).map s.portSection ++ (List.range 12).map s.engineSection
    ++ [s.clockSection] ++ s.collectorSection ++ [s.hw.firmwareSection]

/-! ### Building, R447 -/

def DebugSt.slot (d : DebugSt) (i : Nat) : DumpSlot := if i = 0 then d.dump0 else d.dump1

def Hw.setDump (h : Hw) (i : Nat) (x : DumpSlot) : Hw :=
  { h with dbg := if i = 0 then { h.dbg with dump0 := x } else { h.dbg with dump1 := x } }

/-- The container of a dump slot. DESIGN CHOICE: assumption 72. -/
def State.dumpBytes (s : State) (x : DumpSlot) : List Byte :=
  s.hw.container s.xof.serial dumpMagic x.kind x.trigger x.tick.toNat (if x.kind = 1 then s.haltSections else s.captureSections)

/-- No command runs on an engine any more (R47). -/
def Hw.commandsEnded (h : Hw) : Bool :=
  h.tiles.all (fun e => e.2.running.all (fun r => r.2.isEmpty)) && h.upes.all (fun e => e.2.running.isNone)

/-- A dump that was being built is ready: the operation ends with result 0. A halt dump waits until every command has ended
(R447). DESIGN CHOICE: assumption 72. -/
def State.finishDump (s : State) (i : Nat) : State :=
  let x := s.hw.dbg.slot i
  if x.building && (decide (x.kind ≠ 1) || s.hw.commandsEnded) then
    let bs := s.dumpBytes x
    s.onHw (fun h =>
      let h := { h with free := h.free + 128 }.setDump i { x with building := false, ready := true, bytes := bs }
      let b := h.fld dbgBase Fld.DBG_STATUS.building
      (h.setFld dbgBase Fld.DBG_STATUS.building (if i = 0 then b / 2 * 2 else b % 2)).jsw (h.opEnd 4 0))
  else s

def execDumpBuildComplete (slot : Fin 2) (s : State) : Host.Outcome State Fault Refusal := .next (s.finishDump slot.val)

/-! ### The DUMP message, R450 -/

def DumpSlot.summary (x : DumpSlot) : List Byte :=
  leBytes 1 x.kind ++ leBytes 8 x.bytes.length ++ leBytes 8 x.tick.toNat ++ leBytes 1 (flagNat x.ready)

def execDumpQuery (h : MmpHeader) (s : State) : Host.Outcome State Fault Refusal :=
  .next (s.request rowAuth h (fun s _ =>
    (s, (0, s.hw.dbg.dump0.summary ++ s.hw.dbg.dump1.summary ++ leBytes 8 (s.view dbgBase).toNat))))

/-- TAKE: states 0, 2, 5, 6 and 7; BUSY while copies are held (R446) or a dump is being built. DESIGN CHOICE: assumption 72. -/
def State.takeDump (s : State) : State × Reply :=
  if [0, 2, 5, 6, 7].contains s.hw.jswState then
    if s.hw.flag dbgBase Fld.DBG_STATUS.held || s.hw.dbg.dump0.building || s.hw.dbg.dump1.building then (s, busyReply)
    else (s.onHw (fun h => h.capture 4), okReply)
  else (s, stateReply)

def execDumpTake (h : MmpHeader) (s : State) : Host.Outcome State Fault Refusal :=
  .next (s.request rowAuth h (fun s _ => s.takeDump))

/-- READ: BUSY while the slot is being built; an empty slot has nothing to read in its present state.
DESIGN CHOICE: assumption 33. -/
def State.readDump (s : State) (x : Session) (i off count : Nat) : Reply :=
  let d := s.hw.dbg.slot i
  if d.building then busyReply
  else if !d.ready then stateReply
  else if x.limit < count + 16 then (9, [])
  else (0, leBytes 8 off ++ sub d.bytes off count)

def execDumpRead (h : MmpHeader) (slot : Fin 2) (off : Word) (count : Word32) (s : State) : Host.Outcome State Fault Refusal :=
  .next (s.request rowAuth h (fun s x => (s, s.readDump x slot.val off.toNat count.toNat)))

/-- RELEASE: the slot is free; with both free the captured copies go. -/
def State.releaseDump (s : State) (i : Nat) : State :=
  if (s.hw.dbg.slot i).building then s
  else
    let s := s.onHw (fun h => h.setDump i DumpSlot.empty)
    if s.hw.dbg.dump0 = DumpSlot.empty ∧ s.hw.dbg.dump1 = DumpSlot.empty then s.onHw Hw.releaseCapture else s

def execDumpRelease (h : MmpHeader) (slot : Fin 2) (s : State) : Host.Outcome State Fault Refusal :=
  .next (s.request rowAuth h (fun s _ =>
    if (s.hw.dbg.slot slot.val).building then (s, busyReply) else (s.releaseDump slot.val, okReply)))

end Sys2Proof.Machine
end

