-- ==== Sys2Proof/Machine/Power.lean ====
section
/-!
DEFINITION. Power input, protection, temperature, power-up and the PMBus sideband (R456 to R478).
-/
namespace Sys2Proof.Machine

/-! ### Pins and events -/

def State.powerState (s : State) : Nat := s.hw.fld pwrBase Fld.PWR_STATUS.state
def State.setPowerState (s : State) (n : Nat) : State := s.onHw (fun h => h.setFld pwrBase Fld.PWR_STATUS.state n)

/-- STATUS_WORD of PMBus 1.3 as a summary of the three status bytes (PRESUMED: assumption 10). -/
def PowerSt.statusWord (x : PowerSt) : Nat :=
  let vout := x.status % 256
  let input := x.status / 256 % 256
  let temp := x.status / 65536 % 256
  flagNat (decide (vout ≠ 0)) * 2 ^ 15 + flagNat (decide (input ≠ 0)) * 2 ^ 13 + flagNat (decide (temp ≠ 0)) * 2 ^ 2
    + flagNat (decide (vout / 128 = 1)) * 2 ^ 5 + flagNat (decide (input / 16 % 2 = 1)) * 2 ^ 3

/-- ALERT_N and FAULT_N as GPIO lines 8 and 9 show them: ALERT_N is low while a status bit is set and during a protective off
(R464, R474). DEDUCED: assumption 36. -/
def State.showPins (s : State) : State :=
  (s.gpioChange 8 (decide (s.power.status = 0) && decide (s.powerState ≠ 4))).gpioChange 9 s.power.faultN

def State.withPower (s : State) (f : PowerSt → PowerSt) : State := { s with power := f s.power }

/-- PRESUMED: assumption 10. -/
def State.addStatus (s : State) (bits : Nat) : State := s.withPower (fun x => { x with status := x.status ||| bits })

/-- PMBus status bits of this chapter: rail overvoltage, rail undervoltage or short; input overvoltage, undervoltage,
overcurrent, power over limit; over-temperature fault and warning. PRESUMED: assumption 10. -/
def statusOfCause (cause : Nat) : Nat :=
  match cause with
  | 1 => 0x80 * 256
  | 2 => 0x04 * 256
  | 3 => 0x10
  | 4 => 0x80
  | 5 => 0x10 * 256
  | 6 => 0x01 * 256
  | 7 => 0x01 * 256
  | 8 => 0x80 * 65536
  | _ => 0

/-- A PWR_FAULT flag is set: its counter, and event 0x68 of the module ring (R476). -/
def Hw.powerFault (h : Hw) (flag cnt : Fld) : Hw :=
  let h := h.mark pwrBase flag cnt
  h.event ringModule 0x68 (h.reg (pwrBase + flag.off)).toNat

/-! ### Protective off, R462 to R466 -/

/-- Hardware without its rails: nothing outside the power window is left. -/
def Hw.unpowered (h : Hw) : Hw :=
  { Hw.reset with free := h.free, regs := h.regs.filter (fun e => decide (pwrBase ≤ e.1 ∧ e.1 < pwrBase + 0x10000)) }

/-- R465, R466: what loses its rails loses its contents; a flash commit ends with its sector. DESIGN CHOICE: assumption 14. -/
def State.destroy (s : State) : State :=
  let s := s.tearFlash
  { s with
    hw := s.hw.unpowered
    fliuf := s.fliuf.moduleReset .powerOn
    mgmt := s.mgmt.moduleReset false
    xof := s.xof.moduleReset }

/-- Causes that latch, Table 13.4. -/
def latches (cause : Nat) : Bool := [2, 3, 4, 6, 7, 8, 9].contains cause

/-- A cause of Table 13.4 detected in a sample, with the rail or zone it names. -/
structure Detected where
  cause : Nat
  index : Nat
deriving DecidableEq, Repr

/-- Bit c − 1 for every cause detected. -/
def othersOf (ds : List Detected) : Nat := ds.foldl (fun n d => n ||| 2 ^ (d.cause - 1)) 0

/-- Table 13.5 at 0 µs, for causes in ascending order: PWR_LAST, FAULT_N and ALERT_N, the core clocks stopped. -/
def State.protectiveOff (s : State) (ds : List Detected) : State :=
  match ds with
  | [] => s
  | d :: _ =>
    let s := s.destroy
    let s := s.onHw (fun h => h.setFlds pwrBase
      [(Fld.PWR_LAST.cause, d.cause), (Fld.PWR_LAST.index, d.index), (Fld.PWR_LAST.valid, 1),
       (Fld.PWR_LAST.latched, flagNat (latches d.cause)), (Fld.PWR_LAST.others, othersOf ds),
       (Fld.PWR_LAST.time, satNat (2 ^ 32 - 1) (s.power.usUp / 1000)), (Fld.PWR_STATUS.state, 4)])
    let s := s.withPower (fun x => { x with
      latched := latches d.cause, offCause := d.cause, faultN := false, stage := 0 })
    (s.addStatus (ds.foldl (fun n d => n ||| statusOfCause d.cause) 0)).showPins

/-- The debounce of a power-up begins: PWR_EN is high, and the always-on domain stands. -/
def State.beginPowerUp (s : State) : State := s.withPower (fun x => { x with stage := 2, offCause := 0, goodRun := 0 })

/-- FAULT_N rises when no latch holds it (Table 13.15). DEDUCED: assumption 36. -/
def State.endFault (s : State) : State := (s.withPower (fun x => { x with faultN := true })).showPins

/-- Table 13.5: the next group goes off; after the last one the state is 1. A power enable that has come back meanwhile begins
a power-up (Table 13.4, cause 10). DEDUCED: assumption 36. -/
def State.groupOff (s : State) : State :=
  if s.powerState = 4 then
    let s := s.withPower (fun x => { x with groupsOn := x.groupsOn - 1 })
    if s.power.groupsOn = 0 then
      let s := s.setPowerState 1
      let s := if s.power.latched then s.showPins else s.endFault
      if s.power.offCause = 10 ∧ s.power.enHigh then s.beginPowerUp else s
    else s
  else s

def execRailGroupOff (s : State) : Host.Outcome State Fault Refusal := .next s.groupOff

/-! ### Samples of the input, R457 to R462 -/

/-- The means of R457, in milliwatts; a sample before the first one counts as none drawn. DESIGN CHOICE: assumption 35. -/
def PowerSt.mean (x : PowerSt) (n : Nat) : Nat := ((x.samples.take n).foldl (· + ·) 0) / n

/-- The means above a limit in watts, exactly. DESIGN CHOICE: assumption 35. -/
def PowerSt.meanAbove (x : PowerSt) (n watts : Nat) : Bool := decide (watts * 1000 * n < (x.samples.take n).foldl (· + ·) 0)

/-- R458: the sense pair is taken as open or shorted, once and until the next power-up. -/
def PowerSt.fellBack (x : PowerSt) : Bool := decide (100 ≤ x.senseRun)

def senseAfter (x : PowerSt) (r : PowerReading) : Nat :=
  let l := r.localMv.toNat
  let q := r.senseMv.toNat
  if x.fellBack then x.senseRun
  else if q < 5000 ∨ 65000 < q then 100
  else if q + 2000 < l ∨ l + 2000 < q then x.senseRun + 1
  else 0

/-- The input voltage of every rule of the chapter. -/
def inputMv (x : PowerSt) (r : PowerReading) : Nat := if x.fellBack then r.localMv.toNat else r.senseMv.toNat

/-- The controller's runs and samples with one more. DESIGN CHOICE: assumption 38. -/
def PowerSt.sampled (x : PowerSt) (r : PowerReading) : PowerSt :=
  let x := { x with senseRun := senseAfter x r }
  let mv := inputMv x r
  { x with
    samples := (mv * r.ma.toNat / 1000 :: x.samples).take 1000
    underRun := if mv < 33000 then x.underRun + 1 else 0
    enLow := if x.enHigh then 0 else satNat 10000 (x.enLow + 1)
    goodRun := if 35000 ≤ mv ∧ mv ≤ 46000 ∧ x.enHigh = true then satNat 100000 (x.goodRun + 1) else 0
    usUp := x.usUp + 1 }

/-- R460: a rail falls back to local sensing. -/
def State.railFallsBack (s : State) (k : Nat) : State :=
  if s.power.railsLocal.contains k then s
  else (s.withPower (fun x => { x with railsLocal := x.railsLocal ++ [k] })).onHw (fun h =>
    h.powerFault Fld.PWR_FAULT.sense Fld.PWR_CNT_C.sense)

/-- Eighths of a watt. -/
def eighths (mw : Nat) : Nat := mw * 8 / 1000

/-- The registers that show a sample (Tables 13.12 and 13.14). -/
def State.showSample (s : State) (mv ma : Nat) : State :=
  let p10 := eighths (s.power.mean 10)
  let p1 := eighths (s.power.mean 1000)
  s.onHw (fun h =>
    let h := h.setFlds pwrBase
      [(Fld.PWR_VIN.mv, mv), (Fld.PWR_VIN.ma, ma), (Fld.PWR_AVG.p10us, p10), (Fld.PWR_AVG.p1ms, p1),
       (Fld.PWR_STATUS.vin_ok, flagNat (decide (34000 ≤ mv ∧ mv ≤ 46000))),
       (Fld.PWR_STATUS.local_vin, flagNat s.power.fellBack),
       (Fld.PWR_STATUS.rail_local, flagNat (!s.power.railsLocal.isEmpty))]
    (h.peak pwrBase Fld.PWR_PEAK.p10us p10).peak pwrBase Fld.PWR_PEAK.p1ms p1)

/-- A rail of groups 1 to 6 that is on. -/
def PowerSt.railOn (x : PowerSt) (k : Nat) : Bool :=
  decide (1 ≤ (railGroup[k]?).getD 0) && decide ((railGroup[k]?).getD 0 ≤ x.groupsOn)

def railCause (x : PowerSt) (cause : Nat) (rail : Option (Fin 15)) : List Detected :=
  match rail with
  | none => []
  | some k => if x.railOn k then [⟨cause, k.val⟩] else []

/-- One cause, if it holds. -/
def causeIf (c : Bool) (cause : Nat) : List Detected := if c then [⟨cause, 0⟩] else []

/-- The causes of Table 13.4 that a sample shows, in ascending order. -/
def inputCauses (x : PowerSt) (r : PowerReading) (mv : Nat) : List Detected :=
  causeIf (decide (48000 < mv)) 1 ++ causeIf r.hotSwapLimit 2 ++ railCause x 3 r.railShort ++ railCause x 4 r.railOver
    ++ causeIf (decide (10 ≤ x.underRun)) 5 ++ causeIf (x.meanAbove 10 2600) 6 ++ causeIf (x.meanAbove 1000 2200) 7
    ++ causeIf (!x.enHigh && decide (10 ≤ x.enLow)) 10

/-- What only counts (R461, Table 13.12): the model's limits passed, an input out of its range without a protective off.
DESIGN CHOICE: assumption 35. -/
def State.countSample (s : State) (mv : Nat) (off : Bool) : State :=
  let x := s.power
  s.onHw (fun h =>
    let h := if x.meanAbove 1000 2000 then h.powerFault Fld.PWR_FAULT.over_model Fld.PWR_CNT_A.over_model else h
    let h := if x.meanAbove 10 2300 then h.powerFault Fld.PWR_FAULT.over_model_10us Fld.PWR_CNT_A.over_model_10us else h
    if !off && decide (mv < 34000 ∨ 46000 < mv) then h.powerFault Fld.PWR_FAULT.vin_warn Fld.PWR_CNT_C.vin_warn else h)

/-- R471: a power-up that is not over begins its debounce again. DEDUCED: assumption 37. -/
def State.debounceAgain (s : State) : State :=
  (s.withPower (fun x => { x with stage := 2, groupsOn := 0, goodRun := 0 })).setPowerState 1

/-- What a sample decides, by the state: a protective off while the rails stand; in a power-up the causes that are no matter of
its input or enable, else a new debounce when the input leaves 35.0 V to 46.0 V. DEDUCED: assumption 37. -/
def State.sampleDecides (s : State) (ds : List Detected) (mv : Nat) : State :=
  if s.powerState = 3 then s.protectiveOff ds
  else if s.powerState = 2 then
    let ds := ds.filter (fun d => [2, 3, 4, 6, 7].contains d.cause)
    if !ds.isEmpty then s.protectiveOff ds
    else if mv < 35000 ∨ 46000 < mv ∨ s.power.enHigh = false then s.debounceAgain
    else s
  else s

/-- One sample of the power controller, which runs while the always-on domain stands. -/
def State.powerSample (s : State) (r : PowerReading) : State :=
  if s.powerState = 0 then s
  else
    let before := s.power.fellBack
    let s := s.withPower (fun x => x.sampled r)
    let mv := inputMv s.power r
    let s := if !before && s.power.fellBack then s.onHw (fun h => h.powerFault Fld.PWR_FAULT.sense Fld.PWR_CNT_C.sense) else s
    let s := match r.railSenseLost with
      | none => s
      | some k => if s.power.railOn k || decide (k.val < 2) then s.railFallsBack k else s
    let s := s.showSample mv r.ma.toNat
    let ds := inputCauses s.power r mv
    let off := decide (s.powerState = 3) && !ds.isEmpty
    (s.countSample mv off).sampleDecides ds mv

def execPowerSample (x : PowerReading) (s : State) : Host.Outcome State Fault Refusal := .next (s.powerSample x)

/-! ### Temperature, R468 and R469 -/

/-- Warning and trip limits of a zone in degrees, Table 13.6; the coolant zone has none here. -/
def warnLimit (zone : Nat) : Int := ([95, 95, 95, 95, 95, 85][zone]?).getD 150
def tripLimit (zone : Nat) : Int := ([110, 110, 105, 105, 105, 100][zone]?).getD 150

/-- A reading within −40 °C to 150 °C, in sixteenths of a degree. -/
def validReading (r : SensorReading) : Option Int :=
  match r with
  | none => none
  | some v => if -640 ≤ v.toInt ∧ v.toInt ≤ 2400 then some v.toInt else none

/-- One sensor read: excluded, or its reading noted and held against its zone's limits. DESIGN CHOICE: assumption 35. -/
def State.readSensor (s : State) (k : Nat) (r : SensorReading) : State :=
  if s.power.invalid.contains k then s
  else
    match validReading r with
    | none =>
      (s.withPower (fun x => { x with invalid := x.invalid ++ [k], hot := x.hot.erase k })).onHw (fun h =>
        h.powerFault Fld.PWR_FAULT.sensor Fld.PWR_CNT_C.sensor)
    | some t =>
      let z := zoneOf k
      let s := s.withPower (fun x => { x with
        temps := x.temps.set 0 k (BitVec.ofInt 16 t)
        hot := if z < 6 ∧ tripLimit z * 16 < t then x.hot.upd 0 k (· + 1) else x.hot.erase k })
      if z < 6 ∧ warnLimit z * 16 < t then
        (s.addStatus (0x40 * 65536)).onHw (fun h => h.powerFault Fld.PWR_FAULT.temp_warn Fld.PWR_CNT_B.temp_warn)
      else s

/-- The sensor that stands for the coolant inlet: the inlet thermistor, or board sensor 52 when both thermistors are invalid.
DEDUCED: assumption 39. -/
def PowerSt.coolantSensor (x : PowerSt) : Option Nat :=
  if !x.invalid.contains 56 then some 56
  else if !x.invalid.contains 57 then none
  else if !x.invalid.contains 52 then some 52
  else none

/-- A sensor's latest reading in sixteenths of a degree. -/
def PowerSt.temp (x : PowerSt) (k : Nat) : Int := (x.temps.get 0 k).toInt

/-- R469: the coolant above 40 °C. DEDUCED: assumption 39. -/
def PowerSt.coolantHot (x : PowerSt) : Bool :=
  match x.coolantSensor with
  | none => false
  | some k => decide (640 < x.temp k)

/-- The valid sensors of a zone. -/
def PowerSt.validIn (x : PowerSt) (zone : Nat) : List Nat :=
  (List.range 58).filter (fun k => decide (zoneOf k = zone) && !x.invalid.contains k)

/-- A zone has a valid reading above its warning limit. -/
def PowerSt.anyWarm (x : PowerSt) : Bool :=
  x.coolantHot || (List.range 6).any (fun z => (x.validIn z).any (fun k => decide (warnLimit z * 16 < x.temp k)))

/-- The causes that a reading of all sensors shows: two readings in a row above a trip limit, a zone without a valid sensor.
Each names the lowest zone. DEDUCED: assumption 39. -/
def tempCauses (x : PowerSt) : List Detected :=
  (match (List.range 6).find? (fun z => (x.validIn z).any (fun k => decide (2 ≤ x.hot.get 0 k))) with
    | none => []
    | some z => [⟨8, z⟩])
  ++ (match (List.range 6).find? (fun z => (x.validIn z).isEmpty) with
    | none => []
    | some z => [⟨9, z⟩])

/-- The sensors read every 100 µs, while the rails stand. -/
def State.temperatureSample (s : State) (rs : List SensorReading) : State :=
  if s.powered then
    let s := (List.range 58).foldl (fun s k => s.readSensor k ((rs[k]?).getD none)) s
    let s := s.onHw (fun h => h.setFld pwrBase Fld.PWR_STATUS.coolant_local
      (flagNat (s.power.invalid.contains 56 && s.power.invalid.contains 57)))
    let s := if s.power.coolantHot then
        (s.addStatus (0x40 * 65536)).onHw (fun h => h.powerFault Fld.PWR_FAULT.coolant_warn Fld.PWR_CNT_B.coolant_warn)
      else s
    let s := (s.gpioChange 11 s.power.anyWarm).showPins
    s.protectiveOff (tempCauses s.power)
  else s

def execTemperatureSample (readings : List SensorReading) (s : State) : Host.Outcome State Fault Refusal :=
  .next (s.temperatureSample readings)

/-! ### PWR_EN and power-up, R463 and R471 -/

/-- A latch ends: PWR_LAST.latched and FAULT_N. DESIGN CHOICE: assumption 38. -/
def State.endLatch (s : State) : State :=
  ((s.withPower (fun x => { x with latched := false })).onHw (fun h => h.setFld pwrBase Fld.PWR_LAST.latched 0)).endFault

/-- A cause that restarts of itself waits for its 100 ms of good input (R463). -/
def PowerSt.waits (x : PowerSt) : Bool := decide (x.offCause = 1 ∨ x.offCause = 5)

/-- PWR_EN rises: a latch that was held low for 10 ms ends, and a module that waits for its enable begins to power up.
DESIGN CHOICE: assumption 38. -/
def State.enableRises (s : State) : State :=
  let s := if s.power.latched && decide (10000 ≤ s.power.enLow) && decide (s.powerState = 1) then s.endLatch else s
  let s := s.withPower (fun x => { x with enHigh := true, enLow := 0 })
  if s.powerState = 1 ∧ s.power.stage = 0 ∧ s.power.latched = false ∧ s.power.waits = false then s.beginPowerUp else s

/-- PWR_EN falls: a power-up that is not over begins its debounce again (R471); a module that is on goes off after 10 µs, as its
samples show (Table 13.4, cause 10). -/
def State.enableFalls (s : State) : State :=
  let s := s.withPower (fun x => { x with enHigh := false, enLow := 0, goodRun := 0 })
  if s.powerState = 2 then s.debounceAgain else s

def State.enableChange (s : State) (high : Bool) : State :=
  if s.power.enHigh = high then s
  else
    let s := (s.onHw (fun h => h.setFld pwrBase Fld.PWR_STATUS.en (flagNat high))).gpioChange 1 high
    if high then s.enableRises else s.enableFalls

def execPwrEnChange (high : Bool) (s : State) : Host.Outcome State Fault Refusal := .next (s.enableChange high)

/-- The input rises through 35.0 V with PWR_EN high: from no power the always-on converter starts, and from standby the debounce. -/
def State.inputRises (s : State) : State :=
  if s.power.enHigh = false ∨ s.power.stage ≠ 0 then s
  else if s.powerState = 0 then s.withPower (fun x => { x with stage := 1, usUp := 0 })
  else if s.powerState = 1 ∧ s.power.latched = false ∧ s.power.waits = false then s.beginPowerUp
  else s

def execPowerUp (s : State) : Host.Outcome State Fault Refusal := .next s.inputRises

/-- The last `n` samples, one a microsecond, showed an input within 35.0 V to 46.0 V with PWR_EN high (R457, R463, Table 13.1).
DESIGN CHOICE: assumption 38. -/
def PowerSt.goodFor (x : PowerSt) (n : Nat) : Bool := decide (n ≤ x.goodRun)

/-- The debounce is over: the hot-swap stage charges, what fell back at the last power-up is tried again, and the module stands
in the reset of a power-on. DESIGN CHOICE: assumption 38. -/
def State.startSequence (s : State) : State :=
  let s := s.withPower (fun x => { x with stage := 3, senseRun := 0, railsLocal := [], invalid := [], hot := [], groupsOn := 0 })
  (s.moduleReset .powerOn false).setPowerState 2

/-- Table 13.8, one stage on. The debounce takes 10 ms of good input. Group 1 waits for the reference clock; with group 6 good the state is 3. -/
def State.powerStage (s : State) : State :=
  match s.power.stage with
  | 1 => (s.withPower (fun x => { x with stage := 2, goodRun := 0 })).setPowerState 1
  | 2 => if s.power.goodFor 10000 then s.startSequence else s
  | 3 => s.withPower (fun x => { x with stage := 4 })
  | 4 => if s.hw.flag clkBase Fld.CLK_STATUS.ref then s.withPower (fun x => { x with stage := 5, groupsOn := 1 }) else s
  | 5 => s.withPower (fun x => { x with stage := 6, groupsOn := 2 })
  | 6 => s.withPower (fun x => { x with stage := 7, groupsOn := 3 })
  | 7 => s.withPower (fun x => { x with stage := 8, groupsOn := 4 })
  | 8 => s.withPower (fun x => { x with stage := 9, groupsOn := 5 })
  | 9 => (s.withPower (fun x => { x with stage := 10, groupsOn := 6 })).setPowerState 3
  | _ => s

def execPowerUpStage (s : State) : Host.Outcome State Fault Refusal := .next s.powerStage

/-- R463: after input overvoltage or undervoltage, 100 ms of good input with PWR_EN high. -/
def execAutomaticRestart (s : State) : Host.Outcome State Fault Refusal :=
  .next (if s.powerState = 1 ∧ s.power.stage = 0 ∧ s.power.waits = true ∧ s.power.goodFor 100000 = true then
      s.beginPowerUp
    else s)

/-- R463, R467: below 20 V nothing is powered; the latch ends, and PWR_LAST is cleared with group 0 (Table 13.9). -/
def State.supplyLost (s : State) : State :=
  let s := s.destroy
  let x := s.power
  let s := { s with
    hw := { s.hw with regs := [] }
    power := { PowerSt.on with groupsOn := 0, stage := 0, enHigh := x.enHigh, resetHigh := x.resetHigh, modid := x.modid } }
  (s.onHw (fun h => h.setFlds pwrBase [(Fld.PWR_STATUS.state, 0), (Fld.PWR_STATUS.vin_ok, 0),
    (Fld.PWR_STATUS.en, flagNat x.enHigh)])).showPins

def execAlwaysOnSupplyLoss (s : State) : Host.Outcome State Fault Refusal := .next s.supplyLost

/-! ### The PMBus sideband, R474 -/

/-- The power controller answers while the always-on domain stands. -/
def State.sideband (s : State) (body : State → State) : State := if s.powerState = 0 then s.answer Resp.bus else body s

/-- A value answered. -/
def State.sidebandValue (s : State) (v : Nat) : State := s.sideband (fun s => s.answer (Resp.ok (BitVec.ofNat 64 v)))

def execClearFaults (s : State) : Host.Outcome State Fault Refusal :=
  .next (s.sideband (fun s => (s.withPower (fun x => { x with status := 0 })).showPins.answer (Resp.ok 0)))

def execStatusWord (s : State) : Host.Outcome State Fault Refusal := .next (s.sidebandValue s.power.statusWord)

def execStatusVout (s : State) : Host.Outcome State Fault Refusal := .next (s.sidebandValue (s.power.status % 256))

def execStatusInput (s : State) : Host.Outcome State Fault Refusal := .next (s.sidebandValue (s.power.status / 256 % 256))

def execStatusTemperature (s : State) : Host.Outcome State Fault Refusal :=
  .next (s.sidebandValue (s.power.status / 65536 % 256))

/-- The linear format of PMBus: an 11-bit mantissa in two's complement and a 5-bit exponent, here of `num / den`.
PRESUMED: assumption 10. -/
def linear (code : Nat) (num : Int) (den : Nat) : Nat :=
  let e := (Config.linearExponent code).toInt
  let m := if 0 ≤ e then num / (Int.ofNat den * 2 ^ e.toNat) else num * 2 ^ (-e).toNat / Int.ofNat den
  unsigned 11 m + unsigned 5 e * 2 ^ 11

def execReadVin (s : State) : Host.Outcome State Fault Refusal :=
  .next (s.sidebandValue (linear 0x88 (Int.ofNat (s.hw.fld pwrBase Fld.PWR_VIN.mv)) 1000))

def execReadIin (s : State) : Host.Outcome State Fault Refusal :=
  .next (s.sidebandValue (linear 0x89 (Int.ofNat (s.hw.fld pwrBase Fld.PWR_VIN.ma)) 1000))

/-- READ_PIN is the 1 ms average. -/
def execReadPin (s : State) : Host.Outcome State Fault Refusal :=
  .next (s.sidebandValue (linear 0x97 (Int.ofNat (s.power.mean 1000)) 1000))

/-- The hottest valid die sensor (Table 13.6, zones 0 and 1). -/
def PowerSt.hottestDie (x : PowerSt) : Option Int :=
  (((List.range 32).filter (fun k => !x.invalid.contains k)).map x.temp).foldl (fun best t =>
    match best with
    | none => some t
    | some b => some (if b < t then t else b)) none

/-- A reading answered; one that no valid sensor gives is left open. DESIGN CHOICE: assumption 40. -/
def State.sidebandTemp (s : State) (code : Nat) (t : Option Int) : State :=
  s.sideband (fun s =>
    match t with
    | none => (s.onHw (fun h => { h with free := h.free + 1 })).answer (Resp.ok (BitVec.ofNat 64 (bitsOf (Config.freeWord s.hw.free) 15 0)))
    | some t => s.answer (Resp.ok (BitVec.ofNat 64 (linear code t 16))))

def execReadTemperature1 (s : State) : Host.Outcome State Fault Refusal := .next (s.sidebandTemp 0x8D s.power.hottestDie)

def execReadTemperature2 (s : State) : Host.Outcome State Fault Refusal :=
  .next (s.sidebandTemp 0x8E (s.power.coolantSensor.map s.power.temp))

/-- The 8 bytes of PWR_LAST. -/
def execMfrLastOff (s : State) : Host.Outcome State Fault Refusal :=
  .next (s.sidebandValue (s.hw.reg (pwrBase + Fld.PWR_LAST.cause.off)).toNat)

/-- Every other code goes to I2C 0 while its clock is enabled; otherwise it is not acknowledged. -/
def execPmbusRelay (code : Byte) (s : State) : Host.Outcome State Fault Refusal :=
  .next (s.sideband (fun s =>
    if s.hw.periOn (periI2c 0) then (s.i2cByte 0 true false true code).answer (Resp.ok 0) else s.answer Resp.bus))

end Sys2Proof.Machine
end

