-- ==== Sys2Proof/Machine/Release.lean ====
section
/-!
DEFINITION. What waits and is served later (R199, R206, R262): the accesses held while the core clocks stop, and those held for
an exchange or a retraining; the release of a clock (R261), the end of an exchange (R196, R200) and of a retraining (R206).
-/
namespace Sys2Proof.Machine

/-! ### Accesses that waited -/

/-- The outcome of a command that always goes on. -/
def nextOr (s : State) (o : Host.Outcome State Fault Refusal) : State :=
  match o with
  | .next t => t
  | _ => s

/-- An access that waited, served now. No other command ever waits. -/
def State.served (s : State) (i : Instr) : State :=
  nextOr s (match i with
    | .nonscheduledAccess r addr width op paging found => execNonscheduledAccess r addr width op paging found s
    | .atomicMemoryOperation h op addr double v paging found => execAtomicMemoryOperation h op addr double v paging found s
    | .debugBusAccess addr width write found => execDebugBusAccess addr width write found s
    | .memRead h addr len found => execMemRead h addr len found s
    | .memWrite h addr data => execMemWrite h addr data s
    | .registerWrite r addr wide v => execRegisterWrite r addr wide v s
    | .segmentConfigWrite sl v => execSegmentConfigWrite sl v s
    | .quotaWrite v => execQuotaWrite v s
    | .migCmd v => execMigCmd v s
    | .portTrainStart p => execPortTrainStart p s
    | .uqTailWrite p tail => execUqTailWrite p tail s
    | .urHeadWrite p head => execUrHeadWrite p head s
    | .alignArm => execAlignArm s
    | .tnsNowRead r part => execTnsNowRead r part s
    | .ingestFill => execIngestFill s
    | .peripheralEnable v => execPeripheralEnable v s
    | .stageCommit => execStageCommit s
    | .snapshotRequest => execSnapshotRequest s
    | .stopRequest => execStopRequest s
    | .stagedTableWrite entry index v => execStagedTableWrite entry index v s
    | .fwHoldWrite v => execFwHoldWrite v s
    | .wdtKick unit v => execWdtKick unit v s
    | .uartDataWrite unit v => execUartDataWrite unit v s
    | .uartDataRead unit => execUartDataRead unit s
    | .i2cStart unit => execI2cStart unit s
    | .i2cStop unit => execI2cStop unit s
    | .spiExchange unit => execSpiExchange unit s
    | .plicClaim ctx => execPlicClaim ctx s
    | .plicComplete ctx source => execPlicComplete ctx source s
    | .captureRequest => execCaptureRequest s
    | .captureRelease => execCaptureRelease s
    | .collectorClear => execCollectorClear s
    | .traceClear t => execTraceClear t s
    | .traceControlWrite t v => execTraceControlWrite t v s
    | .xofHash data => execXofHash data s
    | .xofVerify key digest sig => execXofVerify key digest sig s
    | .xofAttest nonce => execXofAttest nonce s
    | .sessionKey hostKey nonce => execSessionKey hostKey nonce s
    | .sessionHello hostKey session => execSessionHello hostKey session s
    | .tag key data => execTag key data s
    | .measure slot kind extra addr len => execMeasure slot kind extra addr len s
    | .clear slot => execClear slot s
    | .flashOpen firmware => execFlashOpen firmware s
    | .raiseSvn => execRaiseSvn s
    | .xofProvision digest => execXofProvision digest s
    | .random count => execRandom count s
    | _ => .next s)

/-- The core clocks run again: the control-space accesses that waited are served in the order in which they came (R262). -/
def State.serveStalled (s : State) : State :=
  if s.hw.clocked then s.stalled.foldl State.served { s with stalled := [] } else s

/-- What waited for an exchange or a retraining is served, in the order in which it came; what still has to wait waits on. -/
def State.serveWaiting (s : State) : State :=
  let waiting := s.hw.tier.waiting
  let s := (s.onHw (fun h => { h with tier := { h.tier with waiting := [] } })).resumeWriteBacks
  waiting.foldl State.served s

/-! ### The commands -/

/-- A stability counter of Table 7.2 completes. -/
def execClockRelease (c : ClockSource) (flashError : Option (Fin 3)) (untrained : List (Fin 20)) (s : State) :
    Host.Outcome State Fault Refusal :=
  .next (if s.sequencing then (s.releaseClock c flashError untrained).serveStalled else s)

/-- An exchange ends: its controllers serve what they held for its pages. -/
def execExchangeComplete (lane : Channel) (uncorrectable : Bool) (s : State) : Host.Outcome State Fault Refusal :=
  .next ((s.onHw (fun h => h.completeExchange lane.val uncorrectable)).serveAllHeld).serveWaiting

/-- A subchannel's retraining ends: its channel serves what it held. -/
def execRetrainEnd (c : Channel) (sub : BitVec 2) (restored : Bool) (s : State) : Host.Outcome State Fault Refusal :=
  .next ((s.onHw (fun h => h.endRetrain c sub.toNat restored)).serveAllHeld).serveWaiting

end Sys2Proof.Machine
end

