-- ==== Sys2Proof/Machine/Dispatch.lean ====
section
/-!
DEFINITION. Dispatch: one arm for each command, each a direct call of its meaning.
-/
namespace Sys2Proof.Machine

/-- A command's effect on everything but the queue. -/
def exec (i : Instr) (s : State) : Host.Outcome State Fault Refusal :=
  match i with
  | .slotBoundary => Sys2Proof.Machine.execSlotBoundary s
  | .nop t e c => Sys2Proof.Machine.execNop t e c s
  | .copy t c src dst => Sys2Proof.Machine.execCopy t c src dst s
  | .fill t c dst pattern => Sys2Proof.Machine.execFill t c dst pattern s
  | .acc t c src dst op slice bridge => Sys2Proof.Machine.execAcc t c src dst op slice bridge s
  | .rwrite t c src rank addr => Sys2Proof.Machine.execRwrite t c src rank addr s
  | .rread t c dst rank addr => Sys2Proof.Machine.execRread t c dst rank addr s
  | .racc t c src rank slot bseq => Sys2Proof.Machine.execRacc t c src rank slot bseq s
  | .mmul t c x w => Sys2Proof.Machine.execMmul t c x w s
  | .escapeTableFill t c x => Sys2Proof.Machine.execEscapeTableFill t c x s
  | .convert t c src dst => Sys2Proof.Machine.execConvert t c src dst s
  | .expand t c src dst => Sys2Proof.Machine.execExpand t c src dst s
  | .add t c x => Sys2Proof.Machine.execAdd t c x s
  | .sub t c x => Sys2Proof.Machine.execSub t c x s
  | .mul t c x => Sys2Proof.Machine.execMul t c x s
  | .fma t c x => Sys2Proof.Machine.execFma t c x s
  | .max t c x => Sys2Proof.Machine.execMax t c x s
  | .min t c x => Sys2Proof.Machine.execMin t c x s
  | .abs t c x => Sys2Proof.Machine.execAbs t c x s
  | .neg t c x => Sys2Proof.Machine.execNeg t c x s
  | .cmplt t c x => Sys2Proof.Machine.execCmplt t c x s
  | .cmpeq t c x => Sys2Proof.Machine.execCmpeq t c x s
  | .sel t c x => Sys2Proof.Machine.execSel t c x s
  | .cvt t c x => Sys2Proof.Machine.execCvt t c x s
  | .div t c x => Sys2Proof.Machine.execDiv t c x s
  | .sqrt t c x => Sys2Proof.Machine.execSqrt t c x s
  | .rsqrt t c x => Sys2Proof.Machine.execRsqrt t c x s
  | .recip t c x => Sys2Proof.Machine.execRecip t c x s
  | .exp2 t c x => Sys2Proof.Machine.execExp2 t c x s
  | .log2 t c x => Sys2Proof.Machine.execLog2 t c x s
  | .rsum t c x => Sys2Proof.Machine.execRsum t c x s
  | .rmax t c x => Sys2Proof.Machine.execRmax t c x s
  | .draw t c x => Sys2Proof.Machine.execDraw t c x s
  | .mask t c x => Sys2Proof.Machine.execMask t c x s
  | .rot t c x => Sys2Proof.Machine.execRot t c x s
  | .opn t c slot layer backward => Sys2Proof.Machine.execOpn t c slot layer backward s
  | .close t c slot write dst => Sys2Proof.Machine.execClose t c slot write dst s
  | .send t c first count bridge => Sys2Proof.Machine.execSend t c first count bridge s
  | .commandCompletion t e index => Sys2Proof.Machine.execCommandCompletion t e index s
  | .deadlineMiss t e index => Sys2Proof.Machine.execDeadlineMiss t e index s
  | .epochAnswer t eslot bridge => Sys2Proof.Machine.execEpochAnswer t eslot bridge s
  | .accessResponse t ch req found bridge => Sys2Proof.Machine.execAccessResponse t ch req found bridge s
  | .tieredRequest r addr write found bridge => Sys2Proof.Machine.execTieredRequest r addr write found bridge s
  | .requestLate r addr => Sys2Proof.Machine.execRequestLate r addr s
  | .bankTagFree addr => Sys2Proof.Machine.execBankTagFree addr s
  | .hbmRefresh bank => Sys2Proof.Machine.execHbmRefresh bank s
  | .lpddrRefresh bank => Sys2Proof.Machine.execLpddrRefresh bank s
  | .driftMeasurement c sub exceeds => Sys2Proof.Machine.execDriftMeasurement c sub exceeds s
  | .subchannelRetrain c sub => Sys2Proof.Machine.execSubchannelRetrain c sub s
  | .retrainEnd c sub restored => Sys2Proof.Machine.execRetrainEnd c sub restored s
  | .atomicMemoryOperation h op addr double v paging found => Sys2Proof.Machine.execAtomicMemoryOperation h op addr double v paging found s
  | .nonscheduledAccess r addr width op paging found => Sys2Proof.Machine.execNonscheduledAccess r addr width op paging found s
  | .writebackError line => Sys2Proof.Machine.execWritebackError line s
  | .segmentConfigWrite sl v => Sys2Proof.Machine.execSegmentConfigWrite sl v s
  | .quotaWrite v => Sys2Proof.Machine.execQuotaWrite v s
  | .migCmd v => Sys2Proof.Machine.execMigCmd v s
  | .exchangeStart entry => Sys2Proof.Machine.execExchangeStart entry s
  | .policyExchange q => Sys2Proof.Machine.execPolicyExchange q s
  | .exchangeComplete lane uncorrectable => Sys2Proof.Machine.execExchangeComplete lane uncorrectable s
  | .localAccDelivery k found bridge => Sys2Proof.Machine.execLocalAccDelivery k found bridge s
  | .stagingDeadline slot => Sys2Proof.Machine.execStagingDeadline slot s
  | .updateEntry entry ended => Sys2Proof.Machine.execUpdateEntry entry ended s
  | .updateEntryComplete d => Sys2Proof.Machine.execUpdateEntryComplete d s
  | .updateEntryDeadline d => Sys2Proof.Machine.execUpdateEntryDeadline d s
  | .uncleanCauseSignal k => Sys2Proof.Machine.execUncleanCauseSignal k s
  | .fullStopLaunch => Sys2Proof.Machine.execFullStopLaunch s
  | .fsDown p f => Sys2Proof.Machine.execFsDown p f s
  | .verdict => Sys2Proof.Machine.execVerdict s
  | .treeTimeout => Sys2Proof.Machine.execTreeTimeout s
  | .commit => Sys2Proof.Machine.execCommit s
  | .snapshotShareComplete => Sys2Proof.Machine.execSnapshotShareComplete s
  | .resultsCapture found => Sys2Proof.Machine.execResultsCapture found s
  | .successorSwitch => Sys2Proof.Machine.execSuccessorSwitch s
  | .jobStart => Sys2Proof.Machine.execJobStart s
  | .admissionComplete => Sys2Proof.Machine.execAdmissionComplete s
  | .restoreShare => Sys2Proof.Machine.execRestoreShare s
  | .flitSlotTransmit p => Sys2Proof.Machine.execFlitSlotTransmit p s
  | .corruptFlit p x => Sys2Proof.Machine.execCorruptFlit p x s
  | .idle p f => Sys2Proof.Machine.execIdle p f s
  | .write p f ended bridge => Sys2Proof.Machine.execWrite p f ended bridge s
  | .readReq p f found ended bridge => Sys2Proof.Machine.execReadReq p f found ended bridge s
  | .readRsp p f bridge => Sys2Proof.Machine.execReadRsp p f bridge s
  | .accFlit p f found bridge => Sys2Proof.Machine.execAccFlit p f found bridge s
  | .done p f => Sys2Proof.Machine.execDone p f s
  | .barDown p f => Sys2Proof.Machine.execBarDown p f s
  | .faultDeliver p f => Sys2Proof.Machine.execFaultDeliver p f s
  | .resetMessage p f => Sys2Proof.Machine.execResetMessage p f s
  | .globalReset flashError => Sys2Proof.Machine.execGlobalReset flashError s
  | .trainVer p f => Sys2Proof.Machine.execTrainVer p f s
  | .alignPing p f received => Sys2Proof.Machine.execAlignPing p f received s
  | .alignEcho p f received => Sys2Proof.Machine.execAlignEcho p f received s
  | .retryReq p f => Sys2Proof.Machine.execRetryReq p f s
  | .mgmt p f => Sys2Proof.Machine.execMgmt p f s
  | .retryTimeout p => Sys2Proof.Machine.execRetryTimeout p s
  | .tallyClose p => Sys2Proof.Machine.execTallyClose p s
  | .linkLost p why => Sys2Proof.Machine.execLinkLost p why s
  | .portTrainStart p => Sys2Proof.Machine.execPortTrainStart p s
  | .trainingStageEnd p r => Sys2Proof.Machine.execTrainingStageEnd p r s
  | .uqTailWrite p tail => Sys2Proof.Machine.execUqTailWrite p tail s
  | .urHeadWrite p head => Sys2Proof.Machine.execUrHeadWrite p head s
  | .intervalMarker p offset corrected => Sys2Proof.Machine.execIntervalMarker p offset corrected s
  | .alignArm => Sys2Proof.Machine.execAlignArm s
  | .syncPulse => Sys2Proof.Machine.execSyncPulse s
  | .fineCorrection => Sys2Proof.Machine.execFineCorrection s
  | .alignComplete p f => Sys2Proof.Machine.execAlignComplete p f s
  | .alignTimeout => Sys2Proof.Machine.execAlignTimeout s
  | .refWindow count => Sys2Proof.Machine.execRefWindow count s
  | .pllSlip => Sys2Proof.Machine.execPllSlip s
  | .tenseDivergence => Sys2Proof.Machine.execTenseDivergence s
  | .laneFifoFault iface => Sys2Proof.Machine.execLaneFifoFault iface s
  | .clockRelease c flashError untrained => Sys2Proof.Machine.execClockRelease c flashError untrained s
  | .peripheralEnable v => Sys2Proof.Machine.execPeripheralEnable v s
  | .tnsNowRead r part => Sys2Proof.Machine.execTnsNowRead r part s
  | .ingestFill => Sys2Proof.Machine.execIngestFill s
  | .stageCommit => Sys2Proof.Machine.execStageCommit s
  | .snapshotRequest => Sys2Proof.Machine.execSnapshotRequest s
  | .stopRequest => Sys2Proof.Machine.execStopRequest s
  | .stagedTableWrite entry index v => Sys2Proof.Machine.execStagedTableWrite entry index v s
  | .fwHoldWrite v => Sys2Proof.Machine.execFwHoldWrite v s
  | .registerWrite r addr wide v => Sys2Proof.Machine.execRegisterWrite r addr wide v s
  | .hello vmin vmax limit hostKey => Sys2Proof.Machine.execHello vmin vmax limit hostKey s
  | .auth h cert sig => Sys2Proof.Machine.execAuth h cert sig s
  | .bye h => Sys2Proof.Machine.execBye h s
  | .sessionTimeout session => Sys2Proof.Machine.execSessionTimeout session s
  | .status h => Sys2Proof.Machine.execStatus h s
  | .results h step => Sys2Proof.Machine.execResults h step s
  | .regRead h addrs => Sys2Proof.Machine.execRegRead h addrs s
  | .regWrite h writes => Sys2Proof.Machine.execRegWrite h writes s
  | .memRead h addr len found => Sys2Proof.Machine.execMemRead h addr len found s
  | .memWrite h addr data => Sys2Proof.Machine.execMemWrite h addr data s
  | .imagePut h off data => Sys2Proof.Machine.execImagePut h off data s
  | .admitJob h => Sys2Proof.Machine.execAdmitJob h s
  | .start h t0 restore resAddr resCount => Sys2Proof.Machine.execStart h t0 restore resAddr resCount s
  | .stop h => Sys2Proof.Machine.execStop h s
  | .snapshot h dest request => Sys2Proof.Machine.execSnapshot h dest request s
  | .release h => Sys2Proof.Machine.execRelease h s
  | .successor h => Sys2Proof.Machine.execSuccessor h s
  | .quota h job v => Sys2Proof.Machine.execQuota h job v s
  | .attest h nonce => Sys2Proof.Machine.execAttest h nonce s
  | .certs h => Sys2Proof.Machine.execCerts h s
  | .dumpQuery h => Sys2Proof.Machine.execDumpQuery h s
  | .dumpTake h => Sys2Proof.Machine.execDumpTake h s
  | .dumpRead h slot off count => Sys2Proof.Machine.execDumpRead h slot off count s
  | .dumpRelease h slot => Sys2Proof.Machine.execDumpRelease h slot s
  | .dumpBuildComplete slot => Sys2Proof.Machine.execDumpBuildComplete slot s
  | .flashPut h firmware off data => Sys2Proof.Machine.execFlashPut h firmware off data s
  | .flashCommit h => Sys2Proof.Machine.execFlashCommit h s
  | .mmpReset h recovery => Sys2Proof.Machine.execMmpReset h recovery s
  | .provision h key => Sys2Proof.Machine.execProvision h key s
  | .proxy h rank inner => Sys2Proof.Machine.execProxy h rank inner s
  | .unacceptedDatagram => Sys2Proof.Machine.execUnacceptedDatagram s
  | .icmpv6Message port echo body => Sys2Proof.Machine.execIcmpv6Message port echo body s
  | .xofHash data => Sys2Proof.Machine.execXofHash data s
  | .xofVerify key digest sig => Sys2Proof.Machine.execXofVerify key digest sig s
  | .xofAttest nonce => Sys2Proof.Machine.execXofAttest nonce s
  | .sessionKey hostKey nonce => Sys2Proof.Machine.execSessionKey hostKey nonce s
  | .sessionHello hostKey session => Sys2Proof.Machine.execSessionHello hostKey session s
  | .tag key data => Sys2Proof.Machine.execTag key data s
  | .measure slot kind extra addr len => Sys2Proof.Machine.execMeasure slot kind extra addr len s
  | .clear slot => Sys2Proof.Machine.execClear slot s
  | .flashOpen firmware => Sys2Proof.Machine.execFlashOpen firmware s
  | .raiseSvn => Sys2Proof.Machine.execRaiseSvn s
  | .xofProvision digest => Sys2Proof.Machine.execXofProvision digest s
  | .random count => Sys2Proof.Machine.execRandom count s
  | .xofCommandDone => Sys2Proof.Machine.execXofCommandDone s
  | .wdtKick unit v => Sys2Proof.Machine.execWdtKick unit v s
  | .watchdogExpiry unit => Sys2Proof.Machine.execWatchdogExpiry unit s
  | .timerExpiry unit => Sys2Proof.Machine.execTimerExpiry unit s
  | .mtimeCompare h => Sys2Proof.Machine.execMtimeCompare h s
  | .uartDataWrite unit v => Sys2Proof.Machine.execUartDataWrite unit v s
  | .uartDataRead unit => Sys2Proof.Machine.execUartDataRead unit s
  | .uartReceive unit v parity stopHigh lineLow => Sys2Proof.Machine.execUartReceive unit v parity stopHigh lineLow s
  | .uartTransmit unit => Sys2Proof.Machine.execUartTransmit unit s
  | .i2cStart unit => Sys2Proof.Machine.execI2cStart unit s
  | .i2cStop unit => Sys2Proof.Machine.execI2cStop unit s
  | .i2cByte unit ack arbLost pecRight received => Sys2Proof.Machine.execI2cByte unit ack arbLost pecRight received s
  | .spiExchange unit => Sys2Proof.Machine.execSpiExchange unit s
  | .spiDone unit received => Sys2Proof.Machine.execSpiDone unit received s
  | .gpioEdge line level => Sys2Proof.Machine.execGpioEdge line level s
  | .plicClaim ctx => Sys2Proof.Machine.execPlicClaim ctx s
  | .plicComplete ctx source => Sys2Proof.Machine.execPlicComplete ctx source s
  | .captureRequest => Sys2Proof.Machine.execCaptureRequest s
  | .captureRelease => Sys2Proof.Machine.execCaptureRelease s
  | .collectorClear => Sys2Proof.Machine.execCollectorClear s
  | .traceClear t => Sys2Proof.Machine.execTraceClear t s
  | .traceControlWrite t v => Sys2Proof.Machine.execTraceControlWrite t v s
  | .debugBusAccess addr width write found => Sys2Proof.Machine.execDebugBusAccess addr width write found s
  | .firmwareEntry untrained => Sys2Proof.Machine.execFirmwareEntry untrained s
  | .powerSample x => Sys2Proof.Machine.execPowerSample x s
  | .railGroupOff => Sys2Proof.Machine.execRailGroupOff s
  | .temperatureSample readings => Sys2Proof.Machine.execTemperatureSample readings s
  | .pwrEnChange high => Sys2Proof.Machine.execPwrEnChange high s
  | .powerUp => Sys2Proof.Machine.execPowerUp s
  | .powerUpStage => Sys2Proof.Machine.execPowerUpStage s
  | .automaticRestart => Sys2Proof.Machine.execAutomaticRestart s
  | .resetN high => Sys2Proof.Machine.execResetN high s
  | .clearFaults => Sys2Proof.Machine.execClearFaults s
  | .statusWord => Sys2Proof.Machine.execStatusWord s
  | .statusVout => Sys2Proof.Machine.execStatusVout s
  | .statusInput => Sys2Proof.Machine.execStatusInput s
  | .statusTemperature => Sys2Proof.Machine.execStatusTemperature s
  | .readVin => Sys2Proof.Machine.execReadVin s
  | .readIin => Sys2Proof.Machine.execReadIin s
  | .readPin => Sys2Proof.Machine.execReadPin s
  | .readTemperature1 => Sys2Proof.Machine.execReadTemperature1 s
  | .readTemperature2 => Sys2Proof.Machine.execReadTemperature2 s
  | .mfrLastOff => Sys2Proof.Machine.execMfrLastOff s
  | .pmbusRelay code => Sys2Proof.Machine.execPmbusRelay code s
  | .debugModuleAccess op => Sys2Proof.Machine.execDebugModuleAccess op s
  | .managementLinkTraining unit up => Sys2Proof.Machine.execManagementLinkTraining unit up s
  | .releaseComplete => Sys2Proof.Machine.execReleaseComplete s
  | .flashCommitComplete => Sys2Proof.Machine.execFlashCommitComplete s
  | .alwaysOnSupplyLoss => Sys2Proof.Machine.execAlwaysOnSupplyLoss s

end Sys2Proof.Machine
end

