-- ==== Sys2Proof/Machine/Tick.lean ====
section
/-!
DEFINITION. One tick of the array clock, which an empty queue lets pass (assumption 1).
-/
namespace Sys2Proof.Machine

/-- A count one lower, or at zero. DESIGN CHOICE: assumption 77. -/
def lessOne (w : Word) : Word := if w = 0 then 0 else w - 1

/-- The counts of the first `n` units, those that run each one lower. -/
def countDown (runs : Nat → Bool) (m : SMap Word) : Nat → SMap Word
  | 0 => m
  | n + 1 => let t := countDown runs m n; if runs n then t.set 0 n (lessOne (m.get 0 n)) else t

/-- A tick of a tile: its arrays (R115 to R118), the busy ticks of the Vector Engine and the convert section (Table 4.19), and
the transfers of a SEND that arrive (R480). -/
def Hw.tileTick (h : Hw) (t : Nat) : Hw :=
  let h := (List.range 8).foldl (fun h u => h.arrayTick t u) h
  let h := h.count (tileBase t) Fld.VE_BUSY_TICKS.ticks (flagNat (!((h.tile t).runs 12).isEmpty))
  let h := h.count (tileBase t) Fld.CU_BUSY_TICKS.ticks (flagNat (!((h.tile t).runs 13).isEmpty))
  h.sendArrivals t

/-- The tiles that hold anything. -/
def Hw.tilesTick (h : Hw) : Hw := (h.tiles.map (fun e => e.1)).foldl Hw.tileTick h

/-- The busy ticks of the Update Engines that run an entry (Table 9.13). -/
def Hw.enginesTick (h : Hw) : Hw :=
  (List.range 12).foldl (fun h d => h.count (stackBase d) Fld.UPE_BUSY_TICKS.ticks (flagNat (h.upe d).running.isSome)) h

/-- A capture by register is made in the tick after the write (Table 12.7, row 5). -/
def Hw.captureTick (h : Hw) : Hw := if h.dbg.asked then { h with dbg := { h.dbg with asked := false } }.capture 5 else h

/-- Both copies of Tense count the edge (R264), mtime counts it (R389), and the timers and watchdogs that run count it down
(R396, R397). DESIGN CHOICE: assumption 1. -/
def State.tick (s : State) : State :=
  if s.hw.clocked then
    let h := s.hw.tilesTick.enginesTick
    let s : State := { s with
      hw := { h with tense0 := h.tense0 + 1, tense1 := h.tense1 + 1 }.captureTick
      fliuf := { s.fliuf with
        mtime := s.fliuf.mtime + 1
        tmrLeft := countDown s.timerRuns s.fliuf.tmrLeft 4
        wdtLeft := countDown s.watchdogRuns s.fliuf.wdtLeft 4 } }
    s.serveAllHeld
  else s

end Sys2Proof.Machine
end

