-- ==== Sys2Proof/Safety.lean ====
section
/-!
DEFINITION. What counts as a sound state of the module, and the words the statements use: what a command of the hardware
alone leaves, which registers lie outside a window, the launch of a tile's command (Tables 4.2 and 4.3) and the operation of
a Vector Engine command (Table 4.8).
-/
namespace Sys2Proof

/-- R414: at most eight sessions are open, each under a number of its own. -/
def Sound (s : Machine.State) : Prop :=
  s.mgmt.sessions.length ≤ Config.maxSessions ∧ Machine.SMap.rising 0 s.mgmt.sessions = true

open Machine in
/-- The launch of a row of Table 4.3: tile, engine, opcode, arguments and header; none for a row that is no command of a
tile's stream. -/
def Instr.launch : Instr → Option Machine.Launch
  | Instr.nop t e c => some ⟨t, e, 0, 0, c⟩
  | Instr.copy t c src dst => some ⟨t, .access, 1, argsSrcDst src dst, c⟩
  | Instr.fill t c dst fillWord => some ⟨t, .access, 2, dst.toNat * 2 ^ 10 + fillWord.toNat * 2 ^ 64, c⟩
  | Instr.acc t c src dst op _ _ => some ⟨t, .access, 3, argsSrcDst src dst + op.toNat * 2 ^ 20, c⟩
  | Instr.rwrite t c src rank addr =>
    some ⟨t, .access, 4, src.toNat + rank.toNat * 2 ^ 10 + addr.toNat * 2 ^ 24, c⟩
  | Instr.rread t c dst rank addr =>
    some ⟨t, .access, 5, dst.toNat + rank.toNat * 2 ^ 10 + addr.toNat * 2 ^ 24, c⟩
  | Instr.racc t c src rank slot bseq =>
    some ⟨t, .access, 6, src.toNat + rank.toNat * 2 ^ 10 + slot.toNat * 2 ^ 24 + bseq.toNat * 2 ^ 40, c⟩
  | Instr.mmul t c x _ => some ⟨t, .execute, 1, argsMmul x, c⟩
  | Instr.convert t c src dst => some ⟨t, .conversion, 1, argsSrcDst src dst, c⟩
  | Instr.expand t c src dst => some ⟨t, .conversion, 2, argsSrcDst src dst, c⟩
  | Instr.add t c x => some ⟨t, .vector, 0x01, argsArith x, c⟩
  | Instr.sub t c x => some ⟨t, .vector, 0x02, argsArith x, c⟩
  | Instr.mul t c x => some ⟨t, .vector, 0x03, argsArith x, c⟩
  | Instr.fma t c x => some ⟨t, .vector, 0x04, argsArith x, c⟩
  | Instr.max t c x => some ⟨t, .vector, 0x05, argsArith x, c⟩
  | Instr.min t c x => some ⟨t, .vector, 0x06, argsArith x, c⟩
  | Instr.abs t c x => some ⟨t, .vector, 0x07, argsArith x, c⟩
  | Instr.neg t c x => some ⟨t, .vector, 0x08, argsArith x, c⟩
  | Instr.cmplt t c x => some ⟨t, .vector, 0x09, argsArith x, c⟩
  | Instr.cmpeq t c x => some ⟨t, .vector, 0x0A, argsArith x, c⟩
  | Instr.sel t c x => some ⟨t, .vector, 0x0B, argsArith x, c⟩
  | Instr.cvt t c x => some ⟨t, .vector, 0x0C, argsArith x, c⟩
  | Instr.div t c x => some ⟨t, .vector, 0x10, argsArith x, c⟩
  | Instr.sqrt t c x => some ⟨t, .vector, 0x11, argsArith x, c⟩
  | Instr.rsqrt t c x => some ⟨t, .vector, 0x12, argsArith x, c⟩
  | Instr.recip t c x => some ⟨t, .vector, 0x13, argsArith x, c⟩
  | Instr.exp2 t c x => some ⟨t, .vector, 0x14, argsArith x, c⟩
  | Instr.log2 t c x => some ⟨t, .vector, 0x15, argsArith x, c⟩
  | Instr.rsum t c x => some ⟨t, .vector, 0x20, argsArith x, c⟩
  | Instr.rmax t c x => some ⟨t, .vector, 0x21, argsArith x, c⟩
  | Instr.draw t c x => some ⟨t, .vector, 0x30, argsGen x, c⟩
  | Instr.mask t c x => some ⟨t, .vector, 0x31, argsGen x, c⟩
  | Instr.rot t c x => some ⟨t, .vector, 0x38, argsGen x, c⟩
  | Instr.opn t c slot layer backward =>
    some ⟨t, .statistics, 1, slot.toNat + layer.toNat * 2 ^ 4 + flagNat backward * 2 ^ 14, c⟩
  | Instr.close t c slot wr dst => some ⟨t, .statistics, 2, slot.toNat + flagNat wr * 2 ^ 4 + dst.toNat * 2 ^ 5, c⟩
  | Instr.send t c first count _ => some ⟨t, .statistics, 3, first.toNat + count.toNat * 2 ^ 10, c⟩
  | _ => none

namespace Machine

/-- Only the hardware changed: the queue, Fliuf, management, Xofisel, the power controller and the last answer stand. -/
def HwOnly (s u : State) : Prop := u = { s with hw := u.hw }

/-- Every register outside a window of `n` bytes holds what it held. -/
def SameRegsOutside (base n : Nat) (h h' : Hw) : Prop := ∀ a, (a < base ∨ base + n ≤ a) → h'.reg a = h.reg a

/-- Every byte of memory reads as before. -/
def SameMemory (h h' : Hw) : Prop := ∀ a, h'.byte a = h.byte a

/-- Every tile but `t` stands as before. -/
def SameOtherTiles (t : Nat) (h h' : Hw) : Prop := ∀ v, v ≠ t → h'.tile v = h.tile v

/-- What a command of a tile leaves as it was: every register outside the tile's window, every other tile, the rings and
traces of every other unit, dumps and the collector's table, Tense, slices, tiers, ports, engines, clocks, and all of
inflection control and the job but the signals on their way and a hazard's request for a dump. Memory is left aside. -/
def OnlyTile (t : Nat) (h h' : Hw) : Prop :=
  SameRegsOutside (tileBase t) 0x10000 h h' ∧ SameOtherTiles t h h'
  ∧ (∀ n, (n < 5 * t ∨ 5 * t + 5 ≤ n) → h'.ring n = h.ring n) ∧ (∀ v, v ≠ t → h'.trace v = h.trace v)
  ∧ (h'.dbg.dump0, h'.dbg.dump1, h'.dbg.collector) = (h.dbg.dump0, h.dbg.dump1, h.dbg.collector)
  ∧ (h'.tense0, h'.tense1, h'.slices, h'.tier, h'.ports) = (h.tense0, h.tense1, h.slices, h.tier, h.ports)
  ∧ (h'.localAcc, h'.upes, h'.clk) = (h.localAcc, h.upes, h.clk)
  ∧ { h'.infl with signals := [] } = { h.infl with signals := [] }
  ∧ h'.job.map (fun j => { j with hazardDump := true }) = h.job.map (fun j => { j with hazardDump := true })

/-- A row of Table 4.8: the command, how many sources it has, and what it computes of one element of each. -/
abbrev VectorRow := Instr × Nat × (Val → Val → Val → Val)

/-- The element-by-element operations of the Vector Engine (R164, R165), in the operation format and rounding of the
command. -/
def vectorRows (t : Tile) (c : Cmd) (x : ArithArgs) : List VectorRow :=
  let f := opFmt x.opfmt
  let r := x.rtz
  [(.add t c x, 2, fun a b _ => (fpAdd f r a b).1),
   (.sub t c x, 2, fun a b _ => (fpAdd f r a b.neg).1),
   (.mul t c x, 2, fun a b _ => (fpMul f r a b).1),
   (.fma t c x, 3, fun a b e => (fpFma f r a b e).1),
   (.max t c x, 2, fun a b _ => fpMax a b),
   (.min t c x, 2, fun a b _ => fpMin a b),
   (.abs t c x, 1, fun a _ _ => a.abs),
   (.neg t c x, 1, fun a _ _ => a.neg),
   (.cmplt t c x, 2, fun a b _ => if valLt a b then .one else .zero),
   (.cmpeq t c x, 2, fun a b _ => if valEq a b then .one else .zero),
   (.sel t c x, 3, fun a b e => if e.isNan || !e.isZero then a else b),
   (.cvt t c x, 1, fun a _ _ => a),
   (.div t c x, 2, fun a b _ => (fpDiv f r a b).1),
   (.sqrt t c x, 1, fun a _ _ => (fpSqrt f r a).1),
   (.rsqrt t c x, 1, fun a _ _ => (fpRsqrt f r a).1),
   (.recip t c x, 1, fun a _ _ => (fpDiv f r .one a).1),
   (.exp2 t c x, 1, fun a _ _ => (fpExp2 f r a).1),
   (.log2 t c x, 1, fun a _ _ => (fpLog2 f r a).1)]

/-- The values an element-by-element operation gives for a view of `n` elements: a scalar source supplies its first element
to each, and sources are converted to the operation format first (R162, R164). -/
def vectorValues (h : Hw) (t : Tile) (x : ArithArgs) (n arity : Nat) (f : Val → Val → Val → Val) : List Val :=
  let va := h.vecSource (h.desc t x.a) x.opfmt x.rtz false n
  let vb := if 2 ≤ arity then h.vecSource (h.desc t x.b) x.opfmt x.rtz x.bScalar n else []
  let vc := if 3 ≤ arity then h.vecSource (h.desc t x.c) x.opfmt x.rtz x.cScalar n else []
  (List.range n).map (fun i => f (valAt va i) (valAt vb i) (valAt vc i))

/-- RSUM and RMAX: each row of source a reduced in the order of R166. -/
def reduceValues (h : Hw) (t : Tile) (x : ArithArgs) (f : Val → Val → Val) (start : Val) : List Val :=
  let d := h.desc t x.a
  let va := h.vecSource d x.opfmt x.rtz false d.count
  (List.range d.rows.toNat).map (fun i =>
    reduceRow f start (opLanes x.opfmt) ((va.drop (i * d.cols.toNat)).take d.cols.toNat))

/-- DRAW: r[31:8] × 2^−24 at each place of the destination view (R167, Table 4.8). -/
def drawValues (h : Hw) (t : Tile) (x : GenArgs) : List Val :=
  let d := h.desc t x.dst
  d.places.map (fun p => .fin false (h.draw x d p.1 p.2 / 2 ^ 8 % 2 ^ 24) (-24))

/-- MASK: the element of a where the draw is at least thr × 2^8, else +0. -/
def maskValues (h : Hw) (t : Tile) (x : GenArgs) : List Val :=
  let d := h.desc t x.dst
  let a := h.desc t x.a
  let va := h.vecSource a x.opfmt x.rtz false d.count
  let keep := a.places.map (fun q => decide (x.thr.toNat * 2 ^ 8 ≤ h.draw x a q.1 q.2 % 2 ^ 32))
  (List.range d.count).map (fun i => if (keep[i]?).getD false then valAt va i else .zero)

/-- ROT: each segment of 256 elements rotated, or turned back (R88, R89). -/
def rotValues (h : Hw) (t : Tile) (x : GenArgs) : List Val :=
  let d := h.desc t x.dst
  let a := h.desc t x.a
  let va := h.vecSource a x.opfmt x.rtz false d.count
  let signs := a.places.map (fun q => decide (h.draw x a q.1 q.2 % 2 = 1))
  (List.range (d.count / 256)).flatMap (fun k =>
    let v := (va.drop (256 * k)).take 256
    let sg := fun i => (signs[256 * k + i]?).getD false
    if x.inverse then unrotateSeg sg v else rotateSeg sg v)

/-- The module as a command of tile `t` finds it: an uncorrectable word of the tile reads as zero (R133).
DESIGN CHOICE: assumption 13. -/
def asFound (h : Hw) (t : Tile) (c : Cmd) : Hw := h.readFound t c.found

/-- The command of a launch has started and runs as `r`, behind what ran in its queue (R140, R141). -/
def Started (h h' : Hw) (l : Launch) (r : Running) : Prop :=
  (h'.tile l.t).runs l.queue = (h.tile l.t).runs l.queue ++ [r] ∧ r.cmd = l.c ∧ r.opcode = l.opcode

/-- What a token channel holds once a command has started and completed: one fewer if it waited on it, one more, 15 at the
most, if it posts to it (R141). -/
def tokensAfter (h : Hw) (t : Tile) (c : Cmd) (ch : Nat) : Nat :=
  let n := h.fld (tileBase t) (tokenFld ch)
  let n := if c.wait = true ∧ ch = c.waitCh.toNat then n - 1 else n
  if c.post = true ∧ ch = c.postCh.toNat then satNat 15 (n + 1) else n

/-! ### The Execute Engine -/

/-- The escape table that an array's operand uses for the command with this tag: the bank filled ahead of it for that tag, or
a fill made now (R155). -/
def tableFor (h : Hw) (t : Tile) (c : Cmd) (op : Nat) (d : Desc) : EscTable :=
  if d.listed then
    let x := h.tile t
    let e := x.escTab.get EscTable.empty (escKey c.unit.toNat op (x.nextBank c.unit.toNat))
    if e.tag = some c.tag then e else (asFound h t c).escFill d c.tag h.stepNo
  else EscTable.empty

/-- The accumulators of an MMUL, row by row: initial values under R107, and the additions of R101 to R106 over the operands
that the edge sections supply (R154, R156). -/
def mmulSums (h : Hw) (t : Tile) (c : Cmd) (x : MmulArgs) : List Val :=
  let hr := asFound h t c
  let da := hr.desc t x.a
  let dw := hr.desc t x.w
  let m := x.m.toNat
  let n := x.n.toNat
  let k := x.k.toNat
  let a := hr.edgeOperand da (tableFor h t c 0 da) m k
  let b := if x.transposed then hr.edgeOperand dw (tableFor h t c 1 dw) k n
    else hr.edgeOperand dw (tableFor h t c 1 dw) n k
  let inits := hr.initials t c x da.f dw.f
  (List.range (m * n)).map (fun i =>
    ((⟨da.f, dw.f, k, x.rtz, x.transposed, a, b⟩ : MmulJob).result (i / n) (i % n) ((inits[i]?).getD .zero)).v)

/-- The ticks that an MMUL occupies its array (R125). -/
def mmulTicks (h : Hw) (t : Tile) (c : Cmd) (x : MmulArgs) : Nat :=
  occupancy ((asFound h t c).desc t x.a).f x.m.toNat x.n.toNat x.k.toNat x.wA.toNat x.wW.toNat

/-! ### The Access Engine -/

/-- Where the requests of a running command go: source, destination and length of each, in order. -/
def Running.plan (r : Running) : List (Nat × Addr × Addr × Nat) :=
  r.reqs.map (fun e => (e.1, e.2.src, e.2.dst, e.2.len))

/-- The same of a list of requests numbered from 0. -/
def reqPlan (rs : List Req) : List (Nat × Addr × Addr × Nat) :=
  (numbered rs).map (fun e => (e.1, e.2.src, e.2.dst, e.2.len))

/-- A FILL writes the byte at an address itself: it lies in a run of the view outside the tiered range, where the engine
reaches memory (R36 to R38, R148). -/
def Desc.localByte (d : Desc) (h : Hw) (a : Nat) : Prop :=
  (∃ r ∈ d.runs, spaceOf r.1 ≠ .tiered ∧ r.1 ≤ a ∧ a < r.1 + r.2) ∧ h.reaches a = true

/-- The memory after an ACC: the destination word at each address combined with the source word that came for it (Table 5.2);
`zero` names the aligned 8 bytes of the destination that read as zero (R189). -/
def accumulated (h : Hw) (op : Nat) (zero : Option Nat) (words : List (List Byte × Nat)) : Hw :=
  let w := accWidth op
  words.foldl (fun g p => g.engineStore p.2
    (leBytes w (accOp op (if zero = some (p.2 / 8) then 0 else leNat (g.engineRead p.2 w)) (leNat p.1)).1)) h

/-- The words of an ACC: each source word as it is read, with the address it is accumulated to, in view order; `lost`: the die
bridge has discarded those of the destination's first line (R33). -/
def accSources (h : Hw) (op : Nat) (s d : Desc) (lost : Bool) : List (List Byte × Nat) :=
  let w := accWidth op
  (((accWords w s).zip (accWords w d)).filter (fun p => !(lost && decide (p.2 / 128 = d.base.toNat / 128)))).map
    (fun p => (h.engineRead p.1 w, p.2))

/-- Flits placed on the slots of a channel from its next slot on (R233): each slot's port holds its flit. -/
def FlitsPlaced (h h' : Hw) (t ch : Nat) (fs : List Flit) : Prop :=
  ∀ (j : Job) (i : Nat) (f : Flit), h.job = some j → fs[i]? = some f →
    ∀ slot p, (h.channelSlots t ch)[j.produced.get 0 (t * 4 + ch) + i]? = some (slot, p) →
      ∃ x ∈ (h'.port p).c1, x.slot = slot ∧ x.flit = f

/-- A transfer that the die bridge has discarded: its flag and count, and its unclean cause, on their way (R33). -/
def Discarded (h h' : Hw) : Prop :=
  h'.tier = { h.tier with bridgeUncFlag := true, bridgeUnc := h.tier.bridgeUnc + 1 } ∧ h'.mem = h.mem ∧
    (h.job.isSome = true → h'.infl.signals =
      h.infl.signals ++ [⟨false, 7, h.tense0, some (BitVec.ofNat 14 h.rank, 4)⟩])

/-! ### The tiers -/

/-- A request to the tiered range takes a tag and is served at once: its requester and its controller have room (R209, R210), and
the unit is in service, its bank out of refresh, its subchannel out of retraining, the page in no exchange for a requester
outside the schedule (R199, R202, R204, R206). -/
def ServedNow (h : Hw) (r : Requester) (a : Nat) : Prop :=
  spaceOf a = .tiered ∧ h.ctlState (h.controllerOf a) ≠ 3 ∧ h.blocked r a = false ∧ h.servable r a = true

/-! ### Staging and updates -/

/-- The flit is a contribution that the slot's checks 1 to 4 accept (Table 9.6). -/
def Accepted (h : Hw) (j : Job) (e : SlotEntry) (f : Flit) : Prop :=
  f.job.toNat = j.img.job ∧ (h.domainVer < 0x20 ∨ f.gen.toNat = h.fld inflBase Fld.INFL_COMMIT_STATE.layout_gen) ∧
    formOk e f (contribution f) = true ∧ j.steps = true ∧ h.past e.deadline = false

/-- R359: the first entry of an engine past its deadline, not complete, whose miss has not been raised. -/
def missedEntry (h : Hw) (j : Job) (d : Nat) : Option Nat :=
  let u := h.upe d
  findBelow j.img.staging.updates.length (fun k =>
    match j.img.staging.updates[k]? with
    | none => false
    | some e => decide (e.engine = d) && (!u.ran.contains k || decide (u.running = some k))
        && h.past e.deadline && !u.missed.contains k)

/-! ### Ports -/

/-- R236, R238, R241, R253: a received flit that its port delivers: the link is up, its type is one of its class at the link's
version, a class 1 flit is for this rank and an admitted job, a class 2 flit has the number expected next. -/
def Deliverable (h : Hw) (p : Nat) (f : Flit) : Prop :=
  h.linkUp p = true ∧ typeOk f (h.fld (portBase p) Fld.PORT_VER.link) = true ∧ (f.cls = 1 → h.forUs f = true) ∧
    (f.cls = 2 → f.lseq = (h.port p).lastRx + 1)

/-- The rows of the table that are the receipt of a flit. -/
def messageRows (p : Port) (f : Flit) (found bridge : Ecc) (ended : List (Addr × Bool)) (t1 : Word) : List Instr :=
  [.idle p f, .write p f ended bridge, .readReq p f found ended bridge, .readRsp p f bridge, .accFlit p f found bridge, .done p f,
   .barDown p f, .fsDown p f, .faultDeliver p f, .resetMessage p f, .trainVer p f, .alignPing p f t1, .alignEcho p f t1,
   .alignComplete p f, .retryReq p f, .mgmt p f]

/-- R255: the port's link is lost: state 5, its event, nothing of class 2 or 3 left to send, and a running job halted with
"link fault". -/
def LinkDown (h h' : Hw) (p : Nat) : Prop :=
  h'.portState p = 5 ∧ h'.fld (portBase p) Fld.PORT_FLAGS.link_down = 1 ∧
    h'.fld (portBase p) Fld.PORT_CNT_D.link_down = (h.fld (portBase p) Fld.PORT_CNT_D.link_down + 1) % 2 ^ 32 ∧
    h'.fld (portBase p) Fld.PORT_VER.link = 0 ∧ h'.fld (portBase p) Fld.PORT_LINK.credits = 0 ∧
    (h'.port p).c2 = [] ∧ (h'.port p).c3 = [] ∧ (h'.port p).replay = [] ∧
    ∀ j, h.job = some j → j.result ≠ some .halt →
      h'.fld inflBase Fld.INFL_LOCAL.halt = Nat.max 11 (h.fld inflBase Fld.INFL_LOCAL.halt) ∧
        h'.fld inflBase Fld.INFL_RUN_STATE.phase = 5

/-- R236: every flit of `again` is to be sent once more, which is flagged; one that has been sent eight times loses the link. -/
def Resent (h h' : Hw) (p : Nat) (again : List Unacked) : Prop :=
  ((∀ x ∈ again, x.sends < 8) → h'.mem = h.mem ∧ (h'.port p).resending = again.map (fun x => x.flit) ∧
    h'.fld (portBase p) Fld.PORT_FLAGS.retry = 1) ∧
  ((∃ x ∈ again, 8 ≤ x.sends) → LinkDown h h' p)

/-! ### Halts -/

/-- R47, R326: an admitted job that has not ended is halted with at least this cause; with none the job is as it was. -/
def Halted (h h' : Hw) (cause : Nat) : Prop :=
  (∀ j, h.job = some j → j.result ≠ some .halt → h'.job.map (fun k => k.halted) = some true ∧
    h'.fld inflBase Fld.INFL_LOCAL.halt = Nat.max cause (h.fld inflBase Fld.INFL_LOCAL.halt) ∧
    h'.fld inflBase Fld.INFL_RUN_STATE.phase = 5) ∧
  (h.job = none → h'.job = none)

/-- R262: the job halted with "clock fault", the root PLL on the crystal, Tense unaligned. -/
def HeldOver (h h' : Hw) : Prop :=
  Halted h h' 12 ∧ h'.clk.fromCrystal = true ∧ h'.clk.goodWindows = 0 ∧ h'.fld clkBase Fld.TNS_ALIGN.state = 0 ∧
    h'.fld clkBase Fld.CLK_STATUS.holdover = 1 ∧
    (h.clk.fromCrystal = false → h.flag clkBase Fld.CLK_STATUS.root = true → h'.clk.coresStopped = true)

/-! ### Registers -/

/-- Table 0.7: bit `i` of a register row after a write of the bits `m` of `v`. A read-write bit takes the value; writing one clears
a W1C bit and sets a W1S bit; every other bit stands. -/
def RegDef.bitWritten (d : RegDef) (old m v : Word) (i : Nat) : Bool :=
  (bitOf (d.maskOf .w1s) i && bitOf m i && bitOf v i) ||
    (!(bitOf (d.maskOf .w1c) i && bitOf m i && bitOf v i) && (if bitOf (d.maskOf .rw) i && bitOf m i then bitOf v i else bitOf old i))

/-! ### Management -/

/-- R413: a tag that does not verify, or that an authorised session leaves out. PRESUMED: assumption 9. -/
def tagFails (h : MmpHeader) (x : Session) : Bool := (h.tagged && !h.tagRight) || (x.authorised && !h.tagged)

/-- R413, R414: a request of an open session with a good tag and a seq above the last one. -/
def Fresh (s : State) (h : MmpHeader) (x : Session) : Prop :=
  s.serves = true ∧ s.session? h.session = some x ∧ tagFails h x = false ∧ ∀ n, x.lastSeq = some n → n.toNat < h.seq.toNat

/-- Table 11.14: a fresh request that its row of the table lets through. -/
def Admissible (s : State) (row : MmpRow) (h : MmpHeader) (x : Session) : Prop :=
  Fresh s h x ∧ (s.inRecovery = true → row.recovery = true) ∧
    (s.inRecovery = false → (row.authorised = true → x.authorised = true) ∧ row.version ≤ x.version)

/-- The request is answered, and its answer kept for a repeat (R414); nothing else of `s` changed. -/
def Replied (s u : State) (h : MmpHeader) (x : Session) (status : Nat) (data : List Byte) : Prop :=
  u = (s.putSession h.session { x with lastSeq := some h.seq, cachedStatus := status, cachedData := data }).answer
    ⟨false, status, 0, data⟩

/-- The address of the access is physical: the hart that makes it, if one does, does not translate (R39). -/
def State.physicalFor (s : State) (r : Outsider) (paging : Option Paging) : Prop :=
  ∀ k, hartOf r = some k → ((s.asHart k paging).hart k).view.root = none ∨ ((s.asHart k paging).hart k).view.mode = 3

/-- A hart that makes the access runs in machine mode with no PMP entry set, so that its address is physical (R39, R387). -/
def State.bareFor (s : State) (r : Outsider) : Prop := ∀ k, hartOf r = some k → (s.hart k).view = Paging.bare

end Machine

open Machine in
/-- The messages of Table 11.14 that belong to a session: their row and header. -/
def Instr.mmp : Instr → Option (MmpRow × MmpHeader)
  | Instr.auth h _ _ => some (rowAnyR, h)
  | Instr.bye h => some (rowAnyR, h)
  | Instr.status h => some (rowAnyR, h)
  | Instr.results h _ => some (rowAny, h)
  | Instr.regRead h _ => some (rowAny, h)
  | Instr.regWrite h _ => some (rowAuth, h)
  | Instr.memRead h _ _ _ => some (rowAuth, h)
  | Instr.memWrite h _ _ => some (rowAuth, h)
  | Instr.imagePut h _ _ => some (rowAuth, h)
  | Instr.admitJob h => some (rowAuth, h)
  | Instr.start h _ _ _ _ => some (rowAuth, h)
  | Instr.stop h => some (rowAuth, h)
  | Instr.snapshot h _ _ => some (rowAuth, h)
  | Instr.release h => some (rowAuth, h)
  | Instr.successor h => some (rowAuth11, h)
  | Instr.quota h _ _ => some (rowAuth, h)
  | Instr.attest h _ => some (rowAny, h)
  | Instr.certs h => some (rowAnyR, h)
  | Instr.dumpQuery h => some (rowAuth, h)
  | Instr.dumpTake h => some (rowAuth, h)
  | Instr.dumpRead h _ _ _ => some (rowAuth, h)
  | Instr.dumpRelease h _ => some (rowAuth, h)
  | Instr.flashPut h _ _ _ => some (rowAuthR, h)
  | Instr.flashCommit h => some (rowAuthR, h)
  | Instr.mmpReset h _ => some (rowAuthR, h)
  | Instr.provision h _ => some (rowAny, h)
  | Instr.proxy h _ _ => some (rowAuth11, h)
  | _ => none

open Machine in
/-- An access of the control space, of the physical map or of Xofisel from outside the schedule, which the core clocks serve (R262);
the debug port makes one while its fuse is set (R427). -/
def Instr.accesses (s : State) : Instr → Bool
  | Instr.nonscheduledAccess _ _ _ _ _ _ => true
  | Instr.atomicMemoryOperation _ _ _ _ _ _ _ => true
  | Instr.debugBusAccess _ _ _ _ => s.xof.debugOpen
  | Instr.registerWrite _ _ _ _ => true
  | Instr.segmentConfigWrite _ _ => true
  | Instr.quotaWrite _ => true
  | Instr.migCmd _ => true
  | Instr.portTrainStart _ => true
  | Instr.uqTailWrite _ _ => true
  | Instr.urHeadWrite _ _ => true
  | Instr.alignArm => true
  | Instr.tnsNowRead _ _ => true
  | Instr.ingestFill => true
  | Instr.peripheralEnable _ => true
  | Instr.stageCommit => true
  | Instr.snapshotRequest => true
  | Instr.stopRequest => true
  | Instr.stagedTableWrite _ _ _ => true
  | Instr.fwHoldWrite _ => true
  | Instr.wdtKick _ _ => true
  | Instr.uartDataWrite _ _ => true
  | Instr.uartDataRead _ => true
  | Instr.i2cStart _ => true
  | Instr.i2cStop _ => true
  | Instr.spiExchange _ => true
  | Instr.plicClaim _ => true
  | Instr.plicComplete _ _ => true
  | Instr.captureRequest => true
  | Instr.captureRelease => true
  | Instr.collectorClear => true
  | Instr.traceClear _ => true
  | Instr.traceControlWrite _ _ => true
  | Instr.xofHash _ => true
  | Instr.xofVerify _ _ _ => true
  | Instr.xofAttest _ => true
  | Instr.sessionKey _ _ => true
  | Instr.sessionHello _ _ => true
  | Instr.tag _ _ => true
  | Instr.measure _ _ _ _ _ => true
  | Instr.clear _ => true
  | Instr.flashOpen _ => true
  | Instr.raiseSvn => true
  | Instr.xofProvision _ => true
  | Instr.random _ => true
  | _ => false

open Machine in
/-- The commands of Xofisel (Table 11.21): what each runs, given the state in which it starts. -/
def Instr.xofRun (s : State) : Instr → Option XofRun
  | Instr.xofHash data => some ⟨1, 0, digestBytes (Config.sha384 data), none⟩
  | Instr.xofVerify key digest sig => some ⟨2, if Config.ecdsaVerify key digest sig then 0 else 1, [], none⟩
  | Instr.xofAttest nonce => some ⟨3, 0, s.attestReport nonce, none⟩
  | Instr.sessionKey hostKey nonce =>
    match s.xof.ephemeral with
    | none => some ⟨4, 2, [], none⟩
    | some e => some ⟨4, 0, digestBytes (Config.ecdhKey e hostKey nonce), none⟩
  | Instr.sessionHello hostKey n =>
    some ⟨5, 0, s.helloBytes (Config.freeSecret s.hw.free) (Config.freeNonce s.hw.free) hostKey n.toNat, none⟩
  | Instr.tag key data => some ⟨6, 0, (digestBytes (Config.hmac key data)).take 16, none⟩
  | Instr.measure slot kind extra addr len =>
    if s.xof.locked = true ∧ slot.toNat < 3 then some ⟨7, 2, [], none⟩
    else
      let d := Config.sha384 (s.hw.read addr.toNat len.toNat)
      some ⟨7, 0, digestBytes d, some (slot.toNat, ⟨kind.toNat, extra, d, 0⟩)⟩
  | Instr.clear slot => some ⟨8, if s.xof.locked = true ∧ slot.toNat < 3 then 2 else 0, [], none⟩
  | Instr.flashOpen firmware =>
    some ⟨9, if s.mgmt.flashTarget = some firmware ∧ s.stageGood firmware = true then 0 else 1, [], none⟩
  | Instr.raiseSvn => some ⟨10, 0, [], none⟩
  | Instr.xofProvision _ => some ⟨11, if s.xof.owner.isSome then 2 else 0, [], none⟩
  | Instr.random count =>
    if 512 < count.toNat then some ⟨12, 3, [], none⟩
    else some ⟨12, 0, (List.range count.toNat).map (fun i => Config.freeByte (s.hw.free + i)), none⟩
  | _ => none

end Sys2Proof
end

