-- ==== Sys2Proof/Certificates/Slice0/Obligations.lean ====
section
/-!
DEFINITION. The statements for the provers. Every command of the table completes in one of them, with what it leaves; the
machine as a whole is stated first.
-/
section

open Sys2Proof Sys2Proof.Machine

/-! ### The whole machine -/

/-- A step takes the command at the front of the queue and runs it on the state with the queue's rest. -/
def Obligations.StepRunsTheFrontCommand : Prop :=
  ∀ (c : Instr) (rest : List Instr) (s : State), step { s with pending := c :: rest } = exec c { s with pending := rest }

/-- The model's choice (assumptions 1 and 77): on an empty queue one tick of the array clock passes. Where the clock runs both
copies of Tense count it (R264) and so does mtime (R389), and each timer and watchdog that runs counts it down, as far as zero
(R396, R397); with no array in occupancy, nothing running in the other engines that count their ticks and no request held at a
controller, no register and nothing else changes. Nothing at all changes where the clock stands. -/
def Obligations.IdleStepIsOneTick : Prop :=
  ∀ s : State, s.pending = [] →
    (s.hw.clocked = true → ∃ u, step s = .next u ∧ u.pending = [] ∧ u.stalled = s.stalled ∧
      u.hw.tense0 = s.hw.tense0 + 1 ∧ u.hw.tense1 = s.hw.tense1 + 1 ∧ u.fliuf.mtime = s.fliuf.mtime + 1 ∧
      (∀ i : Fin 4, (u.timerLeft i).toNat = (s.timerLeft i).toNat - (if s.timerRuns i then 1 else 0) ∧
        (u.watchdogLeft i).toNat = (s.watchdogLeft i).toNat - (if s.watchdogRuns i then 1 else 0)) ∧
      ((∀ c, (s.hw.ctl c).held = []) →
        (∀ t, (∀ n, ((s.hw.tile t).array n).left = 0) ∧ ∀ q, 12 ≤ q → (s.hw.tile t).runs q = []) →
        (∀ d, (s.hw.upe d).running = none) → s.hw.dbg.asked = false →
        (∀ a, u.hw.reg a = s.hw.reg a) ∧ SameMemory s.hw u.hw ∧
        u = { s with hw := { s.hw with tense0 := u.hw.tense0, tense1 := u.hw.tense1, regs := u.hw.regs },
                     fliuf := { s.fliuf with mtime := u.fliuf.mtime, tmrLeft := u.fliuf.tmrLeft,
                                             wdtLeft := u.fliuf.wdtLeft } })) ∧
    (s.hw.clocked = false → step s = .next s)

/-- R115 to R118, R125, R176, R480: in a tick an array in occupancy counts a busy tick, and a stall tick where its core holds or
a command waits behind it; its occupancy is one tick shorter where the core advanced. The Vector Engine and the convert section
count a busy tick where they run a command. The transfers of a SEND that are due leave it, and those that the die bridge has
not discarded are merged into the rank's records. That a step on an empty queue is this tick is assumption 1. -/
def Obligations.TicksAreCountedInTheTiles : Prop :=
  ∀ (s : State) (t : Tile), s.pending = [] → s.hw.clocked = true → s.hw.tiles.map (fun e => e.1) = [t.val] →
    (∀ c, (s.hw.ctl c).held = []) → (∀ d, (s.hw.upe d).running = none) → s.hw.dbg.asked = false →
    ∃ u, step s = .next u ∧ SameMemory s.hw u.hw ∧ SameOtherTiles t s.hw u.hw ∧
      SameRegsOutside (tileBase t) 0x10000 s.hw u.hw ∧
      (∀ n, n < 8 → let b := arrBase t n
        let a := (s.hw.tile t).array n
        let go := (a.edgeTick (s.hw.fld b Fld.ARR_STATUS.fmt_a)).2
        (a.left = 0 → (u.hw.tile t).array n = a ∧
          u.hw.fld b Fld.ARR_BUSY_TICKS.ticks = s.hw.fld b Fld.ARR_BUSY_TICKS.ticks) ∧
        (0 < a.left → ((u.hw.tile t).array n).left = (if go then a.left - 1 else a.left) ∧
          u.hw.fld b Fld.ARR_BUSY_TICKS.ticks = (s.hw.fld b Fld.ARR_BUSY_TICKS.ticks + 1) % 2 ^ 64 ∧
          u.hw.fld b Fld.ARR_STALL_TICKS.ticks =
            (s.hw.fld b Fld.ARR_STALL_TICKS.ticks + (if go = true ∧ s.hw.headWaits t n = false then 0 else 1)) % 2 ^ 64)) ∧
      u.hw.fld (tileBase t) Fld.VE_BUSY_TICKS.ticks = (s.hw.fld (tileBase t) Fld.VE_BUSY_TICKS.ticks
        + (if (s.hw.tile t).runs 12 = [] then 0 else 1)) % 2 ^ 64 ∧
      u.hw.fld (tileBase t) Fld.CU_BUSY_TICKS.ticks = (s.hw.fld (tileBase t) Fld.CU_BUSY_TICKS.ticks
        + (if (s.hw.tile t).runs 13 = [] then 0 else 1)) % 2 ^ 64 ∧
      ∀ r rs, (s.hw.tile t).runs 14 = r :: rs →
        (u.hw.tile t).runs 14 = { r with sends := r.sends.filter (fun x => !decide (x.due ≤ s.hw.tense0)) } :: rs ∧
        ((∀ x ∈ r.sends, s.hw.tense0 < x.due) → u.hw.infl.records = s.hw.infl.records) ∧
        ∀ x, r.sends = [x] → x.due ≤ s.hw.tense0 → u.hw.infl.records =
          if x.lost then s.hw.infl.records
          else x.recs.foldl (fun m e => m.upd SumRec.none e.1 (fun y => y.merge e.2)) s.hw.infl.records

/-- No command stops the machine, and none touches the queue: the spec gives every command of the table an effect. -/
def Obligations.EveryCommandAnswersAndLeavesTheQueue : Prop :=
  ∀ (c : Instr) (s : State), ∃ u, exec c s = .next u ∧ u.pending = s.pending

/-! ### The tile -/

/-- R22, R140, R262: a command of a tile that cannot start yet waits in its queue or stream and changes nothing but its place; one
that its phase or a halt keeps from running is not taken at all. An access of the control space, or of Xofisel, waits in its order
while the core clocks stop; while a module reset lasts it meets a bus error (the model's choice: assumption 88). -/
def Obligations.CommandsWaitWhileTheyMayNotStart : Prop :=
  (∀ (s : State) (i : Instr) (l : Launch), i.launch = some l → s.hw.canStart l = false →
    ∃ u, exec i s = .next u ∧ HwOnly s u ∧ OnlyTile l.t s.hw u.hw ∧ u.hw.mem = s.hw.mem ∧
      (s.hw.tileRuns l.t = true → s.hw.phaseAllows l.c = true → u.hw.known l = true) ∧
      ((s.hw.tileRuns l.t = false ∨ s.hw.phaseAllows l.c = false) → u = s))
  ∧ (∀ (s : State) (i : Instr), i.accesses s = true → s.hw.clocked = false →
    (s.hw.clk.coresStopped = true → exec i s = .next { s with stalled := s.stalled ++ [i] }) ∧
    (s.hw.clk.coresStopped = false → exec i s = .next { s with resp := Resp.bus }))

/-- R141, R161 (Table 4.3): NOP, and a command whose view holds no elements, completes at its start: it runs in no queue and
changes no memory; its tokens are taken and posted. -/
def Obligations.NopAndEmptyViewsCompleteAtTheirStart : Prop :=
  ∀ (s : State) (t : Tile) (c : Cmd) (i : Instr) (l : Launch), i.launch = some l → s.hw.canStart l = true →
    let h := asFound s.hw t c
    (i = .nop t l.e c
      ∨ (∃ x r, r ∈ vectorRows t c x ∧ i = r.1 ∧ (h.desc t x.dst).count = 0)
      ∨ (∃ x, (i = .rsum t c x ∨ i = .rmax t c x) ∧ (h.desc t x.a).count = 0)
      ∨ (∃ x, (i = .draw t c x ∨ i = .mask t c x ∨ i = .rot t c x) ∧ (h.desc t x.dst).count = 0)
      ∨ (∃ a d, (i = .convert t c a d ∨ i = .expand t c a d) ∧ (h.desc t a).count = 0)
      ∨ (∃ d v, i = .fill t c d v ∧ (h.desc t d).count = 0)
      ∨ (∃ a d op x b, (i = .copy t c a d ∨ i = .acc t c a d op x b) ∧ (s.hw.aeDesc t c a).count = 0)
      ∨ (∃ a d k g n, (i = .rwrite t c a k g ∧ (s.hw.aeDesc t c a).count = 0)
        ∨ (i = .racc t c a k d n ∧ (s.hw.aeDesc t c a).count = 0))
      ∨ (∃ d k g, i = .rread t c d k g ∧ (h.desc t d).count = 0)) →
    ∃ u, exec i s = .next u ∧ HwOnly s u ∧ OnlyTile t s.hw u.hw ∧ u.hw.mem = s.hw.mem ∧
      (∀ q, (u.hw.tile t).runs q = (s.hw.tile t).runs q) ∧
      ∀ ch, ch < 16 → u.hw.fld (tileBase t) (tokenFld ch) = tokensAfter s.hw t c ch

/-- R137, R138 (Tables 4.2 to 4.4 and 4.7): the 32 bytes that spell a command of a tile decode to that command, with every operand
at every value and the tag that its place gives it; and bytes that decode at all are the bytes of the command they decode to, so
that no bit is dropped and no reserved bit is set. What befalls the command as it runs (an error its sources meet, a stall) is no
part of its bytes: the decoder gives the command to which nothing happens. -/
def Obligations.CommandsAreSpelledByTheirWords : Prop :=
  (∀ (i : Instr) (l : Launch) (t : Tile), i.launch = some l → l.t = t.val → l.c.found = [] →
    (∀ t c s d op f b, i = .acc t c s d op f b → f = .clean ∧ b = .clean) → (∀ t c x z, i = .mmul t c x z → z = ⟨[], .clean⟩) →
    (∀ t c k n z, i = .send t c k n z → z = []) →
    ∃ w, commandWord i = some w ∧ decodeCommand t l.c.tag w = some i)
  ∧ ∀ (t : Tile) (tag : Word32) (w : BitVec 256) (i : Instr), decodeCommand t tag w = some i →
    commandWord i = some w ∧ ∃ l, i.launch = some l ∧ l.t = t.val ∧ l.c.tag = tag ∧ l.c.found = []

/-- R162, R164, R165: an arithmetic command of the Vector Engine that starts computes what Table 4.8 gives for each position, as
it finds its sources; the results wait for its completion, which writes them. -/
def Obligations.VectorArithmeticComputesResults : Prop :=
  ∀ (s : State) (t : Tile) (c : Cmd) (x : ArithArgs) (r : VectorRow) (l : Launch),
    let h := asFound s.hw t c
    r ∈ vectorRows t c x → r.1.launch = some l → (h.desc t x.dst).count ≠ 0 → s.hw.canStart l = true →
    ∃ u y, exec r.1 s = .next u ∧ HwOnly s u ∧ OnlyTile t s.hw u.hw ∧ u.hw.mem = s.hw.mem ∧ Started s.hw u.hw l y ∧
      y.output = some ⟨h.desc t x.dst, vectorValues h t x (h.desc t x.dst).count r.2.1 r.2.2, s.hw.stepNo, 0, 0,
        decide (l.opcode = 0x0C), false⟩

/-- R166, R167: RSUM and RMAX compute one element per row of a; DRAW, MASK and ROT what the generator decides. The results wait
for the completion, which writes them. -/
def Obligations.VectorReductionsAndGeneratorComputeResults : Prop :=
  (∀ (s : State) (t : Tile) (c : Cmd) (x : ArithArgs) (i : Instr) (f : Val → Val → Val) (start : Val) (l : Launch),
    let h := asFound s.hw t c
    (i, f, start) ∈ [(Instr.rsum t c x, (fun a b => (fpAdd (opFmt x.opfmt) x.rtz a b).1), Val.zero),
      (Instr.rmax t c x, fpMax, Val.inf true)] →
    i.launch = some l → (h.desc t x.a).count ≠ 0 → s.hw.canStart l = true →
    ∃ u y, exec i s = .next u ∧ HwOnly s u ∧ OnlyTile t s.hw u.hw ∧ u.hw.mem = s.hw.mem ∧ Started s.hw u.hw l y ∧
      y.output = some ⟨h.desc t x.dst, reduceValues h t x f start, s.hw.stepNo, 0, 0, false, false⟩)
  ∧ (∀ (s : State) (t : Tile) (c : Cmd) (x : GenArgs) (i : Instr) (vs : List Val) (l : Launch),
    let h := asFound s.hw t c
    (i, vs) ∈ [(Instr.draw t c x, drawValues h t x), (Instr.mask t c x, maskValues h t x),
      (Instr.rot t c x, rotValues h t x)] →
    i.launch = some l → (h.desc t x.dst).count ≠ 0 → s.hw.canStart l = true →
    ∃ u y, exec i s = .next u ∧ HwOnly s u ∧ OnlyTile t s.hw u.hw ∧ u.hw.mem = s.hw.mem ∧ Started s.hw u.hw l y ∧
      y.output = some ⟨h.desc t x.dst, vs, s.hw.stepNo, 0, 0, false, false⟩)

/-- R78, R158, R159: CONVERT and EXPAND decode their source, a CONVERT from the whole list, an EXPAND from the entry its search
finds; the values wait for the completion, which writes them through the destination's attribute word. -/
def Obligations.ConvertAndExpandDecodeTheirSource : Prop :=
  ∀ (s : State) (t : Tile) (c : Cmd) (src dst : DescNo) (i : Instr) (whole : Bool) (l : Launch),
    let h := asFound s.hw t c
    (i, whole) ∈ [(Instr.convert t c src dst, true), (Instr.expand t c src dst, false)] → i.launch = some l →
    (h.desc t src).count ≠ 0 → s.hw.canStart l = true →
    let dec := h.decodeView (h.desc t src) s.hw.stepNo (!whole)
    ∃ u y, exec i s = .next u ∧ HwOnly s u ∧ OnlyTile t s.hw u.hw ∧ u.hw.mem = s.hw.mem ∧ Started s.hw u.hw l y ∧
      y.output = some ⟨h.desc t dst, dec.vals, s.hw.stepNo, dec.faults, 0, whole, false⟩

/-- R101 to R107, R121, R125, R157: an MMUL that starts takes its array for its occupancy, and holds its accumulators or has them
drain through the out descriptor when it completes; an uncorrectable word of the edge store costs the first accumulator alone;
with M or N_c 0 it completes and writes nothing. -/
def Obligations.MmulHoldsOrDrainsItsAccumulators : Prop :=
  ∀ (s : State) (t : Tile) (c : Cmd) (x : MmulArgs) (w : ArrayTiming),
    let l : Launch := ⟨t, .execute, 1, argsMmul x, c⟩
    let h := asFound s.hw t c
    s.hw.canStart l = true →
    (x.m.toNat ≠ 0 → x.n.toNat ≠ 0 → ∃ u vals y, exec (.mmul t c x w) s = .next u ∧ HwOnly s u ∧ OnlyTile t s.hw u.hw ∧
      u.hw.mem = s.hw.mem ∧ Started s.hw u.hw l y ∧ ((u.hw.tile t).array c.unit.toNat).left = mmulTicks s.hw t c x ∧
      vals.length = x.m.toNat * x.n.toNat ∧ vals.tail = (mmulSums s.hw t c x).tail ∧
      (w.store ≠ .uncorrectable → vals = mmulSums s.hw t c x) ∧
      (x.hold = true → y.output = none ∧ (u.hw.tile t).held.find? c.unit.toNat = some
        ⟨x.m.toNat, x.n.toNat, (h.desc t x.a).f, (h.desc t x.w).f,
          vals.map (fun v => BitVec.ofNat 64 (encodeVal (accFmt (h.desc t x.a).f) v))⟩) ∧
      (x.hold = false → (u.hw.tile t).held.find? c.unit.toNat = none ∧
        ∃ o, y.output = some o ∧ o.dst = h.desc t x.out ∧ o.vals = vals ∧ o.step = s.hw.stepNo)) ∧
    ((x.m.toNat = 0 ∨ x.n.toNat = 0) → ∃ u, exec (.mmul t c x w) s = .next u ∧ HwOnly s u ∧ OnlyTile t s.hw u.hw ∧
      u.hw.mem = s.hw.mem ∧ (∀ q, (u.hw.tile t).runs q = (s.hw.tile t).runs q) ∧
      ((u.hw.tile t).array c.unit.toNat).left = 1)

/-- R4, R155: a fill leaves in the next bank of each listed operand the table of the command's tag, and memory as it was; a
disabled array is not filled. -/
def Obligations.EscapeTableFillLeavesTheTables : Prop :=
  ∀ (s : State) (t : Tile) (c : Cmd) (x : MmulArgs),
    let on := s.hw.flag (arrBase t c.unit.toNat) Fld.ARR_STATUS.enabled
    (s.hw.tileRuns t = true → s.hw.phaseAllows c = true → on = true →
      ∃ u, exec (.escapeTableFill t c x) s = .next u ∧ HwOnly s u ∧ OnlyTile t s.hw u.hw ∧ u.hw.mem = s.hw.mem ∧
        ∀ op d, (op, d) ∈ [(0, (asFound s.hw t c).desc t x.a), (1, (asFound s.hw t c).desc t x.w)] → d.listed = true →
          (u.hw.tile t).escTab.get EscTable.empty
            (escKey c.unit.toNat op ((s.hw.tile t).nextBank c.unit.toNat)) = tableFor s.hw t c op d) ∧
    ((s.hw.tileRuns t = false ∨ s.hw.phaseAllows c = false ∨ on = false) → exec (.escapeTableFill t c x) s = .next s)

/-- R169, R171 to R173, R480: OPEN clears and binds a slot; CLOSE adds it into its summary record, frees it, silences the commands
that still report to it and may write its counts; SEND sets out the records of its layers, which are merged as they arrive. -/
def Obligations.StatisticsUnitKeepsSlotsAndRecords : Prop :=
  (∀ (s : State) (t : Tile) (c : Cmd) (slot : BitVec 4) (layer : BitVec 10) (back : Bool) (l : Launch),
    (Instr.opn t c slot layer back).launch = some l → s.hw.canStart l = true →
    ∃ u r, exec (.opn t c slot layer back) s = .next u ∧ HwOnly s u ∧ OnlyTile t s.hw u.hw ∧ u.hw.mem = s.hw.mem ∧
      Started s.hw u.hw l r ∧ (u.hw.tile t).hist.find? slot.toNat = some ⟨layer.toNat, back, Report.none⟩ ∧
      ∀ k, k ≠ slot.toNat → (u.hw.tile t).hist.find? k = (s.hw.tile t).hist.find? k)
  ∧ (∀ (s : State) (t : Tile) (c : Cmd) (slot : BitVec 4) (wr : Bool) (dst : DescNo) (l : Launch),
    let h := asFound s.hw t c
    (Instr.close t c slot wr dst).launch = some l → s.hw.canStart l = true →
    ∃ u, exec (.close t c slot wr dst) s = .next u ∧ HwOnly s u ∧ OnlyTile t s.hw u.hw ∧
      (u.hw.tile t).hist.find? slot.toNat = none ∧
      (∀ e, (s.hw.tile t).hist.find? slot.toNat = some e →
        (u.hw.tile t).summary.get SumRec.none (summaryKey e.layer e.backward) =
          (((h.tile t).summary.get SumRec.none (summaryKey e.layer e.backward)).merge (SumRec.ofReport e.rep)).saturate) ∧
      ((s.hw.tile t).hist.find? slot.toNat = none → (u.hw.tile t).summary = (s.hw.tile t).summary) ∧
      (∀ q, q ≠ 14 → (u.hw.tile t).runs q = ((s.hw.tile t).runs q).map (fun r =>
        if r.cmd.stats = true ∧ r.cmd.hslot = slot then { r with mute := true } else r)) ∧
      (wr = false → u.hw.mem = s.hw.mem) ∧
      (wr = true → u.hw.mem = (((h.desc t dst).places.zip
        (((s.hw.tile t).hist.find? slot.toNat).elim Report.none (fun e => e.rep)).words).foldl
          (fun g p => g.setElem (h.desc t dst) p.1.1 p.1.2 p.2.toNat) s.hw).mem))
  ∧ (∀ (s : State) (t : Tile) (c : Cmd) (first : BitVec 10) (count : BitVec 11) (bridge : List (BitVec 10 × Bool)) (l : Launch),
    (Instr.send t c first count bridge).launch = some l → s.hw.canStart l = true →
    ∃ u r, exec (.send t c first count bridge) s = .next u ∧ HwOnly s u ∧ u.hw.mem = s.hw.mem ∧
      SameRegsOutside (tileBase t) 0x10000 s.hw u.hw ∧ SameOtherTiles t s.hw u.hw ∧ Started s.hw u.hw l r ∧
      u.hw.infl.records = s.hw.infl.records ∧
      r.sends = (asFound s.hw t c).sendTransfers t first.toNat count.toNat (fun k =>
        decide ((tilePoint t).die ≠ inflPoint.die) && bridge.contains (BitVec.ofNat 10 k, true)))

/-- R148, R242: a COPY that starts plans the requests that its two views give (`copyReqs`), an RREAD those that its destination
view gives (`rspReqs`); no byte moves before a response. -/
def Obligations.CopyAndRreadIssueTheirRequests : Prop :=
  (∀ (s : State) (t : Tile) (c : Cmd) (src dst : DescNo) (l : Launch),
    let d := (asFound s.hw t c).desc t dst
    (Instr.copy t c src dst).launch = some l → s.hw.canStart l = true → (s.hw.aeDesc t c src).count ≠ 0 →
    ∃ u r, exec (.copy t c src dst) s = .next u ∧ HwOnly s u ∧ OnlyTile t s.hw u.hw ∧ u.hw.mem = s.hw.mem ∧
      Started s.hw u.hw l r ∧ r.plan = reqPlan (copyReqs (s.hw.aeDesc t c src) d) ∧
      r.record = (if d.epoch then some d.eslot else none))
  ∧ (∀ (s : State) (t : Tile) (c : Cmd) (dst : DescNo) (rank : Rank) (addr : Addr) (l : Launch),
    let d := (asFound s.hw t c).desc t dst
    (Instr.rread t c dst rank addr).launch = some l → s.hw.canStart l = true → d.count ≠ 0 →
    ∃ u r, exec (.rread t c dst rank addr) s = .next u ∧ HwOnly s u ∧ u.hw.mem = s.hw.mem ∧
      SameRegsOutside (tileBase t) 0x10000 s.hw u.hw ∧ SameOtherTiles t s.hw u.hw ∧
      Started s.hw u.hw l r ∧ r.plan = reqPlan (rspReqs addr.toNat d) ∧ r.remote = addr)

/-- R36 to R38, R148: each byte at address a that a FILL reaches outside the tiered range holds byte (a mod 8) of the pattern, and
no other byte changes; runs in the tiered range go to the controllers as requests that carry the pattern. -/
def Obligations.FillLaysThePatternOnAddresses : Prop :=
  ∀ (s : State) (t : Tile) (c : Cmd) (dst : DescNo) (v : Word) (l : Launch),
    let d := (asFound s.hw t c).desc t dst
    (Instr.fill t c dst v).launch = some l → s.hw.canStart l = true → d.count ≠ 0 →
    ∃ u r, exec (.fill t c dst v) s = .next u ∧ HwOnly s u ∧ SameOtherTiles t s.hw u.hw ∧
      (∀ a, d.localByte s.hw a → u.hw.byte a = patternByte v a) ∧
      (∀ a, ¬d.localByte s.hw a → u.hw.byte a = s.hw.byte a) ∧
      Started s.hw u.hw l r ∧ r.plan = reqPlan (fillReqs v d)

/-- R33, R184 to R189: an ACC combines each source word into its destination word at its slice, in view order; the words of a line
that the die bridge discards do not arrive. -/
def Obligations.AccCombinesWordsInOrder : Prop :=
  ∀ (s : State) (t : Tile) (c : Cmd) (src dst : DescNo) (op : BitVec 4) (slice bridge : Ecc) (l : Launch),
    let h := asFound s.hw t c
    let sd := s.hw.aeDesc t c src
    let dd := h.desc t dst
    (Instr.acc t c src dst op slice bridge).launch = some l → s.hw.canStart l = true → sd.count ≠ 0 →
    ∃ u r, exec (.acc t c src dst op slice bridge) s = .next u ∧ HwOnly s u ∧ SameOtherTiles t s.hw u.hw ∧
      Started s.hw u.hw l r ∧ r.reqs = [] ∧
      u.hw.mem = (accumulated s.hw op.toNat (if slice = .uncorrectable then some (dd.base.toNat / 8) else none)
        (accSources h op.toNat sd dd (bridgeLoses (tilePoint t) (s.hw.pointOf dd.base.toNat) bridge))).mem

/-- R233, R240, R243, R343: an RWRITE's bytes leave as WRITE flits and a RACC's blocks as ACC flits, one to each next slot of
the command's channel; a RACC to this rank goes over the mesh. Memory stands. -/
def Obligations.RemoteCommandsPlaceTheirFlits : Prop :=
  (∀ (s : State) (t : Tile) (c : Cmd) (src : DescNo) (rank : Rank) (addr : Addr) (l : Launch),
    let sd := s.hw.aeDesc t c src
    (Instr.rwrite t c src rank addr).launch = some l → s.hw.canStart l = true → sd.count ≠ 0 →
    ∃ u r, exec (.rwrite t c src rank addr) s = .next u ∧ HwOnly s u ∧ u.hw.mem = s.hw.mem ∧
      SameRegsOutside (tileBase t) 0x10000 s.hw u.hw ∧ SameOtherTiles t s.hw u.hw ∧ Started s.hw u.hw l r ∧
      FlitsPlaced s.hw u.hw t l.c.unit.toNat (s.hw.messageFlits 1 1 rank.toNat ((asFound s.hw t c).viewBytes sd)
        (fun k => addr.toNat + 224 * k + s.hw.nextMid.1.toNat * 2 ^ 48 + k * 2 ^ 64)))
  ∧ (∀ (s : State) (t : Tile) (c : Cmd) (src : DescNo) (rank : Rank) (slot : Half) (bseq : Word32) (l : Launch),
    let sd := s.hw.aeDesc t c src
    let fs := (asFound s.hw t c).accFlits sd rank.toNat slot.toNat bseq.toNat
    (Instr.racc t c src rank slot bseq).launch = some l → s.hw.canStart l = true → sd.count ≠ 0 →
    ∃ u r, exec (.racc t c src rank slot bseq) s = .next u ∧ HwOnly s u ∧ u.hw.mem = s.hw.mem ∧
      SameRegsOutside (tileBase t) 0x10000 s.hw u.hw ∧ SameOtherTiles t s.hw u.hw ∧ Started s.hw u.hw l r ∧
      (rank.toNat = s.hw.rank → u.hw.localAcc = s.hw.localAcc ++ fs.map (fun f => ((t : Nat), f)) ∧ u.hw.ports = s.hw.ports) ∧
      (rank.toNat ≠ s.hw.rank → u.hw.localAcc = s.hw.localAcc ∧ FlitsPlaced s.hw u.hw t l.c.unit.toNat fs))

/-- R33, R141, R148, R149, R151, R157 to R162, R169: the oldest command of a queue with no request and no transfer left completes:
its results are converted under the attribute word of their destination and written, its token is posted. A response that brings
its bytes writes them at the destination and ends its request, unless the die bridge discards it, which leaves the request to
wait; a late or failed one writes nothing and is an event. -/
def Obligations.CompletionAndResponsesEndCommandsAndRequests : Prop :=
  (∀ (s : State) (t : Tile) (e : Engine) (unit : BitVec 3) (r : Running) (rs : List Running),
    let q := queueOf e unit.toNat
    (s.hw.tile t).runs q = r :: rs → r.reqs = [] → r.sends = [] →
    ∃ u, exec (.commandCompletion t e unit) s = .next u ∧ HwOnly s u ∧ OnlyTile t s.hw u.hw ∧
      u.hw.mem = (match r.output with
        | none => s.hw.mem
        | some o => (s.hw.convertTo o.dst o.vals o.step).1.mem) ∧
      (u.hw.tile t).runs q = rs ∧
      (∀ k, (r.cmd.stats = false ∨ r.mute = true ∨ r.output = none ∨ k ≠ r.cmd.hslot.toNat) →
        (u.hw.tile t).hist.find? k = (s.hw.tile t).hist.find? k) ∧
      ∀ ch, ch < 16 → u.hw.fld (tileBase t) (tokenFld ch) =
        if r.cmd.post = true ∧ ch = r.cmd.postCh.toNat then satNat 15 (s.hw.fld (tileBase t) (tokenFld ch) + 1)
        else s.hw.fld (tileBase t) (tokenFld ch))
  ∧ ((∀ (s : State) (t : Tile) (ch : BitVec 2) (req : Word32) (found bridge : Ecc) (x : Running) (r : Req) (tick : Word),
    (s.hw.tile t).runs ch.toNat = [x] → x.reqs.find? req.toNat = some r → x.opcode ≠ 5 →
    r.st = .issued tick → spaceOf r.src.toNat ≠ .tiered → spaceOf r.dst.toNat ≠ .tiered →
    (bridgeLoses (s.hw.pointOf r.src.toNat) (tilePoint t) bridge = false →
      ∃ u y, exec (.accessResponse t ch req found bridge) s = .next u ∧ HwOnly s u ∧
        u.hw.mem = (s.hw.engineStore r.dst.toNat (s.hw.sourceBytes found r.src.toNat r.len)).mem ∧
        (u.hw.tile t).runs ch.toNat = [y] ∧ y.reqs.find? req.toNat = none) ∧
    (bridgeLoses (s.hw.pointOf r.src.toNat) (tilePoint t) bridge = true →
      ∃ u, exec (.accessResponse t ch req found bridge) s = .next u ∧ HwOnly s u ∧ Discarded s.hw u.hw ∧
        u.hw.tiles = s.hw.tiles))
  ∧ (∀ (s : State) (t : Tile) (ch : BitVec 2) (req : Word32) (found bridge : Ecc) (x : Running) (r : Req),
    (s.hw.tile t).runs ch.toNat = [x] → x.reqs.find? req.toNat = some r → (r.st = .late ∨ r.st = .failed) →
    ∃ u y, exec (.accessResponse t ch req found bridge) s = .next u ∧ HwOnly s u ∧ u.hw.mem = s.hw.mem ∧
      (x.wrote = false → u.hw.fld (tileBase t) Fld.TILE_FLAGS.tier_err = 1 ∧
        u.hw.fld (tileBase t) Fld.AE_ERR_ADDR.status = (if r.st = .late then 1 else 2)) ∧
      (u.hw.tile t).runs ch.toNat = [y] ∧ y.reqs.find? req.toNat = none))

/-- R33, R142, R152: the oldest command past its deadline is a miss, flagged, counted and signalled once; an epoch that its home
has passed is a hazard, one that it has not is nothing at all, and an answer that the die bridge discards never comes. -/
def Obligations.DeadlineMissesAndStaleEpochsAreEvents : Prop :=
  (∀ (s : State) (t : Tile) (e : Engine) (unit : BitVec 3) (m : Word32 × Nat × Nat),
    (s.hw.unfinished t (queueOf e unit.toNat)).find? (fun c => s.hw.past c.2.1 &&
      !(s.hw.tile t).missed.contains (queueOf e unit.toNat, c.1)) = some m →
    ∃ u, exec (.deadlineMiss t e unit) s = .next u ∧ HwOnly s u ∧ OnlyTile t s.hw u.hw ∧ u.hw.mem = s.hw.mem ∧
      u.hw.fld (tileBase t) Fld.TILE_FLAGS.deadline = 1 ∧ u.hw.fld (tileBase t) Fld.TILE_STATUS.unclean = 1 ∧
      u.hw.fld (tileBase t) Fld.TILE_CNT_A.deadline = (s.hw.fld (tileBase t) Fld.TILE_CNT_A.deadline + 1) % 2 ^ 32 ∧
      (u.hw.tile t).missed = (s.hw.tile t).missed ++ [(queueOf e unit.toNat, m.1)] ∧
      (s.hw.job.isSome = true → u.hw.infl.signals =
        s.hw.infl.signals ++ [⟨false, 0, s.hw.tense0, some (BitVec.ofNat 14 s.hw.rank, 4)⟩]))
  ∧ (∀ (s : State) (t : Tile) (eslot : Byte) (bridge : Ecc) (q : Query),
    (s.hw.tile t).queries.find? (fun q => decide (q.eslot.toNat = eslot.toNat)) = some q →
    ∃ u, exec (.epochAnswer t eslot bridge) s = .next u ∧ HwOnly s u ∧ u.hw.mem = s.hw.mem ∧
      (bridge = .clean → OnlyTile t s.hw u.hw) ∧ (u.hw.tile t).queries = (s.hw.tile t).queries.erase q ∧
      (s.hw.epochHome q.region.toNat = none → u.hw = { s.hw with tiles := u.hw.tiles }) ∧
      ∀ a, s.hw.epochHome q.region.toNat = some a →
        (bridgeLoses (homePoint a) (tilePoint t) bridge = true → Discarded s.hw u.hw ∧
          u.hw.fld (tileBase t) Fld.TILE_FLAGS.hazard = s.hw.fld (tileBase t) Fld.TILE_FLAGS.hazard) ∧
        (bridge = .clean → s.hw.regionEpoch q.region.toNat = q.epoch → u.hw = { s.hw with tiles := u.hw.tiles }) ∧
        (bridgeLoses (homePoint a) (tilePoint t) bridge = false → s.hw.regionEpoch q.region.toNat ≠ q.epoch →
          u.hw.fld (tileBase t) Fld.TILE_FLAGS.hazard = 1 ∧
          ∀ j, s.hw.job = some j → u.hw.job = some { j with hazardDump := true } ∧ u.hw.infl.signals =
            s.hw.infl.signals ++ [⟨false, 4, s.hw.tense0, some (BitVec.ofNat 14 s.hw.rank, 4)⟩]))

/-- R143, R446: the boundary of a slot that ends with a verdict other than Halt: the next slot's kind, its base tick one slot
further, memory as it was; on a rank that is not halted nothing runs in any tile of the image, its tokens, histogram slots and summaries
are cleared, no array is in occupancy, and it bears no unclean mark. The reports carried out of the ended slot are the new
slot's. -/
def Obligations.SlotBoundaryOpensTheNextSlot : Prop :=
  ∀ (s : State) (j : Job), s.hw.job = some j → s.hw.slotEnds j = true → s.hw.switchDue j = false →
    ∃ u k, exec .slotBoundary s = .next u ∧ HwOnly s u ∧ u.hw.mem = s.hw.mem ∧ u.hw.job = some k ∧ k.kind = j.nextKind ∧
      k.img = j.img ∧ k.result = none ∧ k.reports = j.carriedReports ∧ k.carriedReports = [] ∧
      u.hw.fld inflBase Fld.INFL_STEP_BASE.tick = (s.hw.fld inflBase Fld.INFL_STEP_BASE.tick + j.img.slot) % 2 ^ 64 ∧
      (j.halted = false → ∀ t, t ∈ j.img.tiles → t < 512 →
        (∀ ch, ch < 16 → u.hw.fld (tileBase t) (tokenFld ch) = 0) ∧
        u.hw.fld (tileBase t) Fld.TILE_STATUS.unclean = 0 ∧ u.hw.fld (tileBase t) Fld.AE_REQ.outstanding = 0 ∧
        (u.hw.tile t).running = [] ∧ (u.hw.tile t).hist = [] ∧ (u.hw.tile t).summary = [] ∧
        ∀ n, ((u.hw.tile t).array n).left = 0)

/-! ### The memory tiers and what reaches them -/

/-- R33, R199 to R211: a request that has room and finds its controller able takes a tag and is served in whole 128-byte lines,
or, for an Access Engine, as its own request; without room its requester holds it; a unit that is in refresh, in retraining or
in an exchange of its page holds it with its tag; a lost unit fails it; one that the die bridge discards never arrives. A freed
tag has the held requests sent again in order; a request at its limit ends late, with its tag freed and its event. -/
def Obligations.TieredRequestsAreServedHeldOrLate : Prop :=
  (∀ (s : State) (r : Requester) (addr : Addr), ServedNow s.hw r addr.toNat → (∀ t ch k, r ≠ .access t ch k) →
    let c := s.hw.controllerOf addr.toNat
    let line := addr.toNat / 128 * 128
    (s.hw.poisoned line = false → ∃ u, exec (.tieredRequest r addr none .clean .clean) s = .next u ∧ u.hw.mem = s.hw.mem ∧
      (u.hw.ctl c).tags = (s.hw.ctl c).tags ++ [⟨r, addr⟩] ∧
      (outsideRequester r = true → u.resp = ⟨false, 0, 0, s.hw.read line 128⟩)) ∧
    ∀ v, ∃ u, exec (.tieredRequest r addr (some v) .clean .clean) s = .next u ∧
      u.hw.mem = (s.hw.write line (lineBytes v)).mem ∧
      (u.hw.ctl c).tags = (s.hw.ctl c).tags ++ [⟨r, addr⟩])
  ∧ (∀ (s : State) (t : Tile) (ch : BitVec 2) (k : Word32) (addr : Addr) (x : Running) (q : Req),
    ServedNow s.hw (.access t ch k) addr.toNat → (s.hw.tile t).runs ch.toNat = [x] →
    s.hw.aeRequest t ch.toNat k.toNat addr.toNat = some (q, true) → s.hw.poisoned q.src.toNat = false →
    ∃ u y e, exec (.tieredRequest (.access t ch k) addr none .clean .clean) s = .next u ∧ HwOnly s u ∧ u.hw.mem = s.hw.mem ∧
      (u.hw.tile t).runs ch.toNat = [y] ∧
      y.reqs.find? k.toNat = some { q with st := .served (s.hw.read q.src.toNat q.len) e s.hw.tense0 })
  ∧ (∀ (s : State) (r : Requester) (addr : Addr) (v : Option (BitVec 1024)) (found : DramFinding),
    spaceOf addr.toNat = .tiered →
    let c := s.hw.controllerOf addr.toNat
    (s.hw.ctlState c ≠ 3 → s.hw.blocked r addr.toNat = true →
      ∃ u, exec (.tieredRequest r addr v found .clean) s = .next u ∧ HwOnly s u ∧ u.hw.mem = s.hw.mem ∧
        u.hw.tier.refused = s.hw.tier.refused ++ [⟨r, addr, v, found, s.hw.tense0⟩] ∧
        (u.hw.ctl c).tags = (s.hw.ctl c).tags) ∧
    (s.hw.ctlState c ≠ 3 → s.hw.blocked r addr.toNat = false → s.hw.servable r addr.toNat = false →
      ∃ u, exec (.tieredRequest r addr v found .clean) s = .next u ∧ HwOnly s u ∧ u.hw.mem = s.hw.mem ∧
        (u.hw.ctl c).held = (s.hw.ctl c).held ++ [⟨r, addr, v, found, s.hw.tense0⟩] ∧
        (u.hw.ctl c).tags = (s.hw.ctl c).tags ++ [⟨r, addr⟩]) ∧
    (s.hw.ctlState c = 3 → outsideRequester r = true →
      ∃ u, exec (.tieredRequest r addr v found .clean) s = .next u ∧ u.hw.mem = s.hw.mem ∧ u.hw.tier = s.hw.tier ∧
        u.resp = (if r = .management then ⟨false, 7, 0, []⟩ else Resp.bus)) ∧
    (∀ p bridge, requesterPoint r = some p → bridgeLoses p (s.hw.pointOf addr.toNat) bridge = true →
      ∃ u, exec (.tieredRequest r addr v found bridge) s = .next u ∧ HwOnly s u ∧ Discarded s.hw u.hw))
  ∧ (∀ (s : State) (addr : Addr), spaceOf addr.toNat = .tiered →
    ∃ u, exec (.bankTagFree addr) s = .next u.resend ∧ HwOnly s u ∧ u.hw.mem = s.hw.mem ∧
      u.hw.tier.refused = s.hw.tier.refused ∧ u.hw.bankTags addr.toNat = s.hw.bankTags addr.toNat - 1)
  ∧ (∀ (s : State) (r : Requester) (addr : Addr), spaceOf addr.toNat = .tiered → outsideRequester r = true →
    let c := s.hw.controllerOf addr.toNat
    let mine := fun (q : HeldReq) => decide (q.r = r ∧ q.addr.toNat / 128 = addr.toNat / 128)
    (∀ q, (s.hw.ctl c).held.find? mine = some q → q.since.toNat + lateLimit c ≤ s.hw.now →
      ∃ u, exec (.requestLate r addr) s = .next u ∧ u.hw.mem = s.hw.mem ∧
        (u.hw.ctl c).held = (s.hw.ctl c).held.filter (fun q => !mine q) ∧
        (c < 12 → u.hw.fld (stackBase c) Fld.STK_FLAGS.late = 1 ∧
          u.hw.fld (stackBase c) Fld.STK_CNT_B.late = (s.hw.fld (stackBase c) Fld.STK_CNT_B.late + 1) % 2 ^ 32) ∧
        (12 ≤ c → u.hw.fld lpdBase Fld.LPD_FLAGS.late = 1) ∧
        (r = .management → u.resp = ⟨false, 7, 0, []⟩) ∧ (r ≠ .management → u.resp = Resp.bus)) ∧
    ((s.hw.ctl c).held.find? mine = none → exec (.requestLate r addr) s = .next s))
  ∧ (∀ (s : State) (t : Tile) (ch : BitVec 2) (k : Word32) (addr : Addr) (x : Running) (q : Req) (w : Word),
    spaceOf addr.toNat = .tiered → (s.hw.tile t).runs ch.toNat = [x] →
    s.hw.issuedAt t ch.toNat k.toNat addr.toNat (.access t ch k) = some (q, w) →
    w.toNat + lateLimit (s.hw.controllerOf addr.toNat) ≤ s.hw.now →
    ∃ u y, exec (.requestLate (.access t ch k) addr) s = .next u ∧ HwOnly s u ∧ u.hw.mem = s.hw.mem ∧
      (u.hw.tile t).runs ch.toNat = [y] ∧ y.reqs.find? k.toNat = some { q with st := .late })

/-- R202, R204, R206, R211: at its tick each bank of every stack, or of every LPDDR5X channel, that is in service is unavailable
for the refresh; at any other tick the row's condition fails and nothing changes; a drift beyond the margin asks for
retraining, at a later multiple than the measurement's; retraining holds the subchannel for 1,280 ticks, flagged and counted;
its end frees the subchannel, or loses the channel, which is signalled as a halting fault, and what waited is served. -/
def Obligations.RefreshAndRetrainingHoldTheirUnits : Prop :=
  (∀ (s : State) (bank : BitVec 5),
    (s.hw.now % 1536 = 48 * bank.toNat → ∃ u, exec (.hbmRefresh bank) s = .next u ∧ HwOnly s u ∧
      u.hw = { s.hw with tier := u.hw.tier } ∧
      (∀ c, c < 12 → s.hw.ctlState c = 1 →
        (u.hw.ctl c).refresh.find? bank.toNat = some (BitVec.ofNat 64 (s.hw.now + 160))) ∧
      ∀ c, (12 ≤ c ∨ s.hw.ctlState c ≠ 1) → u.hw.ctl c = s.hw.ctl c) ∧
    (s.hw.now % 1536 ≠ 48 * bank.toNat → exec (.hbmRefresh bank) s = .next s))
  ∧ (∀ (s : State) (bank : BitVec 4),
    (s.hw.now % 1536 = 96 * bank.toNat → ∃ u, exec (.lpddrRefresh bank) s = .next u ∧ HwOnly s u ∧
      u.hw = { s.hw with tier := u.hw.tier } ∧
      (∀ c, 12 ≤ c → c < 20 → s.hw.ctlState c = 1 →
        (u.hw.ctl c).refresh.find? bank.toNat = some (BitVec.ofNat 64 (s.hw.now + 224))) ∧
      ∀ c, (c < 12 ∨ s.hw.ctlState c ≠ 1) → u.hw.ctl c = s.hw.ctl c) ∧
    (s.hw.now % 1536 ≠ 96 * bank.toNat → exec (.lpddrRefresh bank) s = .next s))
  ∧ (∀ (s : State) (c : Channel) (sub : BitVec 2),
    (s.hw.now % 65536 = 0 → s.hw.ctlState (12 + c) = 1 →
      ∃ u, exec (.driftMeasurement c sub true) s = .next u ∧ HwOnly s u ∧ u.hw = { s.hw with tier := u.hw.tier } ∧
        (u.hw.ctl (12 + c)).drifted.find? sub.toNat = some s.hw.tense0) ∧
    exec (.driftMeasurement c sub false) s = .next s ∧
    (∀ w, (s.hw.ctl (12 + c)).drifted.find? sub.toNat = some w →
      (s.hw.now % 65536 = 0 → w.toNat < s.hw.now →
        ∃ u, exec (.subchannelRetrain c sub) s = .next u ∧ HwOnly s u ∧ u.hw.mem = s.hw.mem ∧
          (u.hw.ctl (12 + c)).retrain.find? sub.toNat = some (BitVec.ofNat 64 (s.hw.now + 1280)) ∧
          (u.hw.ctl (12 + c)).drifted.find? sub.toNat = none ∧ u.hw.fld lpdBase Fld.LPD_FLAGS.retrain = 1 ∧
          u.hw.fld lpdBase Fld.LPD_CNT_B.retrain = (s.hw.fld lpdBase Fld.LPD_CNT_B.retrain + 1) % 2 ^ 32) ∧
      (s.hw.now ≤ w.toNat → exec (.subchannelRetrain c sub) s = .next s)) ∧
    (∀ w, (s.hw.ctl (12 + c)).retrain.find? sub.toNat = some w → w.toNat ≤ s.hw.now →
      (∃ u, exec (.retrainEnd c sub true) s = .next u.serveAllHeld.serveWaiting ∧ HwOnly s u ∧
        u.hw = { s.hw with tier := u.hw.tier } ∧ (u.hw.ctl (12 + c)).retrain.find? sub.toNat = none) ∧
      ∃ u, exec (.retrainEnd c sub false) s = .next u.serveAllHeld.serveWaiting ∧ HwOnly s u ∧ u.hw.mem = s.hw.mem ∧
        u.hw.ctlState (12 + c) = 3 ∧ u.hw.fld lpdBase Fld.LPD_FLAGS.lost = 1 ∧
        (s.hw.job.isSome = true → u.hw.infl.signals = s.hw.infl.signals ++ [⟨true, 10, s.hw.tense0, none⟩])))

/-- R188, R189: an atomic operation on a scratchpad word outside the scheduled regions reads and writes it at once; LR reserves,
SC writes only while the reservation stands; on an uncorrectable word it computes with zero and the core also receives a bus
error; elsewhere it is a bus error, which the core takes as an access fault (R391). -/
def Obligations.AtomicsReadModifyWriteOrFault : Prop :=
  ∀ (s : State) (k : Hart) (op : Amo) (addr : Word) (double : Bool) (v : Word) (found : Ecc), s.hw.clocked = true →
    (s.hart k).view = Paging.bare →
    let n := if double then 8 else 4
    let a := addr.toNat
    let i := Instr.atomicMemoryOperation k op addr double v none found
    let faults := fun (u : State) => u.resp = Resp.bus ∧ (u.fliuf.harts.get HartSt.reset k).mcause = 7 ∧
      (u.fliuf.harts.get HartSt.reset k).mtval = addr
    (s.hw.atomicAllowed a n = true →
      (op ≠ .lr → op ≠ .sc → found ≠ .uncorrectable → ∃ u, exec i s = .next u ∧
        u = { s with hw := u.hw, resp := u.resp } ∧ u.resp = Resp.ok (loaded n (s.hw.readNat a n)) ∧
        u.hw.mem = (s.hw.writeNat a n (amoResult op n (BitVec.ofNat 64 (s.hw.readNat a n)) v).toNat).mem) ∧
      (op ≠ .lr → op ≠ .sc → found = .uncorrectable → ∃ u, exec i s = .next u ∧ faults u ∧
        u.hw.mem = (s.hw.writeNat a n (amoResult op n 0 v).toNat).mem) ∧
      (op = .lr → ∃ u, exec i s = .next u ∧ u.hw.mem = s.hw.mem ∧ u.hw.reserves k a = true ∧
        (found ≠ .uncorrectable → u.resp = Resp.ok (loaded n (s.hw.readNat a n))) ∧ (found = .uncorrectable → faults u)) ∧
      (op = .sc → ∃ u, exec i s = .next u ∧ u.hw.reserves k a = false ∧
        (s.hw.reserves k a = true → u.resp = Resp.ok 0 ∧ u.hw.mem = (s.hw.writeNat a n v.toNat).mem) ∧
        (s.hw.reserves k a = false → u.resp = Resp.ok 1 ∧ u.hw.mem = s.hw.mem))) ∧
    (s.hw.atomicAllowed a n = false → ∃ u, exec i s = .next u ∧ u.hw.mem = s.hw.mem ∧ faults u)

/-- R35 to R40, R133, R199, R387, R391, R395: an access from outside the schedule reads the bytes of tile memory as they stand, writes them
where nothing closes them, and meets a bus error outside the map; one of the debug port or management to a page in an exchange
waits. A virtual address that is none of Sv48 faults its hart, and so does an access that its PMP entries refuse (PRESUMED:
assumption 90). The management Ethernet and QSPI controllers answer supervisor and user mode with a bus error, whatever the PMP
entries say. -/
def Obligations.OutsideAccessesReadWriteOrMeetBusErrors : Prop :=
  ∀ (s : State), s.hw.clocked = true →
  (∀ (r : Outsider) (addr : Word) (w : BitVec 4) (found : Ecc), s.bareFor r →
    spaceOf addr.toNat = .tileMem → sameSpace addr.toNat w.toNat = true →
    (found ≠ .uncorrectable → ∃ u, exec (.nonscheduledAccess r addr w .read none found) s = .next u ∧ u.hw.mem = s.hw.mem ∧
      u.resp.busError = false ∧ u.resp.data = s.hw.read addr.toNat w.toNat) ∧
    (found = .uncorrectable → ∃ u, exec (.nonscheduledAccess r addr w .read none found) s = .next u ∧ u.hw.mem = s.hw.mem ∧
      u.resp = Resp.bus))
  ∧ (∀ (r : Outsider) (addr : Word) (w : BitVec 4) (v : Word) (found : Ecc), s.bareFor r →
    spaceOf addr.toNat = .tileMem → sameSpace addr.toNat w.toNat = true →
    (s.hw.writeClosed addr.toNat w.toNat = false →
      ∃ u, exec (.nonscheduledAccess r addr w (.write v) none found) s = .next u ∧
        u = { s with hw := u.hw, resp := Resp.ok 0 } ∧ u.hw.mem = (s.hw.writeNat addr.toNat w.toNat v.toNat).mem) ∧
    (s.hw.writeClosed addr.toNat w.toNat = true →
      ∃ u, exec (.nonscheduledAccess r addr w (.write v) none found) s = .next u ∧ u.hw.mem = s.hw.mem ∧ u.resp = Resp.bus))
  ∧ (∀ (k : Hart) (addr : Word) (w : BitVec 4) (found : Ecc), s.bareFor (.load k) →
    spaceOf addr.toNat = .outside → ∃ u, exec (.nonscheduledAccess (.load k) addr w .read none found) s = .next u ∧
      u.hw = s.hw ∧ u.resp = Resp.bus ∧ (u.fliuf.harts.get HartSt.reset k).mcause = 5 ∧
      (u.fliuf.harts.get HartSt.reset k).mtval = addr)
  ∧ (∀ (k : Hart) (addr : Word) (w : BitVec 4) (p : Paging) (found : Ecc), p.root.isSome = true → p.mode ≠ 3 → canonical48 addr.toNat = false →
    ∃ u, exec (.nonscheduledAccess (.load k) addr w .read (some p) found) s = .next u ∧ u.hw = s.hw ∧ u.resp = Resp.bus ∧
      (u.fliuf.harts.get HartSt.reset k).mcause = 13 ∧ (u.fliuf.harts.get HartSt.reset k).mtval = addr)
  ∧ (∀ (k : Hart) (addr : Word) (w : BitVec 4) (p : Paging) (op : AccessOp) (found : Ecc), p.root = none → (op = .read ∨ ∃ v, op = .write v) →
    pmpAllows p.mode (Intent.of (.load k) op) addr.toNat w.toNat 0 p.pmp = false →
    ∃ u, exec (.nonscheduledAccess (.load k) addr w op (some p) found) s = .next u ∧ u.hw = s.hw ∧ u.resp = Resp.bus ∧
      (u.fliuf.harts.get HartSt.reset k).mcause = (if op = .read then 5 else 7) ∧ (u.fliuf.harts.get HartSt.reset k).mtval = addr)
  ∧ (∀ (k : Hart) (addr : Word) (w : BitVec 4) (p : Paging) (op : AccessOp) (found : Ecc) (o : Nat), p.root = none → p.mode ≠ 3 →
    (op = .read ∨ ∃ v, op = .write v) → locate addr.toNat = some (Win.fliuf, 0, o) → internalBlock o = true →
    ∃ u, exec (.nonscheduledAccess (.load k) addr w op (some p) found) s = .next u ∧
      u = { s with fliuf := { s.fliuf with harts := u.fliuf.harts }, resp := Resp.bus } ∧
      (u.fliuf.harts.get HartSt.reset k).mcause = (if op = .read then 5 else 7))
  ∧ ∀ (r : Outsider) (addr : Word) (w : BitVec 4) (op : AccessOp) (found : Ecc), hartOf r = none → (op = .read ∨ ∃ v, op = .write v) →
    s.hw.heldUp addr.toNat w.toNat = true →
    ∃ u, exec (.nonscheduledAccess r addr w op none found) s = .next u ∧
      u = { s with hw := { s.hw with tier := { s.hw.tier with
        waiting := s.hw.tier.waiting ++ [.nonscheduledAccess r addr w op none found] } } }

/-- R387, R388, R391: a core reads a line that its caches hold without memory, and a write leaves it dirty there; Zicbom's inval
drops a line unwritten, clean writes a dirty one of a scratchpad back and keeps it; a write-back that met an error is flagged
with its address, and its line is gone. -/
def Obligations.CoreCachesHoldAndWriteBackLines : Prop :=
  (∀ (s : State) (k : Hart) (addr : Word) (w : BitVec 4) (found : Ecc) (l : CoreLine),
    let a := addr.toNat
    let n := w.toNat
    s.bareFor (.load k) → s.hw.clocked = true → s.hw.coreCached a = true → s.fliuf.coreLine? (a / 64) = some l →
    (n ≤ 64 - a % 64 → ∃ u, exec (.nonscheduledAccess (.load k) addr w .read none found) s = .next u ∧ u.hw = s.hw ∧
      u.fliuf.lines = s.fliuf.lines ∧ u.resp.busError = false ∧ u.resp.data = sub l.data (a % 64) n) ∧
    (∀ v, n ≤ 64 - a % 64 → bootMemory a = false →
      ∃ u, exec (.nonscheduledAccess (.store k) addr w (.write v) none found) s = .next u ∧ u.hw = s.hw ∧ u.resp = Resp.ok 0 ∧
        u.fliuf.coreLine? (a / 64) = some ⟨a / 64, true, overlay l.data (sub (leBytes n v.toNat) 0 n) (a % 64)⟩) ∧
    (∃ u, exec (.nonscheduledAccess (.store k) addr w .inval none found) s = .next u ∧ u.hw = s.hw ∧
      u.fliuf.coreLine? (a / 64) = none) ∧
    (spaceOf a = .shared → l.dirty = true → l.data.length = 64 → s.hw.writeClosed (64 * (a / 64)) 64 = false →
      ∃ u, exec (.nonscheduledAccess (.store k) addr w .clean none found) s = .next u ∧
        u.hw.mem = (s.hw.write (64 * (a / 64)) l.data).mem ∧
        u.fliuf.coreLine? (a / 64) = some { l with dirty := false }))
  ∧ (∀ (s : State) (line : Addr), ∃ u, exec (.writebackError line) s = .next u ∧
      u = { s with hw := u.hw, fliuf := u.fliuf } ∧ u.hw.mem = s.hw.mem ∧
      u.fliuf.coreLine? (line.toNat / 64) = none ∧
      u.hw.fld sysBase Fld.SYS_WB_ADDR.addr = line.toNat ∧ u.hw.fld sysBase Fld.SYS_FLAGS.wb_err = 1 ∧
      u.hw.fld sysBase Fld.SYS_CNT_A.wb_err = (s.hw.fld sysBase Fld.SYS_CNT_A.wb_err + 1) % 2 ^ 32 ∧
      SameRegsOutside sysBase 0x100 s.hw u.hw)

/-- R18, R196 to R200: MIG_CMD keeps p and q; with go an exchange that may start makes both pages busy and takes its lane, as one
by schedule or policy does, a scheduled one before a policy exchange on its lane, which waits; a refused command shows why and
starts nothing. The end of an exchange swaps the two placements, or, for an uncorrectable word, keeps them; the one that waited
goes on, and the requests and accesses that waited are served. -/
def Obligations.ExchangesStartAndEnd : Prop :=
  (∀ (s : State) (v : Word), s.hw.clocked = true →
    let p := bitsOf v 18 0
    let q := bitsOf v 38 20
    (bitOf v 63 = false → ∃ u, exec (.migCmd v) s = .next u ∧ HwOnly s u ∧ u.hw = { s.hw with regs := u.hw.regs } ∧
      u.hw.fld lpdBase Fld.MIG_CMD.p = p ∧ u.hw.fld lpdBase Fld.MIG_CMD.q = q) ∧
    (bitOf v 63 = true → s.hw.firmwarePage p = false → s.hw.firmwarePage q = false →
      (s.hw.migRefusal p q = 0 → ∃ u, exec (.migCmd v) s = .next u ∧ HwOnly s u ∧
        tierBusy (u.hw.tierEntry p) = true ∧ tierBusy (u.hw.tierEntry q) = true ∧
        u.hw.tier.lanes.find? (s.hw.laneOf q) = some ⟨p, q, s.hw.tense0, .command⟩ ∧
        u.hw.fld lpdBase Fld.MIG_STATUS.busy = 1 ∧ u.hw.fld lpdBase Fld.MIG_STATUS.refused = 0) ∧
      (s.hw.migRefusal p q ≠ 0 → ∃ u, exec (.migCmd v) s = .next u ∧ HwOnly s u ∧ u.hw.tier = s.hw.tier ∧
        u.hw.mem = s.hw.mem ∧ u.hw.fld lpdBase Fld.MIG_STATUS.refused = s.hw.migRefusal p q)) ∧
    (bitOf v 63 = true → (s.hw.firmwarePage p = true ∨ s.hw.firmwarePage q = true) →
      ∃ u, exec (.migCmd v) s = .next u ∧ HwOnly s u ∧
        u.hw.tier = s.hw.tier ∧ u.hw.mem = s.hw.mem ∧ u.hw.fld lpdBase Fld.MIG_STATUS.refused ≠ 0))
  ∧ (∀ (s : State) (entry : Half) (m : MigEntry) (j : Job), s.hw.migrations[entry.toNat]? = some m → s.hw.job = some j →
    j.running = true → j.steps = true → j.halted = false → (m.launch < j.img.updLaunch ∨ j.result = some .clean) →
    let lane := s.hw.laneOf m.q
    s.hw.reached m.launch = true → (∀ x, s.hw.tier.lanes.find? lane = some x → x.kind = .policy) →
    ∃ u, exec (.exchangeStart entry) s = .next u ∧ HwOnly s u ∧ tierBusy (u.hw.tierEntry m.p) = true ∧
      tierBusy (u.hw.tierEntry m.q) = true ∧
      u.hw.tier.lanes.find? lane = some ⟨m.p, m.q, s.hw.tense0, .scheduled⟩ ∧
      ∀ x, s.hw.tier.lanes.find? lane = some x →
        u.hw.tier.paused.find? lane = some { x with start := s.hw.tense0 - x.start })
  ∧ (∀ (s : State) (q : BitVec 19) (p : Nat),
    let h := s.hw.rollWindow
    let e := h.tierEntry q.toNat
    h.policyPartner (tierJob e) = some p → s.hw.flag lpdBase Fld.MIG_POLICY.enable = true → h.policyPage q.toNat = true →
    tierIsT2 e = true → s.hw.fld lpdBase Fld.MIG_POLICY.threshold ≤ h.tier.counts.get 0 q.toNat →
    s.hw.laneFree (s.hw.laneOf q.toNat) = true → s.hw.exchangeFits p q.toNat = true →
    ∃ u, exec (.policyExchange q) s = .next u ∧ HwOnly s u ∧ tierBusy (u.hw.tierEntry p) = true ∧
      tierBusy (u.hw.tierEntry q.toNat) = true ∧
      u.hw.tier.lanes.find? (s.hw.laneOf q.toNat) = some ⟨p, q.toNat, s.hw.tense0, .policy⟩)
  ∧ (∀ (s : State) (lane : Channel) (x : Exchange) (unc : Bool), s.hw.tier.lanes.find? lane = some x →
    let ends := fun (u : State) => HwOnly s u ∧ exec (.exchangeComplete lane unc) s = .next u.serveAllHeld.serveWaiting ∧
      tierBusy (u.hw.tierEntry x.p) = false ∧ tierBusy (u.hw.tierEntry x.q) = false ∧
      u.hw.tier.lanes.find? lane =
        (s.hw.tier.paused.find? lane).map (fun y => { y with start := s.hw.tense0 - y.start })
    (x.start.toNat + 49280 ≤ s.hw.now → s.hw.exchangeBad x unc = false → ∃ u, ends u ∧
      bitsOf (u.hw.tierEntry x.p) 18 0 = bitsOf (s.hw.tierEntry x.q) 18 0 ∧
      bitsOf (u.hw.tierEntry x.q) 18 0 = bitsOf (s.hw.tierEntry x.p) 18 0) ∧
    ((x.start.toNat + 49280 ≤ s.hw.now ∨ unc = true) → s.hw.exchangeBad x unc = true → ∃ u, ends u ∧
      bitsOf (u.hw.tierEntry x.p) 18 0 = bitsOf (s.hw.tierEntry x.p) 18 0 ∧
      bitsOf (u.hw.tierEntry x.q) 18 0 = bitsOf (s.hw.tierEntry x.q) 18 0 ∧
      u.hw.fld lpdBase Fld.MIG_STATUS.failed = 1))

/-! ### Reduction and update -/

/-- R33, R343, R349 to R352: a contribution of this rank that reaches its slot leaves the mesh; one that the checks accept is added
or held block by block, one block of a dense slot when its turn has come or else in the pool; one for another job is rejected
with its cause (shown unless a region's epoch is held in the register that shows it, as no image has it) and changes no
accumulator; one that the die bridge discards never arrives. A flit whose blocks are all discarded changes no accumulator, no pool
and no cursor. -/
def Obligations.OwnContributionsAreAddedOrRejected : Prop :=
  (∀ (s : State) (k : Half) (found bridge : Ecc) (t : Nat) (f : Flit) (j : Job) (e : SlotEntry),
    s.hw.localAcc[k.toNat]? = some (t, f) → s.hw.job = some j → j.img.staging.slots[(contribution f).slot]? = some e →
    let g : Hw := { s.hw with localAcc := s.hw.localAcc.eraseIdx k.toNat }
    let lost := bridgeLoses (tilePoint t) (slicePoint (sliceOf e.base)) bridge
    (lost = false → Accepted s.hw j e f → ∃ u, exec (.localAccDelivery k found bridge) s = .next u ∧ HwOnly s u ∧
      u.hw.localAcc = g.localAcc ∧ u.hw.mem = (g.acceptFlit j e f true found).mem ∧
      ∀ i b bs, e.sparse = false → accBlocksOf f = [(b, bs)] → e.indexOf f.src.toNat = some i →
        s.hw.blockCheck e (contribution f) i b bs = 0 →
        u.hw.mem = (g.takeBlock (contribution f).slot e i b
          (decodeBlock (contribution f).efmt (contribution f).shift bs) found).mem) ∧
    (lost = false → f.job.toNat ≠ j.img.job → ∃ u, exec (.localAccDelivery k found bridge) s = .next u ∧ HwOnly s u ∧
      u.hw.mem = s.hw.mem ∧ u.hw.localAcc = g.localAcc ∧
      ((∀ r, s.hw.epochHome r ≠ some (sliceBase (sliceOf e.base) + Fld.SLC_STG_ERR.cause.off) ∧
          s.hw.epochHome r ≠ some (sliceBase (sliceOf e.base) + Fld.SLC_STG_FLAGS.job.off)) →
        u.hw.fld (sliceBase (sliceOf e.base)) Fld.SLC_STG_ERR.cause = 1 ∧
        u.hw.fld (sliceBase (sliceOf e.base)) Fld.SLC_STG_ERR.rank = f.src.toNat ∧
        u.hw.fld (sliceBase (sliceOf e.base)) Fld.SLC_STG_FLAGS.job = 1) ∧
      u.hw.infl.signals = s.hw.infl.signals ++ [⟨false, 13, s.hw.tense0, some (f.src, 1)⟩]) ∧
    (lost = true → ∃ u, exec (.localAccDelivery k found bridge) s = .next u ∧ HwOnly s u ∧ Discarded s.hw u.hw ∧
      u.hw.localAcc = g.localAcc))
  ∧ (∀ (h : Hw) (j : Job) (e : SlotEntry) (f : Flit) (i : Nat) (found : Ecc),
    j.steps = true → h.past e.deadline = false → e.indexOf f.src.toNat = some i →
    (∀ b ∈ accBlocksOf f, h.blockCheck e (contribution f) i b.1 b.2 ≠ 0) →
    let g := h.acceptFlit j e f true found
    g.mem = h.mem ∧ g.slices = h.slices ∧ g.localAcc = h.localAcc ∧ g.ports = h.ports)

/-- R353, R354: at its deadline a slot that lacks a contribution is incomplete, which is flagged, counted and signalled with the
contributor it waits for; a watched slot that holds a non-finite value in a complete block is flagged and signalled with cause
bit 3 (the accumulator of a block of a sparse slot that nobody sent holds open values); the slot's pool entries are free, and a
dense slot's memory stands. -/
def Obligations.StagingDeadlineChecksItsSlot : Prop :=
  ∀ (s : State) (slot : BitVec 12) (j : Job) (e : SlotEntry), s.hw.job = some j →
    j.img.staging.slots[slot.toNat]? = some e → j.running = true → j.steps = true → j.halted = false →
    s.hw.reached e.deadline = true →
    let b := sliceBase (sliceOf e.base)
    ∃ u, exec (.stagingDeadline slot) s = .next u ∧ HwOnly s u ∧ (e.sparse = false → u.hw.mem = s.hw.mem) ∧
      SameRegsOutside b 0x10000 s.hw u.hw ∧
      (∀ p ∈ (u.hw.slice (sliceOf e.base)).pool, p.1 ≠ slot.toNat) ∧
      (∀ x i, s.hw.incomplete slot.toNat e = some (x, i) → u.hw.fld b Fld.SLC_STG_FLAGS.incomplete = 1 ∧
        u.hw.fld b Fld.SLC_STG_CNT_D.incomplete = (s.hw.fld b Fld.SLC_STG_CNT_D.incomplete + 1) % 2 ^ 32 ∧
        (⟨false, 13, s.hw.tense0, some (BitVec.ofNat 14 ((e.contributors[i]?).getD 0), 0)⟩ : Signal) ∈ u.hw.infl.signals) ∧
      (s.hw.incomplete slot.toNat e = none →
        u.hw.fld b Fld.SLC_STG_FLAGS.incomplete = s.hw.fld b Fld.SLC_STG_FLAGS.incomplete) ∧
      (e.watched = true → (s.hw.blankUntouched e).nonFiniteBlock slot.toNat e ≠ none → u.hw.fld b Fld.SLC_STG_FLAGS.nonfinite = 1 ∧
        (⟨false, 3, s.hw.tense0, none⟩ : Signal) ∈ u.hw.infl.signals)

/-- R359, R366, R372: an update entry that may start runs on its engine and marks its layer; its end frees the engine; an entry
past its deadline is a miss, an update fault that halts. In a tick (a step on an empty queue: assumption 1) an engine that runs
an entry counts a busy tick. -/
def Obligations.UpdateEntriesRunEndAndMiss : Prop :=
  (∀ (s : State) (entry : BitVec 12) (ended : List (Addr × Bool)) (j : Job) (e : UpdEntry), s.hw.job = some j →
    j.img.staging.updates[entry.toNat]? = some e → j.updates = true → s.hw.reached e.launch = true →
    (s.hw.upe e.engine).running = none → j.nextEntry (s.hw.upe e.engine) entry.toNat e = true →
    ∃ u, exec (.updateEntry entry ended) s = .next u ∧ HwOnly s u ∧
      (u.hw.upe e.engine).running = some entry.toNat ∧
      (u.hw.upe e.engine).ran = (s.hw.upe e.engine).ran ++ [entry.toNat] ∧
      ((u.hw.upe e.engine).layers.get UpeLayer.none e.layer).ran = true ∧
      ∀ d, d ≠ e.engine → u.hw.upe d = s.hw.upe d)
  ∧ (∀ (s : State) (d : Stack) (k : Nat), (s.hw.upe d).running = some k →
    ∃ u, exec (.updateEntryComplete d) s = .next u ∧ HwOnly s u ∧ u.hw.mem = s.hw.mem ∧ (u.hw.upe d).running = none ∧
      (u.hw.upe d).ran = (s.hw.upe d).ran ∧
      ((∀ r, s.hw.epochHome r ≠ some (stackBase d + Fld.UPE_STATUS.busy.off)) →
        u.hw.fld (stackBase d) Fld.UPE_STATUS.busy = 0))
  ∧ (∀ (s : State) (d : Stack), s.pending = [] → s.hw.clocked = true → (∀ c, (s.hw.ctl c).held = []) →
    ∃ u, step s = .next u ∧ (u.hw.upe d).running = (s.hw.upe d).running ∧
      u.hw.fld (stackBase d) Fld.UPE_BUSY_TICKS.ticks = (s.hw.fld (stackBase d) Fld.UPE_BUSY_TICKS.ticks
        + (if (s.hw.upe d).running = none then 0 else 1)) % 2 ^ 64)
  ∧ (∀ (s : State) (d : Stack) (j : Job) (k : Nat), s.hw.job = some j → j.updates = true → missedEntry s.hw j d = some k →
    ∃ u, exec (.updateEntryDeadline d) s = .next u ∧ HwOnly s u ∧ u.hw.mem = s.hw.mem ∧
      (u.hw.upe d).missed = (s.hw.upe d).missed ++ [k] ∧ u.hw.fld (stackBase d) Fld.UPE_FLAGS.deadline = 1 ∧
      u.hw.fld (stackBase d) Fld.UPE_CNT_A.deadline = (s.hw.fld (stackBase d) Fld.UPE_CNT_A.deadline + 1) % 2 ^ 32 ∧
      u.hw.infl.signals = s.hw.infl.signals ++ [⟨true, 9, s.hw.tense0, none⟩])


/-! ### The step: causes, the Full Stop, verdict, commit -/

/-- R46, R317, R324, R325, R480: an unclean cause enters the contribution before fs_launch, halts between fs_launch and the
commit tick, is carried after it, and only counts in an idle slot; a halting fault halts with the higher cause. -/
def Obligations.CausesEnterTheContributionAreCarriedOrHalt : Prop :=
  (∀ (s : State) (k : Half) (x : Signal) (j : Job), s.hw.infl.signals[k.toNat]? = some x → s.hw.job = some j →
    let left := { s.hw.infl with signals := s.hw.infl.signals.eraseIdx k.toNat }
    let bits := s.hw.fld inflBase Fld.INFL_LOCAL.causes ||| 2 ^ x.code
    (x.halt = false → j.running = false → exec (.uncleanCauseSignal k) s = .next { s with hw := { s.hw with infl := left } }) ∧
    (x.halt = false → j.running = true → x.code < 16 → j.steps = false →
      ∃ u, exec (.uncleanCauseSignal k) s = .next u ∧ u = { s with hw := { s.hw with infl := left, regs := u.hw.regs } } ∧
        u.hw.fld inflBase Fld.INFL_LOCAL.causes = bits ∧
        u.hw.fld inflBase Fld.INFL_CNT_A.unclean_local = (s.hw.fld inflBase Fld.INFL_CNT_A.unclean_local + 1) % 2 ^ 32) ∧
    (x.halt = false → j.running = true → x.code < 16 → j.steps = true → j.launched = false → s.hw.past j.img.fsLaunch = false →
      ∃ u, exec (.uncleanCauseSignal k) s = .next u ∧ HwOnly s u ∧
        u.hw = { s.hw with infl := left, regs := u.hw.regs, job := some { j with
          first := earlier j.first x.tick, reports := noteReport j.reports x.suspect x.tick } } ∧
        u.hw.fld inflBase Fld.INFL_LOCAL.causes = bits ∧ SameRegsOutside (inflBase + Fld.INFL_LOCAL.causes.off) 8 s.hw u.hw) ∧
    (x.halt = false → j.running = true → x.code < 16 → j.steps = true → (j.launched = true ∨ s.hw.past j.img.fsLaunch = true) →
      s.hw.past j.img.commit = true → ∃ u, exec (.uncleanCauseSignal k) s = .next u ∧ HwOnly s u ∧
        u.hw = { s.hw with infl := left, regs := u.hw.regs, job := some { j with
          carried := j.carried ||| 2 ^ x.code, carriedFirst := earlier j.carriedFirst x.tick
          carriedReports := noteReport j.carriedReports x.suspect x.tick } } ∧
        u.hw.fld inflBase Fld.INFL_LOCAL.causes = bits) ∧
    (x.halt = false → j.running = true → j.steps = true → (j.launched = true ∨ s.hw.past j.img.fsLaunch = true) →
      s.hw.past j.img.commit = false → j.result ≠ some .halt → ∃ u, exec (.uncleanCauseSignal k) s = .next u ∧ HwOnly s u ∧
        u.hw.mem = s.hw.mem ∧ u.hw.fld inflBase Fld.INFL_LOCAL.halt = Nat.max 9 (s.hw.fld inflBase Fld.INFL_LOCAL.halt) ∧
        u.hw.fld inflBase Fld.INFL_RUN_STATE.phase = 5 ∧ u.hw.fld inflBase Fld.INFL_COMMIT_STATE.valid = 0) ∧
    (x.halt = true → x.code < 256 → j.result ≠ some .halt → ∃ u k', exec (.uncleanCauseSignal k) s = .next u ∧ HwOnly s u ∧
        u.hw.mem = s.hw.mem ∧ u.hw.job = some k' ∧ k'.halted = true ∧
        u.hw.fld inflBase Fld.INFL_LOCAL.halt = Nat.max x.code (s.hw.fld inflBase Fld.INFL_LOCAL.halt) ∧
        u.hw.fld inflBase Fld.INFL_RUN_STATE.phase = 5))
  ∧ ∀ (s : State) (k : Half), s.hw.infl.signals[k.toNat]? = none → exec (.uncleanCauseSignal k) s = .next s

/-- R314, R317, R244: at fs_launch the rank's contribution leaves: every part on its plane's tree slots; a rank that runs a step
awaits its verdict; memory stands. A merged part of the slot's Full Stop is kept by its number. -/
def Obligations.FullStopsAreLaunchedAndTheirPartsKept : Prop :=
  (∀ (s : State) (j : Job), s.hw.job = some j → j.running = true → j.launched = false → s.hw.reached j.img.fsLaunch = true →
    ∃ u k, exec .fullStopLaunch s = .next u ∧ HwOnly s u ∧ u.hw.mem = s.hw.mem ∧ u.hw.job = some k ∧
      k = { j with launched := true } ∧
      (j.steps = true → j.halted = false → u.hw.fld inflBase Fld.INFL_RUN_STATE.phase = 2) ∧
      (∀ p, ∃ fs, (u.hw.port p).c1 = (s.hw.port p).c1 ++ fs ∧ ∀ x ∈ fs, x.slot ∈ s.hw.stopSlots j p ∧ x.flit.cls = 1) ∧
      (j.reports = [] → (∀ p, p < 24 → j.img.fsParts ≤ (s.hw.stopSlots j p).length) →
        ∀ i, i < j.img.fsParts → s.hw.partPlane j i < 24 → ∃ x ∈ (u.hw.port (s.hw.partPlane j i)).c1,
          x.flit = s.hw.fsUp j (if j.steps then s.hw.fld inflBase Fld.INFL_LOCAL.causes else 0) 0 i))
  ∧ (∀ (s : State) (p : Port) (f : Flit) (j : Job), Deliverable s.hw p f → f.mtype = 0x11 → s.hw.job = some j →
    j.running = true → j.launched = true → msgBits f 63 0 = s.hw.slotStep j % 2 ^ 64 → msgBits f 79 64 < j.img.fsParts →
    ∃ u, exec (.fsDown p f) s = .next u ∧ HwOnly s u ∧ u.hw.mem = s.hw.mem ∧
      u.hw.job = some { j with parts := j.parts.insert (msgBits f 79 64) f.data } ∧
      SameRegsOutside (portBase p) 0x10000 s.hw u.hw)

/-- R319, R320, R322, R324, R286: the rank that holds every part of its Full Stop learns the verdict of R320's rule: it shows it,
its causes and its halt cause, takes over the new working copy, and after a Skip or an Unclean verdict its tiles drop their
update-phase commands; a rank without every part at upd_launch halts with "tree timeout" or its own higher cause, and the job ends. -/
def Obligations.VerdictsFollowTheMergedStopOrTimeOut : Prop :=
  (∀ (s : State) (j : Job), s.hw.job = some j → j.running = true → j.launched = true → j.result = none → j.holdsAll = true →
    let v := s.hw.verdictIn j
    let r := if j.steps then v.rule else v.idleRule
    ∃ u k, exec .verdict s = .next u ∧ HwOnly s u ∧ u.hw.mem = s.hw.mem ∧ u.hw.job = some k ∧ k.result = some r.code ∧
      u.hw.infl.working = r.table ∧ u.hw.infl.committed = s.hw.infl.committed ∧
      u.hw.fld inflBase Fld.INFL_VERDICT.code = r.code.code ∧ u.hw.fld inflBase Fld.INFL_CAUSE.causes = r.causes % 2 ^ 16 ∧
      u.hw.fld inflBase Fld.INFL_CAUSE.halt = (if r.code = .halt then r.halt % 256 else 0) ∧
      u.hw.fld inflBase Fld.INFL_FIRST.tick = (v.word 7).toNat ∧
      (r.code = .clean → k.nextPlan = r.plan) ∧
      (r.code = .unclean → u.hw.fld inflBase Fld.INFL_RUN_STATE.replay = r.replay % 16 ∧
        u.hw.fld inflBase Fld.INFL_RUN_STATE.plan = r.plan % 16) ∧
      (r.code = .skip → u.hw.fld inflBase Fld.INFL_FLAGS.skip = 1) ∧
      (r.code = .unclean ∨ r.code = .skip → ∀ t ∈ j.img.tiles, ∀ q, (u.hw.tile t).queue q =
        ((s.hw.tile t).queue q).filter (fun c => decide (c.launch < j.img.updLaunch))) ∧
      (r.code = .halt → k.running = false ∧ u.hw.fld sysBase Fld.SYS_JSW.state = 5 ∧
        u.hw.fld sysBase Fld.SYS_JSW.code = r.halt % 256 ∧ u.hw.fld inflBase Fld.INFL_RUN_STATE.phase = 5))
  ∧ (∀ (s : State) (j : Job), s.hw.job = some j → j.running = true → j.result = none → j.holdsAll = false →
    s.hw.reached j.img.updLaunch = true → ∃ u k, exec .treeTimeout s = .next u ∧ HwOnly s u ∧ u.hw.mem = s.hw.mem ∧
      u.hw.job = some k ∧ k.result = some .halt ∧ k.running = false ∧
      u.hw.fld inflBase Fld.INFL_CAUSE.halt = Nat.max 8 (s.hw.fld inflBase Fld.INFL_LOCAL.halt) ∧
      u.hw.fld inflBase Fld.INFL_FLAGS.halt = 1 ∧ u.hw.fld sysBase Fld.SYS_JSW.state = 5 ∧
      u.hw.fld sysBase Fld.SYS_JSW.code = Nat.max 8 (s.hw.fld inflBase Fld.INFL_LOCAL.halt))

/-- R48, R50, R322: the commit tick of a Clean verdict adds one to the committed step and takes the working copy with a run of
no skips; after a Skip only the skip counts follow; after an Unclean verdict nothing committed changes. Memory stands. -/
def Obligations.CommitsFollowTheVerdict : Prop :=
  ∀ (s : State) (j : Job), s.hw.job = some j → j.running = true → j.steps = true → j.halted = false → j.committed = false →
    s.hw.reached j.img.commit = true →
    (j.result = some .clean → ∃ u k, exec .commit s = .next u ∧ u = { s with hw := u.hw, xof := u.xof } ∧ u.hw.mem = s.hw.mem ∧
      u.hw.fld inflBase Fld.INFL_COMMIT_STEP.step = (s.hw.fld inflBase Fld.INFL_COMMIT_STEP.step + 1) % 2 ^ 64 ∧
      u.hw.fld inflBase Fld.INFL_COMMIT_STATE.valid = 1 ∧
      u.hw.fld inflBase Fld.INFL_COMMIT_STATE.plan = j.nextPlan % 16 ∧
      u.hw.fld inflBase Fld.INFL_COMMIT_TICK.tick = s.hw.now ∧
      u.hw.infl.committed = { s.hw.infl.working with skipRun := 0 } ∧ u.hw.infl.working = u.hw.infl.committed ∧
      u.hw.fld clkBase Fld.TNS_INGEST.holding = 0 ∧ u.hw.job = some k ∧ k.committed = true ∧ k.img = j.img ∧
      (s.hw.infl.working.gen = s.hw.infl.committed.gen → HwOnly s u ∧ u.hw.infl.profiles = s.hw.infl.profiles ∧
        u.hw.infl.entries = s.hw.infl.entries) ∧
      (s.hw.infl.working.gen ≠ s.hw.infl.committed.gen → u.hw.infl.profiles = s.hw.infl.stagedP ∧
        u.hw.infl.entries = s.hw.infl.stagedE ∧ (u.xof.slots.find? 5).isSome = true)) ∧
    (j.result = some .skip → ∃ u, exec .commit s = .next u ∧ HwOnly s u ∧ u.hw.mem = s.hw.mem ∧
      u.hw.infl = { s.hw.infl with committed := { s.hw.infl.committed with
        skipRun := s.hw.infl.working.skipRun, skipTotal := s.hw.infl.working.skipTotal } } ∧
      u.hw.job = some { j with committed := true } ∧ u.hw.fld clkBase Fld.TNS_INGEST.holding = 0 ∧
      u.hw.fld inflBase Fld.INFL_COMMIT_STEP.step = s.hw.fld inflBase Fld.INFL_COMMIT_STEP.step) ∧
    (j.result = some .unclean → exec .commit s = .next { s with hw := { s.hw with job := some { j with committed := true } } })

/-- R55, R416, R424, R425, R451: a share that is due stands at its destination as a container and its operation has ended; the
results of a Clean commit enter the window under their step; a right share is placed and the committed step is its own, a wrong
one refuses the start. -/
def Obligations.SharesAndResultsAreKept : Prop :=
  (∀ (s : State) (j : Job) (dest : Addr), s.hw.job = some j → j.sharePending = true → j.snapDest = some dest →
    ∃ u, exec .snapshotShareComplete s = .next u ∧ HwOnly s u ∧
      u.hw.mem = (s.hw.write dest.toNat
        (s.hw.container s.xof.serial shareMagic 3 0 j.shareTick.toNat (s.hw.shareSections j))).mem ∧
      u.hw.job = some { j with sharePending := false } ∧ u.hw.fld sysBase Fld.SYS_JSW.last_op = 3 ∧
      u.hw.fld sysBase Fld.SYS_JSW.last_result = 0 ∧ SameRegsOutside sysBase 0x60 s.hw u.hw)
  ∧ (∀ (s : State) (j : Job) (n : Nat) (found : Ecc), s.hw.job = some j → j.resultsDue = some n →
    ∃ u, exec (.resultsCapture found) s = .next u ∧ u = { s with hw := u.hw, mgmt := { s.mgmt with window := u.mgmt.window } } ∧
      u.hw.mem = s.hw.mem ∧ u.hw.job = some { j with resultsDue := none } ∧
      u.hw.fld sysBase Fld.SYS_RES_LAST.step = s.hw.stepNo ∧ u.hw.fld sysBase Fld.SYS_FLAGS.result = 1 ∧
      (∀ i, i ≠ s.hw.stepNo % 64 → u.mgmt.window.find? i = s.mgmt.window.find? i) ∧
      u.mgmt.window.find? (s.hw.stepNo % 64) = some (resultEntry s.hw.stepNo (s.hw.fld inflBase Fld.INFL_COMMIT_TICK.tick)
        (s.hw.fld inflBase Fld.INFL_COMMIT_STATE.plan) n (s.hw.fld sysBase Fld.SYS_RES_CFG.count)
        (if found = .uncorrectable then 1 else 0)
        (if found = .uncorrectable then List.replicate (8 * s.hw.fld sysBase Fld.SYS_RES_CFG.count) 0
         else s.hw.read (s.hw.fld sysBase Fld.SYS_RES_CFG.addr) (8 * s.hw.fld sysBase Fld.SYS_RES_CFG.count))))
  ∧ (∀ (s : State) (j : Job) (a : Addr), s.hw.job = some j → j.restore = some a → j.started = true → j.running = false →
    let bs := s.hw.read a.toNat (s.hw.readNat (a.toNat + 8) 8)
    (s.hw.shareRight j bs = true → ∃ u, exec .restoreShare s = .next u ∧ HwOnly s u ∧
      u.hw.job = some { j with restore := none } ∧
      u.hw.fld inflBase Fld.INFL_COMMIT_STEP.step = (wordAt ((sectionOf bs 0x20 0).getD []) 0).toNat ∧
      u.hw.fld inflBase Fld.INFL_COMMIT_STATE.valid = 1 ∧ u.hw.infl.working = u.hw.infl.committed ∧
      u.hw.infl.committed.layers.length = j.img.layers) ∧
    (s.hw.shareRight j bs = false → ∃ u, exec .restoreShare s = .next u ∧ HwOnly s u ∧ u.hw.mem = s.hw.mem ∧
      u.hw.job = some { j with started := false, restore := none } ∧ u.hw.fld sysBase Fld.SYS_JSW.state = 7 ∧
      u.hw.fld sysBase Fld.SYS_JSW.code = 3 ∧ SameRegsOutside sysBase 0x60 s.hw u.hw))

/-- R285, R293, R297, R298, R375, R423: at T0 a started job runs its first idle slot, unless its share is not placed; at the end of the
switching slot the successor's image takes over in its first hand-over slot, and the old image's measurement is cleared. An
admission ends in state 2 with the image's job, or in state 6 with the lowest failing code and nothing loaded; a release ends with
no job and the job's measurements cleared. -/
def Obligations.JobsAreAdmittedStartedSwitchedAndReleased : Prop :=
  ((∀ (s : State) (j : Job), s.hw.job = some j → j.started = true → j.running = false → j.result ≠ some .halt →
    j.t0.toNat ≤ s.hw.now →
    (j.restore = none → ∃ u k, exec .jobStart s = .next u ∧ HwOnly s u ∧ u.hw.mem = s.hw.mem ∧ u.hw.job = some k ∧
      k.running = true ∧ k.kind = .idle ∧ k.img = j.img ∧ k.result = none ∧ k.launched = false ∧
      u.hw.fld inflBase Fld.INFL_STEP_BASE.tick = j.t0.toNat ∧
      u.hw.fld inflBase Fld.INFL_RUN_STATE.phase = (if j.halted then 5 else 4) ∧ u.hw.fld sysBase Fld.SYS_JSW.state = 4) ∧
    (∀ a, j.restore = some a → ∃ u, exec .jobStart s = .next u ∧ HwOnly s u ∧ u.hw.mem = s.hw.mem ∧
      u.hw.job = some { j with started := false, restore := none } ∧ u.hw.fld sysBase Fld.SYS_JSW.state = 7 ∧
      u.hw.fld sysBase Fld.SYS_JSW.code = 3))
  ∧ (∀ (s : State) (j : Job) (i : Image), s.hw.switches = some (j, i) →
    ∃ u k, exec .successorSwitch s = .next u ∧ u = { s with hw := u.hw, xof := { s.xof with slots := s.xof.slots.erase 3 } } ∧
      u.hw.job = some k ∧ k.img = i ∧ k.kind = .handover ∧ k.successor = none ∧ k.running = j.running ∧
      k.handSent = 0 ∧ k.handOpen = 0 ∧ k.handReceived = 0 ∧
      k.t0 = BitVec.ofNat 64 (s.hw.fld inflBase Fld.INFL_STEP_BASE.tick + j.img.slot)))
  ∧ ((∀ s : State, s.mgmt.successorOp = false → s.hw.jswState = 1 → s.admissionFinding s.mgmt.staged = none →
    let i := imageOf s.mgmt.staged
    ∃ u k, exec .admissionComplete s = .next u ∧ u.hw.job = some k ∧ k.img = i ∧ k.started = false ∧
      u.hw.fld sysBase Fld.SYS_JSW.state = 2 ∧ u.hw.fld sysBase Fld.SYS_JSW.code = 0 ∧
      u.hw.fld inflBase Fld.INFL_COMMIT_STATE.valid = 1 ∧ u.hw.fld inflBase Fld.INFL_COMMIT_STATE.job = i.job % 256 ∧
      u.hw.infl.profiles = i.profiles ∧ u.hw.infl.entries = i.entries ∧ u.hw.infl.working = u.hw.infl.committed ∧
      u.mgmt.refusal = 0 ∧ u.resp = ⟨false, 0, 0, recordBytes 0⟩ ∧
      (u.xof.slots.find? 3).map (fun m => m.digest) = some (Config.sha384 s.mgmt.staged))
  ∧ (∀ (s : State) (r : BitVec 256), s.mgmt.successorOp = false → s.hw.jswState = 1 →
    s.admissionFinding s.mgmt.staged = some r → ∃ u, exec .admissionComplete s = .next u ∧ u.hw.job = s.hw.job ∧
      u.hw.mem = s.hw.mem ∧ u.hw.tiles = s.hw.tiles ∧ u.xof = s.xof ∧ u.hw.fld sysBase Fld.SYS_JSW.state = 6 ∧
      u.hw.fld sysBase Fld.SYS_JSW.code = r.toNat % 256 ∧ SameRegsOutside sysBase 0x60 s.hw u.hw ∧ u.mgmt.refusal = r ∧
      u.resp = ⟨false, 8, 0, recordBytes r⟩)
  ∧ (∀ (s : State) (j : Job), s.mgmt.successorOp = true → s.hw.job = some j → j.result ≠ some .halt →
    s.successorFinding j s.mgmt.staged = none → ∃ u, exec .admissionComplete s = .next u ∧ u.hw.mem = s.hw.mem ∧
      u.hw.job = some { j with successor := some (imageOf s.mgmt.staged),
                               switchAt := some (imageOf s.mgmt.staged).staging.switchStep } ∧
      SameRegsOutside sysBase 0x60 s.hw u.hw ∧ u.mgmt.successorOp = false ∧ u.resp = ⟨false, 0, 0, recordBytes 0⟩)
  ∧ (∀ (s : State) (j : Job), s.hw.jswState = 8 → s.hw.job = some j → ∃ u, exec .releaseComplete s = .next u ∧
      u.hw.job = none ∧ u.hw.mem = s.hw.mem ∧ u.hw.fld sysBase Fld.SYS_JSW.state = 0 ∧
      u.hw.fld sysBase Fld.SYS_JSW.last_op = 6 ∧ u.hw.fld inflBase Fld.INFL_RUN_STATE.phase = 0 ∧
      u.hw.localAcc = [] ∧ u.xof.slots.find? 3 = none ∧ u.xof.slots.find? 4 = none ∧ u.xof.slots.find? 5 = none))

/-! ### The ports -/

/-- R230, R234 to R236, R238, R244, R253: a delivered flit carries its acknowledgement and its credits, and what it acknowledges is
not sent again; an idle flit does nothing else, and nor does the release of a barrier but for its count. On a link that is not up
no message has an effect; a type that is none of its class is flagged, and marks the step unclean in class 1; a class 1 flit that
is not for this rank and job is misrouted and only counted; a class 2 flit out of order is dropped, and one ahead asks for a
resend from the expected number. -/
def Obligations.FlitsAreDeliveredOrDroppedAndFlagged : Prop :=
  (∀ (s : State) (p : Port) (f : Flit) (i : Instr) (m n : Nat),
    (i, m, n) ∈ [(Instr.idle p f, 0x00, 0), (Instr.barDown p f, 0x13, 1)] → Deliverable s.hw p f → f.mtype.toNat = m →
    ∃ u, exec i s = .next u ∧ HwOnly s u ∧ u.hw = { s.hw with regs := u.hw.regs, ports := u.hw.ports } ∧
      u.hw.fld (portBase p) Fld.PORT_LINK.credits =
        Nat.min 512 (s.hw.fld (portBase p) Fld.PORT_LINK.credits + f.cred.toNat) ∧
      (u.hw.port p).replay = acknowledge s.hw.tense0 f.lack (s.hw.port p).replay ∧
      (∀ g ∈ (u.hw.port p).resending, ∃ x ∈ (u.hw.port p).replay, x.flit.lseq = g.lseq) ∧
      u.hw.fld (portBase p) Fld.PORT_RX_FLITS.count = (s.hw.fld (portBase p) Fld.PORT_RX_FLITS.count + n) % 2 ^ 64 ∧
      (∀ q, q ≠ p.val → u.hw.port q = s.hw.port q) ∧ SameRegsOutside (portBase p) 0x70 s.hw u.hw)
  ∧ (∀ (s : State) (p : Port) (f : Flit) (found bridge : Ecc) (ended : List (Addr × Bool)) (t1 : Word) (i : Instr),
    i ∈ messageRows p f found bridge ended t1 →
    let b := portBase p
    (s.hw.linkUp p = false → (i = .trainVer p f → s.hw.portState p ≠ 3) → exec i s = .next s) ∧
    (s.hw.linkUp p = true → typeOk f (s.hw.fld b Fld.PORT_VER.link) = false → (f.cls = 2 → f.lseq = (s.hw.port p).lastRx + 1) →
      ∃ u, exec i s = .next u ∧ HwOnly s u ∧ (u.hw.mem, u.hw.job, u.hw.tiles) = (s.hw.mem, s.hw.job, s.hw.tiles) ∧
        u.hw.fld b Fld.PORT_FLAGS.bad_type = 1 ∧ u.hw.fld b Fld.PORT_ERR_INFO.rank = f.src.toNat ∧
        u.hw.fld b Fld.PORT_ERR_INFO.mtype = f.mtype.toNat ∧
        u.hw.fld b Fld.PORT_CNT_E.bad_type = (s.hw.fld b Fld.PORT_CNT_E.bad_type + 1) % 2 ^ 32 ∧
        (u.hw.port p).owed = (s.hw.port p).owed + (if f.cls = 2 then 1 else 0) ∧
        u.hw.infl.signals = s.hw.infl.signals ++
          (if f.cls = 1 ∧ s.hw.job.isSome then [⟨false, 11, s.hw.tense0, some (f.src, 1)⟩] else [])) ∧
    (s.hw.linkUp p = true → typeOk f (s.hw.fld b Fld.PORT_VER.link) = true → f.cls = 1 → s.hw.forUs f = false →
      ∃ u, exec i s = .next u ∧ HwOnly s u ∧ (u.hw.mem, u.hw.job, u.hw.tiles) = (s.hw.mem, s.hw.job, s.hw.tiles) ∧
        u.hw.fld b Fld.PORT_FLAGS.misroute = 1 ∧
        u.hw.fld b Fld.PORT_CNT_C.misroute = (s.hw.fld b Fld.PORT_CNT_C.misroute + 1) % 2 ^ 32 ∧
        u.hw.infl.signals = s.hw.infl.signals) ∧
    (s.hw.linkUp p = true → f.cls = 2 → f.lseq ≠ (s.hw.port p).lastRx + 1 →
      ∃ u, exec i s = .next u ∧ HwOnly s u ∧ (u.hw.mem, u.hw.job, u.hw.tiles) = (s.hw.mem, s.hw.job, s.hw.tiles) ∧
        (u.hw.port p).lastRx = (s.hw.port p).lastRx ∧ (u.hw.port p).owed = (s.hw.port p).owed + 1 ∧
        ((f.lseq - ((s.hw.port p).lastRx + 1)).toNat < 0x8000 → (u.hw.port p).retryAsked = true ∧
          ((s.hw.port p).retryAsked = false → ∃ g, (u.hw.port p).c3 = (s.hw.port p).c3 ++ [g] ∧ g.cls = 3 ∧ g.mtype = 0x23 ∧
            msgBits g 15 0 = ((s.hw.port p).lastRx + 1).toNat))))

/-- R221, R231, R233, R235, R236, R270: the first flit slot that begins in this tick and has not been used sends, on a link that is
up, the class 1 flit that is due; else a class 3 flit, a ping with its time; else a late class 1 flit, which is flagged and marks
the step unclean; else, with a credit, a class 2 flit, one asked for again or a new one with its number; else an idle flit. A
halted rank that awaits its verdict sends its tree flits alone (R318). -/
def Obligations.FlitSlotsSendInOrder : Prop :=
  ∀ (s : State) (p : Port), s.hw.fld clkBase Fld.TNS_ALIGN.state ≠ 3 →
    let b := portBase p
    let x := s.hw.port p
    (s.hw.freeSlot p = none → exec (.flitSlotTransmit p) s = .next s) ∧
    ∀ slot, s.hw.freeSlot p = some slot → ∃ u, exec (.flitSlotTransmit p) s = .next u ∧ HwOnly s u ∧ u.hw.mem = s.hw.mem ∧
      (u.hw.port p).slotUsed = some slot ∧ (∀ q, q ≠ p.val → u.hw.port q = s.hw.port q) ∧
      (s.hw.linkUp p = false → s.hw.portState p ≠ 3 → u.hw = s.hw.setPort p { x with slotUsed := some slot }) ∧
      (s.hw.portState p = 3 →
        (x.c3 = [] → (u.hw.port p).lastTx = x.lastTx) ∧
        ∀ f fs, x.c3 = f :: fs → (u.hw.port p).lastTx = some (s.hw.finalFlit p (s.hw.stampOut f).2) ∧ (u.hw.port p).c3 = fs) ∧
      (s.hw.linkUp p = true → s.hw.onlyTree = true →
        ((∀ t, s.hw.dueC1 p slot = some t → isTree t.flit = false) →
          (u.hw.port p).lastTx = some (s.hw.finalFlit p idleFlit) ∧ (u.hw.port p).c1 = x.c1) ∧
        ∀ t, s.hw.dueC1 p slot = some t → isTree t.flit = true →
          (u.hw.port p).lastTx = some (s.hw.finalFlit p t.flit) ∧ (u.hw.port p).c1 = x.c1.erase t) ∧
      (s.hw.linkUp p = true → s.hw.onlyTree = false →
        (∀ t, s.hw.dueC1 p slot = some t → (u.hw.port p).lastTx = some (s.hw.finalFlit p t.flit) ∧
          (u.hw.port p).c1 = x.c1.erase t ∧ (u.hw.port p).c3 = x.c3 ∧ (u.hw.port p).c2 = x.c2) ∧
        (∀ f fs, s.hw.dueC1 p slot = none → x.c3 = f :: fs →
          (u.hw.port p).lastTx = some (s.hw.finalFlit p (s.hw.stampOut f).2) ∧ (u.hw.port p).c3 = fs ∧ (u.hw.port p).c1 = x.c1 ∧
          u.hw.clk.sent = s.hw.clk.sent ++
            (if f.cls = 3 ∧ f.mtype = 0x21 then [BitVec.ofNat 64 (msgBits (s.hw.stampOut f).2 63 0)] else [])) ∧
        (∀ t, s.hw.dueC1 p slot = none → x.c3 = [] → s.hw.lateC1 p slot = some t →
          (u.hw.port p).lastTx = some (s.hw.finalFlit p t.flit) ∧ (u.hw.port p).c1 = x.c1.erase t ∧
          u.hw.fld b Fld.PORT_FLAGS.sched_late = 1 ∧
          u.hw.fld b Fld.PORT_CNT_B.sched_late = (s.hw.fld b Fld.PORT_CNT_B.sched_late + 1) % 2 ^ 32 ∧
          (s.hw.job.isSome = true → u.hw.infl.signals =
            s.hw.infl.signals ++ [⟨false, 10, s.hw.tense0, some (BitVec.ofNat 14 s.hw.rank, 3)⟩])) ∧
        (s.hw.dueC1 p slot = none → x.c3 = [] → s.hw.lateC1 p slot = none →
          (s.hw.fld b Fld.PORT_LINK.credits = 0 → (u.hw.port p).lastTx = some (s.hw.finalFlit p idleFlit) ∧
            (u.hw.port p).c2 = x.c2) ∧
          (∀ f fs, s.hw.fld b Fld.PORT_LINK.credits ≠ 0 → x.resending = f :: fs →
            (u.hw.port p).lastTx = some (s.hw.finalFlit p f) ∧ (u.hw.port p).resending = fs ∧
            u.hw.fld b Fld.PORT_CNT_C.retry = (s.hw.fld b Fld.PORT_CNT_C.retry + 1) % 2 ^ 32 ∧
            u.hw.fld b Fld.PORT_LINK.credits = s.hw.fld b Fld.PORT_LINK.credits - 1) ∧
          (∀ f fs, s.hw.fld b Fld.PORT_LINK.credits ≠ 0 → x.resending = [] → x.replay.length < 512 → x.c2 = f :: fs →
            (u.hw.port p).lastTx = some (s.hw.finalFlit p { f with lseq := x.nextSeq }) ∧ (u.hw.port p).c2 = fs ∧
            (u.hw.port p).nextSeq = x.nextSeq + 1 ∧
            (u.hw.port p).replay = x.replay ++ [⟨{ f with lseq := x.nextSeq }, 1, s.hw.tense0⟩] ∧
            u.hw.fld b Fld.PORT_LINK.credits = s.hw.fld b Fld.PORT_LINK.credits - 1)))

/-- R33, R211, R240 to R242: a WRITE performs its bytes, those of a lost unit apart, or, outside the remote range or into what is
closed to class 2, is rejected; the last flit of a class 2 message is answered with its status. A READ_REQ is answered in parts
of 224 bytes, or rejected. What the die bridge discards is not performed, and its DONE says that it failed (the model's choice:
assumption 82). -/
def Obligations.RemoteWritesAndReadsAreAnswered : Prop :=
  (∀ (s : State) (p : Port) (f : Flit) (ended : List (Addr × Bool)) (bridge : Ecc), Deliverable s.hw p f → f.mtype = 0x01 →
    let a := msgBits f 47 0
    let n := (flitBytes f).length
    let reach := s.hw.remoteReach a n
    let lost := reach && bridgeLoses (portPoint p) (s.hw.pointOf a) bridge
    let bad := !reach || (decide (f.cls = 2) && s.hw.remoteClosed a n)
    let status := if lost then 2 else if bad then 3 else worst ((tierLines a n).map (s.hw.lineStatus ended))
    ∃ u, exec (.write p f ended bridge) s = .next u ∧ HwOnly s u ∧
      (lost = true → u.hw.mem = s.hw.mem ∧ u.hw.tier.bridgeUncFlag = true ∧ u.hw.tier.bridgeUnc = s.hw.tier.bridgeUnc + 1 ∧
        (s.hw.job.isSome = true →
          (⟨false, 7, s.hw.tense0, some (BitVec.ofNat 14 s.hw.rank, 4)⟩ : Signal) ∈ u.hw.infl.signals)) ∧
      (lost = false → bad = false → u.hw.mem = ((s.hw.write a (flitBytes f)).keepLost s.hw).mem) ∧
      (lost = false → bad = true → u.hw.mem = s.hw.mem ∧ u.hw.fld (portBase p) Fld.PORT_FLAGS.rejected = 1 ∧
        u.hw.fld (portBase p) Fld.PORT_CNT_E.rejected = (s.hw.fld (portBase p) Fld.PORT_CNT_E.rejected + 1) % 2 ^ 32) ∧
      (f.cls = 1 → (u.hw.port p).c2 = (s.hw.port p).c2) ∧
      (f.cls = 2 → (u.hw.port p).owed = (s.hw.port p).owed + 1) ∧
      (f.cls = 2 → f.last = false → (u.hw.port p).c2 = (s.hw.port p).c2) ∧
      (f.cls = 2 → f.last = true → (s.hw.port p).failing = [] →
        ∃ g, (u.hw.port p).c2 = (s.hw.port p).c2 ++ [g] ∧ g.mtype = 0x05 ∧ g.dst = f.src ∧
          g.msg = BitVec.ofNat 96 (msgBits f 63 48 * 2 ^ 48 + status * 2 ^ 64)))
  ∧ (∀ (s : State) (p : Port) (f : Flit) (found bridge : Ecc) (ended : List (Addr × Bool)), Deliverable s.hw p f →
    f.mtype = 0x02 →
    let a := msgBits f 47 0
    let n := msgBits f 87 64
    let reach := s.hw.remoteReach a n
    let lost := reach && bridgeLoses (s.hw.pointOf a) (portPoint p) bridge
    ∃ u, exec (.readReq p f found ended bridge) s = .next u ∧ HwOnly s u ∧ u.hw.mem = s.hw.mem ∧
      (lost = true → (u.hw.port p).c2 = (s.hw.port p).c2 ∧ (u.hw.port p).c1 = (s.hw.port p).c1 ∧
        u.hw.tier.bridgeUncFlag = true ∧ u.hw.tier.bridgeUnc = s.hw.tier.bridgeUnc + 1) ∧
      (f.cls = 2 → (u.hw.port p).owed = (s.hw.port p).owed + 1) ∧
      (f.cls = 2 → reach = true → lost = false → (u.hw.port p).c2 =
        (s.hw.port p).c2 ++ (List.range (ceilDiv n 224)).map ((s.hw.asTarget found a).answerPart f ended)) ∧
      (f.cls = 2 → reach = false → u.hw.fld (portBase p) Fld.PORT_FLAGS.rejected = 1 ∧
        (u.hw.port p).c2 = (s.hw.port p).c2 ++ [s.hw.rejectedAnswer f]) ∧
      (f.cls = 1 → lost = false → ∀ j k slot, s.hw.job = some j →
        (s.hw.windowSlots p (msgBits f 95 88))[j.respSent.get 0 (p * 256 + msgBits f 95 88) + k]? = some slot →
        (reach = true → k < ceilDiv n 224 →
          ∃ x ∈ (u.hw.port p).c1, x.slot = slot ∧ x.flit = (s.hw.asTarget found a).answerPart f ended k) ∧
        (reach = false → k = 0 → ∃ x ∈ (u.hw.port p).c1, x.slot = slot ∧ x.flit = s.hw.rejectedAnswer f)))

/-- R242, R247, R420: a class 2 response, a DONE, a management flit and a RESET still to come enter the receive ring of the port
where it has room, and their credit returns; a full ring holds them. Software moves the rings' pointers modulo their size. -/
def Obligations.FliufsRingsTakeFlitsWhileTheyHaveRoom : Prop :=
  (∀ (s : State) (p : Port) (f : Flit) (bridge : Ecc) (i : Instr) (m : Nat),
    (i, m) ∈ [(Instr.readRsp p f bridge, 0x03), (Instr.done p f, 0x05), (Instr.mgmt p f, 0x30),
      (Instr.resetMessage p f, 0x16)] →
    Deliverable s.hw p f → f.mtype.toNat = m → f.cls = 2 → (m = 0x16 → s.hw.now ≤ msgBits f 63 0) →
    let b := portBase p
    let tail := s.hw.fld b Fld.PORT_UR_PTR.tail
    ∃ u, exec i s = .next u ∧ HwOnly s u ∧
      (s.hw.ringFull p = false → (s.hw.port p).rxHeld = [] →
        u.hw.mem = (s.hw.write (s.hw.fld b Fld.PORT_UR_BASE.base + 256 * tail) (flitImage f)).mem ∧
        u.hw.fld b Fld.PORT_UR_PTR.tail = (tail + 1) % 2 ^ s.hw.fld b Fld.PORT_UR_BASE.size ∧
        (u.hw.port p).owed = (s.hw.port p).owed + 1 ∧ (u.hw.port p).rxHeld = []) ∧
      ((s.hw.ringFull p = true ∨ (s.hw.port p).rxHeld ≠ []) → u.hw.mem = s.hw.mem ∧
        (u.hw.port p).rxHeld = (s.hw.port p).rxHeld ++ [f] ∧ (u.hw.port p).owed = (s.hw.port p).owed) ∧
      (m = 0x16 → u.hw.clk.resetAt = some (BitVec.ofNat 64 (msgBits f 63 0))))
  ∧ (∀ (s : State) (p : Port) (tail : Half), s.hw.clocked = true →
    ∃ u, exec (.uqTailWrite p tail) s = .next u ∧ u = { s with hw := { s.hw with regs := u.hw.regs }, resp := Resp.ok 0 } ∧
      u.hw.fld (portBase p) Fld.PORT_UQ_PTR.tail = tail.toNat % 2 ^ s.hw.fld (portBase p) Fld.PORT_UQ_BASE.size ∧
      u.hw.fld (portBase p) Fld.PORT_UQ_PTR.head = s.hw.fld (portBase p) Fld.PORT_UQ_PTR.head ∧
      SameRegsOutside (portBase p + Fld.PORT_UQ_PTR.tail.off) 8 s.hw u.hw)
  ∧ (∀ (s : State) (p : Port) (head : Half), s.hw.clocked = true →
    let b := portBase p
    let size := 2 ^ s.hw.fld b Fld.PORT_UR_BASE.size
    let tail := s.hw.fld b Fld.PORT_UR_PTR.tail
    ∃ u, exec (.urHeadWrite p head) s = .next u ∧ u = { s with hw := u.hw, resp := Resp.ok 0 } ∧
      u.hw.fld b Fld.PORT_UR_PTR.head = head.toNat % size ∧ SameRegsOutside (b + Fld.PORT_UR_PTR.head.off) 8 s.hw u.hw ∧
      ((s.hw.port p).rxHeld = [] → u.hw.mem = s.hw.mem ∧ u.hw.ports = s.hw.ports) ∧
      (∀ f, (s.hw.port p).rxHeld = [f] → (tail + 1) % size ≠ head.toNat % size → (u.hw.port p).rxHeld = [] ∧
        (u.hw.port p).owed = (s.hw.port p).owed + 1 ∧
        u.hw.mem = (s.hw.write (s.hw.fld b Fld.PORT_UR_BASE.base + 256 * tail) (flitImage f)).mem))

/-- R33, R149, R241, R242, R349: the bytes of a class 1 READ_RSP reach the destination of the RREAD they answer, and a failed one
marks the step unclean; a class 1 contribution is combined at its slot if its checks accept it, one of another generation is
rejected with its cause (shown unless a region's epoch is held in the register that shows it, as no image has it), and one of
class 2 is rejected. What the die bridge discards on the way arrives nowhere. -/
def Obligations.ScheduledResponsesAndContributionsAreDelivered : Prop :=
  (∀ (s : State) (p : Port) (f : Flit) (bridge : Ecc) (t q : Nat) (r : Running), Deliverable s.hw p f → f.mtype = 0x03 →
    f.cls = 1 → s.hw.rreadOf (msgBits f 63 48) = some (t, q, r) →
    let lost := bridgeLoses (portPoint p) (tilePoint t) bridge
    ∃ u, exec (.readRsp p f bridge) s = .next u ∧ HwOnly s u ∧
      (lost = true → u.hw.mem = s.hw.mem ∧ u.hw.tiles = s.hw.tiles ∧ u.hw.tier.bridgeUncFlag = true ∧
        u.hw.tier.bridgeUnc = s.hw.tier.bridgeUnc + 1) ∧
      (∀ k x, lost = false → msgBits f 83 80 = 0 → r.answered f = [(k, x)] → spaceOf x.dst.toNat ≠ .tiered →
        u.hw.mem = (s.hw.engineStore x.dst.toNat
          (((flitBytes f).drop (x.src.toNat - r.remote.toNat - msgBits f 47 0)).take x.len)).mem) ∧
      (lost = false → msgBits f 83 80 ≠ 0 → u.hw.mem = s.hw.mem ∧
        (s.hw.job.isSome = true → (⟨false, 5, s.hw.tense0, some (f.src, 2)⟩ : Signal) ∈ u.hw.infl.signals)))
  ∧ (∀ (s : State) (p : Port) (f : Flit) (found bridge : Ecc) (j : Job) (e : SlotEntry), Deliverable s.hw p f →
    f.mtype = 0x04 → s.hw.job = some j → j.img.staging.slots[(contribution f).slot]? = some e →
    let g := (s.hw.accepts p f).1
    let b := sliceBase (sliceOf e.base)
    let lost := bridgeLoses (portPoint p) (slicePoint (sliceOf e.base)) bridge
    ∃ u, exec (.accFlit p f found bridge) s = .next u ∧ HwOnly s u ∧
      (f.cls = 1 → lost = true → u.hw.mem = s.hw.mem ∧ u.hw.slices = s.hw.slices ∧ u.hw.tier.bridgeUncFlag = true ∧
        u.hw.tier.bridgeUnc = s.hw.tier.bridgeUnc + 1) ∧
      (f.cls = 1 → lost = false → Accepted s.hw j e f → u.hw.mem = (g.acceptFlit j e f false found).mem ∧
        ∀ i n bs, e.sparse = false → accBlocksOf f = [(n, bs)] → e.indexOf f.src.toNat = some i →
          s.hw.blockCheck e (contribution f) i n bs = 0 →
          u.hw.mem = (g.takeBlock (contribution f).slot e i n
            (decodeBlock (contribution f).efmt (contribution f).shift bs) found).mem) ∧
      (f.cls = 1 → lost = false → 0x20 ≤ s.hw.domainVer →
        f.gen.toNat ≠ s.hw.fld inflBase Fld.INFL_COMMIT_STATE.layout_gen → u.hw.mem = s.hw.mem ∧
        ((∀ r, s.hw.epochHome r ≠ some (b + Fld.SLC_STG_ERR.cause.off)) → u.hw.fld b Fld.SLC_STG_ERR.cause = 2) ∧
        u.hw.infl.signals = s.hw.infl.signals ++ [⟨false, 13, s.hw.tense0, some (f.src, 1)⟩]) ∧
      (f.cls = 2 → u.hw.mem = s.hw.mem ∧ u.hw.fld (portBase p) Fld.PORT_FLAGS.rejected = 1 ∧
        (u.hw.port p).owed = (s.hw.port p).owed + 1))

/-- R221, R234 to R236, R253, R255, R267: unacknowledged flits are sent again on a request and after 2,048 ticks, and one sent
eight times already loses the link; a corrupted flit is flagged and asks for a resend, each class 2 flit discarded returns its
credit, and codeword 0 takes the interval marker with it; a receive count that is not the tally's is a loss of a scheduled flit.
Each of the last two marks the step unclean. A lost link halts, but framing that is locked again in the coarse stage of alignment
is not lost. -/
def Obligations.LinksRecoverOrAreLost : Prop :=
  (∀ (s : State) (p : Port) (f : Flit) (i : Nat), Deliverable s.hw p f → f.mtype = 0x23 →
    let r := acknowledge s.hw.tense0 f.lack (s.hw.port p).replay
    r.findIdx? (fun u => decide (u.flit.lseq = BitVec.ofNat 16 (msgBits f 15 0))) = some i →
    ∃ u, exec (.retryReq p f) s = .next u ∧ HwOnly s u ∧ Resent s.hw u.hw p (r.drop i))
  ∧ (∀ (s : State) (p : Port) (x : Unacked) (xs : List Unacked), s.hw.linkUp p = true → (s.hw.port p).replay = x :: xs →
    (x.since.toNat + 2048 ≤ s.hw.now → ∃ u, exec (.retryTimeout p) s = .next u ∧ HwOnly s u ∧ Resent s.hw u.hw p (x :: xs)) ∧
    (s.hw.now < x.since.toNat + 2048 → exec (.retryTimeout p) s = .next s))
  ∧ (∀ (s : State) (p : Port) (x : Corruption), s.hw.linkUp p = true →
    ∃ u, exec (.corruptFlit p x) s = .next u ∧ HwOnly s u ∧ u.hw.mem = s.hw.mem ∧
      (u.hw.port p).retryAsked = true ∧ (u.hw.port p).lastRx = (s.hw.port p).lastRx ∧
      (∀ k class2, x = .codeword k class2 → u.hw.fld (portBase p) Fld.PORT_FLAGS.fec_unc = 1 ∧
        (u.hw.port p).owed = (s.hw.port p).owed + ((class2.take (codewordSlots k).length).filter id).length ∧
        (u.hw.port p).badMarker = if k.val = 0 then some (s.hw.now / 128) else (s.hw.port p).badMarker) ∧
      (∀ slot class2, x = .crc slot class2 → u.hw.fld (portBase p) Fld.PORT_FLAGS.crc = 1 ∧
        (u.hw.port p).owed = (s.hw.port p).owed + (if class2 = true then 1 else 0)) ∧
      (s.hw.job.isSome = true → u.hw.infl.signals =
        s.hw.infl.signals ++ [⟨false, 8, s.hw.tense0, some (BitVec.ofNat 14 s.hw.rank, 3)⟩]))
  ∧ (∀ (s : State) (p : Port) (j : Job) (n : Nat), s.hw.job = some j → j.running = true →
    Config.tallyLag + 128 ≤ s.hw.now →
    let i := (s.hw.now - Config.tallyLag) / 128 - 1
    s.hw.tallyFor j p i = some n →
    ((s.hw.port p).counts.get 0 i = n → ∃ u, exec (.tallyClose p) s = .next u ∧
      u = { s with hw := { s.hw with ports := u.hw.ports } }) ∧
    ((s.hw.port p).counts.get 0 i ≠ n → ∃ u, exec (.tallyClose p) s = .next u ∧ HwOnly s u ∧ u.hw.mem = s.hw.mem ∧
      u.hw.fld (portBase p) Fld.PORT_FLAGS.sched_loss = 1 ∧
      u.hw.fld (portBase p) Fld.PORT_CNT_B.sched_loss = (s.hw.fld (portBase p) Fld.PORT_CNT_B.sched_loss + 1) % 2 ^ 32 ∧
      u.hw.infl.signals = s.hw.infl.signals ++ [⟨false, 9, s.hw.tense0, none⟩]))
  ∧ (∀ (s : State) (p : Port) (why : LinkLoss),
    (s.hw.linkUp p = true → (why = .framing → s.hw.relocking = false) →
      ∃ u, exec (.linkLost p why) s = .next u ∧ HwOnly s u ∧ LinkDown s.hw u.hw p) ∧
    (s.hw.linkUp p = false ∨ (why = .framing ∧ s.hw.relocking = true) → exec (.linkLost p why) s = .next s))

/-- R224, R225, R248: training of a port that is enabled begins at the lane check while no job is admitted; its stages follow
Table 6.2, a failure starts again and the third ends the sequence, as lane faults do; the exchange of versions brings the link
up at the smaller vmax, or ends without a common version. -/
def Obligations.PortsTrainToACommonVersion : Prop :=
  (∀ (s : State) (p : Port), s.hw.clocked = true →
    (s.hw.job = none → s.hw.flag (portBase p) Fld.PORT_TRAIN.enable = true → ∃ u, exec (.portTrainStart p) s = .next u ∧
      u = { s with hw := u.hw, resp := Resp.ok 0 } ∧ u.hw.mem = s.hw.mem ∧ (u.hw.port p).stage = .laneCheck ∧
      u.hw.portState p = 1 ∧ u.hw.fld (portBase p) Fld.PORT_TRAIN.attempts = 0 ∧
      (u.hw.port p).rxHeld = (s.hw.port p).rxHeld ∧ SameRegsOutside (portBase p) 0x70 s.hw u.hw) ∧
    (s.hw.job = none → s.hw.flag (portBase p) Fld.PORT_TRAIN.enable = false →
      exec (.portTrainStart p) s = .next { s with resp := Resp.ok 0 }) ∧
    (∀ j, s.hw.job = some j → exec (.portTrainStart p) s = .next { s with resp := Resp.bus }))
  ∧ (∀ (s : State) (p : Port) (r : StageEnd),
    let n := s.hw.fld (portBase p) Fld.PORT_TRAIN.attempts
    ((s.hw.port p).stage.active = false → exec (.trainingStageEnd p r) s = .next s) ∧
    ((s.hw.port p).stage.active = true → ∃ u, exec (.trainingStageEnd p r) s = .next u ∧ HwOnly s u ∧ u.hw.mem = s.hw.mem ∧
      SameRegsOutside (portBase p) 0x10000 s.hw u.hw ∧
      (r = .failed → n < 2 → (u.hw.port p).stage = .laneCheck ∧ u.hw.portState p = 1 ∧
        u.hw.fld (portBase p) Fld.PORT_TRAIN.attempts = n + 1) ∧
      (r = .failed → 2 ≤ n → (u.hw.port p).stage = .down ∧ u.hw.portState p = 5) ∧
      (∀ a b c, r = .laneFault a b c → (u.hw.port p).stage = .down ∧ u.hw.portState p = 5 ∧
        u.hw.fld (portBase p) Fld.PORT_TRAIN.lane_open = a.toNat ∧ u.hw.fld (portBase p) Fld.PORT_TRAIN.lane_short = b.toNat ∧
        u.hw.fld (portBase p) Fld.PORT_TRAIN.lane_dead = c.toNat ∧ u.hw.fld (portBase p) Fld.PORT_FLAGS.lane_fault = 1) ∧
      (∀ a b, r = .done a b →
        ((s.hw.port p).stage = .laneCheck → (u.hw.port p).stage = .training ∧ u.hw.portState p = 2) ∧
        ((s.hw.port p).stage = .training → (u.hw.port p).stage = .framing ∧
          u.hw.fld (portBase p) Fld.PORT_TRAIN.precode = a.toNat ∧ u.hw.fld (portBase p) Fld.PORT_TRAIN.inverted = b.toNat) ∧
        ((s.hw.port p).stage = .framing → (u.hw.port p).stage = .version ∧ u.hw.portState p = 3 ∧
          (u.hw.port p).c3 = (s.hw.port p).c3 ++ [s.hw.trainVerFlit]))))
  ∧ (∀ (s : State) (p : Port) (f : Flit), s.hw.portState p = 3 → f.cls = 3 → f.mtype = 0x20 →
    let link := Nat.min (msgBits f 7 0) s.hw.clk.vmax
    ∃ u, exec (.trainVer p f) s = .next u ∧ HwOnly s u ∧ u.hw.mem = s.hw.mem ∧
      u.hw.fld (portBase p) Fld.PORT_VER.peer = msgBits f 7 0 ∧
      (Nat.max (msgBits f 15 8) 0x10 ≤ link → u.hw.portState p = 4 ∧ u.hw.fld (portBase p) Fld.PORT_VER.link = link ∧
        u.hw.fld (portBase p) Fld.PORT_LINK.credits = 512 ∧ (u.hw.port p).stage = .up) ∧
      (link < Nat.max (msgBits f 15 8) 0x10 → u.hw.portState p = 5 ∧ (u.hw.port p).stage = .down))

/-! ### Clocks and Tense -/

/-- R179, R194, R265: TNS_NOW returns Tense; a 64-bit read is one read of it; a read of the low half latches the high half, which the
next read of the high half by the same requester returns. Segment modes are written while no admitted job claims the slice, and a
segment that turns reads as zero; a claimed slice answers a bus error. A quota is pending while its job is admitted, and otherwise
holds at once. -/
def Obligations.TenseSegmentModesAndQuotas : Prop :=
  ((∀ (s : State) (r : Outsider) (part : BitVec 2), s.hw.clocked = true → (part = 0 ∨ part = 3) →
    exec (.tnsNowRead r part) s = .next { s with resp := Resp.ok s.hw.tense0 })
  ∧ (∀ (s : State) (r : Outsider), s.hw.clocked = true → ∃ u, exec (.tnsNowRead r 1) s = .next u ∧
      u = { s with hw := { s.hw with clk := u.hw.clk }, resp := Resp.ok (BitVec.ofNat 64 (s.hw.now % 2 ^ 32)) } ∧
      ∀ v : State, v.hw.clocked = true → v.hw.clk.latch = u.hw.clk.latch →
        ∃ w, exec (.tnsNowRead r 2) v = .next w ∧ HwOnly { v with resp := w.resp } w ∧
          w.resp = Resp.ok (BitVec.ofNat 64 (s.hw.now / 2 ^ 32)))
  ∧ (∀ (s : State) (r : Outsider), s.hw.clocked = true → s.hw.clk.latch.find? (requesterKey r) = none →
      ∃ u, exec (.tnsNowRead r 2) s = .next u ∧
        u.resp = Resp.ok (BitVec.ofNat 64 (s.hw.now / 2 ^ 32)) ∧ u.hw.tense0 = s.hw.tense0))
  ∧ ((∀ (s : State) (sl : Slice) (v : Half), s.hw.clocked = true →
    (s.hw.flag (sliceBase sl) Fld.SLC_STATUS.admitted = false →
      ∃ u, exec (.segmentConfigWrite sl v) s = .next u ∧ u = { s with hw := u.hw, resp := Resp.ok 0 } ∧
        u.hw.fld (sliceBase sl) Fld.SLC_SEG_CFG.cache = v.toNat ∧
        ∀ i a, i < 16 → s.hw.fld (sliceBase sl) Fld.SLC_SEG_CFG.cache / 2 ^ i % 2 ≠ v.toNat / 2 ^ i % 2 →
          sharedBase + sl * 0x400000 + i * 0x40000 ≤ a → a < sharedBase + sl * 0x400000 + (i + 1) * 0x40000 →
          u.hw.byte a = 0) ∧
    (s.hw.flag (sliceBase sl) Fld.SLC_STATUS.admitted = true →
      ∃ u, exec (.segmentConfigWrite sl v) s = .next u ∧ u = { s with hw := u.hw, resp := Resp.bus } ∧
        u.hw.mem = s.hw.mem ∧
        u.hw.fld (sliceBase sl) Fld.SLC_SEG_CFG.cache = s.hw.fld (sliceBase sl) Fld.SLC_SEG_CFG.cache ∧
        u.hw.fld (sliceBase sl) Fld.SLC_FLAGS.bus_err = 1))
  ∧ (∀ (s : State) (v : Word), s.hw.clocked = true → ∃ u, exec (.quotaWrite v) s = .next u ∧ HwOnly s u ∧
      u.hw = { s.hw with tier := u.hw.tier } ∧ u.hw.tier.map = s.hw.tier.map ∧
      (s.hw.admittedAs (s.hw.fld lpdBase Fld.TIER_QSEL.job) = true → u.hw.tier.quota = s.hw.tier.quota ∧
        u.hw.tier.pendingQuota.find? (s.hw.fld lpdBase Fld.TIER_QSEL.job) = some (quotaMask v)) ∧
      (s.hw.admittedAs (s.hw.fld lpdBase Fld.TIER_QSEL.job) = false →
        u.hw.tier.pendingQuota = s.hw.tier.pendingQuota ∧
        u.hw.quotaOf (s.hw.fld lpdBase Fld.TIER_QSEL.job) = quotaMask v)))

/-- R27, R267 to R272: alignment goes from armed to coarse at the sync edge, which loads both copies of Tense; a ping is echoed
with its own time and that of its receipt, and the exchanges of aligned echoes are kept, of sixteen pings at the most; the fine
correction is that of the best exchange; the completion message ends it in state 4 with the domain version in every port, or in
state 5; so does a limit that passes. -/
def Obligations.AlignmentGoesFromArmedToAligned : Prop :=
  (∀ s : State, s.hw.clocked = true →
    (s.hw.mayArm = true → ∃ u, exec .alignArm s = .next u ∧ u = { s with hw := u.hw, resp := Resp.ok 0 } ∧
      u.hw.mem = s.hw.mem ∧ u.hw.fld clkBase Fld.TNS_ALIGN.state = 1 ∧ u.hw.fld clkBase Fld.TNS_ALIGN.cause = 0 ∧
      u.hw.clk.pings = [] ∧ u.hw.clk.sent = [] ∧ u.hw.clk.locked = []) ∧
    (s.hw.mayArm = false → exec .alignArm s = .next { s with resp := Resp.bus }))
  ∧ (∀ s : State, (s.hw.fld clkBase Fld.TNS_ALIGN.state = 1 → ∃ u, exec .syncPulse s = .next u ∧ HwOnly s u ∧
      u.hw.mem = s.hw.mem ∧ u.hw.tense0 = s.hw.reg (clkBase + Fld.TNS_SYNC.value.off) ∧ u.hw.tense1 = u.hw.tense0 ∧
      u.hw.fld clkBase Fld.TNS_ALIGN.state = 2) ∧
    (s.hw.fld clkBase Fld.TNS_ALIGN.state ≠ 1 → exec .syncPulse s = .next s))
  ∧ (∀ (s : State) (p : Port) (f : Flit) (received : Word), Deliverable s.hw p f → f.mtype = 0x21 →
    ∃ u g, exec (.alignPing p f received) s = .next u ∧ HwOnly s u ∧ u.hw.mem = s.hw.mem ∧
      (u.hw.port p).c3 = (s.hw.port p).c3 ++ [g] ∧ g.cls = 3 ∧ g.mtype = 0x22 ∧ msgBits g 63 0 = msgBits f 63 0 ∧
      g.data = dataOf (leBytes 8 received.toNat ++ leBytes 8 0 ++ leBytes 1 (if s.hw.repliesAligned then 1 else 0)))
  ∧ (∀ (s : State) (p : Port) (f : Flit) (t4 : Word), Deliverable s.hw p f → f.mtype = 0x22 →
    let t1 := BitVec.ofNat 64 (msgBits f 63 0)
    let aligned := decide (f.data.toNat / 2 ^ 128 % 2 = 1)
    let counts := s.hw.fineStage && decide (s.hw.fld clkBase Fld.TNS_ALIGN.plane = p.val) && s.hw.clk.sent.contains t1
    ∃ u, exec (.alignEcho p f t4) s = .next u ∧ HwOnly s u ∧ u.hw.mem = s.hw.mem ∧
      u.hw.clk.pings = s.hw.clk.pings ++
        (if counts && aligned then [exchangeOf t1 (partWord f.data 0) (partWord f.data 1) t4] else []) ∧
      (counts = true → aligned = true → s.hw.clk.pings = [] → u.hw.clk.sent.head? = some t1 ∧ u.hw.clk.sent.length ≤ 16) ∧
      (s.hw.clk.pings ≠ [] → u.hw.clk.sent = s.hw.clk.sent))
  ∧ (∀ (s : State) (x : Int × Int), s.hw.fineStage = true → 16 ≤ s.hw.clk.sent.length → 8 ≤ s.hw.clk.pings.length →
    bestExchange s.hw.clk.pings = some x → ∃ u, exec .fineCorrection s = .next u ∧ HwOnly s u ∧ u.hw.mem = s.hw.mem ∧
      u.hw.tense0 = s.hw.tense0 + BitVec.ofInt 64 (round32th x.1) ∧ u.hw.tense1 = u.hw.tense0 ∧
      u.hw.fld clkBase Fld.TNS_OFFSET.correction = unsigned 32 (round32th x.1) ∧ u.hw.clk.completing = true ∧
      u.hw.fld clkBase Fld.TNS_ALIGN.state = 3)
  ∧ (∀ (s : State) (p : Port) (f : Flit), Deliverable s.hw p f → isCompletion f = true → s.hw.alignState = 3 →
    s.hw.clk.completing = true → s.hw.fld clkBase Fld.TNS_ALIGN.plane = p.val →
    ∃ u, exec (.alignComplete p f) s = .next u ∧ HwOnly s u ∧ u.hw.mem = s.hw.mem ∧ u.hw.clk.completing = false ∧
      ((partWord f.data 0).toNat = s.hw.clk.domain → u.hw.alignState = 4 ∧ u.hw.clk.aligned = true ∧
        ∀ q, q < 24 → (u.hw.port q).baseline = none ∧
          u.hw.fld (portBase q) Fld.PORT_VER.domain = (0xFF - (partWord f.data 1).toNat) % 256) ∧
      ((partWord f.data 0).toNat ≠ s.hw.clk.domain → u.hw.alignState = 5 ∧ u.hw.fld clkBase Fld.TNS_ALIGN.cause = 5 ∧
        u.hw.fld clkBase Fld.CLK_FLAGS.align_fail = 1))
  ∧ (∀ (s : State) (c : Nat), (s.hw.alignState, s.hw.clk.completing, s.hw.clk.pings.isEmpty, c) ∈
      [(1, false, true, 1), (1, true, true, 1), (1, false, false, 1), (1, true, false, 1), (2, false, true, 2), (2, true, true, 2),
       (2, false, false, 2), (2, true, false, 2), (3, false, false, 3), (3, true, true, 4), (3, true, false, 4)] →
    ∃ u, exec .alignTimeout s = .next u ∧ HwOnly s u ∧ u.hw.mem = s.hw.mem ∧ u.hw.alignState = 5 ∧
      u.hw.fld clkBase Fld.TNS_ALIGN.cause = c ∧ u.hw.fld clkBase Fld.CLK_FLAGS.align_fail = 1 ∧
      u.hw.fld clkBase Fld.CLK_CNT_C.align_fail = (s.hw.fld clkBase Fld.CLK_CNT_C.align_fail + 1) % 2 ^ 32)

/-- R27, R221, R253, R260, R262, R273: a bad window of the reference that has been released or a slip of the released root PLL
halts the job, leaves Tense unaligned and starts the holdover, and two good windows bring the reference back; copies of Tense that
differ halt it; so does a marker that drifts more than one tick from its baseline, but for one in an uncorrectable codeword, and
each marker brings the count of symbols corrected; a lane FIFO fault loses its own interface. -/
def Obligations.ClockFaultsHaltAndUnalign : Prop :=
  (∀ (s : State) (count : Half), s.hw.flag clkBase Fld.CLK_STATUS.xtal = true →
    ∃ u, exec (.refWindow count) s = .next u ∧ HwOnly s u ∧ u.hw.mem = s.hw.mem ∧
      (goodWindow count.toNat = true → u.hw.job = s.hw.job ∧
        u.hw.clk = { s.hw.clk with goodWindows := s.hw.clk.goodWindows + 1 } ∧
        u.hw.fld clkBase Fld.CLK_STATUS.ref =
          (if s.hw.monitored && decide (1 ≤ s.hw.clk.goodWindows) then 1 else s.hw.fld clkBase Fld.CLK_STATUS.ref) ∧
        SameRegsOutside clkBase 8 s.hw u.hw) ∧
      (goodWindow count.toNat = false → s.hw.monitored = true → u.hw.fld clkBase Fld.CLK_FLAGS.ref_lost = 1 ∧
        u.hw.fld clkBase Fld.CLK_STATUS.ref = 0 ∧ HeldOver s.hw u.hw) ∧
      (goodWindow count.toNat = false → s.hw.monitored = false →
        u.hw = { s.hw with clk := { s.hw.clk with goodWindows := 0 } }))
  ∧ (∀ s : State, s.hw.flag clkBase Fld.CLK_STATUS.root = true → ∃ u, exec .pllSlip s = .next u ∧ HwOnly s u ∧
      u.hw.mem = s.hw.mem ∧ u.hw.fld clkBase Fld.CLK_FLAGS.pll_unlock = 1 ∧ HeldOver s.hw u.hw)
  ∧ (∀ s : State, ∃ u, exec .tenseDivergence s = .next u ∧ HwOnly s u ∧ u.hw.mem = s.hw.mem ∧ u.hw.tense0 = s.hw.tense0 ∧
      u.hw.fld clkBase Fld.CLK_FLAGS.tense_div = 1 ∧ Halted s.hw u.hw 14)
  ∧ (∀ (s : State) (p : Port) (offset corrected : BitVec 16), s.hw.linkUp p = true →
    let usable := decide ((s.hw.port p).badMarker ≠ some (s.hw.now / 128))
    ∃ u, exec (.intervalMarker p offset corrected) s = .next u ∧ HwOnly s u ∧ u.hw.mem = s.hw.mem ∧
      u.hw.fld (portBase p) Fld.PORT_FEC_CORR.symbols =
        (s.hw.fld (portBase p) Fld.PORT_FEC_CORR.symbols + corrected.toNat) % 2 ^ 64 ∧
      (usable = false → u.hw = { s.hw with regs := u.hw.regs } ∧ SameRegsOutside (portBase p) 0x70 s.hw u.hw) ∧
      (usable = true → s.hw.alignState ≠ 2 → s.hw.clk.aligned = true → (s.hw.port p).baseline = none →
        (u.hw.port p).baseline = some offset.toInt ∧ u.hw.job = s.hw.job ∧ u.hw.alignState = s.hw.alignState) ∧
      (∀ b, usable = true → s.hw.alignState ≠ 2 → s.hw.clk.aligned = true → (s.hw.port p).baseline = some b →
        u.hw.ports = s.hw.ports ∧
        ((offset.toInt - b).natAbs < 2 ^ 16 → (offset.toInt - b).natAbs ≤ u.hw.fld clkBase Fld.TNS_DRIFT.sixteenths) ∧
        ((offset.toInt - b).natAbs ≤ 16 → u.hw.alignState = s.hw.alignState ∧ u.hw.job = s.hw.job) ∧
        (16 < (offset.toInt - b).natAbs → u.hw.alignState = 0 ∧ u.hw.fld clkBase Fld.CLK_FLAGS.drift = 1 ∧
          Halted s.hw u.hw 13)) ∧
      (usable = true → s.hw.alignState = 2 → p.val ∈ u.hw.clk.locked ∧
        ((∀ q, q < 24 → s.hw.linkUp q = true → q = p.val ∨ q ∈ s.hw.clk.locked) → u.hw.alignState = 3)))
  ∧ (∀ (s : State) (i : LaneInterface), ∃ u, exec (.laneFifoFault i) s = .next u ∧
      u.hw.fld clkBase Fld.CLK_FLAGS.fifo = 1 ∧
      u.hw.fld clkBase Fld.CLK_CNT_C.fifo = (s.hw.fld clkBase Fld.CLK_CNT_C.fifo + 1) % 2 ^ 32 ∧
      (∀ p, i = .port p → s.hw.linkUp p = true → HwOnly s u ∧ LinkDown s.hw u.hw p) ∧
      (∀ e, i = .ethernet e → u.mgmt = { s.mgmt with linksUp := s.mgmt.linksUp.erase e.val } ∧ u.hw.mem = s.hw.mem) ∧
      (∀ d, i = .stack d → HwOnly s u ∧ u.hw.ctlState d = 3 ∧ u.hw.mem = s.hw.mem) ∧
      (∀ c, i = .channel c → HwOnly s u ∧ u.hw.ctlState (12 + c) = 3 ∧ u.hw.mem = s.hw.mem))

/-- R261 to R264, R288, R394, R405, R408: each stability counter releases its clock; the root PLL starts Tense and mtime at 0 and
the boot, which a flash error sends to recovery mode with reason 6; after a holdover its release starts the core clocks again,
which serve the access that waited, and two good windows later it is back on the reference. No clock is released outside the
power sequence. A peripheral's enable bit takes what is written. A filled ingest buffer counts while one is free. -/
def Obligations.ClocksPeripheralsAndBuffersAreReleased : Prop :=
  (∀ (s : State) (c : ClockSource) (e : Option (Fin 3)) (un : List (Fin 20)), s.sequencing = false →
    exec (.clockRelease c e un) s = .next s)
  ∧ (∀ (s : State) (e : Option (Fin 3)) (un : List (Fin 20)), s.sequencing = true → s.stalled = [] →
    (∃ u, exec (.clockRelease .crystal e un) s = .next u ∧ HwOnly s u ∧ u.hw.mem = s.hw.mem ∧
      u.hw.fld clkBase Fld.CLK_STATUS.xtal = 1 ∧ SameRegsOutside clkBase 8 s.hw u.hw) ∧
    (s.hw.flag clkBase Fld.CLK_STATUS.xtal = true → 2 ≤ s.hw.clk.goodWindows →
      ∃ u, exec (.clockRelease .reference e un) s = .next u ∧ HwOnly s u ∧ u.hw.mem = s.hw.mem ∧
        u.hw.fld clkBase Fld.CLK_STATUS.ref = 1 ∧ SameRegsOutside clkBase 8 s.hw u.hw) ∧
    (s.powered = true → s.hw.flag clkBase Fld.CLK_STATUS.ref = true → s.hw.flag clkBase Fld.CLK_STATUS.root = false →
      ∃ u, exec (.clockRelease .rootPll (some 0) un) s = .next u ∧ u.hw.mem = s.hw.mem ∧ u.hw.tense0 = 0 ∧ u.hw.tense1 = 0 ∧
        u.fliuf.mtime = 0 ∧ u.hw.fld clkBase Fld.CLK_STATUS.root = 1 ∧ u.hw.fld sysBase Fld.SYS_STATUS.stage = 4 ∧
        u.hw.fld sysBase Fld.SYS_STATUS.reason = 6 ∧ u.xof.owned = s.xof.owner.isSome) ∧
    (s.hw.flag clkBase Fld.CLK_STATUS.root = true → s.hw.clk.coresStopped = false → s.hw.clk.fromCrystal = true →
      2 ≤ s.hw.clk.goodWindows → ∃ u, exec (.clockRelease .rootPll e un) s = .next u ∧ HwOnly s u ∧ u.hw.mem = s.hw.mem ∧
        u.hw.clk = { s.hw.clk with fromCrystal := false } ∧ u.hw.fld clkBase Fld.CLK_STATUS.holdover = 0 ∧
        u.hw.fld clkBase Fld.CLK_STATUS.ref = 1 ∧ SameRegsOutside clkBase 8 s.hw u.hw) ∧
    (∀ x g, (x, g) ∈ [(ClockSource.nethenLanes, 0), (.ethernetLanes, 1), (.hbmLanes, 2), (.lpddrLanes, 3)] →
      s.mgmt.bcr.lanes / 2 ^ g % 2 = 1 → s.powered = true → s.hw.flag clkBase Fld.CLK_STATUS.ref = true →
      ∃ u, exec (.clockRelease x e un) s = .next u ∧ HwOnly s u ∧ u.hw.mem = s.hw.mem ∧
        u.hw.fld clkBase Fld.CLK_STATUS.lanes / 2 ^ g % 2 = 1))
  ∧ (∀ (s : State) (e : Option (Fin 3)) (un : List (Fin 20)), s.sequencing = true →
    s.hw.flag clkBase Fld.CLK_STATUS.root = true → s.hw.clk.coresStopped = true →
    let t : State := { s with hw := { s.hw with clk := { s.hw.clk with coresStopped := false } }, stalled := [] }
    (s.stalled = [] → exec (.clockRelease .rootPll e un) s = .next t) ∧
    (∀ i, s.stalled = [i] → i.accesses s = true → exec (.clockRelease .rootPll e un) s = exec i t))
  ∧ (∀ (s : State) (v : Half), s.hw.clocked = true → ∃ u, exec (.peripheralEnable v) s = .next u ∧
      u = { s with hw := u.hw, fliuf := u.fliuf, resp := Resp.ok 0 } ∧ u.hw.mem = s.hw.mem ∧
      ∀ b, b < 16 → u.hw.periOn b = v.getLsbD b)
  ∧ (∀ (s : State) (j : Job), s.hw.clocked = true → s.hw.job = some j →
    let n := s.hw.fld clkBase Fld.TNS_INGEST.filled
    let held := s.hw.fld clkBase Fld.TNS_INGEST.holding
    (n + held < j.img.ingestK → n < 31 → ∃ u, exec .ingestFill s = .next u ∧
      u = { s with hw := { s.hw with regs := u.hw.regs }, resp := Resp.ok 0 } ∧
      u.hw.fld clkBase Fld.TNS_INGEST.filled = n + 1 ∧
      u.hw.fld clkBase Fld.TNS_INGEST.next_fill = (s.hw.fld clkBase Fld.TNS_INGEST.next_fill + 1) % j.img.ingestK % 16 ∧
      SameRegsOutside (clkBase + Fld.TNS_INGEST.filled.off) 8 s.hw u.hw) ∧
    (j.img.ingestK ≤ n + held → exec .ingestFill s = .next { s with resp := Resp.bus }))
  ∧ (∀ s : State, s.hw.clocked = true → s.hw.job = none → exec .ingestFill s = .next { s with resp := Resp.bus })

/-! ### Registers, and what inflection control takes -/

/-- R18 to R21, R38, R334 to R336, R391, R407: a register write of another alignment, or at an address that is no register's,
is a bus error that changes no register but those that count it in a tile or a slice; in a plain window each bit follows its
access type (Table 0.7), and a reserved offset ignores the write; the firmware's hold only shrinks. Inflection control takes
requests while a job is admitted; its staged table takes writes while nothing staged waits, and keeps what it holds of a pinned
layer. -/
def Obligations.RegistersTakeWhatTheirRulesAllow : Prop :=
  (∀ (s : State) (r : Outsider) (addr : Addr) (wide : Bool) (v : Word), s.hw.clocked = true →
    let a := addr.toNat
    let n := if wide then 8 else 4
    (spaceOf a ≠ .control ∨ (bootMemory a = false ∧ (locate a = none ∨ regWidth a n = false)) →
      ∃ u, exec (.registerWrite r addr wide v) s = .next u ∧ u.resp = Resp.bus ∧
        u = { s with hw := u.hw, fliuf := { s.fliuf with harts := u.fliuf.harts }, resp := u.resp } ∧ u.hw.mem = s.hw.mem ∧
        ((spaceOf a ≠ .control ∨ ∀ w k o, locate a = some (w, k, o) → w ∉ [Win.tile, .slice]) → u.hw = s.hw) ∧
        (∀ k o, spaceOf a = .control → locate a = some (.tile, k, o) → u.hw.fld (tileBase k) Fld.TILE_FLAGS.bus_err = 1 ∧
          u.hw.fld (tileBase k) Fld.TILE_CNT_E.bus_err = (s.hw.fld (tileBase k) Fld.TILE_CNT_E.bus_err + 1) % 2 ^ 32) ∧
        (∀ k o, spaceOf a = .control → locate a = some (.slice, k, o) → u.hw.fld (sliceBase k) Fld.SLC_FLAGS.bus_err = 1 ∧
          u.hw.fld (sliceBase k) Fld.SLC_CNT_B.bus_err = (s.hw.fld (sliceBase k) Fld.SLC_CNT_B.bus_err + 1) % 2 ^ 32) ∧
        (∀ h, r = .store h → (u.hart h.val).mcause = 7 ∧ (u.hart h.val).mtval = BitVec.ofNat 64 a ∧
          ∀ k, k ≠ h.val → u.hart k = s.hart k) ∧
        (r = .debug ∨ r = .management → u.fliuf = s.fliuf)) ∧
    (∀ w k o, locate a = some (w, k, o) → (w = .stack ∨ w = .power) → regWidth a n = true →
      let b := a / 8 * 8
      ∃ u, exec (.registerWrite r addr wide v) s = .next u ∧
        u = { s with hw := { s.hw with regs := u.hw.regs }, resp := Resp.ok 0 } ∧ SameRegsOutside b 1 s.hw u.hw ∧
        (regAt w (o / 8 * 8) = none → u.hw.regs = s.hw.regs) ∧
        (∀ d, regAt w (o / 8 * 8) = some d → ∀ i, i < 64 →
          bitOf (u.hw.reg b) i = d.bitWritten (s.hw.reg b) (coverMask a n) (placed a n v) i)))
  ∧ (∀ (s : State) (v : BitVec 10), s.hw.clocked = true → ∃ u, exec (.fwHoldWrite v) s = .next u ∧
      u = { s with hw := { s.hw with regs := u.hw.regs }, resp := Resp.ok 0 } ∧
      u.hw.fld sysBase Fld.SYS_FW_HOLD.segments = Nat.min v.toNat (s.hw.fld sysBase Fld.SYS_FW_HOLD.segments))
  ∧ (∀ (s : State) (i : Instr), i ∈ [Instr.stageCommit, Instr.snapshotRequest, Instr.stopRequest] → s.hw.clocked = true →
      (s.hw.job = none → exec i s = .next { s with resp := Resp.ok 0 }) ∧
      ∀ j, s.hw.job = some j → ∃ u, exec i s = .next u ∧ u = { s with hw := u.hw, resp := Resp.ok 0 } ∧ u.hw.mem = s.hw.mem ∧
        SameRegsOutside inflBase 0x148 s.hw u.hw ∧
        (i = .stageCommit → u.hw.job = s.hw.job ∧ u.hw.infl = { s.hw.infl with stagedGen := u.hw.infl.stagedGen } ∧
          u.hw.infl.stagedGen = (s.hw.infl.committed.gen + 1) % 2 ^ 16 ∧
          u.hw.fld inflBase Fld.INFL_STATUS.staged = u.hw.infl.stagedGen) ∧
        (i = .snapshotRequest → u.hw.job = some { j with snapBit := true } ∧ u.hw.infl = s.hw.infl ∧
          u.hw.fld inflBase Fld.INFL_STAGE.snap_pending = 1) ∧
        (i = .stopRequest → u.hw = { s.hw with job := some { j with stopBit := true } }))
  ∧ (∀ (s : State) (entry : Bool) (i : BitVec 10) (v : Word), s.hw.clocked = true →
      ((s.hw.job = none ∨ s.hw.infl.committed.gen < s.hw.infl.stagedGen) →
        exec (.stagedTableWrite entry i v) s = .next { s with resp := Resp.bus }) ∧
      (s.hw.job.isSome = true → s.hw.infl.stagedGen ≤ s.hw.infl.committed.gen →
        ∃ u, exec (.stagedTableWrite entry i v) s = .next u ∧ u = { s with hw := { s.hw with infl := u.hw.infl }, resp := Resp.ok 0 } ∧
          u.hw.infl = { s.hw.infl with stagedE := u.hw.infl.stagedE, stagedP := u.hw.infl.stagedP } ∧
          (∀ k, (entry = true ∨ k ≠ i.toNat) → u.hw.infl.stagedP[k]? = s.hw.infl.stagedP[k]?) ∧
          (∀ k, (entry = false ∨ k ≠ i.toNat) → u.hw.infl.stagedE[k]? = s.hw.infl.stagedE[k]?) ∧
          (entry = false → i.toNat < s.hw.infl.stagedP.length → u.hw.infl.stagedP[i.toNat]? = some v) ∧
          (entry = true → ∀ old e, s.hw.infl.stagedE[i.toNat]? = some old → s.hw.infl.entries[i.toNat]? = some e →
            (entryPinned e = true → u.hw.infl.stagedE[i.toNat]? = some old) ∧
            (entryPinned e = false → ∃ w, u.hw.infl.stagedE[i.toNat]? = some w ∧
              (entryFloor w, entryCeil w, entryProfile w, entrySilent w, entryUw w) =
                (entryFloor v, entryCeil v, entryProfile v, entrySilent v, entryUw v) ∧
              (entryInit w, entryPinned w, bitsOf w 63 16) = (entryInit old, entryPinned old, bitsOf old 63 16)))))

/-! ### Management -/

/-- R413, R414, Table 11.14: before firmware or recovery mode serves, a message has no effect; without its session it is refused,
with a status the spec leaves open; with a bad tag it is dropped and counted (that an authorised session must tag is the model's
choice, assumption 9). A repeated seq receives the cached reply and nothing is performed twice, and a lower one receives SEQUENCE; both keep the time of the request in their session; a
fresh one that its row does not allow receives the status of Table 11.15 and changes nothing but its session's record. -/
def Obligations.RequestsAreServedInTheOrderOfTheirSession : Prop :=
  ∀ (i : Instr) (row : MmpRow) (h : MmpHeader) (s : State), i.mmp = some (row, h) →
    (s.serves = false → exec i s = .next s) ∧
    (s.serves = true → s.session? h.session = none → ∃ u, exec i s = .next u ∧
      u = { s with hw := { s.hw with free := u.hw.free }, resp := u.resp } ∧ u.resp.status ≠ 0 ∧ u.resp.data = []) ∧
    ∀ x, s.serves = true → s.session? h.session = some x →
      (tagFails h x = true → ∃ u, exec i s = .next u ∧ HwOnly s u ∧ u.hw.mem = s.hw.mem ∧ u.hw.job = s.hw.job ∧
        u.hw.fld sysBase Fld.SYS_CNT_B.bad_tag = (s.hw.fld sysBase Fld.SYS_CNT_B.bad_tag + 1) % 2 ^ 32) ∧
      (tagFails h x = false → x.lastSeq = some h.seq →
        exec i s = .next { s.putSession h.session x with resp := ⟨false, x.cachedStatus, 0, x.cachedData⟩ }) ∧
      (∀ n, tagFails h x = false → x.lastSeq = some n → h.seq.toNat < n.toNat →
        exec i s = .next { s.putSession h.session x with resp := ⟨false, 10, 0, []⟩ }) ∧
      (Fresh s h x → ∀ c : Nat,
        ((s.inRecovery = true ∧ row.recovery = false ∧ c = 12) ∨
          (s.inRecovery = false ∧ row.authorised = true ∧ x.authorised = false ∧ c = 3) ∨
          (s.inRecovery = false ∧ (row.authorised = true → x.authorised = true) ∧ x.version < row.version ∧ c = 2)) →
        ∃ u, exec i s = .next u ∧ Replied s u h x c [])

/-- R133, R199, R412 to R415, R429: HELLO opens a session under a number of its own with the common version, or is refused; AUTH
authorises a session whose certificate and signature hold; BYE and silence close it. Reading: the status, the results window,
registers, memory, the report and the chain; a bus error names its address; a list of more than 128 registers and a
length beyond the payload limit are refused; a read of a page in an exchange waits. -/
def Obligations.SessionsOpenAuthoriseReadAndClose : Prop :=
  (∀ (s : State) (vmin vmax : Byte) (limit : Half) (key : BitVec 776),
    let v := Nat.min vmax.toNat 0x11
    (s.serves = false → exec (.hello vmin vmax limit key) s = .next s) ∧
    (s.serves = true → v < Nat.max vmin.toNat 0x10 →
      exec (.hello vmin vmax limit key) s = .next { s with resp := ⟨false, 1, 0, [0x10, 0x11]⟩ }) ∧
    (s.serves = true → Nat.max vmin.toNat 0x10 ≤ v → 8 ≤ s.mgmt.sessions.length →
      exec (.hello vmin vmax limit key) s = .next { s with resp := ⟨false, 4, 0, []⟩ }) ∧
    (s.serves = true → Nat.max vmin.toNat 0x10 ≤ v → s.mgmt.sessions.length < 8 → ∃ (u : State) (n : Word32) (x : Session),
      exec (.hello vmin vmax limit key) s = .next u ∧ s.session? n = none ∧ u.session? n = some x ∧
      (x.authorised, x.version, x.limit, x.lastSeq, x.hostKey) =
        (false, v, if limit = 0 then 1192 else Nat.min limit.toNat 8912, none, key) ∧
      (∀ m, m ≠ n → u.session? m = s.session? m) ∧
      u.resp.status = 0 ∧ u.resp.data.take 5 = leBytes 1 v ++ leBytes 4 n.toNat ∧
      u = { s with hw := { s.hw with free := u.hw.free }, xof := { s.xof with ephemeral := u.xof.ephemeral }, resp := u.resp,
                   mgmt := { s.mgmt with sessions := u.mgmt.sessions, nextSession := u.mgmt.nextSession } }))
  ∧ (∀ (s : State) (h : MmpHeader) (x : Session) (cert : Cert) (sig : BitVec 768), Admissible s rowAnyR h x →
    let good := !s.inRecovery && s.mgmt.bcr.accepts cert 2 && Config.ecdsaVerify cert.key x.digest sig
    ∃ u, exec (.auth h cert sig) s = .next u ∧
      (good = true → Replied s u h { x with authorised := true, key := Config.ecdhKey x.ephemeral x.hostKey x.nonce } 0 []) ∧
      (good = false → Replied { s with hw := u.hw } u h x 3 [] ∧ u.hw.mem = s.hw.mem ∧
        u.hw.fld sysBase Fld.SYS_CNT_A.auth_fail = (s.hw.fld sysBase Fld.SYS_CNT_A.auth_fail + 1) % 2 ^ 32))
  ∧ (∀ (s : State) (h : MmpHeader) (x : Session), Admissible s rowAnyR h x → ∃ u, exec (.bye h) s = .next u ∧ u.resp = ⟨false, 0, 0, []⟩ ∧
      u = { s with resp := u.resp, mgmt := { s.mgmt with sessions := u.mgmt.sessions } } ∧ u.session? h.session = none ∧
      ∀ m, m ≠ h.session → u.session? m = s.session? m)
  ∧ (∀ (s : State) (n : Word32) (x : Session), s.session? n = some x →
      ((s.fliuf.mtime - x.lastAt).toNat < 48000000000 → exec (.sessionTimeout n) s = .next s) ∧
      (48000000000 ≤ (s.fliuf.mtime - x.lastAt).toNat → ∃ u, exec (.sessionTimeout n) s = .next u ∧
        u = { s with mgmt := { s.mgmt with sessions := u.mgmt.sessions } } ∧ u.session? n = none ∧
        ∀ m, m ≠ n → u.session? m = s.session? m))
  ∧ (∀ (s : State) (h : MmpHeader) (x : Session) (i : Instr) (row : MmpRow) (step : Word) (nonce : BitVec 256) (data : List Byte),
      (i, row, data) ∈ [(Instr.status h, rowAnyR, s.statusData), (.results h step, rowAny, s.resultsData step.toNat),
        (.attest h nonce, rowAny, s.attestReport nonce),
        (.certs h, rowAnyR, s.mgmt.flashRead 0x10000 (Nat.min s.mgmt.chainLength 0x10000)),
        (.dumpQuery h, rowAuth, s.hw.dbg.dump0.summary ++ s.hw.dbg.dump1.summary ++ leBytes 8 (s.view dbgBase).toNat)] →
      Admissible s row h x → ∃ u, exec i s = .next u ∧ Replied s u h x 0 data)
  ∧ (∀ (s : State) (h : MmpHeader) (x : Session) (addrs : List Addr), Admissible s rowAny h x →
      (128 < addrs.length → ∃ u, exec (.regRead h addrs) s = .next u ∧ Replied s u h x 2 []) ∧
      (addrs.length ≤ 128 → x.limit < 8 * addrs.length → ∃ u, exec (.regRead h addrs) s = .next u ∧ Replied s u h x 9 []) ∧
      (addrs.length ≤ 128 → 8 * addrs.length ≤ x.limit → ∃ u c data, exec (.regRead h addrs) s = .next u ∧ u.resp = ⟨false, c, 0, data⟩ ∧
        (c = 0 ∧ data.length = 8 * addrs.length ∨ c = 7 ∧ ∃ a ∈ addrs, data = leBytes 8 a.toNat) ∧
        ((∀ a ∈ addrs, a.toNat % 8 = 0 ∧ ∃ w k o, locate a.toNat = some (w, k, o) ∧ w ∉ [Win.fliuf, .clk, .power]) →
          Replied s u h x 0 (addrs.flatMap (fun a => leBytes 8 (s.view a.toNat).toNat)))))
  ∧ (∀ (s : State) (h : MmpHeader) (x : Session) (addr : Addr) (len : Half) (found : Ecc), Admissible s rowAuth h x →
      (s.hw.heldUp addr.toNat len.toNat = false → ∃ u, exec (.memRead h addr len found) s = .next u ∧
        (x.limit < len.toNat → Replied s u h x 9 []) ∧
        (0 < len.toNat → len.toNat ≤ x.limit → sameSpace addr.toNat len.toNat = true → spaceOf addr.toNat = .tileMem →
          (found ≠ .uncorrectable → Replied { s with hw := u.hw } u h x 0 (s.hw.read addr.toNat len.toNat)) ∧
          (found = .uncorrectable → Replied { s with hw := u.hw } u h x 7 (leBytes 8 addr.toNat)) ∧
          u.hw.mem = s.hw.mem ∧ (found = .clean → u.hw = s.hw)) ∧
        (0 < len.toNat → len.toNat ≤ x.limit → (sameSpace addr.toNat len.toNat = false ∨ spaceOf addr.toNat = .outside) →
          Replied s u h x 7 (leBytes 8 addr.toNat))) ∧
      (s.hw.heldUp addr.toNat len.toNat = true → s.hw.tier.waiting = [] → exec (.memRead h addr len found) s =
        .next { s with hw := { s.hw with tier := { s.hw.tier with waiting := [.memRead h addr len found] } } }))

/-- R40, R290, R415, R423: writing registers and memory; the image staged; the job asked for, started, stopped, released or
succeeded in the states that allow it, with STATE or BUSY in the others; its snapshot and quota. -/
def Obligations.MessagesWriteAndSteerTheJob : Prop :=
  ∀ (s : State) (h : MmpHeader) (x : Session), Admissible s rowAuth h x →
    (∀ writes : List (Addr × Word), 128 < writes.length → ∃ u, exec (.regWrite h writes) s = .next u ∧ Replied s u h x 2 []) ∧
    (∀ writes : List (Addr × Word), writes.length ≤ 128 → x.limit < 16 * writes.length →
      ∃ u, exec (.regWrite h writes) s = .next u ∧ Replied s u h x 9 []) ∧
    (∀ writes : List (Addr × Word), writes.length ≤ 128 → 16 * writes.length ≤ x.limit →
      ∃ u c data, exec (.regWrite h writes) s = .next u ∧ u.resp = ⟨false, c, 0, data⟩ ∧
      (c = 0 ∧ data = [] ∨ c = 7 ∧ ∃ w ∈ writes, data = leBytes 8 w.1.toNat) ∧
      ((∀ w ∈ writes, w.1.toNat % 8 = 0 ∧ ∃ v k o, locate w.1.toNat = some (v, k, o) ∧ (v = .stack ∨ v = .power)) →
        Replied { s with hw := writes.foldl (fun g w => g.plainWrite w.1.toNat (BitVec.allOnes 64) w.2) s.hw } u h x 0 [])) ∧
    (∀ (addr : Addr) (data : List Byte), s.hw.heldUp addr.toNat data.length = false → ∃ u, exec (.memWrite h addr data) s = .next u ∧
      (x.limit < data.length → Replied s u h x 9 []) ∧
      (data ≠ [] → data.length ≤ x.limit → sameSpace addr.toNat data.length = true → spaceOf addr.toNat = .tileMem →
        (s.hw.writeClosed addr.toNat data.length = false → Replied { s with hw := u.hw } u h x 0 [] ∧
          u.hw.regs = s.hw.regs ∧ u.hw.mem = (s.hw.write addr.toNat data).mem) ∧
        (s.hw.writeClosed addr.toNat data.length = true → Replied { s with hw := u.hw } u h x 7 (leBytes 8 addr.toNat) ∧
          u.hw.mem = s.hw.mem))) ∧
    (∀ (addr : Addr) (data : List Byte), s.hw.heldUp addr.toNat data.length = true → s.hw.tier.waiting = [] →
      exec (.memWrite h addr data) s =
        .next { s with hw := { s.hw with tier := { s.hw.tier with waiting := [.memWrite h addr data] } } }) ∧
    (∀ (off : Word32) (data : List Byte), ∃ u, exec (.imagePut h off data) s = .next u ∧
      ((x.limit < data.length + 8 ∨ s.mgmt.stagingSpace < off.toNat + data.length) → Replied s u h x 9 []) ∧
      (data.length + 8 ≤ x.limit → off.toNat + data.length ≤ s.mgmt.stagingSpace →
        Replied { s with mgmt := { s.mgmt with image := u.mgmt.image, imageLen := u.mgmt.imageLen } } u h x 0 [] ∧
        u.mgmt.imageLen = Nat.max s.mgmt.imageLen (off.toNat + data.length) ∧
        (∀ k b, data[k]? = some b → u.mgmt.image.get 0 (off.toNat + k) = b) ∧
        ∀ a, (a < off.toNat ∨ off.toNat + data.length ≤ a) → u.mgmt.image.get 0 a = s.mgmt.image.get 0 a)) ∧
    (∀ (i : Instr) (allowed : List Nat), (i, allowed) ∈ [(Instr.admitJob h, [0, 1, 6, 7]), (.stop h, [3, 4]),
        (.release h, [2, 5, 7]), (.dumpTake h, [0, 2, 5, 6, 7])] →
      s.hw.jswState ∉ allowed → ∃ u, exec i s = .next u ∧ Replied s u h x 6 []) ∧
    (s.hw.jswState = 1 → ∃ u, exec (.admitJob h) s = .next u ∧ Replied s u h x 4 []) ∧
    (s.hw.jswState ∈ [0, 6, 7] → ∃ u, exec (.admitJob h) s = .next u ∧
      Replied { s with hw := u.hw, mgmt := { s.mgmt with asker := some (h.session.toNat, h.seq) } } u h x 0 [] ∧
      u.hw = { s.hw with regs := u.hw.regs } ∧ u.hw.jswState = 1 ∧ u.hw.jswOp = 1) ∧
    (∀ (t0 restore : Word) (resAddr : Addr) (resCount : BitVec 4), ∃ u, exec (.start h t0 restore resAddr resCount) s = .next u ∧
      (s.hw.jswState ≠ 2 → Replied s u h x 6 []) ∧
      (∀ c, s.hw.jswState = 2 →
        (t0.toNat < s.hw.now + 8000 ∧ c = 1 ∨ s.hw.now + 8000 ≤ t0.toNat ∧ t0.toNat % 128 ≠ 0 ∧ c = 2) →
        Replied { s with hw := u.hw } u h x 8 (leBytes 1 c) ∧ u.hw = { s.hw with regs := u.hw.regs } ∧ u.hw.jswState = 7 ∧
          u.hw.fld sysBase Fld.SYS_JSW.code = c) ∧
      (s.hw.jswState = 2 → s.hw.now + 8000 ≤ t0.toNat → t0.toNat % 128 = 0 →
        Replied { s with hw := u.hw } u h x 0 [] ∧ u.hw.mem = s.hw.mem ∧ u.hw.jswState = 3 ∧
        u.hw.fld clkBase Fld.TNS_START.tick = t0.toNat ∧ u.hw.fld sysBase Fld.SYS_RES_CFG.addr = resAddr.toNat ∧
        u.hw.fld sysBase Fld.SYS_RES_CFG.count = resCount.toNat ∧
        u.hw.job.map (fun j => (j.started, j.t0)) = s.hw.job.map (fun _ => (true, t0)))) ∧
    (s.hw.jswState ∈ [3, 4] → ∃ u, exec (.stop h) s = .next u ∧
      Replied { s with hw := { s.hw with job := s.hw.job.map (fun j => { j with stopBit := true }) } } u h x 0 []) ∧
    (∀ (dest : Addr) (request : Bool), ∃ u, exec (.snapshot h dest request) s = .next u ∧
      (s.hw.job = none → Replied s u h x 5 []) ∧
      (∀ j, s.hw.job = some j → j.sharePending = true → Replied s u h x 4 []) ∧
      (∀ j, s.hw.job = some j → j.sharePending = false → Replied { s with hw := u.hw } u h x 0 [] ∧ u.hw.mem = s.hw.mem ∧
        u.hw.job = some { j with snapDest := some dest, snapBit := j.snapBit || request })) ∧
    (s.hw.jswState ∈ [2, 5, 7] → ∃ u, exec (.release h) s = .next u ∧ Replied { s with hw := u.hw } u h x 0 [] ∧
      u.hw = { s.hw with regs := u.hw.regs } ∧ u.hw.jswState = 8 ∧ u.hw.jswOp = 6) ∧
    (0x11 ≤ x.version → ∃ u, exec (.successor h) s = .next u ∧
      (s.mgmt.successorOp = true → Replied s u h x 4 []) ∧
      (s.mgmt.successorOp = false → s.hw.jswState ≠ 4 → Replied s u h x 6 []) ∧
      (s.mgmt.successorOp = false → s.hw.jswState = 4 →
        Replied { s with hw := u.hw, mgmt := { s.mgmt with asker := some (h.session.toNat, h.seq), successorOp := true } } u h x 0 [] ∧
        u.hw = { s.hw with regs := u.hw.regs } ∧ u.hw.jswState = 4 ∧ u.hw.jswOp = 2)) ∧
    (∀ (job : Byte) (v : Word), ∃ u, exec (.quota h job v) s = .next u ∧ Replied { s with hw := u.hw } u h x 0 [] ∧
      u.hw.mem = s.hw.mem ∧ u.hw.fld lpdBase Fld.TIER_QSEL.job = job.toNat ∧
      (s.hw.admittedAs job.toNat = true → u.hw.tier.quota = s.hw.tier.quota ∧
        u.hw.tier.pendingQuota.find? job.toNat = some (quotaMask v)) ∧
      (s.hw.admittedAs job.toNat = false → u.hw.tier.pendingQuota = s.hw.tier.pendingQuota ∧
        u.hw.tier.quota.get 0 job.toNat = quotaMask v))

/-- R410, R418, R420, R447 to R450: dumps taken, read and released; flash staged, verified and programmed; PROVISION while the
module is unowned; RESET; the tunnel on the lowest port that is up; datagrams that are no request of the host. -/
def Obligations.MessagesKeepDumpsFlashAndTunnel : Prop :=
  (∀ (s : State) (h : MmpHeader) (x : Session), Admissible s rowAuth h x →
    (s.hw.jswState ∈ [0, 2, 5, 6, 7] → ∃ u, exec (.dumpTake h) s = .next u ∧
      let busy := s.hw.flag dbgBase Fld.DBG_STATUS.held || s.hw.dbg.dump0.building || s.hw.dbg.dump1.building
      (busy = true → Replied s u h x 4 []) ∧
      (busy = false → Replied { s with hw := u.hw } u h x 0 [] ∧ u.hw.mem = s.hw.mem ∧ u.hw.job = s.hw.job ∧
        u.hw.dbg.dump0 = ⟨1, 4, s.hw.tense0, true, false, []⟩ ∧ u.hw.fld dbgBase Fld.DBG_STATUS.held = 1 ∧
        u.hw.fld dbgBase Fld.DBG_STATUS.trigger = 4 ∧ u.hw.fld dbgBase Fld.DBG_CAP_TICK.tick = s.hw.now)) ∧
    (∀ (slot : Fin 2) (off : Word) (count : Word32), ∃ u, exec (.dumpRead h slot off count) s = .next u ∧
      let d := s.hw.dbg.slot slot.val
      (d.building = true → Replied s u h x 4 []) ∧
      (d.building = false → d.ready = false → Replied s u h x 6 []) ∧
      (d.building = false → d.ready = true → x.limit < count.toNat + 16 → Replied s u h x 9 []) ∧
      (d.building = false → d.ready = true → count.toNat + 16 ≤ x.limit →
        Replied s u h x 0 (leBytes 8 off.toNat ++ sub d.bytes off.toNat count.toNat))) ∧
    (∀ slot : Fin 2, ∃ u, exec (.dumpRelease h slot) s = .next u ∧
      ((s.hw.dbg.slot slot.val).building = true → Replied s u h x 4 []) ∧
      ((s.hw.dbg.slot slot.val).building = false → Replied { s with hw := u.hw } u h x 0 [] ∧ u.hw.mem = s.hw.mem ∧
        u.hw.dbg.slot slot.val = DumpSlot.empty ∧ u.hw.dbg.slot (1 - slot.val) = s.hw.dbg.slot (1 - slot.val) ∧
        (u.hw.dbg.slot (1 - slot.val) = DumpSlot.empty → u.hw.fld dbgBase Fld.DBG_STATUS.held = 0))))
  ∧ (∀ (s : State) (slot : Fin 2), ∃ u, exec (.dumpBuildComplete slot) s = .next u ∧ HwOnly s u ∧ u.hw.mem = s.hw.mem ∧
      let d := s.hw.dbg.slot slot.val
      ((d.building = false ∨ (d.kind = 1 ∧ s.hw.commandsEnded = false)) → u = s) ∧
      (d.building = true → (d.kind = 1 → s.hw.commandsEnded = true) → u.hw.dbg.slot slot.val = { d with building := false, ready := true, bytes := s.dumpBytes d } ∧
        u.hw.fld sysBase Fld.SYS_JSW.last_op = 4 ∧ u.hw.fld sysBase Fld.SYS_JSW.last_result = 0))
  ∧ (∀ (s : State) (h : MmpHeader) (x : Session), Admissible s rowAuthR h x →
    (∀ (firmware : Bool) (off : Word32) (data : List Byte), ∃ u, exec (.flashPut h firmware off data) s = .next u ∧
      ((x.limit < data.length ∨ 0x1100000 < off.toNat + data.length) → Replied s u h x 9 []) ∧
      (data.length ≤ x.limit → off.toNat + data.length ≤ 0x1100000 →
        Replied { s with hw := u.hw, mgmt := { s.mgmt with flashTarget := some firmware, flashStage := u.mgmt.flashStage,
                                                           flashLen := u.mgmt.flashLen } } u h x 0 [] ∧
        (s.inRecovery = false → u.hw = s.hw) ∧
        (s.inRecovery = true → u.hw.regs = s.hw.regs ∧ u.hw.mem = (s.hw.write (sharedBase + off.toNat) data).mem) ∧
        (∀ k b, data[k]? = some b → u.mgmt.flashStage.get 0 (off.toNat + k) = b) ∧
        (s.mgmt.flashTarget = some firmware → u.mgmt.flashLen = Nat.max s.mgmt.flashLen (off.toNat + data.length) ∧
          ∀ a, (a < off.toNat ∨ off.toNat + data.length ≤ a) → u.mgmt.flashStage.get 0 a = s.mgmt.flashStage.get 0 a))) ∧
    (∃ u, exec (.flashCommit h) s = .next u ∧ u.hw.mem = s.hw.mem ∧ u.mgmt.flash = s.mgmt.flash ∧
      (s.mgmt.flashWindow ≠ none → Replied s u h x 4 []) ∧
      (s.mgmt.flashWindow = none → (∀ f, s.mgmt.flashTarget = some f → s.stageGood f = false) →
        Replied { s with hw := u.hw } u h x 11 [] ∧ u.hw.fld xofBase Fld.XOF_FLAGS.verify_fail = 1) ∧
      (∀ f, s.mgmt.flashWindow = none → s.mgmt.flashTarget = some f → s.stageGood f = true →
        Replied { s with hw := u.hw, mgmt := { s.mgmt with flashWindow := some f } } u h x 0 [] ∧ u.hw.jswOp = 5)) ∧
    (∀ recovery : Bool, ∃ u, exec (.mmpReset h recovery) s = .next u ∧ u.resp = ⟨false, 0, 0, []⟩ ∧ u.hw.job = none ∧
      u.mgmt.sessions = [] ∧ u.mgmt.recoveryAsked = recovery ∧ u.hw.tense0 = 0 ∧ u.power = s.power ∧
      u.hw.fld sysBase Fld.SYS_RESET_CAUSE.cause = 8 ∧ (s.mgmt.flashWindow = none → u.mgmt.flash = s.mgmt.flash)))
  ∧ (∀ s : State, (s.mgmt.flashWindow = none → exec .flashCommitComplete s = .next s) ∧
      ∀ f, s.mgmt.flashWindow = some f → ∃ u, exec .flashCommitComplete s = .next u ∧
        let start := if f then 0x100000 else 0x20000
        let size := if f then 0x1100000 else 0x10000
        u = { s with hw := { s.hw with regs := u.hw.regs }, fliuf := { s.fliuf with qspiDone := true },
                     mgmt := { s.mgmt with flash := u.mgmt.flash, flashWindow := none } } ∧
        u.hw.fld sysBase Fld.SYS_JSW.last_op = 5 ∧ u.hw.fld sysBase Fld.SYS_JSW.last_result = 0 ∧
        (∀ k, k < s.mgmt.flashLen → u.mgmt.flash.get blankFlash (start + k) = s.mgmt.flashStage.get 0 k) ∧
        (∀ a, start + s.mgmt.flashLen ≤ a → a < start + size → u.mgmt.flash.get blankFlash a = 0xFF) ∧
        ∀ a, (a < start ∨ start + size ≤ a ∧ start + s.mgmt.flashLen ≤ a) →
          u.mgmt.flash.get blankFlash a = s.mgmt.flash.get blankFlash a)
  ∧ (∀ (s : State) (h : MmpHeader) (x : Session) (key : BitVec 776), Admissible s rowAny h x →
      ∃ u, exec (.provision h key) s = .next u ∧
        (s.xof.owner.isSome = true → Replied s u h x 6 []) ∧
        (s.xof.owner = none → Replied { s with xof := { s.xof with owner := some (keyDigest key) } } u h x 0 []))
  ∧ (∀ (s : State) (h : MmpHeader) (x : Session) (rank : Rank) (inner : List Byte), Admissible s rowAuth11 h x →
      ∃ u, exec (.proxy h rank inner) s = .next u ∧
        ((∀ p, p < 24 → s.hw.linkUp p = false) → ∃ c, c ≠ 0 ∧ Replied { s with hw := { s.hw with free := u.hw.free } } u h x c []) ∧
        (∀ p, p < 24 → s.hw.linkUp p = true → (∀ q, q < p → s.hw.linkUp q = false) →
          Replied { s with hw := u.hw } u h x 0 [] ∧ (∀ q, q ≠ p → u.hw.port q = s.hw.port q) ∧
          ∃ fs, (u.hw.port p).c2 = (s.hw.port p).c2 ++ fs ∧ fs.length = (chunks 224 (inner.length + 1) inner).length ∧
            ∀ f ∈ fs, f.cls = 2 ∧ f.mtype = 0x30 ∧ f.dst = rank ∧ msgBits f 15 0 = h.session.toNat % 2 ^ 16))
  ∧ (∀ s : State, (s.serves = false → exec .unacceptedDatagram s = .next s) ∧
      (s.serves = true → ∃ u, exec .unacceptedDatagram s = .next u ∧ u = { s with hw := { s.hw with regs := u.hw.regs } } ∧
        u.hw.fld sysBase Fld.SYS_CNT_B.dropped = (s.hw.fld sysBase Fld.SYS_CNT_B.dropped + 1) % 2 ^ 32))
  ∧ (∀ (s : State) (port : Fin 2) (echo : Bool) (body : List Byte),
      (s.serves = false → exec (.icmpv6Message port echo body) s = .next s) ∧
      (s.serves = true → ∃ u, exec (.icmpv6Message port echo body) s = .next u ∧
        u = { s with fliuf := { s.fliuf with ethEvent := u.fliuf.ethEvent }, resp := u.resp } ∧ port.val ∈ u.fliuf.ethEvent ∧
        (echo = true → u.resp = ⟨false, 0, 0, body⟩) ∧
        (echo = false → ∀ a ∈ s.portAddresses port.val, body = beBytes 16 a.toNat →
          u.resp = ⟨false, 0, 0, body ++ beBytes 6 (s.xof.mac port.val).toNat⟩) ∧
        (echo = false → (∀ a ∈ s.portAddresses port.val, body ≠ beBytes 16 a.toNat) → u.resp = s.resp)))
  ∧ (∀ (s : State) (i : Fin 2) (up : Bool), ∃ u, exec (.managementLinkTraining i up) s = .next u ∧
      u = { s with fliuf := { s.fliuf with ethEvent := u.fliuf.ethEvent }, mgmt := { s.mgmt with linksUp := u.mgmt.linksUp } } ∧
      (up = true → s.hw.periOn (periEth i.val) = true → s.hw.fld clkBase Fld.CLK_STATUS.lanes / 2 % 2 = 1 →
        i.val ∈ u.mgmt.linksUp ∧ i.val ∈ u.fliuf.ethEvent) ∧
      (up = false → u.mgmt.linksUp = s.mgmt.linksUp.erase i.val ∧ i.val ∈ u.fliuf.ethEvent))

/-! ### Xofisel -/

/-- R410, R413, R418, R427 to R430: Xofisel takes one command at a time, and a second one is a bus error; a command that starts
is busy with what its row gives. What it opens, burns or clears of fuses, slots and flash happens once. At its end the result stands
in the mailbox and in XOF_CMD_STATUS, a measurement in its slot, and a failure under its flag. -/
def Obligations.XofiselRunsOneCommandAtATime : Prop :=
  (∀ (s : State) (i : Instr) (r : XofRun), s.hw.clocked = true → i.xofRun s = some r →
    (s.xofFree = false → exec i s = .next { s with resp := Resp.bus }) ∧
    (s.xofFree = true → ∃ u, exec i s = .next u ∧
      u = { s with hw := { s.hw with regs := u.hw.regs, free := u.hw.free }, xof := u.xof, resp := Resp.ok 0,
                   mgmt := { s.mgmt with flashWindow := u.mgmt.flashWindow } } ∧
      SameRegsOutside xofBase 0x28 s.hw u.hw ∧ u.xof.running = some r ∧
      u.hw.fld xofBase Fld.XOF_CMD_STATUS.busy = 1 ∧ u.hw.fld xofBase Fld.XOF_CMD.op = r.op ∧
      u.xof = { s.xof with running := some r, ephemeral := u.xof.ephemeral, owner := u.xof.owner, svn := u.xof.svn,
                           slots := u.xof.slots } ∧
      u.xof.svn = (if i = .raiseSvn then Nat.max s.xof.svn s.xof.fwSvn else s.xof.svn) ∧
      ((∀ f, i ≠ .flashOpen f) → u.mgmt = s.mgmt) ∧
      (∀ f, i = .flashOpen f → (r.result = 0 → u.mgmt.flashWindow = some f) ∧ (r.result ≠ 0 → u.mgmt = s.mgmt)) ∧
      ((∀ d, i ≠ .xofProvision d) → u.xof.owner = s.xof.owner) ∧
      (∀ d, i = .xofProvision d → u.xof.owner = if s.xof.owner.isSome then s.xof.owner else some d) ∧
      ((∀ k, i ≠ .clear k) → u.xof.slots = s.xof.slots) ∧
      (∀ k, i = .clear k → (r.result = 0 → u.xof.slots = s.xof.slots.erase k.toNat) ∧
        (r.result ≠ 0 → u.xof.slots = s.xof.slots)) ∧
      ((∀ n, i ≠ .random n) → (∀ key n, i ≠ .sessionHello key n) → u.hw.free = s.hw.free) ∧
      ((∀ key n, i ≠ .sessionHello key n) → u.xof.ephemeral = s.xof.ephemeral) ∧
      (∀ key n, i = .sessionHello key n → u.xof.ephemeral = some (Config.freeSecret s.hw.free))))
  ∧ (∀ s : State, (s.xof.running = none → exec .xofCommandDone s = .next s) ∧
      ∀ r, s.xof.running = some r → r.out.length ≤ 512 → ∃ u, exec .xofCommandDone s = .next u ∧
        u = { s with hw := u.hw, xof := { s.xof with running := none, slots := u.xof.slots } } ∧ u.hw.mem = s.hw.mem ∧
        SameRegsOutside xofBase 0x300 s.hw u.hw ∧
        (∀ k, k < (r.out.length + 7) / 8 → u.hw.reg (xofBase + 0x100 + 8 * k) = wordAt r.out k) ∧
        u.hw.fld xofBase Fld.XOF_CMD_STATUS.busy = 0 ∧ u.hw.fld xofBase Fld.XOF_CMD_STATUS.done = 1 ∧
        u.hw.fld xofBase Fld.XOF_CMD_STATUS.result = r.result % 256 ∧
        (r.slot = none → u.xof.slots = s.xof.slots) ∧
        (∀ k m, r.slot = some (k, m) → u.xof.slots = s.xof.slots.insert k { m with tick := s.hw.tense0 }) ∧
        u.hw.fld xofBase Fld.XOF_CNT.verify_fail =
          (s.hw.fld xofBase Fld.XOF_CNT.verify_fail + if r.result = 1 then 1 else 0) % 2 ^ 32 ∧
        u.hw.fld xofBase Fld.XOF_CNT.cmd_err =
          (s.hw.fld xofBase Fld.XOF_CNT.cmd_err + if 2 ≤ r.result then 1 else 0) % 2 ^ 32 ∧
        (r.result = 1 → u.hw.fld xofBase Fld.XOF_FLAGS.verify_fail = 1) ∧
        (2 ≤ r.result → u.hw.fld xofBase Fld.XOF_FLAGS.cmd_err = 1))

/-! ### Fliuf's peripherals -/

/-- R394: while a block's clock is off, a command to its registers, and any access of its window, is a bus error that changes
nothing of the block; nothing happens at it, and its sources are not asserted. The PLIC, the machine timer, the system block, the
boot ROM and the boot SRAM have no enable bit and answer. -/
def Obligations.GatedBlocksAnswerWithBusErrors : Prop :=
  (∀ (s : State) (i : Fin 4) (k : Fin 2) (v : Byte) (x : Instr) (b : Nat),
    (x, b) ∈ [(Instr.uartDataWrite i v, i.val), (.uartDataRead i, i.val), (.i2cStart i, 4 + i.val), (.i2cStop i, 4 + i.val),
      (.spiExchange k, 8 + k.val), (.wdtKick i v, 12)] → s.hw.clocked = true → s.hw.periOn b = false → exec x s = .next { s with resp := Resp.bus })
  ∧ (∀ (s : State) (i : Fin 4) (k : Fin 2) (v : Byte) (p q r : Bool) (d : BitVec 128) (x : Instr) (b : Nat),
    (x, b) ∈ [(Instr.uartReceive i v p q r, i.val), (.uartTransmit i, i.val), (.i2cByte i p q r v, 4 + i.val), (.spiDone k d, 8 + k.val),
      (.timerExpiry i, 11), (.watchdogExpiry i, 12)] → s.hw.periOn b = false → exec x s = .next s)
  ∧ (∀ (s : State) (r : Outsider) (addr : Addr) (o b : Nat) (wide : Bool) (v : Word) (width : BitVec 4)
      (paging : Option Paging) (found : Ecc) (x : Instr), s.physicalFor r paging →
    x ∈ [Instr.registerWrite r addr wide v, .nonscheduledAccess r (BitVec.ofNat 64 addr.toNat) width .read paging found,
      .nonscheduledAccess r (BitVec.ofNat 64 addr.toNat) width (.write v) paging found] → s.hw.clocked = true →
    locate addr.toNat = some (Win.fliuf, 0, o) → enableBit o = some b → s.hw.periOn b = false →
    ∃ u, exec x s = .next u ∧ u = { s with fliuf := { s.fliuf with harts := u.fliuf.harts }, resp := Resp.bus })
  ∧ (∀ (s : State) (n b : Nat), (n, b) ∈ [(25, 13), (26, 14), (27, 0), (28, 1), (29, 2), (30, 3), (31, 4), (32, 5), (33, 6), (34, 7),
      (35, 8), (36, 9), (37, 10), (38, 11), (39, 11), (40, 11), (41, 11), (42, 12), (43, 12), (44, 12), (45, 12), (46, 15)] →
      s.hw.periOn b = false → s.source n = false)
  ∧ (∀ (s : State) (addr : Addr) (o : Nat), locate addr.toNat = some (Win.fliuf, 0, o) → addr.toNat % 8 = 0 →
      (o < 0x410000 ∨ 0x4A0000 ≤ o ∧ o < 0x4B0000 ∨ 0x800000 ≤ o ∧ o < 0x840000 ∨ 0x900000 ≤ o ∧ o < 0xA00000) →
      s.hw.clocked = true → ∃ u, exec (.nonscheduledAccess .management (BitVec.ofNat 64 addr.toNat) 8 .read none .clean) s = .next u ∧
        u.resp.busError = false)

/-- R389, R392, R396 to R398, R478: what each peripheral does while its clock runs: UARTs queue, take, receive, flag and shift; I2C
and SPI transfers begin and end; GPIO edges, timers and comparators show, a timer and its count reloading once it has counted to
zero; a claim answers the highest claimable source; a watchdog is kicked, warns once its count is zero, and at its second expiry acts. -/
def Obligations.PeripheralsActWhileClocked : Prop :=
  (∀ (s : State) (i : Fin 4) (v : Byte), s.hw.periOn i.val = true →
    let u0 := s.uart i.val
    (s.hw.clocked = true → ∃ u, exec (.uartDataWrite i v) s = .next u ∧ u.resp = Resp.ok 0 ∧ SameRegsOutside (uartBase i.val) 0x20 s.hw u.hw ∧
      u.uart i.val = (if u0.tx.length < 64 then { u0 with tx := u0.tx ++ [v] } else u0) ∧
      ∀ j, j ≠ i.val → u.uart j = s.uart j) ∧
    (s.hw.clocked = true → u0.rx = [] → exec (.uartDataRead i) s = .next { s with resp := Resp.ok 0 }) ∧
    (∀ b bs, s.hw.clocked = true → u0.rx = b :: bs → ∃ u, exec (.uartDataRead i) s = .next u ∧ u.resp = Resp.ok (b.zeroExtend 64) ∧
      u.uart i.val = { u0 with rx := bs } ∧ SameRegsOutside (uartBase i.val) 0x20 s.hw u.hw) ∧
    (∀ parity stopHigh lineLow : Bool,
      let ctl := fun f => s.hw.flag (uartBase i.val) f
      ((ctl Fld.UART_CTL.rx_en = false ∨ ctl Fld.UART_CTL.loop = true) →
        exec (.uartReceive i v parity stopHigh lineLow) s = .next s) ∧
      (ctl Fld.UART_CTL.rx_en = true → ctl Fld.UART_CTL.loop = false →
        ∃ u, exec (.uartReceive i v parity stopHigh lineLow) s = .next u ∧ SameRegsOutside (uartBase i.val) 0x20 s.hw u.hw ∧
          (u0.rx.length < 64 → u.uart i.val = { u0 with rx := u0.rx ++ [v] }) ∧
          (64 ≤ u0.rx.length → u.uart i.val = u0 ∧ u.hw.fld (uartBase i.val) Fld.UART_STATUS.overrun = 1) ∧
          (ctl Fld.UART_CTL.parity = true → parity ≠ parityBit (ctl Fld.UART_CTL.odd) v →
            u.hw.fld (uartBase i.val) Fld.UART_STATUS.parity_err = 1) ∧
          (stopHigh = false → u.hw.fld (uartBase i.val) Fld.UART_STATUS.frame_err = 1) ∧
          (lineLow = true → u.hw.fld (uartBase i.val) Fld.UART_STATUS.brk = 1))) ∧
    (s.hw.flag (uartBase i.val) Fld.UART_CTL.tx_en = false → exec (.uartTransmit i) s = .next s) ∧
    (s.hw.flag (uartBase i.val) Fld.UART_CTL.tx_en = true → ∃ u, exec (.uartTransmit i) s = .next u ∧
      (u.uart i.val).shift = u0.tx.head? ∧ (u.uart i.val).tx = u0.tx.drop 1 ∧
      (u.uart i.val).rx = (match u0.shift with
        | some b => if s.hw.flag (uartBase i.val) Fld.UART_CTL.loop = true ∧ s.hw.flag (uartBase i.val) Fld.UART_CTL.rx_en = true ∧
            u0.rx.length < 64 then u0.rx ++ [b] else u0.rx
        | none => u0.rx)))
  ∧ (∀ (s : State) (i : Fin 4), s.hw.periOn (4 + i.val) = true →
    let b := i2cBase i.val
    let x := s.i2c i.val
    let busy := s.hw.flag b Fld.I2C_STATUS.busy
    let reads := !x.addressing && s.hw.flag b Fld.I2C_ADDR.read
    (s.hw.clocked = true → s.hw.flag b Fld.I2C_CTL.ctl = false → exec (.i2cStart i) s = .next { s with resp := Resp.ok 0 }) ∧
    (s.hw.clocked = true → s.hw.flag b Fld.I2C_CTL.ctl = true → ∃ u, exec (.i2cStart i) s = .next u ∧ u.resp = Resp.ok 0 ∧
      u.i2c i.val = ⟨none, false, true⟩ ∧ u.hw.fld b Fld.I2C_STATUS.busy = 1 ∧ u.hw.fld b Fld.I2C_STATUS.tx_empty = 0) ∧
    (s.hw.clocked = true → busy = false → exec (.i2cStop i) s = .next { s with resp := Resp.ok 0 }) ∧
    (s.hw.clocked = true → busy = true → ∃ u, exec (.i2cStop i) s = .next u ∧ u.resp = Resp.ok 0 ∧
      ((x.addressing || x.sending.isSome || s.hw.flag b Fld.I2C_ADDR.read) = true → u.hw = s.hw ∧
        u.i2c i.val = { x with stopAsked := true }) ∧
      ((x.addressing || x.sending.isSome || s.hw.flag b Fld.I2C_ADDR.read) = false → u.fliuf = s.fliuf ∧
        u.hw.fld b Fld.I2C_STATUS.busy = 0)) ∧
    ∀ (ack arbLost pecRight : Bool) (v : Byte), ∃ u, exec (.i2cByte i ack arbLost pecRight v) s = .next u ∧
      u = { s with hw := { s.hw with regs := u.hw.regs }, fliuf := { s.fliuf with i2cs := u.fliuf.i2cs } } ∧
      SameRegsOutside b 0x18 s.hw u.hw ∧
      (busy = true → arbLost = true → u.hw.fld b Fld.I2C_STATUS.arb_lost = 1 ∧ u.hw.fld b Fld.I2C_STATUS.busy = 0) ∧
      (busy = true → arbLost = false → u.i2c i.val = ⟨none, false, false⟩ ∧ (x.stopAsked = true → u.hw.fld b Fld.I2C_STATUS.busy = 0) ∧
        (reads = false → u.hw.fld b Fld.I2C_STATUS.tx_empty = 1 ∧ (ack = false → u.hw.fld b Fld.I2C_STATUS.nack = 1))) ∧
      ((busy = true ∧ arbLost = false ∧ reads = true ∨ busy = false ∧ s.hw.flag b Fld.I2C_CTL.tgt = true) →
        u.hw.fld b Fld.I2C_DATA.data = v.toNat ∧ u.hw.fld b Fld.I2C_STATUS.rx_ready = 1 ∧
        (s.hw.flag b Fld.I2C_CTL.pec = true → pecRight = false → u.hw.fld b Fld.I2C_STATUS.pec_err = 1)) ∧
      (busy = false → s.hw.flag b Fld.I2C_CTL.tgt = false → u = s))
  ∧ (∀ (s : State) (i : Fin 2), s.hw.periOn (8 + i.val) = true →
    (s.hw.clocked = true → ∃ u, exec (.spiExchange i) s = .next u ∧ u.resp = Resp.ok 0 ∧ u.hw = s.hw ∧ i.val ∈ u.fliuf.spiBusy) ∧
    ∀ received : BitVec 128, (i.val ∉ s.fliuf.spiBusy → exec (.spiDone i received) s = .next s) ∧
      (i.val ∈ s.fliuf.spiBusy → ∃ u, exec (.spiDone i received) s = .next u ∧
        SameRegsOutside (spiBase i.val) 0x20 s.hw u.hw ∧ u.hw.fld (spiBase i.val) Fld.SPI_STATUS.done = 1 ∧
        ∀ k, k < 16 → leNat [((leBytes 8 (u.hw.reg (spiBase i.val + 0x10)).toNat ++
            leBytes 8 (u.hw.reg (spiBase i.val + 0x18)).toNat)[k]?).getD 0] =
          if k ≤ s.hw.fld (spiBase i.val) Fld.SPI_CTL.len then received.toNat / 2 ^ (8 * k) % 256
          else leNat [((leBytes 8 (s.hw.reg (spiBase i.val + 0x10)).toNat ++
            leBytes 8 (s.hw.reg (spiBase i.val + 0x18)).toNat)[k]?).getD 0]))
  ∧ (∀ (s : State) (line : BitVec 5) (level : Bool), let n := line.toNat
    ((12 ≤ n ∨ s.fliuf.gpioLevel.getLsbD n = level) → exec (.gpioEdge line level) s = .next s) ∧
    (n < 12 → s.fliuf.gpioLevel.getLsbD n ≠ level → ∃ u, exec (.gpioEdge line level) s = .next u ∧
      (∀ k, k < 32 → u.fliuf.gpioLevel.getLsbD k = if k = n then level else s.fliuf.gpioLevel.getLsbD k) ∧
      SameRegsOutside gpioBase 0x20 s.hw u.hw ∧
      (s.hw.periOn 10 = true → bitOf (u.hw.reg (gpioBase + 0x18)) n = true) ∧ (s.hw.periOn 10 = false → u.hw = s.hw)))
  ∧ (∀ (s : State) (i : Fin 4), s.hw.periOn 11 = true →
    ((s.timerRuns i.val = false ∨ s.timerLeft i.val ≠ 0) → exec (.timerExpiry i) s = .next s) ∧
    (s.timerRuns i.val = true → s.timerLeft i.val = 0 → ∃ u, exec (.timerExpiry i) s = .next u ∧
      u = { s with hw := u.hw, fliuf := { s.fliuf with tmrLeft := u.fliuf.tmrLeft } } ∧
      u.hw.fld (tmrBase i.val) Fld.TMR_STATUS.expired = 1 ∧ SameRegsOutside (tmrBase i.val) 0x18 s.hw u.hw ∧
      u.timerLeft i.val = s.hw.reg (tmrBase i.val) ∧ ∀ k, k ≠ i.val → u.timerLeft k = s.timerLeft k))
  ∧ (∀ (s : State) (h : Hart), ∃ u, exec (.mtimeCompare h) s = .next u ∧
      u = { s with fliuf := { s.fliuf with harts := u.fliuf.harts } } ∧ (∀ k, k ≠ h.val → u.hart k = s.hart k) ∧
      u.hart h.val = { s.hart h.val with mtip := decide ((s.hart h.val).mtimecmp.toNat ≤ s.fliuf.mtime.toNat) })
  ∧ (∀ (s : State) (ctx : BitVec 5), s.hw.clocked = true → ∃ n, exec (.plicClaim ctx) s = .next { s with resp := Resp.ok (BitVec.ofNat 64 n) } ∧ n < 64 ∧
      (n = 0 → ∀ k, k < 64 → s.claimable ctx.toNat k = false) ∧
      (n ≠ 0 → s.claimable ctx.toNat n = true ∧ ∀ k, k < 64 → s.claimable ctx.toNat k = true →
        s.priorityOf k < s.priorityOf n ∨ s.priorityOf k = s.priorityOf n ∧ n ≤ k))
  ∧ (∀ (s : State) (ctx : BitVec 5) (n : BitVec 6), s.hw.clocked = true → exec (.plicComplete ctx n) s = .next { s with resp := Resp.ok 0 })
  ∧ (∀ (s : State) (i : Fin 4) (v : Byte), s.hw.clocked = true → s.hw.periOn 12 = true → ∃ u, exec (.wdtKick i v) s = .next u ∧ u.resp = Resp.ok 0 ∧
      (v = 0x5A → u.hw = s.hw ∧
        u.fliuf = { s.fliuf with wdtFirst := s.fliuf.wdtFirst.erase i.val, wdtLeft := u.fliuf.wdtLeft } ∧
        (u.watchdogLeft i.val).toNat = s.hw.fld (wdtBase i.val) Fld.WDT_CTL.period * 2 ^ 18 ∧
        ∀ k, k ≠ i.val → u.watchdogLeft k = s.watchdogLeft k) ∧
      (v ≠ 0x5A → u.fliuf = s.fliuf ∧ u.hw.fld (wdtBase i.val) Fld.WDT_STATUS.bad_kicks =
        (s.hw.fld (wdtBase i.val) Fld.WDT_STATUS.bad_kicks + 1) % 2 ^ 32))
  ∧ (∀ (s : State) (i : Fin 4), s.hw.periOn 12 = true →
    let action := s.hw.fld (wdtBase i.val) Fld.WDT_CTL.action
    ((s.watchdogRuns i.val = false ∨ s.watchdogLeft i.val ≠ 0) → exec (.watchdogExpiry i) s = .next s) ∧
    (s.watchdogRuns i.val = true → s.watchdogLeft i.val = 0 → ∃ u, exec (.watchdogExpiry i) s = .next u ∧
      (i.val ∉ s.fliuf.wdtFirst → u.hw.fld (wdtBase i.val) Fld.WDT_STATUS.first = 1 ∧ u.hw.mem = s.hw.mem ∧ u.hw.job = s.hw.job ∧
        u.fliuf = { s.fliuf with wdtFirst := i.val :: s.fliuf.wdtFirst, wdtLeft := u.fliuf.wdtLeft } ∧ u.mgmt = s.mgmt ∧
        (u.watchdogLeft i.val).toNat = s.hw.fld (wdtBase i.val) Fld.WDT_CTL.period * 2 ^ 18 ∧
        ∀ k, k ≠ i.val → u.watchdogLeft k = s.watchdogLeft k) ∧
      (i.val ∈ s.fliuf.wdtFirst → (action = 0 → u = { s with fliuf := { s.fliuf with wdtLeft := u.fliuf.wdtLeft } }) ∧
        (action = 1 → u.hw.mem = s.hw.mem ∧ u.hw.job = s.hw.job ∧ u.mgmt.sessions = [] ∧ u.xof = s.xof ∧
          ∀ k, k < 16 → u.hart k = 
            { HartSt.reset with run := .running, pc := BitVec.ofNat 64 (s.hw.fld sysBase Fld.SYS_FW_ENTRY.entry),
                                msip := (s.hart k).msip }) ∧
        (action = 2 → u.hw.job = none ∧ u.mgmt.sessions = [] ∧ u.hw.fld sysBase Fld.SYS_RESET_CAUSE.cause = 16))))

/-! ### The debug unit and resets -/

/-- R438, R439, R443 to R446, R455: a capture by register copies every ring with its queued records in the tick after the write
(Table 12.7; a step on an empty queue is that tick: assumption 1), or is refused while copies are held; a release lets the copies go; the collector rank takes fault reports in turn; trace settings wait for the slot boundary while
a job is admitted; the debug port reaches what an access from outside reaches while its fuse is set, and nothing otherwise. -/
def Obligations.TheDebugUnitCapturesCollectsAndReaches : Prop :=
  (∀ s : State, s.hw.clocked = true → ∃ u, exec .captureRequest s = .next u ∧ u = { s with hw := u.hw, resp := Resp.ok 0 } ∧ u.hw.mem = s.hw.mem ∧
      u.hw.job = s.hw.job ∧ u.hw.dbg.dump0 = s.hw.dbg.dump0 ∧ u.hw.dbg.dump1 = s.hw.dbg.dump1 ∧
      (s.hw.flag dbgBase Fld.DBG_STATUS.held = true → u.hw.dbg = s.hw.dbg ∧
        u.hw.fld dbgBase Fld.DBG_FLAGS.cap_refused = 1 ∧ u.hw.fld dbgBase Fld.DBG_CNT_A.cap_refused =
          (s.hw.fld dbgBase Fld.DBG_CNT_A.cap_refused + 1) % 2 ^ 32) ∧
      (s.hw.flag dbgBase Fld.DBG_STATUS.held = false → u.hw = { s.hw with dbg := { s.hw.dbg with asked := true } }))
  ∧ (∀ s : State, s.pending = [] → s.hw.clocked = true → s.hw.tiles = [] → (∀ c, (s.hw.ctl c).held = []) →
      s.hw.dbg.asked = true → s.hw.flag dbgBase Fld.DBG_STATUS.held = false → ∃ u, step s = .next u ∧ u.hw.dbg.asked = false ∧
      u.hw.fld dbgBase Fld.DBG_STATUS.held = 1 ∧ u.hw.fld dbgBase Fld.DBG_STATUS.trigger = 5 ∧
      u.hw.fld dbgBase Fld.DBG_CAP_TICK.tick = (s.hw.now + 1) % 2 ^ 64 ∧
      ∀ n, n ≠ ringModule → ((s.hw.ring n).live ≠ [] ∨ (s.hw.ring n).queue ≠ []) →
        (u.hw.ring n).capLive = ((s.hw.ring n).queue.foldl Ring.store (s.hw.ring n)).live ∧
        (u.hw.ring n).live = (s.hw.ring n).live)
  ∧ (∀ s : State, s.hw.clocked = true → ∃ u, exec .captureRelease s = .next u ∧ u = { s with hw := u.hw, resp := Resp.ok 0 } ∧ u.hw.mem = s.hw.mem ∧
      u.hw.fld dbgBase Fld.DBG_STATUS.held = 0 ∧ ∀ n, (u.hw.ring n).capLive = [] ∧ (u.hw.trace n).capLive = [])
  ∧ (∀ s : State, s.hw.clocked = true → ∃ u, exec .collectorClear s = .next u ∧ u = { s with hw := u.hw, resp := Resp.ok 0 } ∧ u.hw.mem = s.hw.mem ∧
      u.hw.dbg = { s.hw.dbg with collector := [] } ∧ u.hw.fld dbgBase Fld.FLT_STAT.next = 0 ∧
      u.hw.fld dbgBase Fld.FLT_STAT.full = 0 ∧ u.hw.fld dbgBase Fld.FLT_STAT.delivered = s.hw.fld dbgBase Fld.FLT_STAT.delivered)
  ∧ (∀ (s : State) (p : Port) (f : Flit), Deliverable s.hw p f → f.mtype = 0x15 →
      ∃ u, exec (.faultDeliver p f) s = .next u ∧ HwOnly s u ∧ u.hw.mem = s.hw.mem ∧ u.hw.job = s.hw.job ∧
        let k := s.hw.fld dbgBase Fld.FLT_STAT.next
        (∀ j, s.hw.job = some j → j.img.collector = s.hw.rank →
          u.hw.fld dbgBase Fld.FLT_STAT.next = (k + 1) % 256 ∧
          u.hw.fld dbgBase Fld.FLT_STAT.delivered = (s.hw.fld dbgBase Fld.FLT_STAT.delivered + 1) % 2 ^ 32 ∧
          (k = 255 → u.hw.fld dbgBase Fld.FLT_STAT.full = 1) ∧
          ∃ bs, u.hw.dbg.collector.find? k = some bs ∧ bs.length = 256 ∧ sub bs 8 8 = leBytes 8 (msgBits f 95 32) ∧
            leAt bs 16 2 = msgBits f 13 0 ∧ leAt bs 18 1 = msgBits f 17 14) ∧
        ((∀ j, s.hw.job = some j → j.img.collector ≠ s.hw.rank) → u.hw.fld dbgBase Fld.DBG_FLAGS.flt_bad = 1 ∧
          u.hw.dbg.collector = s.hw.dbg.collector))
  ∧ (∀ (s : State) (t : Tile) (v : BitVec 5), s.hw.clocked = true → ∃ u, exec (.traceControlWrite t v) s = .next u ∧
      u = { s with hw := u.hw, resp := Resp.ok 0 } ∧ u.hw.mem = s.hw.mem ∧ (∀ n, n ≠ t.val → u.hw.trace n = s.hw.trace n) ∧
      u.hw.fld (tileBase t.val) Fld.TRC_CTL.view = flagNat (v.getLsbD 4) ∧
      (s.hw.job = none → bitsOf (u.hw.reg (tileBase t.val + 0xD080)) 2 0 = v.toNat % 8 ∧ (u.hw.trace t.val).pending = none ∧
        (v.getLsbD 3 = true → (u.hw.trace t.val).live = []) ∧
        (v.getLsbD 3 = false → (u.hw.trace t.val).live = (s.hw.traceNow t.val).live)) ∧
      (s.hw.job.isSome = true → bitsOf (u.hw.reg (tileBase t.val + 0xD080)) 2 0 = bitsOf (s.hw.reg (tileBase t.val + 0xD080)) 2 0 ∧
        (u.hw.trace t.val).live = (s.hw.trace t.val).live ∧
        ∃ w, (u.hw.trace t.val).pending = some w ∧ w.toNat % 8 = v.toNat % 8))
  ∧ (∀ (s : State) (t : Tile), s.hw.clocked = true → ∃ u, exec (.traceClear t) s = .next u ∧ u = { s with hw := u.hw, resp := Resp.ok 0 } ∧
      u.hw.mem = s.hw.mem ∧ u.hw.traceAsked t.val &&& 0x17#64 = s.hw.traceAsked t.val &&& 0x17#64 ∧
      (s.hw.job = none → (u.hw.trace t.val).live = []) ∧
      (s.hw.job.isSome = true → ∃ w, (u.hw.trace t.val).pending = some w ∧ w.getLsbD 3 = true))
  ∧ (∀ (s : State) (addr : Addr) (width : BitVec 4) (write : Option Word) (found : Ecc),
      (s.xof.debugOpen = true → s.hw.clocked = true → s.hw.heldUp addr.toNat width.toNat = false →
        exec (.debugBusAccess addr width write found) s = exec (.nonscheduledAccess .debug (BitVec.ofNat 64 addr.toNat) width
          (match write with
            | none => .read
            | some v => .write v) none found) s ∧
        ∃ u, exec (.debugBusAccess addr width write found) s = .next u ∧ u.xof.debugOpen = true) ∧
      (s.xof.debugOpen = true → s.hw.clocked = true → s.hw.heldUp addr.toNat width.toNat = true →
        exec (.debugBusAccess addr width write found) s = .next { s with hw := { s.hw with tier := { s.hw.tier with
          waiting := s.hw.tier.waiting ++ [.debugBusAccess addr width write found] } } }) ∧
      (s.xof.debugOpen = false → exec (.debugBusAccess addr width write found) s = .next { s with resp := Resp.bus }))
  ∧ (∀ (s : State) (op : DebugOp), (s.xof.debugOpen = false → exec (.debugModuleAccess op) s = .next { s with resp := Resp.bus }) ∧
      (s.xof.debugOpen = true → ∃ u, exec (.debugModuleAccess op) s = .next u ∧ u.resp = Resp.ok 0 ∧ u.xof.debugOpen = true ∧
        (op = .resetModule → u.hw.job = none ∧ u.mgmt.sessions = [] ∧ u.hw.fld sysBase Fld.SYS_RESET_CAUSE.cause = 32) ∧
        (∀ h : Hart, op = .halt h ∨ op = .resume h ∨ op = .resetHart h → u.hw = s.hw ∧ ∀ k, k ≠ h.val → u.hart k = s.hart k) ∧
        (∀ h : Hart, op = .halt h → u.hart h.val = { s.hart h.val with run := .halted }) ∧
        (∀ h : Hart, op = .resume h → u.hart h.val = { s.hart h.val with run := .running }) ∧
        (∀ h : Hart, op = .resetHart h → (u.hart h.val).pc = HartSt.reset.pc ∧ (u.hart h.val).view = Paging.bare ∧
          (u.hart h.val).run = (s.hart h.val).run)))

/-- R246, R405 to R407, R410, R472: a RESET resets the module at its tick, or at once and flagged where the tick has passed; it ends
the job, keeps Tense and the alignment, and boots; a flash read error on the device record ends the boot in recovery mode. The
verified firmware is entered by every hart in machine mode; it trains the memory units whose lanes run, and a unit whose training
fails is lost (R211). -/
def Obligations.ResetsComeAtTheirTickAndFirmwareIsEntered : Prop :=
  (∀ (s : State) (e : Option (Fin 3)),
      ((s.hw.clk.resetAt = none ∨ ∃ a, s.hw.clk.resetAt = some a ∧ s.hw.now < a.toNat) → exec (.globalReset e) s = .next s) ∧
      (∀ a, s.hw.clk.resetAt = some a → a.toNat ≤ s.hw.now → ∃ u, exec (.globalReset e) s = .next u ∧ u.hw.job = none ∧
        u.hw.tense0 = s.hw.tense0 ∧ u.hw.tense1 = s.hw.tense1 ∧ u.hw.alignState = s.hw.alignState ∧ u.hw.clk.resetAt = none ∧
        u.mgmt.sessions = [] ∧ u.power = s.power ∧ u.xof.owner = s.xof.owner ∧ u.xof.owned = s.xof.owner.isSome ∧
        u.hw.fld sysBase Fld.SYS_RESET_CAUSE.cause = 4 ∧
        (e = some 0 → u.hw.fld sysBase Fld.SYS_STATUS.stage = 4 ∧ u.hw.fld sysBase Fld.SYS_STATUS.reason = 6 ∧ u.inRecovery = true)))
  ∧ (∀ (s : State) (p : Port) (f : Flit), Deliverable s.hw p f → f.mtype = 0x16 → msgBits f 63 0 < s.hw.now →
      ∃ u, exec (.resetMessage p f) s = .next u ∧ u.hw.job = none ∧ u.hw.tense0 = s.hw.tense0 ∧ u.hw.alignState = s.hw.alignState ∧
        u.mgmt.sessions = [] ∧ u.hw.fld (portBase p) Fld.PORT_FLAGS.bad_type = 1)
  ∧ (∀ (s : State) (un : List (Fin 20)), (s.mayEnter = false → exec (.firmwareEntry un) s = .next s) ∧
      (s.mayEnter = true → ∃ u, exec (.firmwareEntry un) s = .next u ∧ u.mgmt = s.mgmt ∧ u.xof = s.xof ∧ u.hw.mem = s.hw.mem ∧
        u.hw.fld sysBase Fld.SYS_STATUS.stage = 3 ∧
        u.hw.reg (clkBase + Fld.CLK_PERI_EN.uart.off) = BitVec.ofNat 64 s.mgmt.bcr.periEn ∧
        (∀ c : Fin 20, s.hw.fld clkBase Fld.CLK_STATUS.lanes / 2 ^ (if c.val < 12 then 2 else 3) % 2 = 1 → s.hw.ctlState c = 0 →
          u.hw.ctlState c = if c ∈ un then 3 else 1) ∧
        ∀ k, k < 16 → (u.hart k).run = .running ∧ (u.hart k).view = Paging.bare ∧
          (u.hart k).pc = BitVec.ofNat 64 (sharedBase + fwEntry (s.mgmt.flashRead firmwareAt 256))))

/-! ### Power -/

/-- R457 to R469, Tables 13.4 to 13.6: a sample that shows no cause leaves the module on and its reading in PWR_VIN; one that shows
causes switches the module off at once, with the first cause named, the latch as the cause has it and every memory lost. A reading
of the sensors excludes the invalid ones and switches off above a trip limit. Rail groups go off one by one. -/
def Obligations.SamplesSwitchTheModuleOff : Prop :=
  (∀ (s : State) (r : PowerReading), (s.powerState = 0 → exec (.powerSample r) s = .next s) ∧
    (s.powerState ≠ 0 → ∃ u, exec (.powerSample r) s = .next u ∧
      let x := s.power.sampled r
      let mv := inputMv x r
      (s.powerState = 3 → inputCauses x r mv = [] → u.powerState = 3 ∧ u.hw.job = s.hw.job ∧ u.hw.mem = s.hw.mem ∧
        u.mgmt = s.mgmt ∧ u.xof = s.xof ∧ u.fliuf = s.fliuf ∧ u.hw.fld pwrBase Fld.PWR_VIN.mv = mv % 2 ^ 16 ∧
        u.hw.fld pwrBase Fld.PWR_VIN.ma = r.ma.toNat ∧ u.power.samples = (mv * r.ma.toNat / 1000 :: s.power.samples).take 1000) ∧
      (∀ d ds, s.powerState = 3 → inputCauses x r mv = d :: ds → u.powerState = 4 ∧ u.hw.job = none ∧ u.hw.mem = [] ∧
        u.mgmt.sessions = [] ∧ u.hw.fld pwrBase Fld.PWR_LAST.cause = d.cause % 16 ∧ u.hw.fld pwrBase Fld.PWR_LAST.valid = 1 ∧
        u.power.latched = latches d.cause ∧ u.power.faultN = false ∧ u.power.offCause = d.cause) ∧
      (s.powerState = 3 → 48000 < mv → u.power.offCause = 1 ∧ u.power.latched = false) ∧
      (s.powerState = 3 → mv ≤ 48000 → r.hotSwapLimit = true → u.power.offCause = 2 ∧ u.power.latched = true) ∧
      (s.powerState = 2 → r.hotSwapLimit = false → r.railShort = none → r.railOver = none → x.meanAbove 10 2600 = false →
        x.meanAbove 1000 2200 = false → (mv < 35000 ∨ 46000 < mv ∨ s.power.enHigh = false) → u.powerState = 1 ∧ u.power.stage = 2 ∧
          u.power.groupsOn = 0)))
  ∧ (∀ s : State, (s.powerState ≠ 4 → exec .railGroupOff s = .next s) ∧
      (s.powerState = 4 → ∃ u, exec .railGroupOff s = .next u ∧ u.power.groupsOn = s.power.groupsOn - 1 ∧
        (2 ≤ s.power.groupsOn → u.hw = s.hw ∧ u.power = { s.power with groupsOn := s.power.groupsOn - 1 }) ∧
        (s.power.groupsOn ≤ 1 → u.powerState = 1 ∧ (s.power.latched = true → u.power.faultN = s.power.faultN) ∧
          (s.power.latched = false → u.power.faultN = true) ∧
          (s.power.offCause = 10 → s.power.enHigh = true → u.power.stage = 2))))
  ∧ (∀ (s : State) (rs : List SensorReading), (s.powered = false → exec (.temperatureSample rs) s = .next s) ∧
      (s.powered = true → ∃ u, exec (.temperatureSample rs) s = .next u ∧
        (∀ k, k < 58 → k ∉ s.power.invalid →
          (validReading ((rs[k]?).getD none) = none → k ∈ u.power.invalid ∧ u.hw.fld pwrBase Fld.PWR_FAULT.sensor = 1) ∧
          (∀ t, validReading ((rs[k]?).getD none) = some t → k ∉ u.power.invalid ∧ u.power.temps.get 0 k = BitVec.ofInt 16 t ∧
            (zoneOf k < 6 → warnLimit (zoneOf k) * 16 < t → u.hw.fld pwrBase Fld.PWR_FAULT.temp_warn = 1))) ∧
        (tempCauses u.power = [] → u.powerState = 3 ∧ u.hw.job = s.hw.job ∧ u.hw.mem = s.hw.mem) ∧
        (∀ d ds, tempCauses u.power = d :: ds → u.powerState = 4 ∧ u.hw.job = none ∧ u.hw.mem = [] ∧
          u.hw.fld pwrBase Fld.PWR_LAST.cause = d.cause ∧ u.power.latched = true)))

/-- R463, R467, R471, R473, Tables 13.8 and 13.9: PWR_EN ends a latch after 10 ms low and starts a power-up; the input starts it as
well, and after an overvoltage or undervoltage it restarts of itself; the stages follow one another, group 1 waiting for the
reference clock; RESET_N resets the module while its rails stand; below 20 V nothing is left. The sideband answers while the
always-on domain stands. -/
def Obligations.PowerComesUpStageByStage : Prop :=
  (∀ (s : State) (high : Bool), (s.power.enHigh = high → exec (.pwrEnChange high) s = .next s) ∧
    (s.power.enHigh ≠ high → ∃ u, exec (.pwrEnChange high) s = .next u ∧ u.power.enHigh = high ∧ u.power.enLow = 0 ∧
      u.hw.fld pwrBase Fld.PWR_STATUS.en = flagNat high ∧ u.hw.mem = s.hw.mem ∧ u.hw.job = s.hw.job ∧
      (high = false → s.powerState = 2 → u.powerState = 1 ∧ u.power.stage = 2) ∧
      (high = false → s.powerState ≠ 2 → u.powerState = s.powerState ∧ u.power.stage = s.power.stage) ∧
      (high = true → s.powerState = 1 → s.power.latched = true →
        u.power.latched = decide (s.power.enLow < 10000) ∧ u.power.faultN = (s.power.faultN || decide (10000 ≤ s.power.enLow))) ∧
      (high = true → s.powerState = 1 → s.power.stage = 0 → s.power.waits = false →
        (s.power.latched = false ∨ 10000 ≤ s.power.enLow) → u.power.stage = 2) ∧
      (high = true → s.powerState = 1 → s.power.stage = 0 → s.power.latched = true → s.power.enLow < 10000 → u.power.stage = 0)))
  ∧ (∀ s : State, s.power.enHigh = true → s.power.stage = 0 →
      (s.powerState = 0 → ∃ u, exec .powerUp s = .next u ∧ u = { s with power := { s.power with stage := 1, usUp := 0 } }) ∧
      (s.powerState = 1 → s.power.latched = false → s.power.waits = false →
        ∃ u, exec .powerUp s = .next u ∧ u = { s with power := { s.power with stage := 2, offCause := 0, goodRun := 0 } }) ∧
      (s.powerState = 1 → (s.power.latched = true ∨ s.power.waits = true) → exec .powerUp s = .next s) ∧
      (s.powerState = 1 → s.power.waits = true → 100000 ≤ s.power.goodRun →
        exec .automaticRestart s = .next { s with power := { s.power with stage := 2, offCause := 0, goodRun := 0 } }))
  ∧ (∀ s : State, (s.power.waits = false ∨ s.power.goodRun < 100000) → exec .automaticRestart s = .next s)
  ∧ (∀ s : State, ∃ u, exec .powerUpStage s = .next u ∧
      (s.power.stage = 1 → u.power = { s.power with stage := 2, goodRun := 0 } ∧ u.powerState = 1) ∧
      (s.power.stage = 2 → 10000 ≤ s.power.goodRun → u.power.stage = 3 ∧ u.power.groupsOn = 0 ∧ u.powerState = 2 ∧
        u.hw.job = none ∧ u.mgmt.sessions = [] ∧ u.hw.fld sysBase Fld.SYS_RESET_CAUSE.cause = 1) ∧
      (s.power.stage = 2 → s.power.goodRun < 10000 → u = s) ∧
      (s.power.stage = 3 → u = { s with power := { s.power with stage := 4 } }) ∧
      (s.power.stage = 4 → s.hw.flag clkBase Fld.CLK_STATUS.ref = false → u = s) ∧
      (s.power.stage = 4 → s.hw.flag clkBase Fld.CLK_STATUS.ref = true →
        u = { s with power := { s.power with stage := 5, groupsOn := 1 } }) ∧
      (∀ g, 1 ≤ g → g < 5 → s.power.stage = 4 + g → u = { s with power := { s.power with stage := 5 + g, groupsOn := g + 1 } }) ∧
      (s.power.stage = 9 → u.power = { s.power with stage := 10, groupsOn := 6 } ∧ u.powerState = 3 ∧ u.hw.mem = s.hw.mem))
  ∧ (∀ (s : State) (high : Bool), ∃ u, exec (.resetN high) s = .next u ∧ u.power = { s.power with resetHigh := high } ∧
      ((high = true ∨ s.powered = false) → u.hw.job = s.hw.job ∧ u.hw.mem = s.hw.mem ∧ u.mgmt = s.mgmt) ∧
      (high = false → s.powered = true → u.hw.job = none ∧ u.mgmt.sessions = [] ∧ u.hw.tense0 = 0 ∧
        u.hw.fld sysBase Fld.SYS_RESET_CAUSE.cause = 2))
  ∧ (∀ s : State, ∃ u, exec .alwaysOnSupplyLoss s = .next u ∧ u.powerState = 0 ∧ u.hw.mem = [] ∧ u.hw.job = none ∧
      u.power.latched = false ∧ u.power.groupsOn = 0 ∧ u.power.stage = 0 ∧ u.hw.fld pwrBase Fld.PWR_LAST.valid = 0)
  ∧ (∀ (s : State) (i : Instr) (code : Byte) (v : Nat),
      (i, v) ∈ [(Instr.statusWord, s.power.statusWord), (.statusVout, s.power.status % 256), (.statusInput, s.power.status / 256 % 256),
        (.statusTemperature, s.power.status / 65536 % 256), (.readVin, linear 0x88 (s.hw.fld pwrBase Fld.PWR_VIN.mv) 1000),
        (.readIin, linear 0x89 (s.hw.fld pwrBase Fld.PWR_VIN.ma) 1000), (.readPin, linear 0x97 (s.power.mean 1000) 1000),
        (.mfrLastOff, (s.hw.reg (pwrBase + 0x28)).toNat), (.clearFaults, 0), (.readTemperature1, 0), (.readTemperature2, 0),
        (.pmbusRelay code, 0)] →
      (s.powerState = 0 → exec i s = .next { s with resp := Resp.bus }) ∧
      (s.powerState ≠ 0 → i ∉ [Instr.clearFaults, .readTemperature1, .readTemperature2, .pmbusRelay code] →
        exec i s = .next { s with resp := Resp.ok (BitVec.ofNat 64 v) }))
  ∧ (∀ s : State, s.powerState ≠ 0 →
      (∃ u, exec .clearFaults s = .next u ∧ u.resp = Resp.ok 0 ∧ u.power = { s.power with status := 0 } ∧
        u.powerState = s.powerState ∧ u.hw.mem = s.hw.mem ∧ u.hw.job = s.hw.job) ∧
      (∀ (i : Instr) (c : Nat) (t : Option Int), (i, c, t) ∈ [(Instr.readTemperature1, 0x8D, s.power.hottestDie),
          (.readTemperature2, 0x8E, s.power.coolantSensor.map s.power.temp)] →
        (∀ v, t = some v → exec i s = .next { s with resp := Resp.ok (BitVec.ofNat 64 (linear c v 16)) }) ∧
        (t = none → ∃ u, exec i s = .next u ∧ u = { s with hw := { s.hw with free := s.hw.free + 1 }, resp := u.resp } ∧
          u.resp.busError = false)) ∧
      ∀ code : Byte, (s.hw.periOn 4 = false → exec (.pmbusRelay code) s = .next { s with resp := Resp.bus }) ∧
        (s.hw.periOn 4 = true → ∃ u v, exec (.pmbusRelay code) s = .next u ∧ exec (.i2cByte 0 true false true code) s = .next v ∧
          u = { v with resp := Resp.ok 0 }))

/-! ### Every run -/

/-- R414: the reset state, in which no session is open, is `Sound`. -/
def Obligations.SoundAtReset : Prop := Sound State.reset

/-- R410, R414, R427: whatever command comes, and on every idle tick, at most eight sessions stay open, each under a number of its
own; the fuses of the device secret, the serial number, the addresses and the debug port stay as they were; the least svn never
falls; an owner key, once burned, stays. -/
def Obligations.EveryStepKeepsSessionsAndFuses : Prop :=
  ∀ s u : State, step s = .next u →
    (Sound s → Sound u) ∧
    (u.xof.secret, u.xof.serial, u.xof.macs, u.xof.debugOpen) = (s.xof.secret, s.xof.serial, s.xof.macs, s.xof.debugOpen) ∧
    s.xof.svn ≤ u.xof.svn ∧ ∀ d, s.xof.owner = some d → u.xof.owner = some d

end
end

