-- ==== Sys2Proof/Laws/Bits.lean ====
section
/-!
SUPPORT. Bit fields of a word: what a field reads after a field of the word was written.
-/
namespace Sys2Proof.Machine

theorem bitsOf_testBit (w : Word) (hi lo i : Nat) :
    (bitsOf w hi lo).testBit i = (decide (i < hi + 1 - lo) && w.getLsbD (lo + i)) := by
  simp [bitsOf, Nat.testBit_mod_two_pow, Nat.testBit_shiftRight, BitVec.testBit_toNat]

theorem bitsOf_lt (w : Word) (hi lo : Nat) : bitsOf w hi lo < 2 ^ (hi + 1 - lo) := Nat.mod_lt _ (Nat.two_pow_pos _)

theorem withBits_getLsbD (w : Word) (hi lo v i : Nat) (h64 : i < 64) :
    (withBits w hi lo v).getLsbD i = if lo ≤ i ∧ i < hi + 1 then v.testBit (i - lo) else w.getLsbD i := by
  have hm : ((2 ^ (hi + 1 - lo) - 1) <<< lo).testBit i = (decide (lo ≤ i) && decide (i < hi + 1)) := by
    rw [Nat.testBit_shiftLeft, Nat.testBit_two_pow_sub_one]
    by_cases h : lo ≤ i <;> simp [h]; omega
  simp only [withBits, BitVec.getLsbD_or, BitVec.getLsbD_and, BitVec.getLsbD_not, BitVec.getLsbD_ofNat, h64, decide_true,
    Bool.true_and, hm]
  by_cases h1 : lo ≤ i <;> by_cases h2 : i < hi + 1 <;>
    simp [h1, h2, Nat.testBit_shiftLeft, Nat.testBit_mod_two_pow]
  · intro; omega
  all_goals omega

/-- The field that was written holds the low bits of what was written. -/
theorem bitsOf_withBits_same (w : Word) (hi lo v : Nat) (h64 : hi < 64) :
    bitsOf (withBits w hi lo v) hi lo = v % 2 ^ (hi + 1 - lo) := by
  apply Nat.eq_of_testBit_eq
  intro i
  rw [bitsOf_testBit, Nat.testBit_mod_two_pow]
  by_cases h : i < hi + 1 - lo
  · rw [withBits_getLsbD _ _ _ _ _ (by omega), if_pos (by omega)]
    simp [h]
  · simp [h]

/-- A field apart from the one that was written is unchanged. -/
theorem bitsOf_withBits_other (w : Word) (hi lo hi' lo' v : Nat) (h64 : hi' < 64) (h : hi < lo' ∨ hi' < lo) :
    bitsOf (withBits w hi lo v) hi' lo' = bitsOf w hi' lo' := by
  apply Nat.eq_of_testBit_eq
  intro i
  rw [bitsOf_testBit, bitsOf_testBit]
  by_cases hi'' : i < hi' + 1 - lo'
  · rw [withBits_getLsbD _ _ _ _ _ (by omega), if_neg (by omega)]
  · simp [hi'']

/-- The little-endian bytes of a number give it back, as far as they go. -/
theorem leNat_leBytes (k : Nat) : ∀ n, leNat (leBytes k n) = n % 2 ^ (8 * k) := by
  induction k with
  | zero => intro n; simp [leBytes, leNat, Nat.mod_one]
  | succ k ih =>
    intro n
    have e : 2 ^ (8 * (k + 1)) = 256 * 2 ^ (8 * k) := by rw [Nat.mul_succ, Nat.pow_add]; omega
    simp only [leBytes, leNat, ih, BitVec.toNat_ofNat]
    rw [e, Nat.mod_mul]

end Sys2Proof.Machine
end

