-- ==== Sys2Proof/Laws/Cells.lean ====
section
/-!
SUPPORT. The cells of a compound form the exact product of two significands (R99).
-/
namespace Sys2Proof.Machine

theorem foldl_add_eq (l : List Nat) (s : Nat) : l.foldl (· + ·) s = s + l.sum := by
  induction l generalizing s with
  | nil => simp
  | cons x t ih => simp [ih]; omega

/-- The fragments of a significand, each at its place, add up to it. -/
theorem frags_sum (x : Elt) (k : Nat) : ((List.range k).map (fun i => x.frag i * 16 ^ i)).sum = x.sig % 16 ^ k := by
  induction k with
  | zero => simp [Nat.mod_one]
  | succ k ih =>
    rw [List.range_succ, List.map_append, List.sum_append, ih, Nat.mod_pow_succ]
    simp [Elt.frag, Nat.mul_comm]

/-- The k² partial products of two sequences of fragments add up to the product of their sums. -/
theorem compoundSum_eq (k : Nat) (a w : Nat → Nat) : compoundSum k a w
    = ((List.range k).map (fun i => a i * 16 ^ i)).sum * ((List.range k).map (fun l => w l * 16 ^ l)).sum := by
  simp only [compoundSum, foldl_add_eq, Nat.zero_add]
  rw [← List.sum_map_mul_right]
  refine congrArg List.sum (List.map_congr_left (fun i _ => ?_))
  rw [← List.sum_map_mul_left]
  exact congrArg List.sum (List.map_congr_left (fun l _ => by rw [pow_add]; ring))

/-- R99: a compound of side k multiplies two significands of at most k fragments exactly. -/
theorem compoundSum_exact (k : Nat) (a w : Elt) (ha : a.sig < 16 ^ k) (hw : w.sig < 16 ^ k) :
    compoundSum k a.frag w.frag = a.sig * w.sig := by
  rw [compoundSum_eq, frags_sum, frags_sum, Nat.mod_eq_of_lt ha, Nat.mod_eq_of_lt hw]

end Sys2Proof.Machine
end

