-- ==== Sys2Proof/Laws/SMap.lean ====
section
/-!
SUPPORT. The laws of sparse state: what a key holds after a write, and that every write keeps the canonical form.
-/
namespace Sys2Proof.Machine

variable {α : Type}

@[simp] theorem SMap.find?_nil (k : Nat) : SMap.find? ([] : SMap α) k = none := rfl

@[simp] theorem SMap.get_nil (d : α) (k : Nat) : SMap.get ([] : SMap α) d k = d := rfl

@[simp] theorem SMap.find?_insert_same (m : SMap α) (k : Nat) (v : α) : (m.insert k v).find? k = some v := by
  induction m with
  | nil => simp [SMap.insert, SMap.find?]
  | cons e t ih =>
    simp only [SMap.insert]
    split
    · simp [SMap.find?]
    · split
      · simp [SMap.find?]
      · rename_i h
        simp [SMap.find?, Ne.symm h, ih]

theorem SMap.find?_insert_other (m : SMap α) (k j : Nat) (v : α) (h : j ≠ k) : (m.insert k v).find? j = m.find? j := by
  induction m with
  | nil => simp [SMap.insert, SMap.find?, Ne.symm h]
  | cons e t ih =>
    simp only [SMap.insert]
    split
    · simp [SMap.find?, Ne.symm h]
    · split
      · rename_i h'
        simp [SMap.find?, ← h', Ne.symm h]
      · simp [SMap.find?, ih]

@[simp] theorem SMap.find?_erase_same (m : SMap α) (k : Nat) : (m.erase k).find? k = none := by
  induction m with
  | nil => rfl
  | cons e t ih =>
    simp only [SMap.erase]
    split
    · exact ih
    · rename_i h
      simp [SMap.find?, h, ih]

theorem SMap.find?_erase_other (m : SMap α) (k j : Nat) (h : j ≠ k) : (m.erase k).find? j = m.find? j := by
  induction m with
  | nil => rfl
  | cons e t ih =>
    simp only [SMap.erase]
    split
    · rename_i h'
      simp [SMap.find?, h', Ne.symm h, ih]
    · simp [SMap.find?, ih]

@[simp] theorem SMap.get_set_same [DecidableEq α] (m : SMap α) (d : α) (k : Nat) (v : α) : (m.set d k v).get d k = v := by
  unfold SMap.set SMap.get
  split
  · rename_i h; simp [h]
  · simp

theorem SMap.get_set_other [DecidableEq α] (m : SMap α) (d d' : α) (k j : Nat) (v : α) (h : j ≠ k) :
    (m.set d k v).get d' j = m.get d' j := by
  unfold SMap.set SMap.get
  split
  · rw [SMap.find?_erase_other _ _ _ h]
  · rw [SMap.find?_insert_other _ _ _ _ h]

/-! ### The canonical form -/

theorem SMap.rising_mono (m : SMap α) (a b : Nat) (h : a ≤ b) (hm : SMap.rising b m = true) : SMap.rising a m = true := by
  cases m with
  | nil => rfl
  | cons e t =>
    simp only [SMap.rising, Bool.and_eq_true, decide_eq_true_eq] at hm ⊢
    exact ⟨by omega, hm.2⟩

theorem SMap.rising_erase (m : SMap α) (k a : Nat) (hm : SMap.rising a m = true) : SMap.rising a (m.erase k) = true := by
  induction m generalizing a with
  | nil => rfl
  | cons e t ih =>
    simp only [SMap.rising, Bool.and_eq_true, decide_eq_true_eq] at hm
    simp only [SMap.erase]
    split
    · exact ih _ (SMap.rising_mono _ _ _ (by omega) hm.2)
    · simp only [SMap.rising, Bool.and_eq_true, decide_eq_true_eq]
      exact ⟨hm.1, ih _ hm.2⟩

theorem SMap.rising_insert (m : SMap α) (k a : Nat) (v : α) (ha : a ≤ k) (hm : SMap.rising a m = true) :
    SMap.rising a (m.insert k v) = true := by
  induction m generalizing a with
  | nil => simp [SMap.insert, SMap.rising, ha]
  | cons e t ih =>
    simp only [SMap.rising, Bool.and_eq_true, decide_eq_true_eq] at hm
    simp only [SMap.insert]
    split
    · simp only [SMap.rising, Bool.and_eq_true, decide_eq_true_eq]
      exact ⟨ha, by omega, hm.2⟩
    · split
      · rename_i h
        simp only [SMap.rising, Bool.and_eq_true, decide_eq_true_eq]
        exact ⟨ha, by rw [h]; exact hm.2⟩
      · simp only [SMap.rising, Bool.and_eq_true, decide_eq_true_eq]
        exact ⟨hm.1, ih _ (by omega) hm.2⟩

theorem SMap.mem_erase (m : SMap α) (k : Nat) (e : Nat × α) (h : e ∈ m.erase k) : e ∈ m := by
  induction m with
  | nil => simp [SMap.erase] at h
  | cons x t ih =>
    simp only [SMap.erase] at h
    split at h
    · exact List.mem_cons_of_mem _ (ih h)
    · rcases List.mem_cons.mp h with h | h
      · exact h ▸ List.mem_cons_self
      · exact List.mem_cons_of_mem _ (ih h)

theorem SMap.mem_insert (m : SMap α) (k : Nat) (v : α) (e : Nat × α) (h : e ∈ m.insert k v) : e = (k, v) ∨ e ∈ m := by
  induction m with
  | nil => simpa [SMap.insert] using h
  | cons x t ih =>
    simp only [SMap.insert] at h
    split at h
    · simpa using h
    · split at h
      · rcases List.mem_cons.mp h with h | h
        · exact .inl h
        · exact .inr (List.mem_cons_of_mem _ h)
      · rcases List.mem_cons.mp h with h | h
        · exact .inr (h ▸ List.mem_cons_self)
        · rcases ih h with h | h
          · exact .inl h
          · exact .inr (List.mem_cons_of_mem _ h)

/-- A write keeps the canonical form. -/
theorem SMap.wf_set [DecidableEq α] (m : SMap α) (d : Nat → α) (k : Nat) (v : α) (hm : m.wf d = true) :
    (m.set (d k) k v).wf d = true := by
  simp only [SMap.wf, Bool.and_eq_true, List.all_eq_true, decide_eq_true_eq] at hm ⊢
  unfold SMap.set
  split
  · exact ⟨SMap.rising_erase _ _ _ hm.1, fun e he => hm.2 e (SMap.mem_erase _ _ _ he)⟩
  · rename_i hv
    refine ⟨SMap.rising_insert _ _ _ _ (Nat.zero_le _) hm.1, fun e he => ?_⟩
    rcases SMap.mem_insert _ _ _ _ he with rfl | he
    · exact hv
    · exact hm.2 e he

/-- So does an update. -/
theorem SMap.wf_upd [DecidableEq α] (m : SMap α) (d : α) (k : Nat) (f : α → α) (hm : m.wf (fun _ => d) = true) :
    (m.upd d k f).wf (fun _ => d) = true := SMap.wf_set m (fun _ => d) k _ hm

/-- So does taking an entry out. -/
theorem SMap.wf_erase [DecidableEq α] (m : SMap α) (d : Nat → α) (k : Nat) (hm : m.wf d = true) :
    (m.erase k).wf d = true := by
  simp only [SMap.wf, Bool.and_eq_true, List.all_eq_true, decide_eq_true_eq] at hm ⊢
  exact ⟨SMap.rising_erase _ _ _ hm.1, fun e he => hm.2 e (SMap.mem_erase _ _ _ he)⟩

/-- So does dropping entries. -/
theorem SMap.wf_filter [DecidableEq α] (m : SMap α) (d : Nat → α) (p : Nat × α → Bool) (hm : m.wf d = true) :
    SMap.wf (m.filter p) d = true := by
  simp only [SMap.wf, Bool.and_eq_true, List.all_eq_true, decide_eq_true_eq] at hm ⊢
  refine ⟨?_, fun e he => hm.2 e (List.mem_of_mem_filter he)⟩
  have h := hm.1
  clear hm
  generalize 0 = a at h ⊢
  induction m generalizing a with
  | nil => rfl
  | cons e t ih =>
    simp only [SMap.rising, Bool.and_eq_true, decide_eq_true_eq] at h
    rw [List.filter_cons]
    split
    · simp only [SMap.rising, Bool.and_eq_true, decide_eq_true_eq]
      exact ⟨h.1, ih _ h.2⟩
    · exact ih _ (SMap.rising_mono _ _ _ (by omega) h.2)

/-- So does a change of every value. -/
theorem SMap.wf_mapVals [DecidableEq α] (m : SMap α) (d : α) (f : Nat → α → α) (hm : m.wf (fun _ => d) = true) :
    (m.mapVals d f).wf (fun _ => d) = true := by
  simp only [SMap.wf, Bool.and_eq_true, List.all_eq_true, decide_eq_true_eq] at hm ⊢
  have h := hm.1
  clear hm
  generalize 0 = a at h ⊢
  induction m generalizing a with
  | nil => simp [SMap.mapVals, SMap.rising]
  | cons e t ih =>
    simp only [SMap.rising, Bool.and_eq_true, decide_eq_true_eq] at h
    simp only [SMap.mapVals]
    split
    · exact ih a (SMap.rising_mono _ _ _ (by omega) h.2)
    · rename_i hv
      have := ih _ h.2
      refine ⟨?_, fun x hx => ?_⟩
      · simp only [SMap.rising, Bool.and_eq_true, decide_eq_true_eq]
        exact ⟨h.1, this.1⟩
      · rcases List.mem_cons.mp hx with rfl | hx
        · exact hv
        · exact this.2 x hx

end Sys2Proof.Machine
end

