-- ==== Sys2Proof/Laws/State.lean ====
section
/-!
SUPPORT. One lemma per field per update: each plain update of the hardware leaves every other field as it was, and each
update of the module leaves its other parts.
-/
namespace Sys2Proof.Machine

/-! ### setReg -/

@[simp] theorem Hw.setReg_free (h : Hw) (a : Nat) (v : Word) : (h.setReg a v).free = h.free := rfl
@[simp] theorem Hw.setReg_tense0 (h : Hw) (a : Nat) (v : Word) : (h.setReg a v).tense0 = h.tense0 := rfl
@[simp] theorem Hw.setReg_tense1 (h : Hw) (a : Nat) (v : Word) : (h.setReg a v).tense1 = h.tense1 := rfl
@[simp] theorem Hw.setReg_mem (h : Hw) (a : Nat) (v : Word) : (h.setReg a v).mem = h.mem := rfl
@[simp] theorem Hw.setReg_tiles (h : Hw) (a : Nat) (v : Word) : (h.setReg a v).tiles = h.tiles := rfl
@[simp] theorem Hw.setReg_slices (h : Hw) (a : Nat) (v : Word) : (h.setReg a v).slices = h.slices := rfl
@[simp] theorem Hw.setReg_tier (h : Hw) (a : Nat) (v : Word) : (h.setReg a v).tier = h.tier := rfl
@[simp] theorem Hw.setReg_ports (h : Hw) (a : Nat) (v : Word) : (h.setReg a v).ports = h.ports := rfl
@[simp] theorem Hw.setReg_localAcc (h : Hw) (a : Nat) (v : Word) : (h.setReg a v).localAcc = h.localAcc := rfl
@[simp] theorem Hw.setReg_job (h : Hw) (a : Nat) (v : Word) : (h.setReg a v).job = h.job := rfl
@[simp] theorem Hw.setReg_infl (h : Hw) (a : Nat) (v : Word) : (h.setReg a v).infl = h.infl := rfl
@[simp] theorem Hw.setReg_upes (h : Hw) (a : Nat) (v : Word) : (h.setReg a v).upes = h.upes := rfl
@[simp] theorem Hw.setReg_dbg (h : Hw) (a : Nat) (v : Word) : (h.setReg a v).dbg = h.dbg := rfl
@[simp] theorem Hw.setReg_clk (h : Hw) (a : Nat) (v : Word) : (h.setReg a v).clk = h.clk := rfl

/-! ### setTile -/

@[simp] theorem Hw.setTile_free (h : Hw) (t : Nat) (x : TileSt) : (h.setTile t x).free = h.free := rfl
@[simp] theorem Hw.setTile_tense0 (h : Hw) (t : Nat) (x : TileSt) : (h.setTile t x).tense0 = h.tense0 := rfl
@[simp] theorem Hw.setTile_tense1 (h : Hw) (t : Nat) (x : TileSt) : (h.setTile t x).tense1 = h.tense1 := rfl
@[simp] theorem Hw.setTile_regs (h : Hw) (t : Nat) (x : TileSt) : (h.setTile t x).regs = h.regs := rfl
@[simp] theorem Hw.setTile_mem (h : Hw) (t : Nat) (x : TileSt) : (h.setTile t x).mem = h.mem := rfl
@[simp] theorem Hw.setTile_slices (h : Hw) (t : Nat) (x : TileSt) : (h.setTile t x).slices = h.slices := rfl
@[simp] theorem Hw.setTile_tier (h : Hw) (t : Nat) (x : TileSt) : (h.setTile t x).tier = h.tier := rfl
@[simp] theorem Hw.setTile_ports (h : Hw) (t : Nat) (x : TileSt) : (h.setTile t x).ports = h.ports := rfl
@[simp] theorem Hw.setTile_localAcc (h : Hw) (t : Nat) (x : TileSt) : (h.setTile t x).localAcc = h.localAcc := rfl
@[simp] theorem Hw.setTile_job (h : Hw) (t : Nat) (x : TileSt) : (h.setTile t x).job = h.job := rfl
@[simp] theorem Hw.setTile_infl (h : Hw) (t : Nat) (x : TileSt) : (h.setTile t x).infl = h.infl := rfl
@[simp] theorem Hw.setTile_upes (h : Hw) (t : Nat) (x : TileSt) : (h.setTile t x).upes = h.upes := rfl
@[simp] theorem Hw.setTile_dbg (h : Hw) (t : Nat) (x : TileSt) : (h.setTile t x).dbg = h.dbg := rfl
@[simp] theorem Hw.setTile_clk (h : Hw) (t : Nat) (x : TileSt) : (h.setTile t x).clk = h.clk := rfl

/-! ### setSlice -/

@[simp] theorem Hw.setSlice_free (h : Hw) (i : Nat) (x : SliceSt) : (h.setSlice i x).free = h.free := rfl
@[simp] theorem Hw.setSlice_tense0 (h : Hw) (i : Nat) (x : SliceSt) : (h.setSlice i x).tense0 = h.tense0 := rfl
@[simp] theorem Hw.setSlice_tense1 (h : Hw) (i : Nat) (x : SliceSt) : (h.setSlice i x).tense1 = h.tense1 := rfl
@[simp] theorem Hw.setSlice_regs (h : Hw) (i : Nat) (x : SliceSt) : (h.setSlice i x).regs = h.regs := rfl
@[simp] theorem Hw.setSlice_mem (h : Hw) (i : Nat) (x : SliceSt) : (h.setSlice i x).mem = h.mem := rfl
@[simp] theorem Hw.setSlice_tiles (h : Hw) (i : Nat) (x : SliceSt) : (h.setSlice i x).tiles = h.tiles := rfl
@[simp] theorem Hw.setSlice_tier (h : Hw) (i : Nat) (x : SliceSt) : (h.setSlice i x).tier = h.tier := rfl
@[simp] theorem Hw.setSlice_ports (h : Hw) (i : Nat) (x : SliceSt) : (h.setSlice i x).ports = h.ports := rfl
@[simp] theorem Hw.setSlice_localAcc (h : Hw) (i : Nat) (x : SliceSt) : (h.setSlice i x).localAcc = h.localAcc := rfl
@[simp] theorem Hw.setSlice_job (h : Hw) (i : Nat) (x : SliceSt) : (h.setSlice i x).job = h.job := rfl
@[simp] theorem Hw.setSlice_infl (h : Hw) (i : Nat) (x : SliceSt) : (h.setSlice i x).infl = h.infl := rfl
@[simp] theorem Hw.setSlice_upes (h : Hw) (i : Nat) (x : SliceSt) : (h.setSlice i x).upes = h.upes := rfl
@[simp] theorem Hw.setSlice_dbg (h : Hw) (i : Nat) (x : SliceSt) : (h.setSlice i x).dbg = h.dbg := rfl
@[simp] theorem Hw.setSlice_clk (h : Hw) (i : Nat) (x : SliceSt) : (h.setSlice i x).clk = h.clk := rfl

/-! ### setPort -/

@[simp] theorem Hw.setPort_free (h : Hw) (p : Nat) (x : PortSt) : (h.setPort p x).free = h.free := rfl
@[simp] theorem Hw.setPort_tense0 (h : Hw) (p : Nat) (x : PortSt) : (h.setPort p x).tense0 = h.tense0 := rfl
@[simp] theorem Hw.setPort_tense1 (h : Hw) (p : Nat) (x : PortSt) : (h.setPort p x).tense1 = h.tense1 := rfl
@[simp] theorem Hw.setPort_regs (h : Hw) (p : Nat) (x : PortSt) : (h.setPort p x).regs = h.regs := rfl
@[simp] theorem Hw.setPort_mem (h : Hw) (p : Nat) (x : PortSt) : (h.setPort p x).mem = h.mem := rfl
@[simp] theorem Hw.setPort_tiles (h : Hw) (p : Nat) (x : PortSt) : (h.setPort p x).tiles = h.tiles := rfl
@[simp] theorem Hw.setPort_slices (h : Hw) (p : Nat) (x : PortSt) : (h.setPort p x).slices = h.slices := rfl
@[simp] theorem Hw.setPort_tier (h : Hw) (p : Nat) (x : PortSt) : (h.setPort p x).tier = h.tier := rfl
@[simp] theorem Hw.setPort_localAcc (h : Hw) (p : Nat) (x : PortSt) : (h.setPort p x).localAcc = h.localAcc := rfl
@[simp] theorem Hw.setPort_job (h : Hw) (p : Nat) (x : PortSt) : (h.setPort p x).job = h.job := rfl
@[simp] theorem Hw.setPort_infl (h : Hw) (p : Nat) (x : PortSt) : (h.setPort p x).infl = h.infl := rfl
@[simp] theorem Hw.setPort_upes (h : Hw) (p : Nat) (x : PortSt) : (h.setPort p x).upes = h.upes := rfl
@[simp] theorem Hw.setPort_dbg (h : Hw) (p : Nat) (x : PortSt) : (h.setPort p x).dbg = h.dbg := rfl
@[simp] theorem Hw.setPort_clk (h : Hw) (p : Nat) (x : PortSt) : (h.setPort p x).clk = h.clk := rfl

/-! ### setUpe -/

@[simp] theorem Hw.setUpe_free (h : Hw) (d : Nat) (x : UpeSt) : (h.setUpe d x).free = h.free := rfl
@[simp] theorem Hw.setUpe_tense0 (h : Hw) (d : Nat) (x : UpeSt) : (h.setUpe d x).tense0 = h.tense0 := rfl
@[simp] theorem Hw.setUpe_tense1 (h : Hw) (d : Nat) (x : UpeSt) : (h.setUpe d x).tense1 = h.tense1 := rfl
@[simp] theorem Hw.setUpe_regs (h : Hw) (d : Nat) (x : UpeSt) : (h.setUpe d x).regs = h.regs := rfl
@[simp] theorem Hw.setUpe_mem (h : Hw) (d : Nat) (x : UpeSt) : (h.setUpe d x).mem = h.mem := rfl
@[simp] theorem Hw.setUpe_tiles (h : Hw) (d : Nat) (x : UpeSt) : (h.setUpe d x).tiles = h.tiles := rfl
@[simp] theorem Hw.setUpe_slices (h : Hw) (d : Nat) (x : UpeSt) : (h.setUpe d x).slices = h.slices := rfl
@[simp] theorem Hw.setUpe_tier (h : Hw) (d : Nat) (x : UpeSt) : (h.setUpe d x).tier = h.tier := rfl
@[simp] theorem Hw.setUpe_ports (h : Hw) (d : Nat) (x : UpeSt) : (h.setUpe d x).ports = h.ports := rfl
@[simp] theorem Hw.setUpe_localAcc (h : Hw) (d : Nat) (x : UpeSt) : (h.setUpe d x).localAcc = h.localAcc := rfl
@[simp] theorem Hw.setUpe_job (h : Hw) (d : Nat) (x : UpeSt) : (h.setUpe d x).job = h.job := rfl
@[simp] theorem Hw.setUpe_infl (h : Hw) (d : Nat) (x : UpeSt) : (h.setUpe d x).infl = h.infl := rfl
@[simp] theorem Hw.setUpe_dbg (h : Hw) (d : Nat) (x : UpeSt) : (h.setUpe d x).dbg = h.dbg := rfl
@[simp] theorem Hw.setUpe_clk (h : Hw) (d : Nat) (x : UpeSt) : (h.setUpe d x).clk = h.clk := rfl

/-! ### setCtl -/

@[simp] theorem Hw.setCtl_free (h : Hw) (c : Nat) (x : CtlSt) : (h.setCtl c x).free = h.free := rfl
@[simp] theorem Hw.setCtl_tense0 (h : Hw) (c : Nat) (x : CtlSt) : (h.setCtl c x).tense0 = h.tense0 := rfl
@[simp] theorem Hw.setCtl_tense1 (h : Hw) (c : Nat) (x : CtlSt) : (h.setCtl c x).tense1 = h.tense1 := rfl
@[simp] theorem Hw.setCtl_regs (h : Hw) (c : Nat) (x : CtlSt) : (h.setCtl c x).regs = h.regs := rfl
@[simp] theorem Hw.setCtl_mem (h : Hw) (c : Nat) (x : CtlSt) : (h.setCtl c x).mem = h.mem := rfl
@[simp] theorem Hw.setCtl_tiles (h : Hw) (c : Nat) (x : CtlSt) : (h.setCtl c x).tiles = h.tiles := rfl
@[simp] theorem Hw.setCtl_slices (h : Hw) (c : Nat) (x : CtlSt) : (h.setCtl c x).slices = h.slices := rfl
@[simp] theorem Hw.setCtl_ports (h : Hw) (c : Nat) (x : CtlSt) : (h.setCtl c x).ports = h.ports := rfl
@[simp] theorem Hw.setCtl_localAcc (h : Hw) (c : Nat) (x : CtlSt) : (h.setCtl c x).localAcc = h.localAcc := rfl
@[simp] theorem Hw.setCtl_job (h : Hw) (c : Nat) (x : CtlSt) : (h.setCtl c x).job = h.job := rfl
@[simp] theorem Hw.setCtl_infl (h : Hw) (c : Nat) (x : CtlSt) : (h.setCtl c x).infl = h.infl := rfl
@[simp] theorem Hw.setCtl_upes (h : Hw) (c : Nat) (x : CtlSt) : (h.setCtl c x).upes = h.upes := rfl
@[simp] theorem Hw.setCtl_dbg (h : Hw) (c : Nat) (x : CtlSt) : (h.setCtl c x).dbg = h.dbg := rfl
@[simp] theorem Hw.setCtl_clk (h : Hw) (c : Nat) (x : CtlSt) : (h.setCtl c x).clk = h.clk := rfl

/-! ### setTierEntry -/

@[simp] theorem Hw.setTierEntry_free (h : Hw) (n : Nat) (w : Word) : (h.setTierEntry n w).free = h.free := rfl
@[simp] theorem Hw.setTierEntry_tense0 (h : Hw) (n : Nat) (w : Word) : (h.setTierEntry n w).tense0 = h.tense0 := rfl
@[simp] theorem Hw.setTierEntry_tense1 (h : Hw) (n : Nat) (w : Word) : (h.setTierEntry n w).tense1 = h.tense1 := rfl
@[simp] theorem Hw.setTierEntry_regs (h : Hw) (n : Nat) (w : Word) : (h.setTierEntry n w).regs = h.regs := rfl
@[simp] theorem Hw.setTierEntry_mem (h : Hw) (n : Nat) (w : Word) : (h.setTierEntry n w).mem = h.mem := rfl
@[simp] theorem Hw.setTierEntry_tiles (h : Hw) (n : Nat) (w : Word) : (h.setTierEntry n w).tiles = h.tiles := rfl
@[simp] theorem Hw.setTierEntry_slices (h : Hw) (n : Nat) (w : Word) : (h.setTierEntry n w).slices = h.slices := rfl
@[simp] theorem Hw.setTierEntry_ports (h : Hw) (n : Nat) (w : Word) : (h.setTierEntry n w).ports = h.ports := rfl
@[simp] theorem Hw.setTierEntry_localAcc (h : Hw) (n : Nat) (w : Word) : (h.setTierEntry n w).localAcc = h.localAcc := rfl
@[simp] theorem Hw.setTierEntry_job (h : Hw) (n : Nat) (w : Word) : (h.setTierEntry n w).job = h.job := rfl
@[simp] theorem Hw.setTierEntry_infl (h : Hw) (n : Nat) (w : Word) : (h.setTierEntry n w).infl = h.infl := rfl
@[simp] theorem Hw.setTierEntry_upes (h : Hw) (n : Nat) (w : Word) : (h.setTierEntry n w).upes = h.upes := rfl
@[simp] theorem Hw.setTierEntry_dbg (h : Hw) (n : Nat) (w : Word) : (h.setTierEntry n w).dbg = h.dbg := rfl
@[simp] theorem Hw.setTierEntry_clk (h : Hw) (n : Nat) (w : Word) : (h.setTierEntry n w).clk = h.clk := rfl

/-! ### setByte -/

@[simp] theorem Hw.setByte_free (h : Hw) (a : Nat) (b : Byte) : (h.setByte a b).free = h.free := rfl
@[simp] theorem Hw.setByte_tense0 (h : Hw) (a : Nat) (b : Byte) : (h.setByte a b).tense0 = h.tense0 := rfl
@[simp] theorem Hw.setByte_tense1 (h : Hw) (a : Nat) (b : Byte) : (h.setByte a b).tense1 = h.tense1 := rfl
@[simp] theorem Hw.setByte_regs (h : Hw) (a : Nat) (b : Byte) : (h.setByte a b).regs = h.regs := rfl
@[simp] theorem Hw.setByte_tiles (h : Hw) (a : Nat) (b : Byte) : (h.setByte a b).tiles = h.tiles := rfl
@[simp] theorem Hw.setByte_slices (h : Hw) (a : Nat) (b : Byte) : (h.setByte a b).slices = h.slices := rfl
@[simp] theorem Hw.setByte_tier (h : Hw) (a : Nat) (b : Byte) : (h.setByte a b).tier = h.tier := rfl
@[simp] theorem Hw.setByte_ports (h : Hw) (a : Nat) (b : Byte) : (h.setByte a b).ports = h.ports := rfl
@[simp] theorem Hw.setByte_localAcc (h : Hw) (a : Nat) (b : Byte) : (h.setByte a b).localAcc = h.localAcc := rfl
@[simp] theorem Hw.setByte_job (h : Hw) (a : Nat) (b : Byte) : (h.setByte a b).job = h.job := rfl
@[simp] theorem Hw.setByte_infl (h : Hw) (a : Nat) (b : Byte) : (h.setByte a b).infl = h.infl := rfl
@[simp] theorem Hw.setByte_upes (h : Hw) (a : Nat) (b : Byte) : (h.setByte a b).upes = h.upes := rfl
@[simp] theorem Hw.setByte_dbg (h : Hw) (a : Nat) (b : Byte) : (h.setByte a b).dbg = h.dbg := rfl
@[simp] theorem Hw.setByte_clk (h : Hw) (a : Nat) (b : Byte) : (h.setByte a b).clk = h.clk := rfl

/-! ### setRing -/

@[simp] theorem Hw.setRing_free (h : Hw) (n : Nat) (r : Ring) : (h.setRing n r).free = h.free := rfl
@[simp] theorem Hw.setRing_tense0 (h : Hw) (n : Nat) (r : Ring) : (h.setRing n r).tense0 = h.tense0 := rfl
@[simp] theorem Hw.setRing_tense1 (h : Hw) (n : Nat) (r : Ring) : (h.setRing n r).tense1 = h.tense1 := rfl
@[simp] theorem Hw.setRing_regs (h : Hw) (n : Nat) (r : Ring) : (h.setRing n r).regs = h.regs := rfl
@[simp] theorem Hw.setRing_mem (h : Hw) (n : Nat) (r : Ring) : (h.setRing n r).mem = h.mem := rfl
@[simp] theorem Hw.setRing_tiles (h : Hw) (n : Nat) (r : Ring) : (h.setRing n r).tiles = h.tiles := rfl
@[simp] theorem Hw.setRing_slices (h : Hw) (n : Nat) (r : Ring) : (h.setRing n r).slices = h.slices := rfl
@[simp] theorem Hw.setRing_tier (h : Hw) (n : Nat) (r : Ring) : (h.setRing n r).tier = h.tier := rfl
@[simp] theorem Hw.setRing_ports (h : Hw) (n : Nat) (r : Ring) : (h.setRing n r).ports = h.ports := rfl
@[simp] theorem Hw.setRing_localAcc (h : Hw) (n : Nat) (r : Ring) : (h.setRing n r).localAcc = h.localAcc := rfl
@[simp] theorem Hw.setRing_job (h : Hw) (n : Nat) (r : Ring) : (h.setRing n r).job = h.job := rfl
@[simp] theorem Hw.setRing_infl (h : Hw) (n : Nat) (r : Ring) : (h.setRing n r).infl = h.infl := rfl
@[simp] theorem Hw.setRing_upes (h : Hw) (n : Nat) (r : Ring) : (h.setRing n r).upes = h.upes := rfl
@[simp] theorem Hw.setRing_clk (h : Hw) (n : Nat) (r : Ring) : (h.setRing n r).clk = h.clk := rfl

/-! ### setTrace -/

@[simp] theorem Hw.setTrace_free (h : Hw) (t : Nat) (x : Trace) : (h.setTrace t x).free = h.free := rfl
@[simp] theorem Hw.setTrace_tense0 (h : Hw) (t : Nat) (x : Trace) : (h.setTrace t x).tense0 = h.tense0 := rfl
@[simp] theorem Hw.setTrace_tense1 (h : Hw) (t : Nat) (x : Trace) : (h.setTrace t x).tense1 = h.tense1 := rfl
@[simp] theorem Hw.setTrace_regs (h : Hw) (t : Nat) (x : Trace) : (h.setTrace t x).regs = h.regs := rfl
@[simp] theorem Hw.setTrace_mem (h : Hw) (t : Nat) (x : Trace) : (h.setTrace t x).mem = h.mem := rfl
@[simp] theorem Hw.setTrace_tiles (h : Hw) (t : Nat) (x : Trace) : (h.setTrace t x).tiles = h.tiles := rfl
@[simp] theorem Hw.setTrace_slices (h : Hw) (t : Nat) (x : Trace) : (h.setTrace t x).slices = h.slices := rfl
@[simp] theorem Hw.setTrace_tier (h : Hw) (t : Nat) (x : Trace) : (h.setTrace t x).tier = h.tier := rfl
@[simp] theorem Hw.setTrace_ports (h : Hw) (t : Nat) (x : Trace) : (h.setTrace t x).ports = h.ports := rfl
@[simp] theorem Hw.setTrace_localAcc (h : Hw) (t : Nat) (x : Trace) : (h.setTrace t x).localAcc = h.localAcc := rfl
@[simp] theorem Hw.setTrace_job (h : Hw) (t : Nat) (x : Trace) : (h.setTrace t x).job = h.job := rfl
@[simp] theorem Hw.setTrace_infl (h : Hw) (t : Nat) (x : Trace) : (h.setTrace t x).infl = h.infl := rfl
@[simp] theorem Hw.setTrace_upes (h : Hw) (t : Nat) (x : Trace) : (h.setTrace t x).upes = h.upes := rfl
@[simp] theorem Hw.setTrace_clk (h : Hw) (t : Nat) (x : Trace) : (h.setTrace t x).clk = h.clk := rfl

/-! ### onJob -/

@[simp] theorem Hw.onJob_free (h : Hw) (f : Job → Job) : (h.onJob f).free = h.free := rfl
@[simp] theorem Hw.onJob_tense0 (h : Hw) (f : Job → Job) : (h.onJob f).tense0 = h.tense0 := rfl
@[simp] theorem Hw.onJob_tense1 (h : Hw) (f : Job → Job) : (h.onJob f).tense1 = h.tense1 := rfl
@[simp] theorem Hw.onJob_regs (h : Hw) (f : Job → Job) : (h.onJob f).regs = h.regs := rfl
@[simp] theorem Hw.onJob_mem (h : Hw) (f : Job → Job) : (h.onJob f).mem = h.mem := rfl
@[simp] theorem Hw.onJob_tiles (h : Hw) (f : Job → Job) : (h.onJob f).tiles = h.tiles := rfl
@[simp] theorem Hw.onJob_slices (h : Hw) (f : Job → Job) : (h.onJob f).slices = h.slices := rfl
@[simp] theorem Hw.onJob_tier (h : Hw) (f : Job → Job) : (h.onJob f).tier = h.tier := rfl
@[simp] theorem Hw.onJob_ports (h : Hw) (f : Job → Job) : (h.onJob f).ports = h.ports := rfl
@[simp] theorem Hw.onJob_localAcc (h : Hw) (f : Job → Job) : (h.onJob f).localAcc = h.localAcc := rfl
@[simp] theorem Hw.onJob_infl (h : Hw) (f : Job → Job) : (h.onJob f).infl = h.infl := rfl
@[simp] theorem Hw.onJob_upes (h : Hw) (f : Job → Job) : (h.onJob f).upes = h.upes := rfl
@[simp] theorem Hw.onJob_dbg (h : Hw) (f : Job → Job) : (h.onJob f).dbg = h.dbg := rfl
@[simp] theorem Hw.onJob_clk (h : Hw) (f : Job → Job) : (h.onJob f).clk = h.clk := rfl

/-! ### loadTense -/

@[simp] theorem Hw.loadTense_free (h : Hw) (v : Word) : (h.loadTense v).free = h.free := rfl
@[simp] theorem Hw.loadTense_regs (h : Hw) (v : Word) : (h.loadTense v).regs = h.regs := rfl
@[simp] theorem Hw.loadTense_mem (h : Hw) (v : Word) : (h.loadTense v).mem = h.mem := rfl
@[simp] theorem Hw.loadTense_tiles (h : Hw) (v : Word) : (h.loadTense v).tiles = h.tiles := rfl
@[simp] theorem Hw.loadTense_slices (h : Hw) (v : Word) : (h.loadTense v).slices = h.slices := rfl
@[simp] theorem Hw.loadTense_tier (h : Hw) (v : Word) : (h.loadTense v).tier = h.tier := rfl
@[simp] theorem Hw.loadTense_ports (h : Hw) (v : Word) : (h.loadTense v).ports = h.ports := rfl
@[simp] theorem Hw.loadTense_localAcc (h : Hw) (v : Word) : (h.loadTense v).localAcc = h.localAcc := rfl
@[simp] theorem Hw.loadTense_job (h : Hw) (v : Word) : (h.loadTense v).job = h.job := rfl
@[simp] theorem Hw.loadTense_infl (h : Hw) (v : Word) : (h.loadTense v).infl = h.infl := rfl
@[simp] theorem Hw.loadTense_upes (h : Hw) (v : Word) : (h.loadTense v).upes = h.upes := rfl
@[simp] theorem Hw.loadTense_dbg (h : Hw) (v : Word) : (h.loadTense v).dbg = h.dbg := rfl
@[simp] theorem Hw.loadTense_clk (h : Hw) (v : Word) : (h.loadTense v).clk = h.clk := rfl

/-! ### What was written -/

@[simp] theorem Hw.loadTense_tense0 (h : Hw) (v : Word) : (h.loadTense v).tense0 = v := rfl
@[simp] theorem Hw.loadTense_tense1 (h : Hw) (v : Word) : (h.loadTense v).tense1 = v := rfl
@[simp] theorem Hw.onJob_job (h : Hw) (f : Job → Job) : (h.onJob f).job = h.job.map f := rfl

/-! ### The whole module -/

@[simp] theorem State.onHw_pending (s : State) (f : Hw → Hw) : (s.onHw f).pending = s.pending := rfl
@[simp] theorem State.onHw_stalled (s : State) (f : Hw → Hw) : (s.onHw f).stalled = s.stalled := rfl
@[simp] theorem State.onHw_fliuf (s : State) (f : Hw → Hw) : (s.onHw f).fliuf = s.fliuf := rfl
@[simp] theorem State.onHw_mgmt (s : State) (f : Hw → Hw) : (s.onHw f).mgmt = s.mgmt := rfl
@[simp] theorem State.onHw_xof (s : State) (f : Hw → Hw) : (s.onHw f).xof = s.xof := rfl
@[simp] theorem State.onHw_power (s : State) (f : Hw → Hw) : (s.onHw f).power = s.power := rfl
@[simp] theorem State.onHw_resp (s : State) (f : Hw → Hw) : (s.onHw f).resp = s.resp := rfl
@[simp] theorem State.onHw_hw (s : State) (f : Hw → Hw) : (s.onHw f).hw = f s.hw := rfl
@[simp] theorem State.answer_pending (s : State) (r : Resp) : (s.answer r).pending = s.pending := rfl
@[simp] theorem State.answer_stalled (s : State) (r : Resp) : (s.answer r).stalled = s.stalled := rfl
@[simp] theorem State.answer_hw (s : State) (r : Resp) : (s.answer r).hw = s.hw := rfl
@[simp] theorem State.answer_fliuf (s : State) (r : Resp) : (s.answer r).fliuf = s.fliuf := rfl
@[simp] theorem State.answer_mgmt (s : State) (r : Resp) : (s.answer r).mgmt = s.mgmt := rfl
@[simp] theorem State.answer_xof (s : State) (r : Resp) : (s.answer r).xof = s.xof := rfl
@[simp] theorem State.answer_power (s : State) (r : Resp) : (s.answer r).power = s.power := rfl
@[simp] theorem State.answer_resp (s : State) (r : Resp) : (s.answer r).resp = r := rfl

/-! ### Accesses from outside the schedule -/

/-- What an access may meet: it is served while the core clocks run, waits while they stop, and meets a bus error while a module
reset lasts. -/
theorem State.onAccess_cases (s : State) (i : Instr) (go : State → State) :
    (s.hw.clocked = true ∧ s.onAccess i go = go s) ∨
    (s.hw.clocked = false ∧ s.hw.clk.coresStopped = true ∧ s.onAccess i go = { s with stalled := s.stalled ++ [i] }) ∨
    (s.hw.clocked = false ∧ s.hw.clk.coresStopped = false ∧ s.onAccess i go = s.answer Resp.bus) := by
  cases h : s.hw.clocked <;> cases k : s.hw.clk.coresStopped <;> simp [State.onAccess, h, k]

theorem State.onAccess_clocked (s : State) (i : Instr) (go : State → State) (h : s.hw.clocked = true) :
    s.onAccess i go = go s := by simp [State.onAccess, h]

/-- No access touches the queue unless serving it does. -/
theorem State.onAccess_pending (s : State) (i : Instr) (go : State → State) (h : (go s).pending = s.pending) :
    (s.onAccess i go).pending = s.pending := by
  rcases State.onAccess_cases s i go with ⟨_, e⟩ | ⟨_, _, e⟩ | ⟨_, _, e⟩ <;> simp [e, h]

end Sys2Proof.Machine
end

