-- ==== Sys2Proof/Laws/Regs.lean ====
section
/-!
SUPPORT. Registers and fields by name: what a register or a field holds after another was written, counted or raised.
-/
namespace Sys2Proof.Machine

@[simp] theorem Hw.reg_setReg_same (h : Hw) (a : Nat) (v : Word) : (h.setReg a v).reg a = v := by
  simp [Hw.reg, Hw.setReg]

theorem Hw.reg_setReg_other (h : Hw) (a b : Nat) (v : Word) (hab : a ≠ b) : (h.setReg b v).reg a = h.reg a := by
  simp only [Hw.reg, Hw.setReg]
  exact SMap.get_set_other _ _ _ _ _ _ hab

/-- A field is read from its register alone. -/
theorem Hw.fld_congr (h h' : Hw) (base : Nat) (f : Fld) (hr : h'.reg (base + f.off) = h.reg (base + f.off)) :
    h'.fld base f = h.fld base f := by simp only [Hw.fld, hr]

theorem Hw.reg_setFld_other (h : Hw) (base a v : Nat) (f : Fld) (hab : a ≠ base + f.off) :
    (h.setFld base f v).reg a = h.reg a := Hw.reg_setReg_other _ _ _ _ hab

theorem Hw.fld_setFld_same (h : Hw) (base v : Nat) (f : Fld) (h64 : f.hi < 64) :
    (h.setFld base f v).fld base f = v % 2 ^ (f.hi + 1 - f.lo) := by
  simp only [Hw.fld, Hw.setFld, Hw.reg_setReg_same]
  exact bitsOf_withBits_same _ _ _ _ h64

theorem Hw.fld_setFld_apart (h : Hw) (base base' v : Nat) (f g : Fld) (hab : base' + g.off ≠ base + f.off) :
    (h.setFld base f v).fld base' g = h.fld base' g :=
  Hw.fld_congr _ _ _ _ (Hw.reg_setFld_other _ _ _ _ _ hab)

/-- Two fields of one register that share no bit. -/
theorem Hw.fld_setFld_beside (h : Hw) (base v : Nat) (f g : Fld) (ho : g.off = f.off) (h64 : g.hi < 64)
    (hb : f.hi < g.lo ∨ g.hi < f.lo) : (h.setFld base f v).fld base g = h.fld base g := by
  simp only [Hw.fld, Hw.setFld, ho, Hw.reg_setReg_same]
  exact bitsOf_withBits_other _ _ _ _ _ _ h64 hb

/-- Two fields, apart or beside each other, at one base. -/
theorem Hw.fld_setFld_ne (h : Hw) (base v : Nat) (f g : Fld) (h64 : g.hi < 64)
    (hb : g.off ≠ f.off ∨ f.hi < g.lo ∨ g.hi < f.lo) : (h.setFld base f v).fld base g = h.fld base g := by
  by_cases ho : g.off = f.off
  · exact Hw.fld_setFld_beside _ _ _ _ _ ho h64 (hb.resolve_left (fun n => n ho))
  · exact Hw.fld_setFld_apart _ _ _ _ _ _ (by omega)

/-! ### What a written register keeps from a reader -/

/-- What `P` reads stays when a register at an address of `W` is written. -/
def RegsOk {β : Type} (W : Nat → Prop) (P : Hw → β) : Prop := ∀ h a v, W a → P (h.setReg a v) = P h

theorem RegsOk.reg (a : Nat) : RegsOk (fun b => b ≠ a) (fun h => h.reg a) :=
  fun _ _ _ hb => Hw.reg_setReg_other _ _ _ _ (Ne.symm hb)

theorem RegsOk.fld (base : Nat) (f : Fld) : RegsOk (fun b => b ≠ base + f.off) (fun h => h.fld base f) :=
  fun _ _ _ hb => Hw.fld_congr _ _ _ _ (Hw.reg_setReg_other _ _ _ _ (Ne.symm hb))

section
variable {β : Type} {W : Nat → Prop} {P : Hw → β}

theorem Hw.setFld_keeps (hr : RegsOk W P) (h : Hw) (base v : Nat) (f : Fld) (hw : W (base + f.off)) :
    P (h.setFld base f v) = P h := hr _ _ _ hw

theorem Hw.setFlds_keeps (hr : RegsOk W P) (h : Hw) (base : Nat) (fs : List (Fld × Nat))
    (hw : ∀ e ∈ fs, W (base + e.1.off)) : P (h.setFlds base fs) = P h := by
  induction fs generalizing h with
  | nil => rfl
  | cons e t ih =>
    have := ih (h.setFld base e.1 e.2) (fun x hx => hw x (List.mem_cons_of_mem _ hx))
    exact this.trans (Hw.setFld_keeps hr _ _ _ _ (hw e List.mem_cons_self))

/-- The fields of a list whose offsets lie below `n`. -/
theorem Hw.setFlds_within (hr : RegsOk W P) (h : Hw) (base n : Nat) (fs : List (Fld × Nat))
    (hw : ∀ o, o < n → W (base + o)) (hf : (fs.map (fun e => e.1.off)).all (fun o => decide (o < n)) = true) :
    P (h.setFlds base fs) = P h := by
  refine Hw.setFlds_keeps hr _ _ _ (fun e he => hw _ ?_)
  have := List.all_eq_true.mp hf e.1.off (List.mem_map_of_mem he)
  simpa using this

theorem Hw.count_keeps (hr : RegsOk W P) (h : Hw) (base n : Nat) (f : Fld) (hw : W (base + f.off)) :
    P (h.count base f n) = P h := hr _ _ _ hw

theorem Hw.countSat_keeps (hr : RegsOk W P) (h : Hw) (base n : Nat) (f : Fld) (hw : W (base + f.off)) :
    P (h.countSat base f n) = P h := hr _ _ _ hw

theorem Hw.peak_keeps (hr : RegsOk W P) (h : Hw) (base n : Nat) (f : Fld) (hw : W (base + f.off)) :
    P (h.peak base f n) = P h := by
  unfold Hw.peak
  split
  · exact hr _ _ _ hw
  · rfl

theorem Hw.mark_keeps (hr : RegsOk W P) (h : Hw) (base : Nat) (f c : Fld) (hf : W (base + f.off))
    (hc : W (base + c.off)) : P (h.mark base f c) = P h :=
  (hr _ _ _ hc).trans (hr _ _ _ hf)
end

end Sys2Proof.Machine
end

