-- ==== Sys2Proof/Laws/Frame.lean ====
section
/-!
SUPPORT. Frames: what a shared operation leaves as it was, for any reader `P` of the hardware. A reader says which parts it
does not look at (`RegsOk`, `DebugOk`, …), and each operation has one lemma that names the parts it may change.
-/
namespace Sys2Proof.Machine

variable {β : Type}

/-- `P` does not read the debug unit's rings, traces and dumps. -/
def DebugOk (P : Hw → β) : Prop := ∀ h x, P { h with dbg := x } = P h
/-- What `P` reads stays when a ring of `R` changes. -/
def RingsOk (R : Nat → Prop) (P : Hw → β) : Prop := ∀ h n r, R n → P (h.setRing n r) = P h
/-- What `P` reads stays when the trace buffer of a tile of `T` changes. -/
def TracesOk (T : Nat → Prop) (P : Hw → β) : Prop := ∀ h t x, T t → P (h.setTrace t x) = P h
/-- `P` does not read the signals on their way to inflection control. -/
def SignalsOk (P : Hw → β) : Prop := ∀ h x, P { h with infl := { h.infl with signals := x } } = P h
/-- `P` does not read whether a hazard asks for a dump. -/
def HazardOk (P : Hw → β) : Prop := ∀ h : Hw, P (h.onJob (fun j => { j with hazardDump := true })) = P h
/-- `P` does not read the job. -/
def JobOk (P : Hw → β) : Prop := ∀ h x, P { h with job := x } = P h
/-- `P` does not read the count of free values. -/
def FreeOk (P : Hw → β) : Prop := ∀ h x, P { h with free := x } = P h
/-- `P` does not read the tiers. -/
def TierOk (P : Hw → β) : Prop := ∀ h x, P { h with tier := x } = P h
/-- `P` does not read the slices. -/
def SlicesOk (P : Hw → β) : Prop := ∀ h x, P { h with slices := x } = P h
/-- `P` does not read the Update Engines. -/
def UpesOk (P : Hw → β) : Prop := ∀ h x, P { h with upes := x } = P h
/-- What `P` reads stays when a tile of `T` changes. -/
def TilesOk (T : Nat → Prop) (P : Hw → β) : Prop := ∀ h t x, T t → P (h.setTile t x) = P h
/-- What `P` reads stays when a port of `T` changes. -/
def PortsOk (T : Nat → Prop) (P : Hw → β) : Prop := ∀ h p x, T p → P (h.setPort p x) = P h
/-- What `P` reads stays when a byte at an address of `M` is written. -/
def MemOk (M : Nat → Prop) (P : Hw → β) : Prop := ∀ h a b, M a → P (h.setByte a b) = P h

/-- The addresses of a window of `n` bytes are all of `W`. -/
def Within (W : Nat → Prop) (base n : Nat) : Prop := ∀ o, o < n → W (base + o)

theorem MemOk.byte (a : Nat) : MemOk (fun b => b ≠ a) (fun h => h.byte a) :=
  fun _ _ _ hb => SMap.get_set_other _ _ _ _ _ _ (Ne.symm hb)

theorem TilesOk.tile (t : Nat) : TilesOk (fun u => u ≠ t) (fun h => h.tile t) :=
  fun _ _ _ hb => SMap.get_set_other _ _ _ _ _ _ (Ne.symm hb)

theorem PortsOk.port (t : Nat) : PortsOk (fun u => u ≠ t) (fun h => h.port t) :=
  fun _ _ _ hb => SMap.get_set_other _ _ _ _ _ _ (Ne.symm hb)

@[simp] theorem Hw.tile_setTile_same (h : Hw) (t : Nat) (x : TileSt) : (h.setTile t x).tile t = x := by
  simp [Hw.tile, Hw.setTile]

@[simp] theorem Hw.port_setPort_same (h : Hw) (p : Nat) (x : PortSt) : (h.setPort p x).port p = x := by
  simp [Hw.port, Hw.setPort]

@[simp] theorem Hw.slice_setSlice_same (h : Hw) (p : Nat) (x : SliceSt) : (h.setSlice p x).slice p = x := by
  simp [Hw.slice, Hw.setSlice]

@[simp] theorem Hw.upe_setUpe_same (h : Hw) (p : Nat) (x : UpeSt) : (h.setUpe p x).upe p = x := by
  simp [Hw.upe, Hw.setUpe]

@[simp] theorem Hw.ctl_setCtl_same (h : Hw) (p : Nat) (x : CtlSt) : (h.setCtl p x).ctl p = x := by
  simp [Hw.ctl, Hw.setCtl]

variable {W M T R : Nat → Prop} {P : Hw → β}

theorem DebugOk.rings (hd : DebugOk P) (R : Nat → Prop) : RingsOk R P := fun _ _ _ _ => hd _ _
theorem DebugOk.traces (hd : DebugOk P) (T : Nat → Prop) : TracesOk T P := fun _ _ _ _ => hd _ _

theorem RingsOk.ring (n : Nat) : RingsOk (fun m => m ≠ n) (fun h => h.ring n) :=
  fun _ _ _ hb => SMap.get_set_other _ _ _ _ _ _ (Ne.symm hb)

/-! ### Events, signals, traces -/

theorem Hw.event_keeps (hd : RingsOk R P) (h : Hw) (r c d : Nat) (hR : R r) : P (h.event r c d) = P h := hd _ _ _ hR

theorem Hw.raise_keeps (hr : RegsOk W P) (hd : RingsOk R P) (h : Hw) (base : Nat) (f c : Fld) (r k d : Nat)
    (hf : W (base + f.off)) (hc : W (base + c.off)) (hR : R r) : P (h.raise base f c r k d) = P h :=
  (Hw.event_keeps hd _ _ _ _ hR).trans (Hw.mark_keeps hr _ _ _ _ hf hc)

theorem Hw.signal_keeps (hi : SignalsOk P) (h : Hw) (b : Nat) (x : Option (Rank × Nat)) : P (h.signal b x) = P h := by
  unfold Hw.signal
  split
  · rfl
  · exact hi _ _

theorem Hw.signalOwn_keeps (hi : SignalsOk P) (h : Hw) (b : Nat) : P (h.signalOwn b) = P h := Hw.signal_keeps hi _ _ _

theorem Hw.signalHalt_keeps (hi : SignalsOk P) (h : Hw) (b : Nat) : P (h.signalHalt b) = P h := by
  unfold Hw.signalHalt
  split
  · rfl
  · exact hi _ _

theorem Hw.traceRec_keeps (hx : TracesOk T P) (h : Hw) (t : Nat) (bit : Bool) (e u g : Nat) (a l s : Bool) (ht : T t) :
    P (h.traceRec t bit e u g a l s) = P h := by
  unfold Hw.traceRec
  split
  · exact hx _ _ _ ht
  · rfl

/-! ### The Job Status Word, captures and halts -/

theorem Hw.jsw_keeps (hr : RegsOk W P) (h : Hw) (fs : List (Fld × Nat)) (hw : Within W sysBase 0x60)
    (hf : ∀ e ∈ fs, e.1.off = 0x40) : P (h.jsw fs) = P h := by
  have h1 : P (h.jswNext fs) = P h := by
    refine Hw.setFlds_keeps hr _ _ _ (fun e he => ?_)
    have : e.1.off = 0x40 := by
      rcases List.mem_append.mp he with he | he
      · exact hf e he
      · simp only [List.mem_cons, List.not_mem_nil, or_false] at he
        rcases he with rfl | rfl | rfl <;> rfl
    exact this ▸ hw _ (by decide)
  unfold Hw.jsw
  simp only
  split
  · exact h1
  · exact (hr _ _ _ (hw 8 (by decide))).trans ((Hw.count_keeps hr _ _ _ _ (hw 0x40 (by decide))).trans h1)

theorem Hw.captureNow_keeps (hr : RegsOk W P) (hd : DebugOk P) (h : Hw) (row : Nat) (hw : Within W dbgBase 0x40) :
    P (h.captureNow row) = P h := by
  unfold Hw.captureNow
  simp only
  rw [Hw.count_keeps hr _ _ _ _ (hw _ (by decide)), Hw.setFlds_within hr _ _ _ _ hw rfl]
  exact (hd _ _).trans (hd _ _)

theorem Hw.startDump_keeps (hr : RegsOk W P) (hd : DebugOk P) (h : Hw) (kind row : Nat) (hw : Within W dbgBase 0x40)
    (hs : Within W sysBase 0x60) : P (h.startDump kind row) = P h := by
  unfold Hw.startDump
  simp only
  rw [Hw.jsw_keeps hr _ _ hs (by decide), Hw.setFld_keeps hr _ _ _ _ (hw 0 (by decide))]
  split <;> exact hd _ _

theorem Hw.capture_keeps (hr : RegsOk W P) (hd : DebugOk P) (h : Hw) (row : Nat) (hw : Within W dbgBase 0x40)
    (hs : Within W sysBase 0x60) : P (h.capture row) = P h := by
  have h1 : P (if h.flag dbgBase Fld.DBG_STATUS.held = true then h.setFld dbgBase Fld.DBG_FLAGS.cap_over 1 else h) = P h := by
    split
    · exact Hw.setFld_keeps hr _ _ _ _ (hw 8 (by decide))
    · rfl
  unfold Hw.capture
  simp only
  split
  · exact Hw.mark_keeps hr _ _ _ _ (hw _ (by decide)) (hw _ (by decide))
  · split
    · exact (Hw.captureNow_keeps hr hd _ _ hw).trans h1
    · exact (Hw.startDump_keeps hr hd _ _ _ hw hs).trans ((Hw.captureNow_keeps hr hd _ _ hw).trans h1)

theorem Hw.haltFault_keeps (hr : RegsOk W P) (hd : DebugOk P) (hj : JobOk P) (h : Hw) (cause : Nat)
    (hi : Within W inflBase 0x1000) (hw : Within W dbgBase 0x40) (hs : Within W sysBase 0x60) :
    P (h.haltFault cause) = P h := by
  unfold Hw.haltFault
  split
  · rfl
  · rename_i j _
    split
    · rfl
    · simp only
      have h1 : ∀ (g : Hw) (x : Nat), P (g.setFlds inflBase [(Fld.INFL_LOCAL.halt, x), (Fld.INFL_RUN_STATE.phase, 5)]) = P g := by
        intro g x
        exact Hw.setFlds_within hr _ _ _ _ hi rfl
      split <;> split <;>
        simp only [Hw.capture_keeps hr hd _ _ hw hs, hj _ _, Hw.setFld_keeps hr _ _ _ _ (hi _ (by decide : Fld.INFL_COMMIT_STATE.valid.off < 0x1000)), h1]

/-! ### Tile events -/

theorem Hw.tileMark_keeps (hr : RegsOk W P) (hd : RingsOk R P) (h : Hw) (t e b d : Nat)
    (hw : Within W (tileBase t) 0x10000) (hR : R (ringTile t e)) : P (h.tileMark t e b d) = P h := by
  have h1 : P (h.raise (tileBase t) (tileFlagFld b).1 (tileFlagFld b).2 (ringTile t e) b d) = P h := by
    refine Hw.raise_keeps hr hd _ _ _ _ _ _ _ (hw _ ?_) (hw _ ?_) hR <;>
      (unfold tileFlagFld; split <;> decide)
  unfold Hw.tileMark
  simp only
  split
  · exact (Hw.setFld_keeps hr _ _ _ _ (hw _ (by decide))).trans h1
  · exact h1

theorem Hw.tileEvent_keeps (hr : RegsOk W P) (hd : RingsOk R P) (hi : SignalsOk P) (h : Hw) (t e b d : Nat)
    (hw : Within W (tileBase t) 0x10000) (hR : R (ringTile t e)) : P (h.tileEvent t e b d) = P h := by
  unfold Hw.tileEvent
  simp only
  split
  · exact Hw.tileMark_keeps hr hd _ _ _ _ _ hw hR
  · split
    · exact (Hw.signal_keeps hi _ _ _).trans (Hw.tileMark_keeps hr hd _ _ _ _ _ hw hR)
    · exact (Hw.signalOwn_keeps hi _ _).trans (Hw.tileMark_keeps hr hd _ _ _ _ _ hw hR)

/-- A loop keeps what each of its turns keeps. -/
theorem iterFrom_keeps {α : Type} (Q : α → β) (f : Nat → α → α) (hf : ∀ k x, Q (f k x) = Q x) (i n : Nat) (x : α) :
    Q (iterFrom f i n x) = Q x := by
  induction n generalizing i x with
  | zero => rfl
  | succ n ih => exact (ih _ _).trans (hf _ _)

theorem foldl_keeps {α γ : Type} (Q : α → β) (f : α → γ → α) (l : List γ) (hf : ∀ x y, y ∈ l → Q (f x y) = Q x) (x : α) :
    Q (l.foldl f x) = Q x := by
  induction l generalizing x with
  | nil => rfl
  | cons y t ih =>
    exact (ih (fun x z hz => hf x z (List.mem_cons_of_mem _ hz)) _).trans (hf _ _ List.mem_cons_self)

theorem Hw.cmdEvents_keeps (hr : RegsOk W P) (hd : RingsOk R P) (hi : SignalsOk P) (h : Hw) (t : Nat) (e : Engine) (b : Nat)
    (c : Cmd) (n : Nat) (hw : Within W (tileBase t) 0x10000) (hR : R (ringTile t (engineCode e))) : P (h.cmdEvents t e b c n) = P h :=
  iterFrom_keeps P _ (fun _ _ => Hw.tileEvent_keeps hr hd hi _ _ _ _ _ hw hR) _ _ _

theorem Hw.tileEcc_keeps (hr : RegsOk W P) (hd : RingsOk R P) (hi : SignalsOk P) (h : Hw) (t e : Nat) (found : List EccFind)
    (hw : Within W (tileBase t) 0x10000) (hR : R (ringTile t e)) : P (h.tileEcc t e found) = P h :=
  foldl_keeps P _ _ (fun _ _ _ => Hw.tileEvent_keeps hr hd hi _ _ _ _ _ hw hR) _

theorem Hw.hazard_keeps (hr : RegsOk W P) (hd : RingsOk R P) (hi : SignalsOk P) (hj : HazardOk P) (h : Hw) (t e a b c d : Nat)
    (x : Bool) (hw : Within W (tileBase t) 0x10000) (hR : R (ringTile t e)) : P (h.hazard t e a b c d x) = P h :=
  (hj _).trans (Hw.tileEvent_keeps hr hd hi _ _ _ _ _ hw hR)

/-! ### The start and the end of a command -/

theorem engBase_within (t : Nat) (e : Engine) (hw : Within W (tileBase t) 0x10000) : Within W (engBase t e) 0x400 := by
  intro o ho
  unfold engBase
  rw [Nat.add_assoc]
  exact hw _ (by cases e <;> simp only [engineCode] <;> omega)

theorem Hw.engineStatus_keeps (hr : RegsOk W P) (h : Hw) (t : Nat) (e : Engine) (hw : Within W (tileBase t) 0x10000) :
    P (h.engineStatus t e) = P h := by
  unfold Hw.engineStatus
  simp only
  exact (Hw.setFld_keeps hr _ _ _ _ (hw 0 (by decide))).trans (Hw.setFlds_within hr _ _ _ _ (engBase_within t e hw) rfl)

theorem Hw.await_keeps (hr : RegsOk W P) (ht : TilesOk T P) (h : Hw) (l : Launch)
    (hw : Within W (tileBase l.t) 0x10000) (htt : T l.t) : P (h.await l) = P h := by
  unfold Hw.await
  split
  · rw [Hw.engineStatus_keeps hr _ _ _ hw]
    split
    · rfl
    · exact ht _ _ _ htt
  · rfl

theorem Hw.begin_keeps (hr : RegsOk W P) (ht : TilesOk T P) (hx : TracesOk T P) (h : Hw) (l : Launch)
    (hw : Within W (tileBase l.t) 0x10000) (htt : T l.t) : P (h.begin l) = P h := by
  have hs : ∀ (g : Hw) (c : Nat), P (g.setFld (engBase l.t l.e) Fld.TILE_ENG_STATUS.tag c) = P g := fun g c =>
    Hw.setFld_keeps hr _ _ _ _ (engBase_within _ _ hw _ (by decide))
  unfold Hw.begin
  simp only
  rw [Hw.traceRec_keeps hx _ _ _ _ _ _ _ _ _ htt, Hw.engineStatus_keeps hr _ _ _ hw, hs, ht _ _ _ htt]
  have htok : ∀ (g : Hw) v, P (g.setFld (tileBase l.t) (tokenFld l.c.waitCh.toNat) v) = P g := fun g v =>
    Hw.setFld_keeps hr _ _ _ _ (hw _ (by show Fld.TILE_TOKENS.ch.off < 0x10000; decide))
  have hcnt : ∀ (g : Hw) n, P (g.count (tileBase l.t) Fld.TILE_CNT_E.late_start n) = P g := fun g n =>
    Hw.count_keeps hr _ _ _ _ (hw _ (by decide))
  split <;> split <;> simp only [hcnt, htok]

theorem Hw.onRunning_keeps (ht : TilesOk T P) (h : Hw) (t q : Nat) (f : Running → Running) (htt : T t) :
    P (h.onRunning t q f) = P h := ht _ _ _ htt

theorem Hw.epochQuery_keeps (hr : RegsOk W P) (hd : RingsOk R P) (hi : SignalsOk P) (hj : HazardOk P) (ht : TilesOk T P) (h : Hw)
    (l : Launch) (d : Desc) (hw : Within W (tileBase l.t) 0x10000) (htt : T l.t) (hR : R (ringTile l.t 1)) : P (h.epochQuery l d) = P h := by
  unfold Hw.epochQuery
  simp only
  split
  · split
    · exact Hw.hazard_keeps hr hd hi hj _ _ _ _ _ _ _ _ hw hR
    · exact ht _ _ _ htt
  · rfl

theorem Hw.epochQueries_keeps (hr : RegsOk W P) (hd : RingsOk R P) (hi : SignalsOk P) (hj : HazardOk P) (ht : TilesOk T P) (h : Hw)
    (l : Launch) (ds : List DescNo) (hw : Within W (tileBase l.t) 0x10000) (htt : T l.t) (hR : R (ringTile l.t 1)) :
    P (h.epochQueries l ds) = P h :=
  foldl_keeps P _ _ (fun _ _ _ => Hw.epochQuery_keeps hr hd hi hj ht _ _ _ hw htt hR) _

/-! ### Reports, tokens and the end of a command -/

theorem Hw.addReport_keeps (ht : TilesOk T P) (h : Hw) (t s : Nat) (r : Report) (htt : T t) : P (h.addReport t s r) = P h := by
  unfold Hw.addReport
  simp only
  split
  · rfl
  · exact ht _ _ _ htt

theorem Hw.postToken_keeps (hr : RegsOk W P) (h : Hw) (t c : Nat) (hw : Within W (tileBase t) 0x10000) :
    P (h.postToken t c) = P h :=
  Hw.setFld_keeps hr _ _ _ _ (hw _ (by show Fld.TILE_TOKENS.ch.off < 0x10000; decide))

theorem Hw.elemCount_keeps (hr : RegsOk W P) (h : Hw) (t : Nat) (e : Engine) (n : Nat) (hw : Within W (tileBase t) 0x10000) :
    P (h.elemCount t e n) = P h := by
  unfold Hw.elemCount
  split
  · exact Hw.count_keeps hr _ _ _ _ (hw _ (by decide))
  · exact Hw.count_keeps hr _ _ _ _ (hw _ (by decide))
  · rfl

theorem Hw.arrayEnd_keeps (hr : RegsOk W P) (hd : RingsOk R P) (hi : SignalsOk P) (h : Hw) (t u : Nat) (c : Cmd) (hu : u < 8)
    (hw : Within W (tileBase t) 0x10000) (hR : R (ringTile t 1)) : P (h.arrayEnd t u c) = P h := by
  have harr : ∀ o, o < 0x200 → W (arrBase t u + o) := by
    intro o ho
    have := hw (0x4000 + u * 0x200 + o) (by omega)
    simpa [arrBase, Nat.add_assoc] using this
  unfold Hw.arrayEnd
  simp only
  split
  · rw [Hw.signalOwn_keeps hi, Hw.setFld_keeps hr _ _ _ _ (hw _ (by decide)),
      Hw.raise_keeps hr hd _ _ _ _ _ _ _ (harr _ (by decide)) (harr _ (by decide)) hR,
      Hw.setFld_keeps hr _ _ _ _ (harr _ (by decide))]
  · exact Hw.setFld_keeps hr _ _ _ _ (harr _ (by decide))

theorem queueEngine_execute (q : Nat) (hq : queueEngine q = .execute) : q - 4 < 8 := by
  unfold queueEngine at hq
  split at hq
  · cases hq
  · split at hq
    · omega
    · split at hq <;> first | cases hq | (split at hq <;> cases hq)

/-- A command that has nothing left to write comes to its end: only its tile's window, tile, ring and trace change. -/
theorem Hw.finish_keeps (hr : RegsOk W P) (hd : RingsOk R P) (hi : SignalsOk P) (hx : TracesOk T P)
    (h : Hw) (t q : Nat) (r : Running) (ho : r.output = none) (hw : Within W (tileBase t) 0x10000) (htt : T t)
    (hR : R (ringTile t 1)) : P (h.finish t q r) = P h := by
  unfold Hw.finish
  simp only [ho]
  rw [Hw.traceRec_keeps hx _ _ _ _ _ _ _ _ _ htt, Hw.engineStatus_keeps hr _ _ _ hw]
  have hp : P (if r.cmd.post = true then h.postToken t r.cmd.postCh.toNat else h) = P h := by
    split
    · exact Hw.postToken_keeps hr _ _ _ hw
    · rfl
  split
  · rename_i he
    exact (Hw.arrayEnd_keeps hr hd hi _ _ _ _ (queueEngine_execute q he.1) hw hR).trans hp
  · exact hp

end Sys2Proof.Machine
end

