-- ==== Sys2Proof/Laws/Memory.lean ====
section
/-!
SUPPORT. Reading and writing through descriptors depends on memory alone, and changes memory alone.
-/
namespace Sys2Proof.Machine

/-! ### Readers of memory -/

theorem Hw.byte_mem (h h' : Hw) (hm : h'.mem = h.mem) : h'.byte = h.byte := by
  funext a; simp only [Hw.byte, hm]

theorem Hw.read_mem (h h' : Hw) (hm : h'.mem = h.mem) : h'.read = h.read := by
  funext a n; simp only [Hw.read, Hw.byte_mem h h' hm]

theorem Hw.readNat_mem (h h' : Hw) (hm : h'.mem = h.mem) : h'.readNat = h.readNat := by
  funext a n; simp only [Hw.readNat, Hw.read_mem h h' hm]

theorem Hw.elem_mem (h h' : Hw) (hm : h'.mem = h.mem) : h'.elem = h.elem := by
  funext d i j; simp only [Hw.elem, Hw.byte_mem h h' hm, Hw.readNat_mem h h' hm]

theorem Hw.shiftOf_mem (h h' : Hw) (hm : h'.mem = h.mem) : h'.shiftOf = h.shiftOf := by
  funext c s; simp only [Hw.shiftOf, Hw.byte_mem h h' hm]

theorem Hw.plainVals_mem (h h' : Hw) (hm : h'.mem = h.mem) : h'.plainVals = h.plainVals := by
  funext d; simp only [Hw.plainVals, Hw.shiftOf_mem h h' hm, Hw.elem_mem h h' hm]

theorem Hw.blockScale_mem (h h' : Hw) (hm : h'.mem = h.mem) : h'.blockScale = h.blockScale := by
  funext s b; simp only [Hw.blockScale, Hw.readNat_mem h h' hm]

theorem Hw.listHead_mem (h h' : Hw) (hm : h'.mem = h.mem) : h'.listHead = h.listHead := by
  funext s b; simp only [Hw.listHead, Hw.readNat_mem h h' hm]

theorem Hw.listFrom_mem (h h' : Hw) (hm : h'.mem = h.mem) : h'.listFrom = h.listFrom := by
  funext a b c; simp only [Hw.listFrom, Hw.listEntry, Hw.readNat_mem h h' hm]

theorem Hw.decodeView_mem (h h' : Hw) (hm : h'.mem = h.mem) : h'.decodeView = h.decodeView := by
  funext d n s
  simp only [Hw.decodeView, Hw.shiftOf_mem h h' hm, Hw.blockScale_mem h h' hm, Hw.listHead_mem h h' hm,
    Hw.entriesRead, Hw.listEntry, Hw.readNat_mem h h' hm, Hw.listFrom_mem h h' hm, Hw.elem_mem h h' hm]

theorem Hw.vecSource_mem (h h' : Hw) (hm : h'.mem = h.mem) : h'.vecSource = h.vecSource := by
  funext d o r s n; simp only [Hw.vecSource, Hw.vecLoad, Hw.plainVals_mem h h' hm]

/-! ### Writers of memory -/

/-- `f` reads and changes memory alone. -/
def MemFn (f : Hw → Hw) : Prop := ∀ h h0 : Hw, f { h0 with mem := h.mem } = { h0 with mem := (f h).mem }

theorem MemFn.id : MemFn (fun h => h) := fun _ _ => rfl

theorem MemFn.eq {f : Hw → Hw} (hf : MemFn f) (h : Hw) : f h = { h with mem := (f h).mem } := hf h h

theorem MemFn.mem {f : Hw → Hw} (hf : MemFn f) (h h' : Hw) (hm : h'.mem = h.mem) : (f h').mem = (f h).mem := by
  have := hf h h'
  rw [← hm] at this
  have h2 : ({ h' with mem := h'.mem } : Hw) = h' := rfl
  rw [h2] at this
  rw [this]

theorem MemFn.comp {f g : Hw → Hw} (hf : MemFn f) (hg : MemFn g) : MemFn (fun h => g (f h)) := by
  intro h h0
  show g (f { h0 with mem := h.mem }) = _
  rw [hf h h0]
  exact hg (f h) h0

theorem MemFn.ite {f g : Hw → Hw} (hf : MemFn f) (hg : MemFn g) (p : Prop) [Decidable p] :
    MemFn (fun h => if p then f h else g h) := by
  by_cases hp : p <;> simp only [hp, if_true, if_false] <;> assumption

theorem MemFn.foldl {γ : Type} (f : Hw → γ → Hw) (l : List γ) (hf : ∀ y, MemFn (fun h => f h y)) :
    MemFn (fun h => l.foldl f h) := by
  induction l with
  | nil => exact MemFn.id
  | cons y t ih => exact MemFn.comp (hf y) ih

theorem MemFn.write (a : Nat) (bs : List Byte) : MemFn (fun h => h.write a bs) := by
  induction bs generalizing a with
  | nil => exact MemFn.id
  | cons b t ih => exact MemFn.comp (f := fun h => h.setByte a b) (fun _ _ => rfl) (ih (a + 1))

theorem MemFn.writeNat (a n v : Nat) : MemFn (fun h => h.writeNat a n v) := MemFn.write _ _

theorem MemFn.setElem (d : Desc) (i j c : Nat) : MemFn (fun h => h.setElem d i j c) := by
  unfold Hw.setElem
  exact MemFn.ite (fun _ _ => rfl) (MemFn.writeNat _ _ _) _

theorem MemFn.writeCodes (d : Desc) (cs : List Nat) : MemFn (fun h => h.writeCodes d cs) :=
  MemFn.foldl _ _ (fun _ => MemFn.setElem _ _ _ _)

theorem MemFn.writeSide (a : Attr) (s l n : Nat) (o : ConvOut) : MemFn (fun h => h.writeSide a s l n o) := by
  have h1 : MemFn (fun h => o.scales.foldl (fun h bs => h.writeNat (s + 2 * bs.1) 2 (bs.2 + bs.1 % 256 * 256)) h) :=
    MemFn.foldl _ _ (fun _ => MemFn.writeNat _ _ _)
  have h2 : MemFn (fun h => if hasShift a.fmt then h.writeNat (s - 8) 8 (unsigned 8 o.shift) else h) :=
    MemFn.ite (MemFn.writeNat _ _ _) MemFn.id _
  have h3 : MemFn (fun h => (List.range o.entries.length).foldl (fun h k =>
      match o.entries[k]? with
      | some (idx, v) => h.writeNat (l + 8 + 8 * k) 8 (makeEntry idx v n).toNat
      | none => h) h) := by
    refine MemFn.foldl _ _ (fun k => ?_)
    cases o.entries[k]? with
    | none => exact MemFn.id
    | some e => exact MemFn.writeNat _ _ _
  have h4 : MemFn (fun h => h.writeNat l 8 (o.entries.length + flagNat (decide (0 < o.lost)) * 2 ^ 32
      + satNat 0xFFFFFF o.lost * 2 ^ 40)) := MemFn.writeNat _ _ _
  have h5 := MemFn.comp h1 h2
  unfold Hw.writeSide
  by_cases he : a.esc = true
  · simp only [he, if_true]
    exact MemFn.comp h5 (MemFn.comp h3 h4)
  · simp only [he, if_false, Bool.false_eq_true]
    exact h5

theorem MemFn.convertTo (d : Desc) (vs : List Val) (n : Nat) : MemFn (fun h => (h.convertTo d vs n).1) :=
  MemFn.comp (MemFn.writeCodes d _) (MemFn.writeSide _ _ _ _ _)

/-- A word of tile memory read as zero: memory alone changes. -/
theorem MemFn.readWord (t : Nat) (w : BitVec 16) (u : Bool) : MemFn (fun h => h.readWord t ⟨.memory, w, u⟩) := by
  cases u
  · exact MemFn.id
  · exact MemFn.writeNat _ _ _

/-- A command that meets no error reads the tile as it stands. -/
@[simp] theorem Hw.readFound_nil (h : Hw) (t : Nat) : h.readFound t [] = h := rfl

/-- What the conversion reports does not depend on the hardware. -/
theorem Hw.convertTo_out (h h' : Hw) (d : Desc) (vs : List Val) (n : Nat) : (h'.convertTo d vs n).2 = (h.convertTo d vs n).2 := rfl

end Sys2Proof.Machine
end

