-- ==== Sys2Proof/Laws/Engines.lean ====
section
/-!
SUPPORT. Frames of the tile's engines: what a command of a tile leaves as it was, whether it starts or waits.
-/
namespace Sys2Proof.Machine

variable {β : Type}

/-- `P` reads nothing that a command of tile `t` may change but memory: not the tile's window of registers, not the tile,
its rings and its trace buffer, not the signals to inflection control, not a hazard's request for a dump. -/
structure TileOk (t : Nat) (P : Hw → β) : Prop where
  regs : RegsOk (fun a => tileBase t ≤ a ∧ a < tileBase t + 0x10000) P
  tiles : TilesOk (fun v => v = t) P
  rings : RingsOk (fun n => 5 * t ≤ n ∧ n < 5 * t + 5) P
  traces : TracesOk (fun v => v = t) P
  signals : SignalsOk P
  hazard : HazardOk P
  free : FreeOk P

/-- `P` does not read memory. -/
def NoMem (P : Hw → β) : Prop := ∀ h x, P { h with mem := x } = P h

variable {t : Nat} {P : Hw → β}

theorem TileOk.within (_ : TileOk t P) :
    Within (fun a => tileBase t ≤ a ∧ a < tileBase t + 0x10000) (tileBase t) 0x10000 := fun o ho => ⟨by omega, by omega⟩

theorem TileOk.ring (_ : TileOk t P) (e : Nat) (he : e < 5) :
    (fun n => 5 * t ≤ n ∧ n < 5 * t + 5) (ringTile t e) := ⟨by unfold ringTile; omega, by unfold ringTile; omega⟩

theorem engineCode_lt (e : Engine) : engineCode e < 5 := by cases e <;> decide

theorem MemFn.keeps (hm : NoMem P) {f : Hw → Hw} (hf : MemFn f) (h : Hw) : P (f h) = P h := by
  rw [hf.eq h]; exact hm _ _

/-- A reader of memory alone. -/
theorem TileOk.mem (t : Nat) : TileOk t Hw.mem :=
  ⟨fun _ _ _ _ => rfl, fun _ _ _ _ => rfl, fun _ _ _ _ => rfl, fun _ _ _ _ => rfl, fun _ _ => rfl, fun _ => rfl, fun _ _ => rfl⟩

/-- A register beyond the tile windows. -/
theorem TileOk.reg (t : Tile) (a : Nat) (ha : 0x0F0002000000 ≤ a) : TileOk t (fun h => h.reg a) :=
  ⟨fun h b v hb => Hw.reg_setReg_other _ _ _ _ (by have := t.isLt; unfold tileBase at hb; omega), fun _ _ _ _ => rfl,
    fun _ _ _ _ => rfl, fun _ _ _ _ => rfl, fun _ _ => rfl, fun _ => rfl, fun _ _ => rfl⟩

/-- A field beyond the tile windows. -/
theorem TileOk.fld (t : Tile) (base : Nat) (f : Fld) (ha : 0x0F0002000000 ≤ base + f.off) :
    TileOk t (fun h => h.fld base f) :=
  ⟨fun h b v hb => Hw.fld_congr _ _ _ _ ((TileOk.reg t _ ha).regs h b v hb), fun _ _ _ _ => rfl,
    fun _ _ _ _ => rfl, fun _ _ _ _ => rfl, fun _ _ => rfl, fun _ => rfl, fun _ _ => rfl⟩

theorem TileOk.stepNo (t : Tile) : TileOk t Hw.stepNo := TileOk.fld t inflBase Fld.INFL_COMMIT_STEP.step (by decide)

/-- What the job's image says. -/
theorem TileOk.img {γ : Type} (t : Nat) (d : γ) (g : Image → γ) :
    TileOk t (fun h => match h.job with | none => d | some j => g j.img) :=
  ⟨fun _ _ _ _ => rfl, fun _ _ _ _ => rfl, fun _ _ _ _ => rfl, fun _ _ _ _ => rfl, fun _ _ => rfl,
    fun h => by simp only [Hw.onJob]; cases h.job <;> rfl, fun _ _ => rfl⟩

/-- Two readers together. -/
theorem TileOk.pair {γ δ : Type} {t : Nat} {P : Hw → γ} {Q : Hw → δ} (hp : TileOk t P) (hq : TileOk t Q) (f : γ → δ → β) :
    TileOk t (fun h => f (P h) (Q h)) :=
  ⟨fun h a v hw => by rw [hp.regs h a v hw, hq.regs h a v hw], fun h a v hw => by rw [hp.tiles h a v hw, hq.tiles h a v hw],
    fun h a v hw => by rw [hp.rings h a v hw, hq.rings h a v hw], fun h a v hw => by rw [hp.traces h a v hw, hq.traces h a v hw],
    fun h x => by rw [hp.signals, hq.signals], fun h => by rw [hp.hazard, hq.hazard], fun h x => by rw [hp.free, hq.free]⟩

/-- What every reader of `TileOk` finds as it was, the frame of a tile's command finds as it was. -/
theorem OnlyTile.of_keeps (t : Nat) (h h' : Hw)
    (hk : ∀ (β : Type) (P : Hw → β), TileOk t P → NoMem P → P h' = P h) : OnlyTile t h h' := by
  have plain : ∀ (β : Type) (P : Hw → β), (∀ h a v, P (h.setReg a v) = P h) → (∀ h v x, P (h.setTile v x) = P h) →
      (∀ h n r, P (h.setRing n r) = P h) → (∀ h v x, P (h.setTrace v x) = P h) → SignalsOk P → HazardOk P → FreeOk P → NoMem P →
      P h' = P h := fun β P h1 h2 h3 h4 h5 h6 h8 h7 =>
    hk β P ⟨fun _ _ _ _ => h1 _ _ _, fun _ _ _ _ => h2 _ _ _, fun _ _ _ _ => h3 _ _ _, fun _ _ _ _ => h4 _ _ _, h5, h6, h8⟩ h7
  have ring : ∀ n, (n < 5 * t ∨ 5 * t + 5 ≤ n) → h'.ring n = h.ring n := fun n hn =>
    hk _ (fun h => h.ring n) ⟨fun _ _ _ _ => rfl, fun _ _ _ _ => rfl, fun h m r hm => RingsOk.ring n h m r (by omega),
      fun _ _ _ _ => rfl, fun _ _ => rfl, fun _ => rfl, fun _ _ => rfl⟩ (fun _ _ => rfl)
  refine ⟨fun a ha => ?_, fun v hv => ?_, ring, fun v hv => ?_, ?_, ?_, ?_, ?_, ?_⟩
  · exact hk _ (fun h => h.reg a) ⟨fun h b v hb => Hw.reg_setReg_other _ _ _ _ (by omega), fun _ _ _ _ => rfl,
      fun _ _ _ _ => rfl, fun _ _ _ _ => rfl, fun _ _ => rfl, fun _ => rfl, fun _ _ => rfl⟩ (fun _ _ => rfl)
  · exact hk _ (fun h => h.tile v) ⟨fun _ _ _ _ => rfl, fun h w x hw => TilesOk.tile v h w x (by omega), fun _ _ _ _ => rfl,
      fun _ _ _ _ => rfl, fun _ _ => rfl, fun _ => rfl, fun _ _ => rfl⟩ (fun _ _ => rfl)
  · exact hk _ (fun h => h.trace v) ⟨fun _ _ _ _ => rfl, fun _ _ _ _ => rfl, fun _ _ _ _ => rfl,
      fun h w x hw => SMap.get_set_other _ _ _ _ _ _ (by omega), fun _ _ => rfl, fun _ => rfl, fun _ _ => rfl⟩ (fun _ _ => rfl)
  · exact plain _ (fun h => (h.dbg.dump0, h.dbg.dump1, h.dbg.collector)) (fun _ _ _ => rfl) (fun _ _ _ => rfl)
      (fun _ _ _ => rfl) (fun _ _ _ => rfl) (fun _ _ => rfl) (fun _ => rfl) (fun _ _ => rfl) (fun _ _ => rfl)
  · exact plain _ (fun h => (h.tense0, h.tense1, h.slices, h.tier, h.ports)) (fun _ _ _ => rfl) (fun _ _ _ => rfl)
      (fun _ _ _ => rfl) (fun _ _ _ => rfl) (fun _ _ => rfl) (fun _ => rfl) (fun _ _ => rfl) (fun _ _ => rfl)
  · exact plain _ (fun h => (h.localAcc, h.upes, h.clk)) (fun _ _ _ => rfl) (fun _ _ _ => rfl)
      (fun _ _ _ => rfl) (fun _ _ _ => rfl) (fun _ _ => rfl) (fun _ => rfl) (fun _ _ => rfl) (fun _ _ => rfl)
  · exact plain _ (fun h => ({ h.infl with signals := [] } : InflSt)) (fun _ _ _ => rfl) (fun _ _ _ => rfl)
      (fun _ _ _ => rfl) (fun _ _ _ => rfl) (fun _ _ => rfl) (fun _ => rfl) (fun _ _ => rfl) (fun _ _ => rfl)
  · refine plain _ (fun h => h.job.map (fun j => { j with hazardDump := true })) (fun _ _ _ => rfl) (fun _ _ _ => rfl)
      (fun _ _ _ => rfl) (fun _ _ _ => rfl) (fun _ _ => rfl) (fun h => ?_) (fun _ _ => rfl) (fun _ _ => rfl)
    show (h.job.map _).map _ = h.job.map _
    rw [Option.map_map]
    rfl

theorem Hw.tileEcc_tile (ok : TileOk t P) (h : Hw) (e : Nat) (f : List EccFind) (he : e < 5) : P (h.tileEcc t e f) = P h :=
  Hw.tileEcc_keeps ok.regs ok.rings ok.signals _ _ _ _ ok.within (ok.ring e he)

theorem Hw.begin_tileOk (ok : TileOk t P) (h : Hw) (l : Launch) (hl : l.t = t) : P (h.begin l) = P h := by
  subst hl
  exact Hw.begin_keeps ok.regs ok.tiles ok.traces _ _ ok.within rfl

/-- A command of tile `t` that starts or waits, whose own effect the reader does not see. -/
theorem Hw.launch_keeps (ok : TileOk t P) (h : Hw) (l : Launch) (hl : l.t = t) (body : Hw → Hw)
    (hb : ∀ g, P (body g) = P g) : P (h.launch l body) = P h := by
  subst hl
  unfold Hw.launch
  split
  · exact (hb _).trans ((Hw.tileEcc_tile ok _ _ _ (engineCode_lt _)).trans (Hw.begin_tileOk ok _ _ rfl))
  · exact Hw.await_keeps ok.regs ok.tiles _ _ ok.within rfl

/-! ### The tile itself at the start of a command -/

/-- A tile without its streams, queues, running commands and epoch queries. -/
def TileSt.still (x : TileSt) : TileSt := { x with streams := [], queues := [], running := [], queries := [] }

theorem fetchStream_still (e : Engine) (cs : List QCmd) (x : TileSt) : (fetchStream e cs x).still = x.still := by
  induction cs generalizing x with
  | nil => rfl
  | cons c cs ih =>
    simp only [fetchStream]
    split
    · exact (ih _).trans rfl
    · rfl

/-- The fetcher moves commands and nothing else. -/
theorem TileSt.fetch_still (x : TileSt) : x.fetch.still = x.still :=
  foldl_keeps TileSt.still _ _ (fun _ _ _ => fetchStream_still _ _ _) _

theorem fetchStream_running (e : Engine) (cs : List QCmd) (x : TileSt) : (fetchStream e cs x).running = x.running := by
  induction cs generalizing x with
  | nil => rfl
  | cons c cs ih =>
    simp only [fetchStream]
    split
    · exact (ih _).trans rfl
    · rfl

@[simp] theorem TileSt.fetch_running (x : TileSt) : x.fetch.running = x.running :=
  foldl_keeps TileSt.running _ _ (fun _ _ _ => fetchStream_running _ _ _) _

theorem fetchStream_queries (e : Engine) (cs : List QCmd) (x : TileSt) : (fetchStream e cs x).queries = x.queries := by
  induction cs generalizing x with
  | nil => rfl
  | cons c cs ih =>
    simp only [fetchStream]
    split
    · exact (ih _).trans rfl
    · rfl

@[simp] theorem TileSt.fetch_queries (x : TileSt) : x.fetch.queries = x.queries :=
  foldl_keeps TileSt.queries _ _ (fun _ _ _ => fetchStream_queries _ _ _) _

/-- A register or a trace record does not change a tile. -/
theorem Hw.engineStatus_tile (h : Hw) (t v : Nat) (e : Engine) : (h.engineStatus t e).tile v = h.tile v :=
  Hw.engineStatus_keeps (W := fun _ => True) (P := fun h => h.tile v) (fun _ _ _ _ => rfl) _ _ _ (fun _ _ => trivial)

theorem Hw.setFlds_tile (h : Hw) (b v : Nat) (fs : List (Fld × Nat)) : (h.setFlds b fs).tile v = h.tile v :=
  Hw.setFlds_keeps (W := fun _ => True) (P := fun h => h.tile v) (fun _ _ _ _ => rfl) _ _ _ (fun _ _ => trivial)

theorem Hw.setFld_tile (h : Hw) (b v : Nat) (f : Fld) (n : Nat) : (h.setFld b f n).tile v = h.tile v := rfl

theorem Hw.traceRec_tile (h : Hw) (t v : Nat) (bit : Bool) (e u g : Nat) (a l s : Bool) :
    (h.traceRec t bit e u g a l s).tile v = h.tile v :=
  Hw.traceRec_keeps (T := fun _ => True) (P := fun h => h.tile v) (fun _ _ _ _ => rfl) _ _ _ _ _ _ _ _ _ trivial

/-- What the tile holds once a command has started. -/
theorem Hw.begin_tile (h : Hw) (l : Launch) :
    ((h.begin l).tile l.t).still = (h.tile l.t).still
    ∧ ((h.begin l).tile l.t).runs l.queue
      = (h.tile l.t).runs l.queue ++ [Running.start l.c l.opcode h.tense0 (h.past l.c.launch.toNat)]
    ∧ ((h.begin l).tile l.t).queries = (h.tile l.t).queries := by
  unfold Hw.begin
  simp only [Hw.traceRec_tile, Hw.engineStatus_tile, Hw.setFld_tile, Hw.tile_setTile_same, TileSt.fetch_still,
    TileSt.fetch_queries]
  generalize hg : (if h.past l.c.launch.toNat = true then _ else _ : Hw) = g
  have h1 : g.tile l.t = h.tile l.t ∧ g.tense0 = h.tense0 := by
    rw [← hg]; split <;> split <;> exact ⟨rfl, rfl⟩
  simp only [h1.1, h1.2]
  refine ⟨rfl, ?_, rfl⟩
  simp only [TileSt.runs, TileSt.fetch_running, TileSt.setRuns, TileSt.setQueue, SMap.get_set_same]

theorem Hw.begin_desc (h : Hw) (l : Launch) (k : DescNo) : (h.begin l).desc l.t k = h.desc l.t k := by
  have := congrArg TileSt.desc (Hw.begin_tile h l).1
  simp only [TileSt.still] at this
  simp only [Hw.desc, this]

/-- The command that has just started ends at once: no reader of `TileOk` sees it, if it has nothing to write. -/
theorem Hw.endNow_keeps (ok : TileOk t P) (h : Hw) (q : Nat)
    (ho : ∀ r, ((h.tile t).runs q).getLast? = some r → r.output = none) : P (h.endNow t q) = P h := by
  unfold Hw.endNow
  simp only
  split
  · rfl
  · rename_i r hr
    exact (Hw.finish_keeps ok.regs ok.rings ok.signals ok.traces _ t q { r with opcode := 0 } (ho r hr) ok.within rfl
      (ok.ring 1 (by decide))).trans (ok.tiles _ _ _ rfl)

theorem Hw.tileEcc_same (h : Hw) (t e : Nat) (f : List EccFind) (v : Nat) : (h.tileEcc t e f).tile v = h.tile v :=
  Hw.tileEcc_keeps (W := fun _ => True) (R := fun _ => True) (P := fun h => h.tile v) (fun _ _ _ _ => rfl) (fun _ _ _ _ => rfl)
    (fun _ _ => rfl) _ _ _ _ (fun _ _ => trivial) trivial

theorem Hw.launchNow_keeps (ok : TileOk t P) (h : Hw) (l : Launch) (hl : l.t = t) : P (h.launchNow l) = P h := by
  subst hl
  unfold Hw.launchNow Hw.launch
  split
  · refine (Hw.endNow_keeps ok _ _ (fun r hr => ?_)).trans
      ((Hw.tileEcc_tile ok _ _ _ (engineCode_lt _)).trans (Hw.begin_tileOk ok _ _ rfl))
    rw [Hw.tileEcc_same, (Hw.begin_tile h l).2.1, List.getLast?_concat] at hr
    exact (Option.some.inj hr) ▸ rfl
  · exact Hw.await_keeps ok.regs ok.tiles _ _ ok.within rfl

theorem Hw.launchView_keeps (ok : TileOk t P) (h : Hw) (l : Launch) (hl : l.t = t) (n : Nat) (body : Hw → Hw)
    (hb : ∀ g, P (body g) = P g) : P (h.launchView l n body) = P h := by
  unfold Hw.launchView
  split
  · exact Hw.launchNow_keeps ok _ _ hl
  · exact Hw.launch_keeps ok _ _ hl _ hb

theorem Hw.epochQueries_tile (ok : TileOk t P) (h : Hw) (l : Launch) (hl : l.t = t) (ds : List DescNo) :
    P (h.epochQueries l ds) = P h := by
  subst hl
  exact Hw.epochQueries_keeps ok.regs ok.rings ok.signals ok.hazard ok.tiles _ _ _ ok.within rfl (ok.ring 1 (by decide))

theorem Hw.cmdEvents_tile (ok : TileOk t P) (h : Hw) (e : Engine) (b : Nat) (c : Cmd) (n : Nat) :
    P (h.cmdEvents t e b c n) = P h := 
  Hw.cmdEvents_keeps ok.regs ok.rings ok.signals _ _ _ _ _ _ ok.within (ok.ring _ (engineCode_lt e))

theorem Hw.count_tile (ok : TileOk t P) (h : Hw) (f : Fld) (n : Nat) (hf : f.off < 0x10000) :
    P (h.count (tileBase t) f n) = P h := Hw.count_keeps ok.regs _ _ _ _ (ok.within _ hf)

theorem Hw.onRunning_tile (ok : TileOk t P) (h : Hw) (q : Nat) (f : Running → Running) : P (h.onRunning t q f) = P h :=
  Hw.onRunning_keeps ok.tiles _ _ _ _ rfl

theorem Hw.hazard_tile (h : Hw) (t e a b c d v : Nat) (x : Bool) : (h.hazard t e a b c d x).tile v = h.tile v :=
  Hw.hazard_keeps (W := fun _ => True) (R := fun _ => True) (P := fun h => h.tile v) (fun _ _ _ _ => rfl) (fun _ _ _ _ => rfl)
    (fun _ _ => rfl) (fun _ => rfl) _ _ _ _ _ _ _ _ (fun _ _ => trivial) trivial

theorem Hw.epochQuery_still (h : Hw) (l : Launch) (d : Desc) :
    ((h.epochQuery l d).tile l.t).still = (h.tile l.t).still ∧ ((h.epochQuery l d).tile l.t).running = (h.tile l.t).running := by
  unfold Hw.epochQuery
  simp only
  split
  · split
    · rw [Hw.hazard_tile]; exact ⟨rfl, rfl⟩
    · rw [Hw.tile_setTile_same]; exact ⟨rfl, rfl⟩
  · exact ⟨rfl, rfl⟩

theorem Hw.epochQueries_still (h : Hw) (l : Launch) (ds : List DescNo) :
    ((h.epochQueries l ds).tile l.t).still = (h.tile l.t).still
    ∧ ((h.epochQueries l ds).tile l.t).running = (h.tile l.t).running :=
  ⟨foldl_keeps (fun h : Hw => (h.tile l.t).still) _ _ (fun _ _ _ => (Hw.epochQuery_still _ _ _).1) _,
   foldl_keeps (fun h : Hw => (h.tile l.t).running) _ _ (fun _ _ _ => (Hw.epochQuery_still _ _ _).2) _⟩

/-- A command that has started and asked epochs finds the tile's stores as they were. -/
theorem Hw.started_still (h : Hw) (l : Launch) (ds : List DescNo) :
    (((h.begin l).epochQueries l ds).tile l.t).still = (h.tile l.t).still :=
  (Hw.epochQueries_still _ _ _).1.trans (Hw.begin_tile h l).1

theorem Hw.started_desc (h : Hw) (l : Launch) (ds : List DescNo) (k : DescNo) :
    ((h.begin l).epochQueries l ds).desc l.t k = h.desc l.t k := by
  have := congrArg TileSt.desc (Hw.started_still h l ds)
  simp only [TileSt.still] at this
  simp only [Hw.desc, this]

/-! ### The Vector Engine -/

/-- What a vector command computes is kept with it until it completes. -/
theorem Hw.vecResult_keeps (ok : TileOk t P) (h : Hw) (l : Launch) (hl : l.t = t) (d : Desc) (vs : List Val) (b : Bool) :
    P (h.vecResult l d vs b) = P h := by
  subst hl
  exact Hw.onRunning_tile ok _ _ _

theorem Hw.arith_keeps (ok : TileOk t P) (h : Hw) (op : Nat) (c : Cmd) (x : ArithArgs) (n : Nat) (b : Bool)
    (f : Val → Val → Val → Val) : P (h.arith t op c x n b f) = P h :=
  Hw.launchView_keeps ok _ _ rfl _ _ (fun _ => (Hw.vecResult_keeps ok _ _ rfl _ _ _).trans (Hw.epochQueries_tile ok _ _ rfl _))

theorem Hw.reduce_keeps (ok : TileOk t P) (h : Hw) (op : Nat) (c : Cmd) (x : ArithArgs)
    (f : Val → Val → Val) (z : Val) : P (h.reduce t op c x f z) = P h :=
  Hw.launchView_keeps ok _ _ rfl _ _ (fun _ => (Hw.vecResult_keeps ok _ _ rfl _ _ _).trans (Hw.epochQueries_tile ok _ _ rfl _))

theorem Hw.startDraw_keeps (ok : TileOk t P) (h : Hw) (l : Launch) (hl : l.t = t) (x : GenArgs) (d : Desc) :
    P (h.startDraw l x d) = P h := Hw.vecResult_keeps ok _ _ hl _ _ _

theorem Hw.startMask_keeps (ok : TileOk t P) (h : Hw) (l : Launch) (hl : l.t = t) (x : GenArgs) (a d : Desc) :
    P (h.startMask l x a d) = P h :=
  (Hw.vecResult_keeps ok _ _ hl _ _ _).trans (Hw.epochQueries_tile ok _ _ hl _)

theorem Hw.startRot_keeps (ok : TileOk t P) (h : Hw) (l : Launch) (hl : l.t = t) (x : GenArgs) (a d : Desc) :
    P (h.startRot l x a d) = P h :=
  (Hw.vecResult_keeps ok _ _ hl _ _ _).trans (Hw.epochQueries_tile ok _ _ hl _)

/-- The start of a command that asks epochs: everything a reader of `TileOk` finds stands. -/
theorem Hw.started_tile (ok : TileOk t P) (h : Hw) (l : Launch) (hl : l.t = t) (ds : List DescNo) :
    P ((h.begin l).epochQueries l ds) = P h :=
  (Hw.epochQueries_tile ok _ _ hl _).trans (Hw.begin_tileOk ok _ _ hl)

/-- A vector command whose reads are clean finds its sources in memory as it stood. -/
theorem Hw.started_source (h : Hw) (l : Launch) (ds : List DescNo) :
    ((h.begin l).epochQueries l ds).vecSource = h.vecSource :=
  Hw.vecSource_mem _ _ (Hw.started_tile (TileOk.mem l.t) h l rfl ds)

/-! ### The convert section and the Statistics Unit -/

theorem Hw.convertSection_keeps (ok : TileOk t P) (h : Hw) (l : Launch) (hl : l.t = t) (k : DescNo) (s d : Desc) (b : Bool) :
    P (h.convertSection l k s d b) = P h := by
  subst hl
  unfold Hw.convertSection
  simp only
  rw [Hw.onRunning_tile ok, Hw.cmdEvents_tile ok, Hw.epochQueries_tile ok _ _ rfl]

theorem Hw.closeSlot_keeps (ok : TileOk t P) (hm : NoMem P) (h : Hw) (k : Nat) (w : Bool) (d : Desc) (seen : SMap SumRec) :
    P (h.closeSlot t k w d seen) = P h := by
  have hw : ∀ (g : Hw) (l : List ((Nat × Nat) × Byte)), P (l.foldl (fun h p => h.setElem d p.1.1 p.1.2 p.2.toNat) g) = P g :=
    fun g l => foldl_keeps P _ _ (fun _ _ _ => MemFn.keeps hm (MemFn.setElem _ _ _ _) _) _
  unfold Hw.closeSlot
  simp only
  split
  · rw [hw]
    split <;> exact ok.tiles _ _ _ rfl
  · split <;> exact ok.tiles _ _ _ rfl

end Sys2Proof.Machine
end

