-- ==== Sys2Proof/Laws/Management.lean ====
section
/-!
SUPPORT. What a request does by its session and row (R413, R414), and what an open refusal or a reply leaves as it was; what a
hart in machine mode without PMP entries meets on its way to memory (R39, R387).
-/
namespace Sys2Proof.Machine

theorem SMap.insert_insert {α : Type} (m : SMap α) (k : Nat) (v w : α) : (m.insert k v).insert k w = m.insert k w := by
  induction m with
  | nil => simp [SMap.insert]
  | cons e t ih =>
    obtain ⟨j, x⟩ := e
    simp only [SMap.insert]
    by_cases h1 : k < j
    · simp [h1, SMap.insert]
    · by_cases h2 : k = j
      · simp [h2, SMap.insert]
      · simp [h1, h2, SMap.insert, ih]

theorem State.putSession_putSession (s : State) (n : Word32) (x y : Session) :
    (s.putSession n x).putSession n y = s.putSession n y := by
  simp [State.putSession, SMap.insert_insert]

@[simp] theorem State.session?_putSession (s : State) (n : Word32) (x : Session) : (s.putSession n x).session? n =
    some { x with lastAt := s.fliuf.mtime } := by
  simp [State.session?, State.putSession]

theorem State.session?_putSession_other (s : State) (n m : Word32) (x : Session) (h : m ≠ n) :
    (s.putSession n x).session? m = s.session? m := by
  have hne : m.toNat ≠ n.toNat := fun e => h (BitVec.eq_of_toNat_eq e)
  simp [State.session?, State.putSession, SMap.find?_insert_other _ _ _ _ hne]

@[simp] theorem State.putSession_hw (s : State) (n : Word32) (x : Session) : (s.putSession n x).hw = s.hw := rfl
@[simp] theorem State.putSession_xof (s : State) (n : Word32) (x : Session) : (s.putSession n x).xof = s.xof := rfl
@[simp] theorem State.putSession_power (s : State) (n : Word32) (x : Session) : (s.putSession n x).power = s.power := rfl
@[simp] theorem State.putSession_fliuf (s : State) (n : Word32) (x : Session) : (s.putSession n x).fliuf = s.fliuf := rfl
@[simp] theorem State.putSession_pending (s : State) (n : Word32) (x : Session) : (s.putSession n x).pending = s.pending := rfl

theorem State.request_idle (s : State) (row : MmpRow) (h : MmpHeader) (body : State → Session → State × Reply)
    (hs : s.serves = false) : s.request row h body = s := by
  simp [State.request, hs]

theorem State.request_fresh (s : State) (row : MmpRow) (h : MmpHeader) (x : Session) (body : State → Session → State × Reply)
    (hf : Fresh s h x) : s.request row h body = s.performed h x (fun s x =>
      match s.rowRefusal row x with
      | some r => (s, r)
      | none => body s x) := by
  obtain ⟨h1, h2, h3, h4⟩ := hf
  simp only [tagFails] at h3
  simp only [State.request, h1, h2, h3, State.sequenced]
  cases hl : x.lastSeq with
  | none => rfl
  | some n => exact if_pos (h4 n hl)

theorem State.rowRefusal_none (s : State) (row : MmpRow) (h : MmpHeader) (x : Session) (ha : Admissible s row h x) :
    s.rowRefusal row x = none := by
  obtain ⟨_, h1, h2⟩ := ha
  unfold State.rowRefusal
  cases hr : s.inRecovery with
  | true => simp [h1 hr]
  | false =>
    obtain ⟨h3, h4⟩ := h2 hr
    have : ¬ x.version < row.version := by omega
    cases hx : row.authorised with
    | true => simp [h3 hx, this]
    | false => simp [this]

/-- A request that its row lets through is performed by its body. -/
theorem State.request_admissible (s : State) (row : MmpRow) (h : MmpHeader) (x : Session) (body : State → Session → State × Reply)
    (ha : Admissible s row h x) : s.request row h body = s.performed h x body := by
  rw [State.request_fresh s row h x body ha.1]
  have hr : (s.putSession h.session { x with lastSeq := some h.seq }).rowRefusal row { x with lastSeq := some h.seq } = none :=
    State.rowRefusal_none s row h x ha
  simp only [State.performed, hr]

/-- A performed request whose body leaves the sessions alone: its answer is given and kept. -/
theorem State.performed_replied (s u : State) (h : MmpHeader) (x : Session) (body : State → Session → State × Reply) (r : Reply)
    (hb : body (s.putSession h.session { x with lastSeq := some h.seq }) { x with lastSeq := some h.seq } =
      (u.putSession h.session { x with lastSeq := some h.seq }, r)) :
    Replied u (s.performed h x body) h x r.1 r.2 := by
  unfold Replied State.performed
  simp only [hb, State.session?_putSession, State.putSession_putSession]
  rfl

/-! ### A hart's view -/

@[simp] theorem State.asHart_none (s : State) (k : Hart) : s.asHart k none = s := rfl
@[simp] theorem State.asHart_hw (s : State) (k : Hart) (p : Option Paging) : (s.asHart k p).hw = s.hw := by cases p <;> rfl
@[simp] theorem State.translate_bare (s : State) (r : Outsider) (x : Intent) (a : Nat) :
    s.translate r Paging.bare x a = (s, .to a) := rfl
@[simp] theorem pmpAllows_bare (x : Intent) (a n : Nat) : pmpAllows Paging.bare.mode x a n 0 Paging.bare.pmp = true := rfl

end Sys2Proof.Machine
end

