-- ==== Sys2Proof/Laws/MemoryForm.lean ====
section
/-!
SUPPORT. The canonical form of memory: every operation that changes memory keeps it, and memory has it at reset; what a byte reads
after a write.
-/
namespace Sys2Proof.Machine

theorem Hw.setByte_wf (h : Hw) (a : Nat) (b : Byte) (hm : Memory.wf h.mem = true) : Memory.wf (h.setByte a b).mem = true :=
  SMap.wf_set h.mem (fun _ => blankByte) a b hm

theorem Hw.write_wf (bs : List Byte) : ∀ (h : Hw) (a : Nat), Memory.wf h.mem = true → Memory.wf (h.write a bs).mem = true := by
  induction bs with
  | nil => exact fun _ _ hm => hm
  | cons b bs ih => exact fun h a hm => ih _ _ (h.setByte_wf a b hm)

theorem Hw.writeNat_wf (h : Hw) (a n v : Nat) (hm : Memory.wf h.mem = true) : Memory.wf (h.writeNat a n v).mem = true :=
  Hw.write_wf _ h a hm

theorem Hw.dropReservations_mem (h : Hw) (a n : Nat) : (h.dropReservations a n).mem = h.mem := by
  unfold Hw.dropReservations; split <;> rfl

theorem Hw.store_wf (h : Hw) (a : Nat) (bs : List Byte) (hm : Memory.wf h.mem = true) : Memory.wf (h.store a bs).mem = true := by
  unfold Hw.store; rw [Hw.dropReservations_mem]; exact Hw.write_wf bs h a hm

theorem Hw.clearBytes_wf (h : Hw) (a n : Nat) (hm : Memory.wf h.mem = true) : Memory.wf (h.clearBytes a n).mem = true :=
  SMap.wf_filter h.mem _ _ hm

theorem Hw.movePages_wf (h : Hw) (f : Nat → Nat) : Memory.wf (h.movePages f).mem = true := by
  unfold Hw.movePages
  have key : ∀ (l m : SMap Byte), Memory.wf m = true →
      Memory.wf (l.foldl (fun m e => m.set blankByte (movedTo f e.1) e.2) m) = true := by
    intro l
    induction l with
    | nil => exact fun _ hm => hm
    | cons e l ih => exact fun m hm => ih _ (SMap.wf_set m (fun _ => blankByte) _ _ hm)
  exact key h.mem [] (by decide)

theorem Hw.unpowered_mem (h : Hw) : h.unpowered.mem = [] := rfl

theorem State.reset_mem_wf : Memory.wf State.reset.hw.mem = true := by decide

/-! ### What a byte reads -/

@[simp] theorem Hw.byte_setByte_same (h : Hw) (a : Nat) (b : Byte) : (h.setByte a b).byte a = b := SMap.get_set_same h.mem blankByte a b

theorem Hw.byte_setByte_other (h : Hw) (a c : Nat) (b : Byte) (hc : c ≠ a) : (h.setByte a b).byte c = h.byte c :=
  SMap.get_set_other h.mem blankByte blankByte a c b hc

theorem Hw.byte_write_outside (bs : List Byte) :
    ∀ (h : Hw) (a c : Nat), (c < a ∨ a + bs.length ≤ c) → (h.write a bs).byte c = h.byte c := by
  induction bs with
  | nil => exact fun _ _ _ _ => rfl
  | cons b bs ih =>
    intro h a c hc
    simp only [List.length_cons] at hc
    simp only [Hw.write]
    rw [ih _ (a + 1) c (by omega), Hw.byte_setByte_other _ _ _ _ (by omega)]

theorem Hw.byte_write_inside (bs : List Byte) :
    ∀ (h : Hw) (a k : Nat) (b : Byte), bs[k]? = some b → (h.write a bs).byte (a + k) = b := by
  induction bs with
  | nil => intro h a k b hk; simp at hk
  | cons c bs ih =>
    intro h a k b hk
    simp only [Hw.write]
    cases k with
    | zero =>
      rw [Hw.byte_write_outside _ _ _ _ (by omega)]
      simp at hk
      simp [hk]
    | succ k =>
      have := ih (h.setByte a c) (a + 1) k b (by simpa using hk)
      rw [show a + (k + 1) = a + 1 + k by omega]
      exact this

end Sys2Proof.Machine
end

