-- ==== Sys2Proof/WellFormed.lean ====
section
/-!
DEFINITION. Which commands are well-formed: the ranges that the spec's tables give their operands beyond what their types
hold. A meaning is total and answers for an ill-formed command too; the checks name what no sender may send.
-/
namespace Sys2Proof

/-- The unit field of a command, Table 4.2: an array for the Execute Engine, an issue channel for the Access Engine,
otherwise 0. -/
def Engine.unitOk (e : Engine) (unit : BitVec 3) : Bool :=
  match e with
  | .access => decide (unit.toNat < 4)
  | .execute => true
  | .vector => decide (unit = 0)
  | .conversion => decide (unit = 0)
  | .statistics => decide (unit = 0)

/-- The header of a command, Table 4.2: its unit, and a deadline that is at least the launch offset. -/
def Cmd.ok (e : Engine) (c : Cmd) : Bool := e.unitOk c.unit && decide (c.launch.toNat ≤ c.deadline.toNat)

/-- MMUL extents and counts, Table 4.4. -/
def MmulArgs.ok (x : MmulArgs) : Bool :=
  decide (x.m.toNat ≤ 512) && decide (x.n.toNat ≤ 64) && decide (x.wA.toNat ≤ 256) && decide (x.wW.toNat ≤ 256)

/-- Access widths a requester can issue, in bytes. -/
def widthOk (w : BitVec 4) : Bool := decide (w = 1 ∨ w = 2 ∨ w = 4 ∨ w = 8)

/-- A core fetches by reading, loads by reading and stores by writing; only a core runs the cache-block operations of Zicbom
(R387, R388). -/
def AccessOp.sentBy (op : AccessOp) (r : Outsider) : Bool :=
  match r with
  | .fetch _ => decide (op = .read)
  | .load _ => decide (op = .read)
  | .store _ => decide (op ≠ .read)
  | .debug => decide (op ≠ .clean ∧ op ≠ .flush ∧ op ≠ .inval)
  | .management => decide (op ≠ .clean ∧ op ≠ .flush ∧ op ≠ .inval)

/-- A flit's data bytes, Table 6.4. -/
def Flit.ok (f : Flit) : Bool := decide (f.len.toNat ≤ 224)

/-- The largest MMP payload, R412. -/
def payloadOk (n : Nat) : Bool := decide (n ≤ 8912)

/-- The payload limit a host may name in HELLO, R412. -/
def limitOk (n : Half) : Bool := decide (n.toNat ≤ 8912)

/-- The checks, command by command. -/
def Instr.wellFormed (i : Instr) : Bool :=
  match i with
  | .slotBoundary => true
  | .nop _ e c => c.ok e
  | .copy _ c _ _ => c.ok .access
  | .fill _ c _ _ => c.ok .access
  | .acc _ c _ _ _ _ _ => c.ok .access
  | .rwrite _ c _ _ _ => c.ok .access
  | .rread _ c _ _ _ => c.ok .access
  | .racc _ c _ _ _ _ => c.ok .access
  | .mmul _ c x _ => c.ok .execute && x.ok
  | .escapeTableFill _ c x => c.ok .execute && x.ok
  | .convert _ c _ _ => c.ok .conversion
  | .expand _ c _ _ => c.ok .conversion
  | .add _ c _ => c.ok .vector
  | .sub _ c _ => c.ok .vector
  | .mul _ c _ => c.ok .vector
  | .fma _ c _ => c.ok .vector
  | .max _ c _ => c.ok .vector
  | .min _ c _ => c.ok .vector
  | .abs _ c _ => c.ok .vector
  | .neg _ c _ => c.ok .vector
  | .cmplt _ c _ => c.ok .vector
  | .cmpeq _ c _ => c.ok .vector
  | .sel _ c _ => c.ok .vector
  | .cvt _ c _ => c.ok .vector
  | .div _ c _ => c.ok .vector
  | .sqrt _ c _ => c.ok .vector
  | .rsqrt _ c _ => c.ok .vector
  | .recip _ c _ => c.ok .vector
  | .exp2 _ c _ => c.ok .vector
  | .log2 _ c _ => c.ok .vector
  | .rsum _ c _ => c.ok .vector
  | .rmax _ c _ => c.ok .vector
  | .draw _ c _ => c.ok .vector
  | .mask _ c _ => c.ok .vector
  | .rot _ c _ => c.ok .vector
  | .opn _ c _ _ _ => c.ok .statistics
  | .close _ c _ _ _ => c.ok .statistics
  | .send _ c _ count _ => c.ok .statistics && decide (1 ≤ count.toNat ∧ count.toNat ≤ 1024)
  | .commandCompletion _ e unit => e.unitOk unit
  | .deadlineMiss _ e unit => e.unitOk unit
  | .epochAnswer _ _ _ => true
  | .accessResponse _ _ _ _ _ => true
  | .tieredRequest _ _ _ _ _ => true
  | .requestLate _ _ => true
  | .bankTagFree _ => true
  | .hbmRefresh _ => true
  | .lpddrRefresh _ => true
  | .driftMeasurement _ _ _ => true
  | .subchannelRetrain _ _ => true
  | .retrainEnd _ _ _ => true
  | .atomicMemoryOperation _ _ _ _ _ paging _ => paging.all Paging.ok
  | .nonscheduledAccess r _ width op paging _ => widthOk width && op.sentBy r && paging.all Paging.ok
  | .writebackError _ => true
  | .segmentConfigWrite _ _ => true
  | .quotaWrite _ => true
  | .migCmd _ => true
  | .exchangeStart _ => true
  | .policyExchange _ => true
  | .exchangeComplete _ _ => true
  | .localAccDelivery _ _ _ => true
  | .stagingDeadline _ => true
  | .updateEntry _ _ => true
  | .updateEntryComplete _ => true
  | .updateEntryDeadline _ => true
  | .uncleanCauseSignal _ => true
  | .fullStopLaunch => true
  | .fsDown _ f => f.ok
  | .verdict => true
  | .treeTimeout => true
  | .commit => true
  | .snapshotShareComplete => true
  | .resultsCapture _ => true
  | .successorSwitch => true
  | .jobStart => true
  | .admissionComplete => true
  | .restoreShare => true
  | .flitSlotTransmit _ => true
  | .corruptFlit _ _ => true
  | .idle _ f => f.ok
  | .write _ f _ _ => f.ok
  | .readReq _ f _ _ _ => f.ok
  | .readRsp _ f _ => f.ok
  | .accFlit _ f _ _ => f.ok
  | .done _ f => f.ok
  | .barDown _ f => f.ok
  | .faultDeliver _ f => f.ok
  | .resetMessage _ f => f.ok
  | .globalReset _ => true
  | .trainVer _ f => f.ok
  | .alignPing _ f _ => f.ok
  | .alignEcho _ f _ => f.ok
  | .retryReq _ f => f.ok
  | .mgmt _ f => f.ok
  | .retryTimeout _ => true
  | .tallyClose _ => true
  | .linkLost _ _ => true
  | .portTrainStart _ => true
  | .trainingStageEnd _ _ => true
  | .uqTailWrite _ _ => true
  | .urHeadWrite _ _ => true
  | .intervalMarker _ _ _ => true
  | .alignArm => true
  | .syncPulse => true
  | .fineCorrection => true
  | .alignComplete _ f => f.ok
  | .alignTimeout => true
  | .refWindow _ => true
  | .pllSlip => true
  | .tenseDivergence => true
  | .laneFifoFault _ => true
  | .clockRelease _ _ _ => true
  | .peripheralEnable _ => true
  | .tnsNowRead _ _ => true
  | .ingestFill => true
  | .stageCommit => true
  | .snapshotRequest => true
  | .stopRequest => true
  | .stagedTableWrite _ _ _ => true
  | .fwHoldWrite _ => true
  | .registerWrite _ _ _ _ => true
  | .hello _ _ limit _ => limitOk limit
  | .auth _ _ _ => true
  | .bye _ => true
  | .sessionTimeout _ => true
  | .status _ => true
  | .results _ _ => true
  | .regRead _ addrs => decide (addrs.length ≤ 128)
  | .regWrite _ writes => decide (writes.length ≤ 128)
  | .memRead _ _ _ _ => true
  | .memWrite _ _ data => payloadOk data.length
  | .imagePut _ _ data => payloadOk data.length
  | .admitJob _ => true
  | .start _ _ _ _ resCount => decide (resCount.toNat ≤ 13)
  | .stop _ => true
  | .snapshot _ _ _ => true
  | .release _ => true
  | .successor _ => true
  | .quota _ _ _ => true
  | .attest _ _ => true
  | .certs _ => true
  | .dumpQuery _ => true
  | .dumpTake _ => true
  | .dumpRead _ _ _ _ => true
  | .dumpRelease _ _ => true
  | .dumpBuildComplete _ => true
  | .flashPut _ _ _ data => payloadOk data.length
  | .flashCommit _ => true
  | .mmpReset _ _ => true
  | .provision _ _ => true
  | .proxy _ _ inner => payloadOk inner.length
  | .unacceptedDatagram => true
  | .icmpv6Message _ _ _ => true
  | .xofHash data => decide (data.length ≤ 512)
  | .xofVerify _ _ _ => true
  | .xofAttest _ => true
  | .sessionKey _ _ => true
  | .sessionHello _ _ => true
  | .tag _ data => decide (data.length ≤ 512)
  | .measure _ _ _ _ _ => true
  | .clear _ => true
  | .flashOpen _ => true
  | .raiseSvn => true
  | .xofProvision _ => true
  | .random count => decide (count.toNat ≤ 512)
  | .xofCommandDone => true
  | .wdtKick _ _ => true
  | .watchdogExpiry _ => true
  | .timerExpiry _ => true
  | .mtimeCompare _ => true
  | .uartDataWrite _ _ => true
  | .uartDataRead _ => true
  | .uartReceive _ _ _ _ _ => true
  | .uartTransmit _ => true
  | .i2cStart _ => true
  | .i2cStop _ => true
  | .i2cByte _ _ _ _ _ => true
  | .spiExchange _ => true
  | .spiDone _ _ => true
  | .gpioEdge _ _ => true
  | .plicClaim _ => true
  | .plicComplete _ _ => true
  | .captureRequest => true
  | .captureRelease => true
  | .collectorClear => true
  | .traceClear _ => true
  | .traceControlWrite _ _ => true
  | .debugBusAccess _ width _ _ => widthOk width
  | .firmwareEntry _ => true
  | .powerSample _ => true
  | .railGroupOff => true
  | .temperatureSample readings => decide (readings.length = 58)
  | .pwrEnChange _ => true
  | .powerUp => true
  | .powerUpStage => true
  | .automaticRestart => true
  | .resetN _ => true
  | .clearFaults => true
  | .statusWord => true
  | .statusVout => true
  | .statusInput => true
  | .statusTemperature => true
  | .readVin => true
  | .readIin => true
  | .readPin => true
  | .readTemperature1 => true
  | .readTemperature2 => true
  | .mfrLastOff => true
  | .pmbusRelay _ => true
  | .debugModuleAccess _ => true
  | .managementLinkTraining _ _ => true
  | .releaseComplete => true
  | .flashCommitComplete => true
  | .alwaysOnSupplyLoss => true

end Sys2Proof
end

