-- ==== Sys2Proof/Laws/PerInstr.lean ====
section
/-!
SUPPORT. Statements made of each command of the table as syntax.
-/
namespace Sys2Proof.Laws.Header

open Machine

/-- A well-formed command that a tile's stream holds carries a header that its engine takes: its unit is one of the engine's, and
its deadline is not before its launch (Table 4.2). -/
def Statement (i : Instr) : Prop := i.wellFormed = true → ∀ l, i.launch = some l → l.c.ok l.e = true

/-- A command that is in no tile's stream. -/
theorem none_of (i : Instr) (h : i.launch = none) : Statement i := by
  intro _ l hl; rw [h] at hl; cases hl

/-- A command whose launch has the header that its check names. -/
theorem some_of (i : Instr) (l : Launch) (h : i.launch = some l) (hw : i.wellFormed = true → l.c.ok l.e = true) : Statement i := by
  intro hi m hm; rw [h] at hm; cases hm; exact hw hi

theorem and_left {a b : Bool} (h : (a && b) = true) : a = true := by cases a <;> simp_all

theorem slotBoundary : Statement (.slotBoundary) := none_of _ rfl
theorem nop : ∀ (t : Tile) (e : Engine) (c : Cmd), Statement (.nop t e c) := fun _ _ _ => some_of _ _ rfl id
theorem copy : ∀ (t : Tile) (c : Cmd) (src dst : DescNo), Statement (.copy t c src dst) := fun _ _ _ _ => some_of _ _ rfl id
theorem fill : ∀ (t : Tile) (c : Cmd) (dst : DescNo) (pattern : Word), Statement (.fill t c dst pattern) := fun _ _ _ _ => some_of _ _ rfl id
theorem acc : ∀ (t : Tile) (c : Cmd) (src dst : DescNo) (op : BitVec 4) (slice bridge : Ecc), Statement (.acc t c src dst op slice bridge) := fun _ _ _ _ _ _ _ => some_of _ _ rfl id
theorem rwrite : ∀ (t : Tile) (c : Cmd) (src : DescNo) (rank : Rank) (addr : Addr), Statement (.rwrite t c src rank addr) := fun _ _ _ _ _ => some_of _ _ rfl id
theorem rread : ∀ (t : Tile) (c : Cmd) (dst : DescNo) (rank : Rank) (addr : Addr), Statement (.rread t c dst rank addr) := fun _ _ _ _ _ => some_of _ _ rfl id
theorem racc : ∀ (t : Tile) (c : Cmd) (src : DescNo) (rank : Rank) (slot : Half) (bseq : Word32), Statement (.racc t c src rank slot bseq) := fun _ _ _ _ _ _ => some_of _ _ rfl id
theorem mmul : ∀ (t : Tile) (c : Cmd) (x : MmulArgs) (w : ArrayTiming), Statement (.mmul t c x w) := fun _ _ _ _ => some_of _ _ rfl and_left
theorem escapeTableFill : ∀ (t : Tile) (c : Cmd) (x : MmulArgs), Statement (.escapeTableFill t c x) := fun _ _ _ => none_of _ rfl
theorem convert : ∀ (t : Tile) (c : Cmd) (src dst : DescNo), Statement (.convert t c src dst) := fun _ _ _ _ => some_of _ _ rfl id
theorem expand : ∀ (t : Tile) (c : Cmd) (src dst : DescNo), Statement (.expand t c src dst) := fun _ _ _ _ => some_of _ _ rfl id
theorem add : ∀ (t : Tile) (c : Cmd) (x : ArithArgs), Statement (.add t c x) := fun _ _ _ => some_of _ _ rfl id
theorem sub : ∀ (t : Tile) (c : Cmd) (x : ArithArgs), Statement (.sub t c x) := fun _ _ _ => some_of _ _ rfl id
theorem mul : ∀ (t : Tile) (c : Cmd) (x : ArithArgs), Statement (.mul t c x) := fun _ _ _ => some_of _ _ rfl id
theorem fma : ∀ (t : Tile) (c : Cmd) (x : ArithArgs), Statement (.fma t c x) := fun _ _ _ => some_of _ _ rfl id
theorem max : ∀ (t : Tile) (c : Cmd) (x : ArithArgs), Statement (.max t c x) := fun _ _ _ => some_of _ _ rfl id
theorem min : ∀ (t : Tile) (c : Cmd) (x : ArithArgs), Statement (.min t c x) := fun _ _ _ => some_of _ _ rfl id
theorem abs : ∀ (t : Tile) (c : Cmd) (x : ArithArgs), Statement (.abs t c x) := fun _ _ _ => some_of _ _ rfl id
theorem neg : ∀ (t : Tile) (c : Cmd) (x : ArithArgs), Statement (.neg t c x) := fun _ _ _ => some_of _ _ rfl id
theorem cmplt : ∀ (t : Tile) (c : Cmd) (x : ArithArgs), Statement (.cmplt t c x) := fun _ _ _ => some_of _ _ rfl id
theorem cmpeq : ∀ (t : Tile) (c : Cmd) (x : ArithArgs), Statement (.cmpeq t c x) := fun _ _ _ => some_of _ _ rfl id
theorem sel : ∀ (t : Tile) (c : Cmd) (x : ArithArgs), Statement (.sel t c x) := fun _ _ _ => some_of _ _ rfl id
theorem cvt : ∀ (t : Tile) (c : Cmd) (x : ArithArgs), Statement (.cvt t c x) := fun _ _ _ => some_of _ _ rfl id
theorem div : ∀ (t : Tile) (c : Cmd) (x : ArithArgs), Statement (.div t c x) := fun _ _ _ => some_of _ _ rfl id
theorem sqrt : ∀ (t : Tile) (c : Cmd) (x : ArithArgs), Statement (.sqrt t c x) := fun _ _ _ => some_of _ _ rfl id
theorem rsqrt : ∀ (t : Tile) (c : Cmd) (x : ArithArgs), Statement (.rsqrt t c x) := fun _ _ _ => some_of _ _ rfl id
theorem recip : ∀ (t : Tile) (c : Cmd) (x : ArithArgs), Statement (.recip t c x) := fun _ _ _ => some_of _ _ rfl id
theorem exp2 : ∀ (t : Tile) (c : Cmd) (x : ArithArgs), Statement (.exp2 t c x) := fun _ _ _ => some_of _ _ rfl id
theorem log2 : ∀ (t : Tile) (c : Cmd) (x : ArithArgs), Statement (.log2 t c x) := fun _ _ _ => some_of _ _ rfl id
theorem rsum : ∀ (t : Tile) (c : Cmd) (x : ArithArgs), Statement (.rsum t c x) := fun _ _ _ => some_of _ _ rfl id
theorem rmax : ∀ (t : Tile) (c : Cmd) (x : ArithArgs), Statement (.rmax t c x) := fun _ _ _ => some_of _ _ rfl id
theorem draw : ∀ (t : Tile) (c : Cmd) (x : GenArgs), Statement (.draw t c x) := fun _ _ _ => some_of _ _ rfl id
theorem mask : ∀ (t : Tile) (c : Cmd) (x : GenArgs), Statement (.mask t c x) := fun _ _ _ => some_of _ _ rfl id
theorem rot : ∀ (t : Tile) (c : Cmd) (x : GenArgs), Statement (.rot t c x) := fun _ _ _ => some_of _ _ rfl id
theorem opn : ∀ (t : Tile) (c : Cmd) (slot : BitVec 4) (layer : BitVec 10) (backward : Bool), Statement (.opn t c slot layer backward) := fun _ _ _ _ _ => some_of _ _ rfl id
theorem close : ∀ (t : Tile) (c : Cmd) (slot : BitVec 4) (write : Bool) (dst : DescNo), Statement (.close t c slot write dst) := fun _ _ _ _ _ => some_of _ _ rfl id
theorem send : ∀ (t : Tile) (c : Cmd) (first : BitVec 10) (count : BitVec 11) (bridge : List (BitVec 10 × Bool)), Statement (.send t c first count bridge) := fun _ _ _ _ _ => some_of _ _ rfl and_left
theorem commandCompletion : ∀ (t : Tile) (e : Engine) (unit : BitVec 3), Statement (.commandCompletion t e unit) := fun _ _ _ => none_of _ rfl
theorem deadlineMiss : ∀ (t : Tile) (e : Engine) (unit : BitVec 3), Statement (.deadlineMiss t e unit) := fun _ _ _ => none_of _ rfl
theorem epochAnswer : ∀ (t : Tile) (eslot : Byte) (bridge : Ecc), Statement (.epochAnswer t eslot bridge) := fun _ _ _ => none_of _ rfl
theorem accessResponse : ∀ (t : Tile) (ch : BitVec 2) (req : Word32) (found bridge : Ecc), Statement (.accessResponse t ch req found bridge) := fun _ _ _ _ _ => none_of _ rfl
theorem tieredRequest : ∀ (r : Requester) (addr : Addr) (write : Option (BitVec 1024)) (found : DramFinding) (bridge : Ecc), Statement (.tieredRequest r addr write found bridge) := fun _ _ _ _ _ => none_of _ rfl
theorem requestLate : ∀ (r : Requester) (addr : Addr), Statement (.requestLate r addr) := fun _ _ => none_of _ rfl
theorem bankTagFree : ∀ (addr : Addr), Statement (.bankTagFree addr) := fun _ => none_of _ rfl
theorem hbmRefresh : ∀ (bank : BitVec 5), Statement (.hbmRefresh bank) := fun _ => none_of _ rfl
theorem lpddrRefresh : ∀ (bank : BitVec 4), Statement (.lpddrRefresh bank) := fun _ => none_of _ rfl
theorem driftMeasurement : ∀ (c : Channel) (sub : BitVec 2) (exceeds : Bool), Statement (.driftMeasurement c sub exceeds) := fun _ _ _ => none_of _ rfl
theorem subchannelRetrain : ∀ (c : Channel) (sub : BitVec 2), Statement (.subchannelRetrain c sub) := fun _ _ => none_of _ rfl
theorem retrainEnd : ∀ (c : Channel) (sub : BitVec 2) (restored : Bool), Statement (.retrainEnd c sub restored) := fun _ _ _ => none_of _ rfl
theorem atomicMemoryOperation : ∀ (h : Hart) (op : Amo) (addr : Word) (double : Bool) (v : Word) (paging : Option Paging) (found : Ecc), Statement (.atomicMemoryOperation h op addr double v paging found) := fun _ _ _ _ _ _ _ => none_of _ rfl
theorem nonscheduledAccess : ∀ (r : Outsider) (addr : Word) (width : BitVec 4) (op : AccessOp) (paging : Option Paging) (found : Ecc), Statement (.nonscheduledAccess r addr width op paging found) := fun _ _ _ _ _ _ => none_of _ rfl
theorem writebackError : ∀ (line : Addr), Statement (.writebackError line) := fun _ => none_of _ rfl
theorem segmentConfigWrite : ∀ (s : Slice) (v : Half), Statement (.segmentConfigWrite s v) := fun _ _ => none_of _ rfl
theorem quotaWrite : ∀ (v : Word), Statement (.quotaWrite v) := fun _ => none_of _ rfl
theorem migCmd : ∀ (v : Word), Statement (.migCmd v) := fun _ => none_of _ rfl
theorem exchangeStart : ∀ (entry : Half), Statement (.exchangeStart entry) := fun _ => none_of _ rfl
theorem policyExchange : ∀ (q : BitVec 19), Statement (.policyExchange q) := fun _ => none_of _ rfl
theorem exchangeComplete : ∀ (lane : Channel) (uncorrectable : Bool), Statement (.exchangeComplete lane uncorrectable) := fun _ _ => none_of _ rfl
theorem localAccDelivery : ∀ (k : Half) (found bridge : Ecc), Statement (.localAccDelivery k found bridge) := fun _ _ _ => none_of _ rfl
theorem stagingDeadline : ∀ (slot : BitVec 12), Statement (.stagingDeadline slot) := fun _ => none_of _ rfl
theorem updateEntry : ∀ (entry : BitVec 12) (ended : List (Addr × Bool)), Statement (.updateEntry entry ended) := fun _ _ => none_of _ rfl
theorem updateEntryComplete : ∀ (d : Stack), Statement (.updateEntryComplete d) := fun _ => none_of _ rfl
theorem updateEntryDeadline : ∀ (d : Stack), Statement (.updateEntryDeadline d) := fun _ => none_of _ rfl
theorem uncleanCauseSignal : ∀ (k : Half), Statement (.uncleanCauseSignal k) := fun _ => none_of _ rfl
theorem fullStopLaunch : Statement (.fullStopLaunch) := none_of _ rfl
theorem fsDown : ∀ (p : Port) (f : Flit), Statement (.fsDown p f) := fun _ _ => none_of _ rfl
theorem verdict : Statement (.verdict) := none_of _ rfl
theorem treeTimeout : Statement (.treeTimeout) := none_of _ rfl
theorem commit : Statement (.commit) := none_of _ rfl
theorem snapshotShareComplete : Statement (.snapshotShareComplete) := none_of _ rfl
theorem resultsCapture : ∀ (found : Ecc), Statement (.resultsCapture found) := fun _ => none_of _ rfl
theorem successorSwitch : Statement (.successorSwitch) := none_of _ rfl
theorem jobStart : Statement (.jobStart) := none_of _ rfl
theorem admissionComplete : Statement (.admissionComplete) := none_of _ rfl
theorem restoreShare : Statement (.restoreShare) := none_of _ rfl
theorem flitSlotTransmit : ∀ (p : Port), Statement (.flitSlotTransmit p) := fun _ => none_of _ rfl
theorem corruptFlit : ∀ (p : Port) (x : Corruption), Statement (.corruptFlit p x) := fun _ _ => none_of _ rfl
theorem idle : ∀ (p : Port) (f : Flit), Statement (.idle p f) := fun _ _ => none_of _ rfl
theorem write : ∀ (p : Port) (f : Flit) (ended : List (Addr × Bool)) (bridge : Ecc), Statement (.write p f ended bridge) := fun _ _ _ _ => none_of _ rfl
theorem readReq : ∀ (p : Port) (f : Flit) (found : Ecc) (ended : List (Addr × Bool)) (bridge : Ecc), Statement (.readReq p f found ended bridge) := fun _ _ _ _ _ => none_of _ rfl
theorem readRsp : ∀ (p : Port) (f : Flit) (bridge : Ecc), Statement (.readRsp p f bridge) := fun _ _ _ => none_of _ rfl
theorem accFlit : ∀ (p : Port) (f : Flit) (found bridge : Ecc), Statement (.accFlit p f found bridge) := fun _ _ _ _ => none_of _ rfl
theorem done : ∀ (p : Port) (f : Flit), Statement (.done p f) := fun _ _ => none_of _ rfl
theorem barDown : ∀ (p : Port) (f : Flit), Statement (.barDown p f) := fun _ _ => none_of _ rfl
theorem faultDeliver : ∀ (p : Port) (f : Flit), Statement (.faultDeliver p f) := fun _ _ => none_of _ rfl
theorem resetMessage : ∀ (p : Port) (f : Flit), Statement (.resetMessage p f) := fun _ _ => none_of _ rfl
theorem globalReset : ∀ (flashError : Option (Fin 3)), Statement (.globalReset flashError) := fun _ => none_of _ rfl
theorem trainVer : ∀ (p : Port) (f : Flit), Statement (.trainVer p f) := fun _ _ => none_of _ rfl
theorem alignPing : ∀ (p : Port) (f : Flit) (received : Word), Statement (.alignPing p f received) := fun _ _ _ => none_of _ rfl
theorem alignEcho : ∀ (p : Port) (f : Flit) (received : Word), Statement (.alignEcho p f received) := fun _ _ _ => none_of _ rfl
theorem retryReq : ∀ (p : Port) (f : Flit), Statement (.retryReq p f) := fun _ _ => none_of _ rfl
theorem mgmt : ∀ (p : Port) (f : Flit), Statement (.mgmt p f) := fun _ _ => none_of _ rfl
theorem retryTimeout : ∀ (p : Port), Statement (.retryTimeout p) := fun _ => none_of _ rfl
theorem tallyClose : ∀ (p : Port), Statement (.tallyClose p) := fun _ => none_of _ rfl
theorem linkLost : ∀ (p : Port) (why : LinkLoss), Statement (.linkLost p why) := fun _ _ => none_of _ rfl
theorem portTrainStart : ∀ (p : Port), Statement (.portTrainStart p) := fun _ => none_of _ rfl
theorem trainingStageEnd : ∀ (p : Port) (r : StageEnd), Statement (.trainingStageEnd p r) := fun _ _ => none_of _ rfl
theorem uqTailWrite : ∀ (p : Port) (tail : Half), Statement (.uqTailWrite p tail) := fun _ _ => none_of _ rfl
theorem urHeadWrite : ∀ (p : Port) (head : Half), Statement (.urHeadWrite p head) := fun _ _ => none_of _ rfl
theorem intervalMarker : ∀ (p : Port) (offset corrected : BitVec 16), Statement (.intervalMarker p offset corrected) := fun _ _ _ => none_of _ rfl
theorem alignArm : Statement (.alignArm) := none_of _ rfl
theorem syncPulse : Statement (.syncPulse) := none_of _ rfl
theorem fineCorrection : Statement (.fineCorrection) := none_of _ rfl
theorem alignComplete : ∀ (p : Port) (f : Flit), Statement (.alignComplete p f) := fun _ _ => none_of _ rfl
theorem alignTimeout : Statement (.alignTimeout) := none_of _ rfl
theorem refWindow : ∀ (count : Half), Statement (.refWindow count) := fun _ => none_of _ rfl
theorem pllSlip : Statement (.pllSlip) := none_of _ rfl
theorem tenseDivergence : Statement (.tenseDivergence) := none_of _ rfl
theorem laneFifoFault : ∀ (i : LaneInterface), Statement (.laneFifoFault i) := fun _ => none_of _ rfl
theorem clockRelease : ∀ (c : ClockSource) (flashError : Option (Fin 3)) (untrained : List (Fin 20)), Statement (.clockRelease c flashError untrained) := fun _ _ _ => none_of _ rfl
theorem peripheralEnable : ∀ (v : Half), Statement (.peripheralEnable v) := fun _ => none_of _ rfl
theorem tnsNowRead : ∀ (r : Outsider) (part : BitVec 2), Statement (.tnsNowRead r part) := fun _ _ => none_of _ rfl
theorem ingestFill : Statement (.ingestFill) := none_of _ rfl
theorem stageCommit : Statement (.stageCommit) := none_of _ rfl
theorem snapshotRequest : Statement (.snapshotRequest) := none_of _ rfl
theorem stopRequest : Statement (.stopRequest) := none_of _ rfl
theorem stagedTableWrite : ∀ (entry : Bool) (i : BitVec 10) (v : Word), Statement (.stagedTableWrite entry i v) := fun _ _ _ => none_of _ rfl
theorem fwHoldWrite : ∀ (v : BitVec 10), Statement (.fwHoldWrite v) := fun _ => none_of _ rfl
theorem registerWrite : ∀ (r : Outsider) (addr : Addr) (wide : Bool) (v : Word), Statement (.registerWrite r addr wide v) := fun _ _ _ _ => none_of _ rfl
theorem hello : ∀ (vmin vmax : Byte) (limit : Half) (hostKey : BitVec 776), Statement (.hello vmin vmax limit hostKey) := fun _ _ _ _ => none_of _ rfl
theorem auth : ∀ (h : MmpHeader) (cert : Cert) (sig : BitVec 768), Statement (.auth h cert sig) := fun _ _ _ => none_of _ rfl
theorem bye : ∀ (h : MmpHeader), Statement (.bye h) := fun _ => none_of _ rfl
theorem sessionTimeout : ∀ (session : Word32), Statement (.sessionTimeout session) := fun _ => none_of _ rfl
theorem status : ∀ (h : MmpHeader), Statement (.status h) := fun _ => none_of _ rfl
theorem results : ∀ (h : MmpHeader) (step : Word), Statement (.results h step) := fun _ _ => none_of _ rfl
theorem regRead : ∀ (h : MmpHeader) (addrs : List Addr), Statement (.regRead h addrs) := fun _ _ => none_of _ rfl
theorem regWrite : ∀ (h : MmpHeader) (writes : List (Addr × Word)), Statement (.regWrite h writes) := fun _ _ => none_of _ rfl
theorem memRead : ∀ (h : MmpHeader) (addr : Addr) (len : Half) (found : Ecc), Statement (.memRead h addr len found) := fun _ _ _ _ => none_of _ rfl
theorem memWrite : ∀ (h : MmpHeader) (addr : Addr) (data : List Byte), Statement (.memWrite h addr data) := fun _ _ _ => none_of _ rfl
theorem imagePut : ∀ (h : MmpHeader) (off : Word32) (data : List Byte), Statement (.imagePut h off data) := fun _ _ _ => none_of _ rfl
theorem admitJob : ∀ (h : MmpHeader), Statement (.admitJob h) := fun _ => none_of _ rfl
theorem start : ∀ (h : MmpHeader) (t0 restore : Word) (resAddr : Addr) (resCount : BitVec 4), Statement (.start h t0 restore resAddr resCount) := fun _ _ _ _ _ => none_of _ rfl
theorem stop : ∀ (h : MmpHeader), Statement (.stop h) := fun _ => none_of _ rfl
theorem snapshot : ∀ (h : MmpHeader) (dest : Addr) (request : Bool), Statement (.snapshot h dest request) := fun _ _ _ => none_of _ rfl
theorem release : ∀ (h : MmpHeader), Statement (.release h) := fun _ => none_of _ rfl
theorem successor : ∀ (h : MmpHeader), Statement (.successor h) := fun _ => none_of _ rfl
theorem quota : ∀ (h : MmpHeader) (job : Byte) (v : Word), Statement (.quota h job v) := fun _ _ _ => none_of _ rfl
theorem attest : ∀ (h : MmpHeader) (nonce : BitVec 256), Statement (.attest h nonce) := fun _ _ => none_of _ rfl
theorem certs : ∀ (h : MmpHeader), Statement (.certs h) := fun _ => none_of _ rfl
theorem dumpQuery : ∀ (h : MmpHeader), Statement (.dumpQuery h) := fun _ => none_of _ rfl
theorem dumpTake : ∀ (h : MmpHeader), Statement (.dumpTake h) := fun _ => none_of _ rfl
theorem dumpRead : ∀ (h : MmpHeader) (slot : Fin 2) (off : Word) (count : Word32), Statement (.dumpRead h slot off count) := fun _ _ _ _ => none_of _ rfl
theorem dumpRelease : ∀ (h : MmpHeader) (slot : Fin 2), Statement (.dumpRelease h slot) := fun _ _ => none_of _ rfl
theorem dumpBuildComplete : ∀ (slot : Fin 2), Statement (.dumpBuildComplete slot) := fun _ => none_of _ rfl
theorem flashPut : ∀ (h : MmpHeader) (firmware : Bool) (off : Word32) (data : List Byte), Statement (.flashPut h firmware off data) := fun _ _ _ _ => none_of _ rfl
theorem flashCommit : ∀ (h : MmpHeader), Statement (.flashCommit h) := fun _ => none_of _ rfl
theorem mmpReset : ∀ (h : MmpHeader) (recovery : Bool), Statement (.mmpReset h recovery) := fun _ _ => none_of _ rfl
theorem provision : ∀ (h : MmpHeader) (key : BitVec 776), Statement (.provision h key) := fun _ _ => none_of _ rfl
theorem proxy : ∀ (h : MmpHeader) (rank : Rank) (inner : List Byte), Statement (.proxy h rank inner) := fun _ _ _ => none_of _ rfl
theorem unacceptedDatagram : Statement (.unacceptedDatagram) := none_of _ rfl
theorem icmpv6Message : ∀ (port : Fin 2) (echo : Bool) (body : List Byte), Statement (.icmpv6Message port echo body) := fun _ _ _ => none_of _ rfl
theorem xofHash : ∀ (data : List Byte), Statement (.xofHash data) := fun _ => none_of _ rfl
theorem xofVerify : ∀ (key : BitVec 776) (digest : BitVec 384) (sig : BitVec 768), Statement (.xofVerify key digest sig) := fun _ _ _ => none_of _ rfl
theorem xofAttest : ∀ (nonce : BitVec 256), Statement (.xofAttest nonce) := fun _ => none_of _ rfl
theorem sessionKey : ∀ (hostKey : BitVec 776) (nonce : BitVec 256), Statement (.sessionKey hostKey nonce) := fun _ _ => none_of _ rfl
theorem sessionHello : ∀ (hostKey : BitVec 776) (session : Word32), Statement (.sessionHello hostKey session) := fun _ _ => none_of _ rfl
theorem tag : ∀ (key : BitVec 384) (data : List Byte), Statement (.tag key data) := fun _ _ => none_of _ rfl
theorem measure : ∀ (slot : BitVec 4) (kind : Byte) (extra : BitVec 48) (addr : Addr) (len : Word32), Statement (.measure slot kind extra addr len) := fun _ _ _ _ _ => none_of _ rfl
theorem clear : ∀ (slot : BitVec 4), Statement (.clear slot) := fun _ => none_of _ rfl
theorem flashOpen : ∀ (firmware : Bool), Statement (.flashOpen firmware) := fun _ => none_of _ rfl
theorem raiseSvn : Statement (.raiseSvn) := none_of _ rfl
theorem xofProvision : ∀ (digest : BitVec 384), Statement (.xofProvision digest) := fun _ => none_of _ rfl
theorem random : ∀ (count : BitVec 10), Statement (.random count) := fun _ => none_of _ rfl
theorem xofCommandDone : Statement (.xofCommandDone) := none_of _ rfl
theorem wdtKick : ∀ (i : Fin 4) (v : Byte), Statement (.wdtKick i v) := fun _ _ => none_of _ rfl
theorem watchdogExpiry : ∀ (i : Fin 4), Statement (.watchdogExpiry i) := fun _ => none_of _ rfl
theorem timerExpiry : ∀ (i : Fin 4), Statement (.timerExpiry i) := fun _ => none_of _ rfl
theorem mtimeCompare : ∀ (h : Hart), Statement (.mtimeCompare h) := fun _ => none_of _ rfl
theorem uartDataWrite : ∀ (i : Fin 4) (v : Byte), Statement (.uartDataWrite i v) := fun _ _ => none_of _ rfl
theorem uartDataRead : ∀ (i : Fin 4), Statement (.uartDataRead i) := fun _ => none_of _ rfl
theorem uartReceive : ∀ (i : Fin 4) (v : Byte) (parity stopHigh lineLow : Bool), Statement (.uartReceive i v parity stopHigh lineLow) := fun _ _ _ _ _ => none_of _ rfl
theorem uartTransmit : ∀ (i : Fin 4), Statement (.uartTransmit i) := fun _ => none_of _ rfl
theorem i2cStart : ∀ (i : Fin 4), Statement (.i2cStart i) := fun _ => none_of _ rfl
theorem i2cStop : ∀ (i : Fin 4), Statement (.i2cStop i) := fun _ => none_of _ rfl
theorem i2cByte : ∀ (i : Fin 4) (ack arbLost pecRight : Bool) (received : Byte), Statement (.i2cByte i ack arbLost pecRight received) := fun _ _ _ _ _ => none_of _ rfl
theorem spiExchange : ∀ (i : Fin 2), Statement (.spiExchange i) := fun _ => none_of _ rfl
theorem spiDone : ∀ (i : Fin 2) (received : BitVec 128), Statement (.spiDone i received) := fun _ _ => none_of _ rfl
theorem gpioEdge : ∀ (line : BitVec 5) (level : Bool), Statement (.gpioEdge line level) := fun _ _ => none_of _ rfl
theorem plicClaim : ∀ (ctx : BitVec 5), Statement (.plicClaim ctx) := fun _ => none_of _ rfl
theorem plicComplete : ∀ (ctx : BitVec 5) (source : BitVec 6), Statement (.plicComplete ctx source) := fun _ _ => none_of _ rfl
theorem captureRequest : Statement (.captureRequest) := none_of _ rfl
theorem captureRelease : Statement (.captureRelease) := none_of _ rfl
theorem collectorClear : Statement (.collectorClear) := none_of _ rfl
theorem traceClear : ∀ (t : Tile), Statement (.traceClear t) := fun _ => none_of _ rfl
theorem traceControlWrite : ∀ (t : Tile) (v : BitVec 5), Statement (.traceControlWrite t v) := fun _ _ => none_of _ rfl
theorem debugBusAccess : ∀ (addr : Addr) (width : BitVec 4) (write : Option Word) (found : Ecc), Statement (.debugBusAccess addr width write found) := fun _ _ _ _ => none_of _ rfl
theorem firmwareEntry : ∀ (untrained : List (Fin 20)), Statement (.firmwareEntry untrained) := fun _ => none_of _ rfl
theorem powerSample : ∀ (x : PowerReading), Statement (.powerSample x) := fun _ => none_of _ rfl
theorem railGroupOff : Statement (.railGroupOff) := none_of _ rfl
theorem temperatureSample : ∀ (readings : List SensorReading), Statement (.temperatureSample readings) := fun _ => none_of _ rfl
theorem pwrEnChange : ∀ (high : Bool), Statement (.pwrEnChange high) := fun _ => none_of _ rfl
theorem powerUp : Statement (.powerUp) := none_of _ rfl
theorem powerUpStage : Statement (.powerUpStage) := none_of _ rfl
theorem automaticRestart : Statement (.automaticRestart) := none_of _ rfl
theorem resetN : ∀ (high : Bool), Statement (.resetN high) := fun _ => none_of _ rfl
theorem clearFaults : Statement (.clearFaults) := none_of _ rfl
theorem statusWord : Statement (.statusWord) := none_of _ rfl
theorem statusVout : Statement (.statusVout) := none_of _ rfl
theorem statusInput : Statement (.statusInput) := none_of _ rfl
theorem statusTemperature : Statement (.statusTemperature) := none_of _ rfl
theorem readVin : Statement (.readVin) := none_of _ rfl
theorem readIin : Statement (.readIin) := none_of _ rfl
theorem readPin : Statement (.readPin) := none_of _ rfl
theorem readTemperature1 : Statement (.readTemperature1) := none_of _ rfl
theorem readTemperature2 : Statement (.readTemperature2) := none_of _ rfl
theorem mfrLastOff : Statement (.mfrLastOff) := none_of _ rfl
theorem pmbusRelay : ∀ (code : Byte), Statement (.pmbusRelay code) := fun _ => none_of _ rfl
theorem debugModuleAccess : ∀ (op : DebugOp), Statement (.debugModuleAccess op) := fun _ => none_of _ rfl
theorem managementLinkTraining : ∀ (i : Fin 2) (up : Bool), Statement (.managementLinkTraining i up) := fun _ _ => none_of _ rfl
theorem releaseComplete : Statement (.releaseComplete) := none_of _ rfl
theorem flashCommitComplete : Statement (.flashCommitComplete) := none_of _ rfl
theorem alwaysOnSupplyLoss : Statement (.alwaysOnSupplyLoss) := none_of _ rfl

end Sys2Proof.Laws.Header
end

