-- ==== Sys2Proof/Tests/Slice0.lean ====
section
/-!
SUPPORT. Tests of the model: the smoke test of WellFormed, small steps checked against the spec's own words and figures, and for
every statement with hypotheses a state and operands that meet them.
-/
namespace Sys2Proof.Tests

set_option Elab.async false

open Machine

/-! ### Small states -/

/-- The state after a command. -/
def after (i : Instr) (s : State) : State :=
  match exec i s with
  | .next u => u
  | _ => s

/-- A state whose hardware is `h`. -/
def onHw0 (h : Hw) : State := { State.reset with hw := h }

/-- Reset hardware whose clocks run, with fields of registers set. -/
def hwWith (fs : List (Nat × Fld × Nat)) : Hw :=
  fs.foldl (fun h e => h.setFld e.1 e.2.1 e.2.2) (Hw.reset.setFld clkBase Fld.CLK_STATUS.root 1)
/-- The module after reset, its clocks running. -/
def onS : State := onHw0 (hwWith [])

def cmd0 : Cmd := ⟨0, 100, false, false, false, false, 0, 0, 0, 0, 7, []⟩

/-- A row-major view of 32-bit floating-point elements (format 5) in tile memory 0. -/
def view0 (off rows cols : Nat) : Desc :=
  { Desc.blank with
    base := BitVec.ofNat 48 (tileMemBase + off), fmt := 5, attr := 5, stride := BitVec.ofNat 32 (4 * cols), klen := BitVec.ofNat 32 cols,
    rows := BitVec.ofNat 32 rows, cols := BitVec.ofNat 32 cols }

def img0 : Image where
  feature := 0x21
  seed := 0
  rank := 0
  domain := 1
  job := 1
  levels := 1
  planeB := 0
  planes := 1
  collector := 0
  gen := 0
  replayLimit := 1
  variants := 1
  micro := 1
  ingestK := 0
  digest := 0
  slot := 8192
  fsLaunch := 5000
  updLaunch := 6000
  commit := 7900
  fsParts := 2
  plans := [[0]]
  streams := [⟨0, 0, 2, 0xFFFF, []⟩]
  descs := []
  calendars := [(0, 0, [⟨100, 8, 0, 0, false, false⟩, ⟨200, 4, 0, 0, true, false⟩, ⟨300, 8, 0, 0, false, true⟩])]
  tallies := []
  regions := []
  quotas := (0, 0, 0)
  keys := []
  layers := 1
  skipLimit := 1
  profiles := List.replicate 8 0
  entries := [0]
  migrations := []
  ingestStride := 0
  ingestRegions := []
  lists := []
  inbound := []
  staging := StagingSec.none
  preloads := []

def job0 : Job where
  img := img0
  t0 := 0
  started := true
  running := true
  kind := .step
  launched := false
  parts := []
  result := none
  allReady := true
  snapshotCarried := false
  nextPlan := 0
  halted := false
  faultClean := false
  first := 0
  reports := []
  carried := 0
  carriedFirst := 0
  carriedReports := []
  snapDest := none
  snapBit := false
  stopBit := false
  sharePending := false
  shareTick := 0
  lastHeld := 0
  produced := []
  respSent := []
  homes := []
  successor := none
  handSent := 0
  handOpen := 0
  handFailed := false
  handReceived := 0
  hazardDump := false
  captured := false
  diverge := 0
  resultsDue := none
  restore := none
  mid := 0
  released := []
  committed := false
  behind := false
  slotPlan := 0
  slotReplay := 0
  prev := none
  cleanCommit := false
  switchAt := none

/-- A step in which tile 0 runs, at tick 10 of its slot: the views 1 to 4 hold 2, 1, 4 and 4 FP32
elements, view 5 two of FP16, view 6 two of E4M3 with a list, view 7 lies in the tiered range. -/
def tileHw : Hw :=
  ({ hwWith [(tileBase 0, Fld.TILE_STATUS.running, 1), (arrBase 0 0, Fld.ARR_STATUS.enabled, 1)] with
      tense0 := 10, tense1 := 10, job := some job0 }).setTile 0
    { TileSt.empty with desc := [(1, view0 0 1 2), (2, view0 64 1 1), (3, view0 128 2 2), (4, view0 256 2 2),
        (5, { view0 512 1 2 with fmt := 4, attr := 4 }),
        (6, { view0 0 1 2 with fmt := 1, listed := true, list := BitVec.ofNat 48 (tileMemBase + 1024), attr := 0x4000201 }),
        (7, { view0 0 1 2 with base := 0 })] }

/-- 1.5 at element 0 and 2.0 at element 1 of view 1, 2.0 in view 2. -/
def tileS : State :=
  onHw0 (((tileHw.writeNat tileMemBase 4 0x3FC00000).writeNat (tileMemBase + 4) 4 0x40000000).writeNat (tileMemBase + 64) 4 0x40000000)

def arith0 : ArithArgs := ⟨1, 1, 1, 1, false, false, false, 2⟩
def gen0 : GenArgs := ⟨1, 1, 0, false, false, 2, 0, 0⟩
def mmul0 : MmulArgs := ⟨1, 1, 0, 2, 1, 1, 2, false, false, 0, false, 0, 0⟩
def time0 : ArrayTiming := ⟨[], .clean⟩
def hdr0 : MmpHeader := ⟨1, 1, false, false⟩

/-- An empty flit of class 2. -/
def flit0 : Flit := ⟨2, 0, 0, 0, 0, 0, 1, 0, 0, 0, 0, true, true, 0, 0⟩

/-! ### Well-formedness: one refused term for each check -/

def badUnit : Cmd := { cmd0 with unit := 1 }
def lateLaunch : Cmd := { cmd0 with launch := 101 }
def longFlit : Flit := { flit0 with len := 225 }

theorem test_wf_accepts : (Instr.nop 0 .vector cmd0).wellFormed = true ∧ (Instr.mmul 0 cmd0 mmul0 time0).wellFormed = true := by
  decide
theorem test_wf_unit : (Instr.add 0 badUnit arith0).wellFormed = false ∧ (Instr.nop 0 .access { cmd0 with unit := 4 }).wellFormed = false
    ∧ (Instr.opn 0 badUnit 0 0 false).wellFormed = false := by decide
theorem test_wf_deadline : (Instr.nop 0 .vector lateLaunch).wellFormed = false := by decide
theorem test_wf_mmul_extents :
    (Instr.mmul 0 cmd0 { mmul0 with m := 513 } time0).wellFormed = false ∧ (Instr.mmul 0 cmd0 { mmul0 with n := 65 } time0).wellFormed = false
    ∧ (Instr.mmul 0 cmd0 { mmul0 with wA := 257 } time0).wellFormed = false
    ∧ (Instr.escapeTableFill 0 cmd0 { mmul0 with wW := 257 }).wellFormed = false := by decide
theorem test_wf_send_count : (Instr.send 0 cmd0 0 0 []).wellFormed = false ∧ (Instr.send 0 cmd0 0 1025 []).wellFormed = false := by decide
theorem test_wf_width : (Instr.nonscheduledAccess .debug 0 3 .read none .clean).wellFormed = false
    ∧ (Instr.debugBusAccess 0 5 none .clean).wellFormed = false := by decide
theorem test_wf_debug_cleans : (Instr.nonscheduledAccess .debug 0 8 .clean none .clean).wellFormed = false
    ∧ (Instr.nonscheduledAccess (.fetch 0) 0 4 (.write 0) none .clean).wellFormed = false := by decide
theorem test_wf_flit : (Instr.write 0 longFlit [] .clean).wellFormed = false ∧ (Instr.mgmt 0 longFlit).wellFormed = false := by decide
theorem test_wf_hello_limit : (Instr.hello 0x20 0x21 8913 0).wellFormed = false := by decide
theorem test_wf_batches : (Instr.regRead hdr0 (List.replicate 129 0)).wellFormed = false
    ∧ (Instr.regWrite hdr0 (List.replicate 129 (0, 0))).wellFormed = false := by decide +kernel
theorem test_wf_payload : (Instr.memWrite hdr0 0 (List.replicate 8913 0)).wellFormed = false := by decide +kernel
theorem test_wf_results_count : (Instr.start hdr0 0 0 0 14).wellFormed = false := by decide
theorem test_wf_xof_input : (Instr.xofHash (List.replicate 513 0)).wellFormed = false ∧ (Instr.tag 0 (List.replicate 513 0)).wellFormed = false
    ∧ (Instr.random 513).wellFormed = false := by decide +kernel
theorem test_wf_sensors : (Instr.temperatureSample []).wellFormed = false := by decide

/-! ### The tile: 1.5 and 2.0 in view 1, 2.0 in view 2; results read back as FP32 words -/

/-- The state after a command of tile 0 and its completion. -/
def ran (e : Engine) (i : Instr) (s : State) : State := after (.commandCompletion 0 e 0) (after i s)
/-- The two words of view 1 after a command of the Vector Engine. -/
def pair (i : Instr) : Nat × Nat :=
  let h := (ran .vector i tileS).hw
  (h.readNat tileMemBase 4, h.readNat (tileMemBase + 4) 4)

def scal : ArithArgs := { arith0 with b := 2, bScalar := true }

theorem test_add : pair (.add 0 cmd0 arith0) = (0x40400000, 0x40800000) := by decide +kernel
theorem test_sub_scalar : pair (.sub 0 cmd0 scal) = (0xBF000000, 0) := by decide +kernel
theorem test_mul : pair (.mul 0 cmd0 arith0) = (0x40100000, 0x40800000) := by decide +kernel
theorem test_fma_rounds_once : pair (.fma 0 cmd0 arith0) = (0x40700000, 0x40C00000) := by decide +kernel
theorem test_max_scalar : pair (.max 0 cmd0 scal) = (0x40000000, 0x40000000) := by decide +kernel
theorem test_min_scalar : pair (.min 0 cmd0 scal) = (0x3FC00000, 0x40000000) := by decide +kernel
theorem test_neg : pair (.neg 0 cmd0 arith0) = (0xBFC00000, 0xC0000000) := by decide +kernel
theorem test_cmplt : pair (.cmplt 0 cmd0 scal) = (0x3F800000, 0) := by decide +kernel
theorem test_cmpeq : pair (.cmpeq 0 cmd0 scal) = (0, 0x3F800000) := by decide +kernel
theorem test_sel : pair (.sel 0 cmd0 scal) = (0x3FC00000, 0x40000000) := by decide +kernel
theorem test_div : pair (.div 0 cmd0 scal) = (0x3F400000, 0x3F800000) := by decide +kernel
theorem test_sqrt : (pair (.sqrt 0 cmd0 arith0)).2 = 0x3FB504F3 := by decide +kernel
theorem test_rsqrt : (pair (.rsqrt 0 cmd0 arith0)).2 = 0x3F3504F3 := by decide +kernel
theorem test_recip : pair (.recip 0 cmd0 arith0) = (0x3F2AAAAB, 0x3F000000) := by decide +kernel
theorem test_exp2 : pair (.exp2 0 cmd0 arith0) = (0x403504F3, 0x40800000) := by decide +kernel
theorem test_log2 : (pair (.log2 0 cmd0 arith0)).2 = 0x3F800000 := by decide +kernel
theorem test_rsum : ((ran .vector (.rsum 0 cmd0 { arith0 with dst := 2 }) tileS).hw.readNat (tileMemBase + 64) 4) = 0x40600000 := by
  decide +kernel
theorem test_rmax : ((ran .vector (.rmax 0 cmd0 { arith0 with dst := 2 }) tileS).hw.readNat (tileMemBase + 64) 4) = 0x40000000 := by
  decide +kernel
theorem test_convert_to_fp16 : ((ran .conversion (.convert 0 cmd0 1 5) tileS).hw.readNat (tileMemBase + 512) 4) = 0x40003E00 := by decide +kernel

/-- R86, Table 2.11: the generator's worked example. -/
theorem test_generator_vector : generate 0 1 5 3 = 0xBC791CD8EF827E61 := by decide +kernel

/-- 1.5 × 1.5 + 2 × 2 = 6.25. -/
theorem test_mmul : ((ran .execute (.mmul 0 cmd0 mmul0 time0) tileS).hw.readNat (tileMemBase + 64) 4) = 0x40C80000 := by decide +kernel

/-- R148: byte a mod 8 of the pattern at address a; view 1 lies on an 8-byte boundary. -/
theorem test_fill_pattern : pair (.fill 0 cmd0 1 0x8877665544332211) = (0x44332211, 0x88776655) := by decide +kernel

theorem test_nop_posts : (after (.nop 0 .vector { cmd0 with post := true, postCh := 15 }) tileS).hw.fld (tileBase 0) (tokenFld 15) = 1 := by
  decide +kernel
theorem test_before_launch_waits :
    (after (.add 0 { cmd0 with launch := 11 } arith0) tileS).hw.readNat tileMemBase 4 = 0x3FC00000 := by decide +kernel
theorem test_statistics_open_close :
    ((after (.opn 0 cmd0 3 7 true) tileS).hw.tile 0).hist.find? 3 = some ⟨7, true, Report.none⟩ := by decide +kernel

/-! ### Witnesses: states and operands that meet the hypotheses of the statements -/

/-! #### The machine and the tile -/

theorem witness_idle_tick : tileS.pending = [] ∧ onS.hw.clocked = true ∧ State.reset.hw.clocked = false
    ∧ (∀ c, (onS.hw.ctl c).held = [])
    ∧ (∀ d, (onS.hw.upe d).running = none) ∧ onS.hw.dbg.asked = false
    ∧ ∀ t, (∀ n, ((onS.hw.tile t).array n).left = 0) ∧ ∀ q, 12 ≤ q → (onS.hw.tile t).runs q = [] :=
  ⟨rfl, by decide +kernel, by decide, fun _ => rfl, fun _ => rfl, rfl, fun _ => ⟨fun _ => rfl, fun _ _ => rfl⟩⟩

theorem no_held {h : Hw} (e : h.tier.ctls = []) (c : Nat) : (h.ctl c).held = [] := by
  rw [Hw.ctl, e]; rfl

theorem none_running {h : Hw} (e : h.upes = []) (d : Nat) : (h.upe d).running = none := by
  rw [Hw.upe, e]; rfl

/-- Array 0 of tile 0 in occupancy, and a SEND whose one transfer is due. -/
def arrayS : State := after (.mmul 0 cmd0 mmul0 time0) tileS
def sendingS (due : Word) : State :=
  let x := tileS.hw.tile 0
  onHw0 (tileS.hw.setTile 0 (x.setRuns 14 [{ Running.start cmd0 3 10 false with sends := [⟨due, [(2, SumRec.none)], false⟩] }]))

theorem witness_tile_ticks : arrayS.pending = [] ∧ arrayS.hw.clocked = true ∧ arrayS.hw.tiles.map (fun e => e.1) = [0]
    ∧ (∀ c, (arrayS.hw.ctl c).held = []) ∧ (∀ d, (arrayS.hw.upe d).running = none) ∧ arrayS.hw.dbg.asked = false ∧ 0 < ((arrayS.hw.tile 0).array 0).left ∧ ((arrayS.hw.tile 0).array 7).left = 0
    ∧ (sendingS 10).hw.clocked = true ∧ (sendingS 10).hw.tiles.map (fun e => e.1) = [0]
    ∧ (((sendingS 10).hw.tile 0).runs 14).map (fun r => r.sends.map (fun x => decide (x.due ≤ (sendingS 10).hw.tense0))) = [[true]]
    ∧ (((sendingS 11).hw.tile 0).runs 14).map (fun r => r.sends.all (fun x => decide ((sendingS 11).hw.tense0 < x.due))) = [true] :=
  ⟨rfl, by decide +kernel, by decide +kernel, no_held (by decide +kernel), none_running (by decide +kernel), by decide +kernel,
    by decide +kernel, by decide +kernel, by decide +kernel, by decide +kernel, by decide +kernel, by decide +kernel⟩

/-- A command before its launch tick waits; one of the update phase or of a tile that does not run is not taken; an access waits
while the core clocks stop, and meets a bus error while a reset lasts. -/
theorem witness_waits :
    tileS.hw.canStart ⟨0, .vector, 0, 0, { cmd0 with launch := 11 }⟩ = false
    ∧ tileS.hw.tileRuns 0 = true ∧ tileS.hw.phaseAllows { cmd0 with launch := 11 } = true
    ∧ tileS.hw.phaseAllows { cmd0 with launch := 6000 } = false ∧ Hw.reset.tileRuns 0 = false
    ∧ (Instr.nop 0 .vector cmd0).launch = some ⟨0, .vector, 0, 0, cmd0⟩
    ∧ (Instr.alignArm).accesses State.reset = true ∧ State.reset.hw.clocked = false ∧ State.reset.hw.clk.coresStopped = false
    ∧ ({ Hw.reset with clk := { ClkSt.empty with coresStopped := true } }).clocked = false := by decide +kernel

/-- View 0 has no elements. -/
theorem witness_nop : tileS.hw.canStart ⟨0, .vector, 0, 0, cmd0⟩ = true ∧ (asFound tileS.hw 0 cmd0) = tileS.hw
    ∧ (tileS.hw.desc 0 0).count = 0 ∧ (tileS.hw.aeDesc 0 cmd0 0).count = 0
    ∧ [Instr.add 0 cmd0 { arith0 with dst := 0 }, .rsum 0 cmd0 { arith0 with a := 0 }, .draw 0 cmd0 { gen0 with dst := 0 },
        .expand 0 cmd0 0 1, .fill 0 cmd0 0 5, .copy 0 cmd0 0 1, .rwrite 0 cmd0 0 1 0, .rread 0 cmd0 0 1 0].all
      (fun i => i.launch.any tileS.hw.canStart) = true := ⟨by decide +kernel, rfl, by decide +kernel, by decide +kernel, by decide +kernel⟩

/-- Table 4.2, the commands of the worked example of section 4: COPY from descriptor 3 to 4 on channel 0, launch 40,000, deadline
40,400, posting to channel 2; and MMUL on array 2, launch 40,320, deadline 41,500, waiting on channel 2. -/
theorem test_decode_copy : decodeCommand 0 310
    (BitVec.ofNat 256 (0x1003 * 2 ^ 128 + 0x202010 * 2 ^ 64 + (40400 * 2 ^ 32 + 40000)))
    = some (.copy 0 ⟨40000, 40400, false, true, false, false, 0, 2, 0, 0, 310, []⟩ 3 4) := by decide +kernel
theorem test_decode_mmul : decodeCommand 0 87
    (BitVec.ofNat 256 ((32 * 2 ^ 57 + 32 * 2 ^ 50 + 64 * 2 ^ 40 + 9 * 2 ^ 30 + 8 * 2 ^ 10 + 7) * 2 ^ 128 + 0x2021011 * 2 ^ 64
      + (41500 * 2 ^ 32 + 40320)))
    = some (.mmul 0 ⟨40320, 41500, true, false, false, false, 2, 0, 2, 0, 87, []⟩ ⟨7, 8, 0, 9, 64, 32, 32, false, false, 0, false, 0, 0⟩
        ⟨[], .clean⟩) := by decide +kernel
/-- R138: bit 27 of word 1 is reserved, and the Access Engine has no opcode 7. -/
theorem test_decode_refuses : decodeCommand 0 0 (BitVec.ofNat 256 (0x8000010 * 2 ^ 64)) = none
    ∧ decodeCommand 0 0 (BitVec.ofNat 256 (0x70 * 2 ^ 64)) = none := by decide +kernel

theorem witness_words : (Instr.fill 0 cmd0 1023 (-1)).launch.isSome = true ∧ cmd0.found = []
    ∧ (Instr.acc 0 cmd0 1 3 0 .clean .clean).launch.isSome = true ∧ (Instr.send 0 cmd0 0 1 []).launch.isSome = true
    ∧ (decodeCommand 511 0xFFFFFFFF (BitVec.ofNat 256 0)).isSome = true := by decide +kernel

/-- Every row of Table 4.8 that works element by element starts on `tileS`. -/
theorem witness_vector_rows : (vectorRows 0 cmd0 scal).length = 18
    ∧ (vectorRows 0 cmd0 scal).all (fun r => r.1.launch.any tileS.hw.canStart) = true ∧ (tileS.hw.desc 0 scal.dst).count ≠ 0 := by
  decide +kernel

theorem witness_reductions_generator :
    ([Instr.rsum 0 cmd0 arith0, .rmax 0 cmd0 arith0, .draw 0 cmd0 gen0, .mask 0 cmd0 gen0, .rot 0 cmd0 gen0].all
      (fun i => i.launch.any tileS.hw.canStart)) = true
    ∧ (tileS.hw.desc 0 arith0.a).count ≠ 0 ∧ (tileS.hw.desc 0 gen0.dst).count ≠ 0 := by decide +kernel

theorem witness_convert_expand :
    ([Instr.convert 0 cmd0 1 5, .expand 0 cmd0 1 5].all (fun i => i.launch.any tileS.hw.canStart)) = true
    ∧ (tileS.hw.desc 0 1).count ≠ 0 := by decide +kernel

theorem witness_mmul : time0.store ≠ .uncorrectable ∧ tileS.hw.canStart ⟨0, .execute, 1, argsMmul mmul0, cmd0⟩ = true
    ∧ tileS.hw.canStart ⟨0, .execute, 1, argsMmul { mmul0 with hold := true }, cmd0⟩ = true
    ∧ tileS.hw.canStart ⟨0, .execute, 1, argsMmul { mmul0 with m := 0 }, cmd0⟩ = true ∧ mmul0.m.toNat ≠ 0 ∧ mmul0.n.toNat ≠ 0
    ∧ mmul0.hold = false := by decide +kernel

/-- View 6 is listed: its escape codes are resolved through a table. -/
theorem witness_escape_fill : tileS.hw.tileRuns 0 = true ∧ tileS.hw.phaseAllows cmd0 = true
    ∧ tileS.hw.flag (arrBase 0 0) Fld.ARR_STATUS.enabled = true ∧ tileS.hw.flag (arrBase 0 1) Fld.ARR_STATUS.enabled = false
    ∧ (tileS.hw.desc 0 6).listed = true := by decide +kernel

theorem witness_statistics :
    ([Instr.opn 0 cmd0 15 1023 true, .close 0 cmd0 15 true 2, .close 0 cmd0 15 false 2, .send 0 cmd0 1023 1 []].all
      (fun i => i.launch.any tileS.hw.canStart)) = true
    ∧ (tileS.hw.tile 0).hist.find? 15 = none
    ∧ ((after (.opn 0 cmd0 15 1023 true) tileS).hw.tile 0).hist.find? 15 = some ⟨1023, true, Report.none⟩
    ∧ ((Instr.close 0 cmd0 15 true 2).launch.any
        ((after (.commandCompletion 0 .statistics 0) (after (.opn 0 cmd0 15 1023 true) tileS)).hw.canStart)) = true := by
  decide +kernel

theorem witness_copy_rread :
    ([Instr.copy 0 cmd0 1 3, .rread 0 cmd0 1 1 0].all (fun i => i.launch.any tileS.hw.canStart)) = true
    ∧ (tileS.hw.aeDesc 0 cmd0 1).count ≠ 0 := by decide +kernel

/-- View 1 lies in tile memory, view 7 in the tiered range. -/
theorem witness_fill : ((Instr.fill 0 cmd0 1 5).launch.any tileS.hw.canStart) = true ∧ (tileS.hw.desc 0 1).count ≠ 0
    ∧ ((Instr.fill 0 cmd0 7 5).launch.any tileS.hw.canStart) = true ∧ (tileS.hw.desc 0 7).count ≠ 0
    ∧ fillReqs 5 (tileS.hw.desc 0 7) ≠ [] := by decide +kernel

theorem witness_acc : ((Instr.acc 0 cmd0 1 3 0 .clean .clean).launch.any tileS.hw.canStart) = true
    ∧ ((Instr.acc 0 cmd0 1 3 0 .uncorrectable .uncorrectable).launch.any tileS.hw.canStart) = true
    ∧ (tileS.hw.aeDesc 0 cmd0 1).count ≠ 0 := by decide +kernel

/-- Channel 0 of tile 0 has slot 100 of port 0 for its next flit; rank 0 is the module's own. -/
theorem witness_remote :
    ([Instr.rwrite 0 cmd0 1 1 0, .racc 0 cmd0 1 1 0 0, .racc 0 cmd0 1 0 0 0].all (fun i => i.launch.any tileS.hw.canStart)) = true
    ∧ (tileS.hw.aeDesc 0 cmd0 1).count ≠ 0 ∧ tileS.hw.job = some job0 ∧ tileS.hw.rank = 0
    ∧ (tileS.hw.channelSlots 0 0)[job0.produced.get 0 (0 * 4 + 0)]? = some (100, 0)
    ∧ ((tileS.hw.accFlits (tileS.hw.aeDesc 0 cmd0 1) 1 0 0)[0]?).isSome = true := by decide +kernel

/-- `tileS` with one request of a COPY of channel 0 in a given state, or none left. -/
def copying (r : SMap Req) : State :=
  onHw0 (tileS.hw.setTile 0 ((tileS.hw.tile 0).setRuns 0 [{ Running.start cmd0 1 0 false with reqs := r }]))

def reqOf (dst : Nat) (st : ReqState) : Req := ⟨BitVec.ofNat 48 tileMemBase, BitVec.ofNat 48 dst, 8, st⟩
def local0 (st : ReqState) : SMap Req := [(0, reqOf (tileMemBase + 128) st)]
/-- A source on the other die. -/
def farReq : Req := ⟨BitVec.ofNat 48 (sharedBase + 64 * 0x400000), BitVec.ofNat 48 tileMemBase, 8, .issued 9⟩

theorem witness_responses :
    (((copying []).hw.tile 0).runs (queueOf .access 0)).map (fun r => (r.reqs, r.sends)) = [([], [])]
    ∧ (((copying (local0 (.issued 9))).hw.tile 0).runs 0).map (fun x => (x.opcode, x.reqs.find? 0))
      = [(1, some (reqOf (tileMemBase + 128) (.issued 9)))]
    ∧ spaceOf tileMemBase ≠ .tiered ∧ spaceOf (tileMemBase + 128) ≠ .tiered
    ∧ bridgeLoses (tileS.hw.pointOf tileMemBase) (tilePoint 0) .uncorrectable = false
    ∧ (((copying [(0, farReq)]).hw.tile 0).runs 0).map (fun x => x.reqs.find? 0) = [some farReq]
    ∧ bridgeLoses (tileS.hw.pointOf farReq.src.toNat) (tilePoint 0) .uncorrectable = true ∧ spaceOf farReq.src.toNat = .shared
    ∧ (((copying (local0 .late)).hw.tile 0).runs 0).map (fun x => (x.wrote, (x.reqs.find? 0).map (fun r => r.st)))
      = [(false, some .late)]
    ∧ (((copying (local0 .failed)).hw.tile 0).runs 0).map (fun x => (x.reqs.find? 0).map (fun r => r.st))
      = [some .failed] := by decide +kernel

/-- At tick 101 a command with deadline 100 has missed it; at tick 100 it has not. -/
def lateS (tick : Word) : State := onHw0 { (copying []).hw with tense0 := tick, tense1 := tick }

theorem witness_deadline :
    ((lateS 101).hw.unfinished 0 0).find? (fun c => (lateS 101).hw.past c.2.1 &&
      !((lateS 101).hw.tile 0).missed.contains (0, c.1)) = some (7, 100, 0)
    ∧ ((lateS 100).hw.unfinished 0 0).find? (fun c => (lateS 100).hw.past c.2.1) = none ∧ (lateS 101).hw.job.isSome = true := by
  decide +kernel

/-- A query of epoch slot 3 whose region has epoch 0 at its home, in slice `k`. -/
def queried (epoch : Half) (k : Nat) : State :=
  onHw0 { tileS.hw.setTile 0 { tileS.hw.tile 0 with queries := [⟨3, 9, epoch, .access, 7⟩] } with
    job := some { job0 with homes := [(9, sliceBase k + 0x4000)] } }

theorem witness_epoch :
    (((queried 0 0).hw.tile 0).queries.find? (fun q => decide (q.eslot.toNat = 3))) = some ⟨3, 9, 0, .access, 7⟩
    ∧ (queried 0 0).hw.epochHome 9 = some (sliceBase 0 + 0x4000) ∧ (queried 0 0).hw.epochHome 8 = none
    ∧ (queried 0 0).hw.regionEpoch 9 = 0
    ∧ (((queried 1 0).hw.tile 0).queries.find? (fun q => decide (q.eslot.toNat = 3))) = some ⟨3, 9, 1, .access, 7⟩
    ∧ bridgeLoses (homePoint (sliceBase 64 + 0x4000)) (tilePoint 0) .uncorrectable = true
    ∧ bridgeLoses (homePoint (sliceBase 0 + 0x4000)) (tilePoint 0) .uncorrectable = false := by decide +kernel

theorem test_epoch_hazard : (after (.epochAnswer 0 3 .clean) (queried 1 0)).hw.fld (tileBase 0) Fld.TILE_FLAGS.hazard = 1
    ∧ (after (.epochAnswer 0 3 .clean) (queried 0 0)).hw.fld (tileBase 0) Fld.TILE_FLAGS.hazard = 0 := by decide +kernel
theorem test_epoch_discarded : (after (.epochAnswer 0 3 .uncorrectable) (queried 1 64)).hw.tier.bridgeUnc = 1
    ∧ (after (.epochAnswer 0 3 .uncorrectable) (queried 1 64)).hw.fld (tileBase 0) Fld.TILE_FLAGS.hazard = 0 := by decide +kernel
theorem test_deadline_miss : (after (.deadlineMiss 0 .access 0) (lateS 101)).hw.fld (tileBase 0) Fld.TILE_FLAGS.deadline = 1
    ∧ (after (.deadlineMiss 0 .access 0) (lateS 100)).hw.fld (tileBase 0) Fld.TILE_FLAGS.deadline = 0 := by decide +kernel
theorem test_copy_response : (after (.accessResponse 0 0 0 .clean .clean) (copying (local0 (.issued 9)))).hw.readNat (tileMemBase + 128) 8
    = 0x400000003FC00000 := by decide +kernel
theorem test_late_response : (after (.accessResponse 0 0 0 .clean .clean) (copying (local0 .late))).hw.fld (tileBase 0)
    Fld.AE_ERR_ADDR.status = 1 := by decide +kernel
/-- R116: feeder 1 lags for 16 ticks, and the array's skew reaches 16. -/
theorem test_wide_skew : ((List.range 16).foldl (fun s _ => s.tick) (after (.mmul 0 cmd0 mmul0 ⟨List.replicate 16 [1], .clean⟩) tileS)).hw.fld
    (arrBase 0 0) Fld.ARR_FLAGS.wide_stall = 1 := by decide +kernel

/-- The end of a slot with a Clean verdict. -/
def endJob : Job := { job0 with result := some .clean, launched := true, committed := true }
def endS : State := onHw0 { tileS.hw with tense0 := 8192, tense1 := 8192, job := some endJob }

theorem witness_slot_boundary : endS.hw.job = some endJob ∧ endS.hw.slotEnds endJob = true ∧ endS.hw.switchDue endJob = false
    ∧ endJob.halted = false ∧ endJob.img.tiles = [0] := by decide +kernel

/-! #### Memory tiers and accesses from outside -/

/-- Stack 0 in service; page 0 lies on it. Channel 0 (controller 12) in service; page 147,456 lies on it. -/
def tierHw : Hw := hwWith [(stackBase 0, Fld.STK_STATUS.state, 1), (lpdBase, chanFld 0, 1)]
def tierS : State := onHw0 tierHw
def t2Addr : Addr := BitVec.ofNat 48 (147456 * 0x200000)
/-- Every tag of bank 0 of stack 0 in use. -/
def fullS : State := onHw0 (tierHw.setCtl 0 { CtlSt.empty with tags := List.replicate 64 ⟨.migration 0, 0⟩ })
/-- Bank 0 of stack 0 in refresh; stack 1 lost. -/
def refreshS : State := onHw0 (tierHw.setCtl 0 { CtlSt.empty with refresh := [(tierHw.bankOf 0, 160)] })
def lostS : State := onHw0 (hwWith [(stackBase 0, Fld.STK_STATUS.state, 3)])
def aeRun (st : ReqState) : Running := { Running.start cmd0 1 0 false with reqs := [(0, ⟨0, BitVec.ofNat 48 tileMemBase, 8, st⟩)] }
def aeS (st : ReqState) : State := onHw0 (tierHw.setTile 0 (TileSt.empty.setRuns 0 [aeRun st]))
def heldQ : HeldReq := ⟨.management, 0, none, .clean, 5⟩
def heldS (tick : Word) : State :=
  onHw0 { tierHw.setCtl 0 { CtlSt.empty with held := [heldQ] } with tense0 := tick, tense1 := tick }

theorem witness_tiers_served : ServedNow tierS.hw .management 0 ∧ ServedNow tierS.hw (.migration 0) t2Addr.toNat
    ∧ tierS.hw.poisoned 0 = false ∧ outsideRequester .management = true := by
  refine ⟨⟨?_, ?_, ?_, ?_⟩, ⟨?_, ?_, ?_, ?_⟩, ?_, ?_⟩ <;> decide +kernel

theorem witness_tiers_access : ServedNow (aeS (.issued 9)).hw (.access 0 0 0) 0
    ∧ ((aeS (.issued 9)).hw.tile 0).runs 0 = [aeRun (.issued 9)]
    ∧ (aeS (.issued 9)).hw.aeRequest 0 0 0 0 = some (⟨0, BitVec.ofNat 48 tileMemBase, 8, .issued 9⟩, true)
    ∧ (aeS (.issued 9)).hw.poisoned 0 = false := by
  refine ⟨⟨?_, ?_, ?_, ?_⟩, ?_, ?_, ?_⟩ <;> decide +kernel

theorem witness_tiers_held : spaceOf 0 = .tiered ∧ fullS.hw.ctlState (fullS.hw.controllerOf 0) = 1
    ∧ fullS.hw.blocked (.migration 0) 0 = true ∧ refreshS.hw.blocked (.migration 0) 0 = false
    ∧ refreshS.hw.servable (.migration 0) 0 = false ∧ refreshS.hw.ctlState (refreshS.hw.controllerOf 0) = 1
    ∧ lostS.hw.ctlState (lostS.hw.controllerOf 0) = 3 ∧ spaceOf (tieredEnd - 1) = .tiered
    ∧ (requesterPoint (.access 256 0 0)).map (fun p => bridgeLoses p (tierS.hw.pointOf 0) .uncorrectable) = some true
    ∧ tierS.hw.controllerOf 0 < 12 ∧ 12 ≤ tierS.hw.controllerOf t2Addr.toNat := by decide +kernel

theorem witness_tiers_late :
    ((heldS 8197).hw.ctl ((heldS 8197).hw.controllerOf 0)).held.find? (fun q => decide (q.r = .management ∧ q.addr.toNat / 128 = 0)) = some heldQ
    ∧ heldQ.since.toNat + lateLimit 0 ≤ (heldS (BitVec.ofNat 64 (5 + lateLimit 0))).hw.now
    ∧ (tierS.hw.ctl 0).held.find? (fun q => decide (q.r = .management ∧ q.addr.toNat / 128 = 0)) = none
    ∧ (aeS (.issued 0)).hw.issuedAt 0 0 0 0 (.access 0 0 0) = some (⟨0, BitVec.ofNat 48 tileMemBase, 8, .issued 0⟩, 0)
    ∧ (0 : Word).toNat + lateLimit 0 ≤ ({ (aeS (.issued 0)).hw with tense0 := BitVec.ofNat 64 (lateLimit 0) }).now := by decide +kernel

theorem test_tiered_read : (after (.tieredRequest .management 0 none .clean .clean) (onHw0 (tierHw.writeNat 0 4 0xDDCCBBAA))).resp.data.take 4
    = [0xAA, 0xBB, 0xCC, 0xDD] := by decide +kernel
theorem test_bank_full_refused : (after (.tieredRequest (.migration 0) 0 none .clean .clean) fullS).hw.tier.refused
    = [⟨.migration 0, 0, none, .clean, 0⟩] := by decide +kernel
theorem test_late_t1 : (after (.requestLate .management 0) (heldS (BitVec.ofNat 64 (5 + lateLimit 0)))).hw.fld (stackBase 0) Fld.STK_FLAGS.late = 1
    ∧ (after (.requestLate .management 0) (heldS (BitVec.ofNat 64 (4 + lateLimit 0)))).hw.fld (stackBase 0) Fld.STK_FLAGS.late = 0 := by decide +kernel

def tickS (n : Word) : State := onHw0 { tierHw with tense0 := n, tense1 := n }
/-- A drift measured at tick 0 and a retraining that ends at 1,280, at the next multiple of 65,536. -/
def retrainS : State := onHw0 { tierHw.setCtl 12 { CtlSt.empty with drifted := [(2, 0)], retrain := [(3, 1280)] } with
  tense0 := 65536, tense1 := 65536, job := some job0 }

theorem witness_refresh : (tickS 1536).hw.now % 1536 = 48 * (0 : BitVec 5).toNat ∧ (tickS 1488).hw.now % 1536 = 48 * (31 : BitVec 5).toNat
    ∧ (tickS 1).hw.now % 1536 ≠ 48 * (0 : BitVec 5).toNat ∧ (tickS 1440).hw.now % 1536 = 96 * (15 : BitVec 4).toNat
    ∧ (tickS 1440).hw.ctlState 0 = 1 ∧ (tickS 1440).hw.ctlState 12 = 1 ∧ (tickS 1440).hw.ctlState 19 ≠ 1
    ∧ (tickS 1).hw.now % 1536 ≠ 96 * (0 : BitVec 4).toNat := by decide +kernel

theorem witness_retraining : retrainS.hw.now % 65536 = 0 ∧ retrainS.hw.ctlState (12 + (0 : Channel)) = 1
    ∧ (retrainS.hw.ctl (12 + (0 : Channel))).drifted.find? (2 : BitVec 2).toNat = some 0 ∧ (0 : Word).toNat < retrainS.hw.now
    ∧ (onHw0 { retrainS.hw with tense0 := 0 }).hw.now ≤ (0 : Word).toNat
    ∧ (retrainS.hw.ctl (12 + (0 : Channel))).retrain.find? (3 : BitVec 2).toNat = some 1280 ∧ (1280 : Word).toNat ≤ retrainS.hw.now
    ∧ retrainS.hw.job.isSome = true := by decide +kernel

theorem test_refresh_tick : ((after (.hbmRefresh 31) (tickS 1488)).hw.ctl 0).refresh.find? 31 = some 1648 := by decide +kernel
theorem test_lost_channel : (after (.retrainEnd 0 3 false) retrainS).hw.ctlState 12 = 3 := by decide +kernel

/-- Segment 0 of slice 0 is a scratchpad; segment 1 is cache. -/
def segS : State := onHw0 (hwWith [(sliceBase 0, Fld.SLC_SEG_CFG.cache, 2)])
def sharedAt (off : Nat) : Word := BitVec.ofNat 64 (sharedBase + off)
def amo (k : Hart) (op : Amo) (off : Nat) (double : Bool) (v : Word) : Instr := .atomicMemoryOperation k op (sharedAt off) double v none .clean

theorem witness_atomics : segS.hw.clocked = true ∧ segS.hw.atomicAllowed (sharedAt 0).toNat 8 = true
    ∧ segS.hw.atomicAllowed (sharedAt 4).toNat 4 = true
    ∧ segS.hw.atomicAllowed (sharedAt 4).toNat 8 = false ∧ segS.hw.atomicAllowed (sharedAt 0x40000).toNat 8 = false
    ∧ (after (amo 5 .lr 0 true 0) segS).hw.reserves 5 (sharedAt 0).toNat = true
    ∧ segS.hw.reserves 5 (sharedAt 0).toNat = false := by decide +kernel

theorem test_amo_add_wraps : (after (amo 0 .add 4 false 3)
    (onHw0 (segS.hw.writeNat (sharedBase + 4) 4 0xFFFFFFFE))).hw.readNat (sharedBase + 4) 4 = 1 := by decide +kernel
theorem test_sc_needs_reservation : (after (amo 0 .sc 0 true 9) segS).resp = Resp.ok 1
    ∧ (after (amo 0 .sc 0 true 9) (after (amo 0 .lr 0 true 0) segS)).hw.readNat
      sharedBase 8 = 9 := by decide +kernel

/-- Region 1 of a running job, constant, at the start of tile memory 0. -/
def closedS : State := onHw0 { tileHw with job := some { job0 with img := { img0 with regions := [⟨1, 0, 2, tileMemBase, 64⟩] } } }

/-- Page 5 in an exchange. -/
def busyS : State := onHw0 (tierHw.setBusyPage 5 true)

theorem witness_outside : onS.hw.clocked = true ∧ spaceOf tileMemBase = .tileMem ∧ sameSpace tileMemBase 8 = true
    ∧ spaceOf (tileMemEnd - 1) = .tileMem ∧ sameSpace (tileMemEnd - 8) 8 = true ∧ onS.hw.writeClosed tileMemBase 8 = false
    ∧ closedS.hw.clocked = true ∧ closedS.hw.writeClosed tileMemBase 8 = true ∧ closedS.hw.writeClosed (tileMemBase + 64) 8 = false
    ∧ spaceOf tileMemEnd = .outside ∧ canonical48 (2 ^ 47) = false ∧ canonical48 (2 ^ 64 - 2 ^ 47 - 1) = false
    ∧ hartOf .debug = none ∧ busyS.hw.heldUp (5 * 0x200000) 8 = true ∧ busyS.hw.heldUp (5 * 0x200000 - 8) 8 = false := by decide +kernel

/-- A user's access with every address granted by one entry, and with one that grants the lowest 4 KiB alone. -/
def userAll : Paging := ⟨0, none, false, false, [(0x1F, BitVec.allOnes 54)]⟩
def userLow : Paging := ⟨0, none, false, false, [(0x0F, 0x400)]⟩
theorem witness_protection : userLow.root = none ∧ userLow.mode ≠ 3 ∧ pmpAllows userLow.mode .load 0xFFC 8 0 userLow.pmp = false
    ∧ pmpAllows userLow.mode .store 0xFF8 8 0 userLow.pmp = true ∧ pmpAllows 3 .load 0x2000 8 0 userLow.pmp = true
    ∧ pmpAllows 1 .fetch 0x2000 4 0 [] = false ∧ pmpAllows userAll.mode .load (2 ^ 56 - 8) 8 0 userAll.pmp = true
    ∧ ({ userAll with root := some 0 } : Paging).root.isSome = true ∧ userAll.ok = true
    ∧ locate 0x0F0070470000 = some (Win.fliuf, 0, 0x470000) ∧ internalBlock 0x470000 = true ∧ internalBlock 0x49FFFF = true := by decide +kernel

theorem witness_physical : onS.physicalFor (.load 3) (some userLow) ∧ onS.physicalFor .debug none :=
  ⟨fun k hk => by cases hk; exact .inl rfl, fun _ hk => by cases hk⟩
theorem witness_bare : onS.bareFor (.load 3) ∧ onS.bareFor (.store 3) ∧ State.reset.bareFor .debug :=
  ⟨fun k hk => by cases hk; rfl, fun k hk => by cases hk; rfl, fun _ hk => by cases hk⟩
theorem test_outside_read : (after (.nonscheduledAccess .management (BitVec.ofNat 64 tileMemBase) 4 .read none .clean) tileS).resp.data
    = [0, 0, 0xC0, 0x3F] := by decide +kernel
theorem test_outside_hole : (after (.nonscheduledAccess .debug (BitVec.ofNat 64 tileMemEnd) 8 .read none .clean) tileS).resp = Resp.bus := by
  decide +kernel

/-- A line of the scratchpad held dirty. -/
def line0 : CoreLine := ⟨sharedBase / 64, true, List.replicate 64 7⟩
def cachedS : State := { segS with fliuf := { FliufSt.empty with lines := [line0] } }

theorem witness_core_caches : cachedS.hw.clocked = true ∧ cachedS.hw.coreCached (sharedAt 56).toNat = true
    ∧ cachedS.fliuf.coreLine? ((sharedAt 56).toNat / 64) = some line0 ∧ (8 : BitVec 4).toNat ≤ 64 - (sharedAt 56).toNat % 64
    ∧ bootMemory (sharedAt 56).toNat = false ∧ spaceOf (sharedAt 56).toNat = .shared ∧ line0.dirty = true ∧ line0.data.length = 64
    ∧ cachedS.hw.writeClosed (64 * ((sharedAt 56).toNat / 64)) 64 = false := by decide +kernel

theorem test_core_cache : (after (.nonscheduledAccess (.load 0) (sharedAt 0) 2 .read none .clean) cachedS).resp.data = [7, 7]
    ∧ (after (.nonscheduledAccess (.store 0) (sharedAt 0) 8 .clean none .clean) cachedS).hw.readNat sharedBase 1 = 7
    ∧ (after (.nonscheduledAccess (.store 0) (sharedAt 0) 8 .inval none .clean) cachedS).hw.readNat sharedBase 1 = 0 := by decide +kernel
theorem test_writeback_error : (after (.writebackError 0x1280) tileS).hw.fld sysBase Fld.SYS_WB_ADDR.addr = 0x1280 := by decide +kernel

def claimedS : State := onHw0 (hwWith [(sliceBase 0, Fld.SLC_STATUS.admitted, 1)])
def quotaJobS : State := onHw0 { hwWith [(lpdBase, Fld.TIER_QSEL.job, 1)] with job := some job0 }

theorem witness_segments : segS.hw.flag (sliceBase 0) Fld.SLC_STATUS.admitted = false
    ∧ claimedS.hw.flag (sliceBase (0 : Slice)) Fld.SLC_STATUS.admitted = true
    ∧ segS.hw.fld (sliceBase (0 : Slice)) Fld.SLC_SEG_CFG.cache / 2 ^ 15 % 2 ≠ (0x8000 : Half).toNat / 2 ^ 15 % 2
    ∧ quotaJobS.hw.admittedAs (quotaJobS.hw.fld lpdBase Fld.TIER_QSEL.job) = true
    ∧ onS.hw.admittedAs (onS.hw.fld lpdBase Fld.TIER_QSEL.job) = false := by decide +kernel

theorem test_segment_claimed : (after (.segmentConfigWrite 0 5) claimedS).resp = Resp.bus
    ∧ (after (.segmentConfigWrite 0 5) segS).hw.fld (sliceBase 0) Fld.SLC_SEG_CFG.cache = 5 := by decide +kernel
theorem test_quota_pending : (after (.quotaWrite 0x4000) quotaJobS).hw.tier.pendingQuota.find? 1 = some 0x4000 := by decide +kernel

/-! Page 5 in T1, page 147,456 in T2, both unowned or of job 1. -/

def p1 : Nat := 5
def q1 : Nat := 147456
def migWord : Word := BitVec.ofNat 64 (2 ^ 63 + q1 * 2 ^ 20 + p1)
def ownedHw : Hw :=
  let h := { tierHw with tense0 := 50000, tense1 := 50000, job := some { job0 with
    img := { img0 with migrations := [(0, [⟨100, 49380, p1, q1⟩])] } } }
  let own := fun (w : Word) => withBits (withBits w 22 22 1) 30 23 1
  ({ h with tier := { h.tier with counts := [(q1, 10)], windowStart := 50000 } }.setTierEntry p1 (own (tierReset p1))).setTierEntry q1 (own (tierReset q1))
def policyS : State := onHw0 (ownedHw.setFlds lpdBase [(Fld.MIG_POLICY.enable, 1), (Fld.MIG_POLICY.threshold, 10)])
def exchangeS (start : Word) : State :=
  onHw0 (((({ ownedHw with tier := { ownedHw.tier with lanes := [(0, ⟨p1, q1, start, .scheduled⟩)] } }).setBusyPage p1 true).setBusyPage q1 true))

/-- The same lanes with a policy exchange on the lane of page 147,456, begun at tick 49,990. -/
def policyRuns : Hw := { ownedHw with tier := { ownedHw.tier with lanes := [(0, ⟨7, q1 + 8, 49990, .policy⟩)] } }

theorem witness_migration_command : ownedHw.clocked = true ∧ bitOf migWord 63 = true ∧ bitOf (0 : Word) 63 = false
    ∧ ownedHw.firmwarePage (bitsOf migWord 18 0) = false ∧ ownedHw.firmwarePage (bitsOf migWord 38 20) = false
    ∧ ownedHw.migRefusal (bitsOf migWord 18 0) (bitsOf migWord 38 20) = 0
    ∧ (exchangeS 0).hw.clocked = true ∧ (exchangeS 0).hw.migRefusal (bitsOf migWord 18 0) (bitsOf migWord 38 20) = 1
    ∧ ({ ownedHw with tier := { ownedHw.tier with firmware := (p1, 1) } }).firmwarePage (bitsOf migWord 18 0) = true := by
  decide +kernel

theorem witness_migration_scheduled : ownedHw.migrations[(0 : Half).toNat]? = some ⟨100, 49380, p1, q1⟩
    ∧ ownedHw.job.map (fun j => (j.running, j.steps, j.halted, decide (100 < j.img.updLaunch))) = some (true, true, false, true)
    ∧ ownedHw.reached 100 = true ∧ ownedHw.tier.lanes.find? (ownedHw.laneOf q1) = none ∧ ownedHw.laneOf q1 = 0
    ∧ (policyRuns.tier.lanes.find? 0).map (fun x => x.kind) = some .policy := by decide +kernel

theorem witness_migration_policy : policyS.hw.rollWindow.policyPartner (tierJob (policyS.hw.rollWindow.tierEntry q1)) = some p1
    ∧ policyS.hw.flag lpdBase Fld.MIG_POLICY.enable = true ∧ policyS.hw.rollWindow.policyPage q1 = true
    ∧ tierIsT2 (policyS.hw.rollWindow.tierEntry q1) = true
    ∧ policyS.hw.fld lpdBase Fld.MIG_POLICY.threshold ≤ policyS.hw.rollWindow.tier.counts.get 0 q1
    ∧ policyS.hw.laneFree (policyS.hw.laneOf q1) = true ∧ policyS.hw.exchangeFits p1 q1 = true := by decide +kernel

theorem witness_migration_end : (exchangeS 720).hw.tier.lanes.find? (0 : Channel) = some ⟨p1, q1, 720, .scheduled⟩
    ∧ (720 : Word).toNat + 49280 ≤ (exchangeS 720).hw.now ∧ ¬ (721 : Word).toNat + 49280 ≤ (exchangeS 721).hw.now
    ∧ (exchangeS 720).hw.exchangeBad ⟨p1, q1, 720, .scheduled⟩ false = false
    ∧ (exchangeS 720).hw.exchangeBad ⟨p1, q1, 720, .scheduled⟩ true = true := by decide +kernel

/-- R198: a scheduled exchange takes the lane, and the policy exchange there waits with the 10 ticks it has run. -/
theorem test_scheduled_first : ((after (.exchangeStart 0) (onHw0 policyRuns)).hw.tier.lanes.find? 0).map (fun x => x.kind) = some .scheduled
    ∧ ((after (.exchangeStart 0) (onHw0 policyRuns)).hw.tier.paused.find? 0).map (fun x => x.start) = some 10 := by decide +kernel
theorem test_exchange_swaps : bitsOf ((after (.exchangeComplete 0 false) (exchangeS 720)).hw.tierEntry p1) 18 0 = 2 ^ 18
    ∧ bitsOf ((after (.exchangeComplete 0 true) (exchangeS 720)).hw.tierEntry p1) 18 0 = 5 := by decide +kernel
theorem test_migration_refused : (after (.migCmd migWord) (exchangeS 0)).hw.fld lpdBase Fld.MIG_STATUS.refused = 1 := by decide +kernel

/-! #### Reduction, updates and the step -/

/-- A dense slot of one block, FP32, contributor 0, and a watched sparse one, both with deadline 4000. -/
def slotE : SlotEntry := ⟨sharedBase, false, false, false, 1, 1, 32, 0, 4000, 0, [0], []⟩
def updE : UpdEntry := ⟨6000, 7000, 0, 0, false, false, 0, 0, 1, 1, 32, 0, 0, 0, 0, 0, 0, 0⟩
def img1 : Image := { img0 with staging := { StagingSec.none with slots := [slotE, { slotE with sparse := true, watched := true, base := sharedBase + 0x2000 }], updates := [updE] } }
def job1 : Job := { job0 with img := img1 }

/-- A contribution of rank 0 to slot 0: block 0, FP32, one block. -/
def accF : Flit := { flit0 with cls := 1, mtype := 0x04, job := 1, len := 128, msg := BitVec.ofNat 96 (2 ^ 52) }
def accS (f : Flit) : State := onHw0 { tileHw with job := some job1, localAcc := [(0, f)] }

theorem witness_own_contribution : Accepted (accS accF).hw job1 slotE accF ∧ (accS accF).hw.localAcc[(0 : Half).toNat]? = some (0, accF)
    ∧ (accS accF).hw.job = some job1 ∧ job1.img.staging.slots[(contribution accF).slot]? = some slotE ∧ slotE.sparse = false
    ∧ (accBlocksOf accF).map (fun b => b.1) = [0] ∧ slotE.indexOf accF.src.toNat = some 0
    ∧ (accS accF).hw.blockCheck slotE (contribution accF) 0 0 ((accBlocksOf accF).flatMap (fun b => b.2)) = 0
    ∧ ({ accF with job := 2 }).job.toNat ≠ job1.img.job
    ∧ bridgeLoses (tilePoint 0) (slicePoint (sliceOf slotE.base)) .uncorrectable = false
    ∧ bridgeLoses (tilePoint 256) (slicePoint (sliceOf slotE.base)) .uncorrectable = true := by
  refine ⟨⟨?_, ?_, ?_, ?_, ?_⟩, ?_, ?_, ?_, ?_, ?_, ?_, ?_, ?_, ?_, ?_⟩ <;> decide +kernel

/-- A second copy of a block that has been added: every block of the flit is discarded. -/
def takenHw : Hw := (accS accF).hw.putState slotE 0 1 true
theorem witness_all_discarded : job1.steps = true ∧ takenHw.past slotE.deadline = false ∧ slotE.indexOf accF.src.toNat = some 0
    ∧ (accBlocksOf accF).all (fun b => decide (takenHw.blockCheck slotE (contribution accF) 0 b.1 b.2 ≠ 0)) = true := by decide +kernel

theorem witness_no_epoch_register : job1.homes = [] ∧ ∀ r, (accS { accF with job := 2 }).hw.epochHome r ≠ some (sliceBase 0 + Fld.SLC_STG_ERR.cause.off) :=
  ⟨rfl, fun _ h => nomatch h⟩

/-- R150: the last flit of a message raises the epoch of the slot's region even where it is discarded. -/
theorem test_discarded_flit_raises_epoch :
    let j := { job1 with img := { img1 with regions := [⟨3, 1, 1, sharedBase, 0x1000⟩] }, homes := [(3, sliceBase 0 + 0x4000)] }
    ((onHw0 { tileHw with job := some j }).hw.deliverAcc 0 { accF with job := 2, last := true } false .clean).regionEpoch 3 = 1 := by
  decide +kernel

theorem test_contribution_rejected : (after (.localAccDelivery 0 .clean .clean) (accS { accF with job := 2 })).hw.fld (sliceBase 0)
    Fld.SLC_STG_ERR.cause = 1 := by decide +kernel
theorem test_contribution_added : (after (.localAccDelivery 0 .clean .clean)
    (accS { accF with data := 0x3FC00000 })).hw.readNat (slotE.accAt 0) 4 = 0x3FC00000 := by decide +kernel

/-- Slot 0 with its block summed: an infinity in its first lane. -/
def summedHw : Hw := (tileHw.putState slotE 0 1 true).writeNat (slotE.accAt 0) 4 0x7F800000

def deadS : State := onHw0 { tileHw with job := some job1, tense0 := 4000, tense1 := 4000 }

theorem witness_staging_deadline : deadS.hw.job = some job1 ∧ job1.img.staging.slots[(0 : BitVec 12).toNat]? = some slotE
    ∧ job1.running = true ∧ job1.steps = true ∧ job1.halted = false ∧ deadS.hw.reached slotE.deadline = true
    ∧ deadS.hw.incomplete 0 slotE = some (0, 0)
    ∧ summedHw.incomplete 0 slotE = none
    ∧ (job1.img.staging.slots[(1 : BitVec 12).toNat]?).map (fun e => e.watched) = some true := by decide +kernel

theorem witness_staging_watched : (summedHw.blankUntouched slotE).nonFiniteBlock 0 { slotE with watched := true } ≠ none := by decide +kernel

def updJob : Job := { job1 with result := some .clean, launched := true }
def updS (tick : Word) : State := onHw0 { tileHw with job := some updJob, tense0 := tick, tense1 := tick }

theorem witness_updates : (updS 6000).hw.job = some updJob ∧ updJob.img.staging.updates[(0 : BitVec 12).toNat]? = some updE
    ∧ updJob.updates = true ∧ (updS 6000).hw.reached updE.launch = true ∧ ((updS 6000).hw.upe 0).running = none
    ∧ updJob.nextEntry ((updS 6000).hw.upe 0) 0 updE = true
    ∧ (((updS 6000).hw.setUpe 0 { UpeSt.empty with running := some 0 }).upe (0 : Stack)).running = some 0
    ∧ missedEntry (updS 7001).hw updJob (0 : Stack) = some 0 ∧ missedEntry (updS 7000).hw updJob (0 : Stack) = none := by
  decide +kernel

/-! Causes, the Full Stop, verdict and commit -/

def sigS (x : Signal) (j : Job) (tick : Word) : State :=
  onHw0 { tileHw with job := some j, tense0 := tick, tense1 := tick, infl := { InflSt.empty with signals := [x] } }
def cause13 : Signal := ⟨false, 13, 7, none⟩

theorem witness_causes : (sigS cause13 job0 4999).hw.infl.signals[(0 : Half).toNat]? = some cause13 ∧ cause13.halt = false
    ∧ cause13.code < 16 ∧ (sigS cause13 { job0 with running := false } 10).hw.job.map (fun j => j.running) = some false
    ∧ ({ job0 with kind := .idle } : Job).steps = false ∧ job0.steps = true ∧ job0.launched = false
    ∧ (sigS cause13 job0 5000).hw.past job0.img.fsLaunch = false ∧ (sigS cause13 job0 5001).hw.past job0.img.fsLaunch = true
    ∧ (sigS cause13 job0 5001).hw.past job0.img.commit = false ∧ (sigS cause13 job0 7901).hw.past job0.img.commit = true
    ∧ job0.result ≠ some .halt ∧ (⟨true, 9, 7, none⟩ : Signal).halt = true ∧ State.reset.hw.infl.signals[(0 : Half).toNat]? = none := by
  decide +kernel

/-- A halt cause of 12. -/
theorem witness_halt_cause : (⟨true, 12, 7, none⟩ : Signal).code < 256 := by decide

theorem test_cause_enters : (after (.uncleanCauseSignal 0) (sigS cause13 job0 10)).hw.fld inflBase Fld.INFL_LOCAL.causes = 0x2000 := by
  decide +kernel
theorem test_cause_after_launch_halts : (after (.uncleanCauseSignal 0) (sigS cause13 job0 5001)).hw.fld inflBase Fld.INFL_RUN_STATE.phase = 5
    := by decide +kernel

def stopS (j : Job) (tick : Word) : State := onHw0 { tileHw with job := some j, tense0 := tick, tense1 := tick }
def partF (k : Nat) : Flit := { flit0 with cls := 1, mtype := 0x11, job := 1, msg := BitVec.ofNat 96 (k * 2 ^ 64) }
def upPort (s : State) (p : Nat) : State :=
  onHw0 (s.hw.setFlds (portBase p) [(Fld.PORT_STATUS.state, 4), (Fld.PORT_VER.link, 0x21)])
def launchedJob : Job := { job0 with launched := true }

theorem witness_full_stop : (stopS job0 5000).hw.job = some job0 ∧ job0.running = true ∧ job0.launched = false
    ∧ (stopS job0 5000).hw.reached job0.img.fsLaunch = true ∧ job0.reports = []
    ∧ Deliverable (upPort (stopS launchedJob 5100) 0).hw 0 (partF 1) ∧ (partF 1).mtype = 0x11
    ∧ msgBits (partF 1) 63 0 = (upPort (stopS launchedJob 5100) 0).hw.slotStep launchedJob % 2 ^ 64
    ∧ msgBits (partF 1) 79 64 < launchedJob.img.fsParts := by
  refine ⟨?_, ?_, ?_, ?_, ?_, ⟨?_, ?_, ?_, ?_⟩, ?_, ?_, ?_⟩ <;> decide +kernel

/-- Every port has two tree slots after fs_launch. -/
def treeJob : Job :=
  { job0 with img := { img0 with calendars := (List.range 24).map (fun p => (0, p, [⟨5000, 2, 0, 0, false, true⟩])) } }

theorem witness_full_stop_slots : ((List.range 24).all (fun p => decide (treeJob.img.fsParts ≤ ((stopS treeJob 5000).hw.stopSlots treeJob p).length))
    && (List.range treeJob.img.fsParts).all (fun i => decide ((stopS treeJob 5000).hw.partPlane treeJob i < 24))) = true := by decide +kernel

theorem test_part_kept : ((after (.fsDown 0 (partF 1)) (upPort (stopS launchedJob 5100) 0)).hw.job.map (fun j => (j.parts.find? 1).isSome))
    = some true := by decide +kernel

/-- Every part of the Full Stop held: each zero. -/
def wholeJob : Job := { launchedJob with parts := [(0, 0), (1, 0)] }

theorem witness_verdict : wholeJob.running = true ∧ wholeJob.launched = true ∧ wholeJob.result = none ∧ wholeJob.holdsAll = true
    ∧ (((stopS wholeJob 5500).hw.verdictIn wholeJob).rule.code = .clean)
    ∧ launchedJob.holdsAll = false ∧ (stopS launchedJob 6000).hw.reached launchedJob.img.updLaunch = true := by decide +kernel

/-- The ruling on a Full Stop with a halt cause and causes, where one replay and one skip are allowed. -/
def ruling (halt causes : Nat) : Verdict :=
  let j := { launchedJob with parts := [(0, BitVec.ofNat 1792 (halt * 2 ^ 64 + causes * 2 ^ 256)), (1, 0)] }
  let s := stopS j 5500
  ({ s.hw.setFld inflBase Fld.INFL_RUN_STATE.replay_limit 1 with infl := { InflSt.empty with skipLimit := 2 } }.verdictIn j).rule.code

/-- A timing cause replays, a numeric one under the right plan skips, a halt cause halts. -/
theorem witness_verdict_codes : [ruling 0 0, ruling 0 8192, ruling 0 4, ruling 9 0] = [.clean, .unclean, .skip, .halt] := by decide +kernel

theorem test_tree_timeout : (after .treeTimeout (stopS launchedJob 6000)).hw.fld inflBase Fld.INFL_CAUSE.halt = 8 := by decide +kernel

def commitJob (v : Verdict) : Job := { launchedJob with result := some v }

theorem witness_commit : ([Verdict.clean, .skip, .unclean].all (fun v => (commitJob v).running && (commitJob v).steps
      && !(commitJob v).halted && !(commitJob v).committed && (stopS (commitJob v) 7900).hw.reached (commitJob v).img.commit)) = true
    ∧ (stopS (commitJob .clean) 7900).hw.infl.working.gen = (stopS (commitJob .clean) 7900).hw.infl.committed.gen
    ∧ ({ InflSt.empty with working := { TableSt.empty with gen := 1 } } : InflSt).working.gen ≠ InflSt.empty.committed.gen := by
  decide +kernel

theorem test_commit_counts : (after .commit (stopS (commitJob .clean) 7900)).hw.fld inflBase Fld.INFL_COMMIT_STEP.step = 1
    ∧ (after .commit (stopS (commitJob .clean) 7899)).hw.fld inflBase Fld.INFL_COMMIT_STEP.step = 0 := by decide +kernel

def shareJob : Job := { job0 with sharePending := true, snapDest := some 0 }
def resultJob : Job := { job0 with resultsDue := some 2 }
def restoreJob : Job := { job0 with restore := some 0, running := false }

theorem witness_shares_results : (stopS shareJob 10).hw.job = some shareJob ∧ shareJob.sharePending = true ∧ shareJob.snapDest = some 0
    ∧ resultJob.resultsDue = some 2 ∧ restoreJob.restore = some 0 ∧ restoreJob.started = true ∧ restoreJob.running = false
    ∧ (stopS restoreJob 10).hw.shareRight restoreJob ((stopS restoreJob 10).hw.read 0 ((stopS restoreJob 10).hw.readNat 8 8)) = false := by
  decide +kernel

theorem test_wrong_share_refused : (after .restoreShare (stopS restoreJob 10)).hw.fld sysBase Fld.SYS_JSW.code = 3 := by decide +kernel

def startJob : Job := { job0 with running := false, t0 := 128 }
def switchImg : Image := { img0 with gen := 1, staging := { StagingSec.none with switchStep := 3 } }
def switchJob : Job := { job0 with result := some .clean, committed := true, launched := true, successor := some switchImg }
def switchS : State :=
  onHw0 ((stopS switchJob 8192).hw.setFld inflBase Fld.INFL_COMMIT_STEP.step 3)

theorem witness_start_switch : startJob.started = true ∧ startJob.running = false ∧ startJob.result ≠ some .halt
    ∧ startJob.t0.toNat ≤ (stopS startJob 128).hw.now ∧ startJob.restore = none
    ∧ ({ startJob with restore := some 0 } : Job).restore = some 0 ∧ switchS.hw.switches = some (switchJob, switchImg) := by
  decide +kernel

theorem test_job_start_at_t0 : (after .jobStart (stopS startJob 127)).hw.job.map (fun j => j.running) = some false
    ∧ (after .jobStart (stopS startJob 128)).hw.job.map (fun j => j.running) = some true := by decide +kernel

/-- An empty staging space is refused: its header is none. -/
def admitS : State := onHw0 (hwWith [(sysBase, Fld.SYS_JSW.state, 1)])
def releaseS : State := onHw0 { hwWith [(sysBase, Fld.SYS_JSW.state, 8)] with job := some job0 }

theorem witness_admission_refused : admitS.mgmt.successorOp = false ∧ admitS.hw.jswState = 1
    ∧ checkFormat admitS.mgmt.staged ≠ none ∧ (checkFormat admitS.mgmt.staged).map (fun f => f.code) = some 1 := by decide +kernel

theorem witness_release : releaseS.hw.jswState = 8 ∧ releaseS.hw.job = some job0 := by decide +kernel
theorem test_release_ends : (after .releaseComplete releaseS).hw.jswState = 0 := by decide +kernel

/-! #### The ports and the clocks -/

/-- Port 0 up at version 2.1, with a job and a tile that runs. -/
def linkS : State := upPort (onHw0 tileHw) 0
/-- The next flit of class 2 has number 0. -/
def f2 (mtype : BitVec 6) : Flit := { flit0 with mtype := mtype, lseq := 0, job := 1 }
def f1 (mtype : BitVec 6) : Flit := { flit0 with cls := 1, mtype := mtype, job := 1 }
def f3 (mtype : BitVec 6) : Flit := { flit0 with cls := 3, mtype := mtype }

theorem witness_dropped : State.reset.hw.linkUp (0 : Port) = false ∧ State.reset.hw.portState (0 : Port) ≠ 3 ∧ linkS.hw.linkUp (0 : Port) = true
    ∧ typeOk (f1 0x3F) (linkS.hw.fld (portBase 0) Fld.PORT_VER.link) = false
    ∧ typeOk (f1 0x01) (linkS.hw.fld (portBase 0) Fld.PORT_VER.link) = true ∧ linkS.hw.forUs { f1 0x01 with dst := 1 } = false
    ∧ (f2 0x01).lseq = (linkS.hw.port (0 : Port)).lastRx + 1 ∧ ({ f2 0x01 with lseq := 1 }).lseq ≠ (linkS.hw.port (0 : Port)).lastRx + 1
    ∧ (({ f2 0x01 with lseq := 1 }).lseq - ((linkS.hw.port 0).lastRx + 1)).toNat < 0x8000
    ∧ (({ f2 0x01 with lseq := 0x7FFF }).lseq - ((linkS.hw.port 0).lastRx + 1)).toNat < 0x8000
    ∧ ¬ (({ f2 0x01 with lseq := 0x8000 }).lseq - ((linkS.hw.port 0).lastRx + 1)).toNat < 0x8000
    ∧ (linkS.hw.port 0).retryAsked = false := by decide +kernel

theorem test_bad_type : (after (.write 0 (f1 0x3F) [] .clean) linkS).hw.fld (portBase 0) Fld.PORT_FLAGS.bad_type = 1 := by decide +kernel
theorem test_out_of_order_asks : ((after (.write 0 { f2 0x01 with lseq := 1 } [] .clean) linkS).hw.port 0).c3.map (fun g => (g.mtype, g.msg))
    = [(0x23, 0)] := by decide +kernel

/-- What `Deliverable` asks of the flits below, on `linkS`. -/
theorem deliverable_linkS {f : Flit} (h : (typeOk f 0x21 && (decide (f.cls ≠ 1) || linkS.hw.forUs f) && (decide (f.cls ≠ 2) || decide (f.lseq = 0))) = true) :
    Deliverable linkS.hw 0 f := by
  simp only [Bool.and_eq_true, Bool.or_eq_true, decide_eq_true_eq] at h
  exact ⟨by decide +kernel, h.1.1, fun c => h.1.2.resolve_left (fun n => n c), fun c => (h.2.resolve_left (fun n => n c)).trans (by decide +kernel)⟩

theorem witness_delivered : Deliverable linkS.hw 0 { flit0 with cls := 0 } ∧ Deliverable linkS.hw 0 (f1 0x13)
    ∧ ({ flit0 with cls := 0 } : Flit).mtype.toNat = 0 ∧ (f1 0x13).mtype.toNat = 0x13 :=
  ⟨deliverable_linkS (by decide +kernel), deliverable_linkS (by decide +kernel), by decide, by decide⟩

theorem test_credits_return : (after (.idle 0 { flit0 with cls := 0, cred := 3 }) linkS).hw.fld (portBase 0) Fld.PORT_LINK.credits = 3 := by
  decide +kernel

/-- Slot 10 begins in tick 10 (bit 22,680 of the interval, at 2,125 bits a tick). -/
def sendHw (x : PortSt) : Hw := { linkS.hw.setPort 0 x with tense0 := 10, tense1 := 10 }
def sendS (x : PortSt) : State := onHw0 (sendHw x)
def tx (slot : Nat) : TxFlit := ⟨slot, 0, f1 0x01⟩
def creditS (x : PortSt) : State := onHw0 ((sendHw x).setFld (portBase 0) Fld.PORT_LINK.credits 1)
def haltedTx (c1 : List TxFlit) : State := onHw0 { sendHw { PortSt.empty with c1 := c1 } with job := some { job0 with halted := true } }
def treeTx : TxFlit := ⟨10, 0, f1 0x10⟩

theorem witness_flit_slots : (sendS PortSt.empty).hw.fld clkBase Fld.TNS_ALIGN.state ≠ 3
    ∧ (sendS PortSt.empty).hw.freeSlot 0 = some 10 ∧ (sendS { PortSt.empty with slotUsed := some 10 }).hw.freeSlot 0 = none
    ∧ State.reset.hw.linkUp 0 = false ∧ State.reset.hw.portState 0 ≠ 3 ∧ (sendS PortSt.empty).hw.job.isSome = true
    ∧ (haltedTx []).hw.onlyTree = true ∧ (haltedTx []).hw.linkUp 0 = true ∧ (haltedTx []).hw.dueC1 0 10 = none
    ∧ (haltedTx [treeTx]).hw.dueC1 0 10 = some treeTx ∧ isTree treeTx.flit = true
    ∧ (sendS PortSt.empty).hw.onlyTree = false ∧ (sendS { PortSt.empty with c1 := [tx 10] }).hw.dueC1 0 10 = some (tx 10)
    ∧ (sendS { PortSt.empty with c3 := [f3 0x23] }).hw.dueC1 0 10 = none ∧ (sendS { PortSt.empty with c1 := [tx 9] }).hw.dueC1 0 10 = none
    ∧ (sendS { PortSt.empty with c1 := [tx 9] }).hw.lateC1 0 10 = some (tx 9) ∧ (sendS PortSt.empty).hw.dueC1 0 10 = none
    ∧ (sendS PortSt.empty).hw.lateC1 0 10 = none ∧ (sendS PortSt.empty).hw.fld (portBase 0) Fld.PORT_LINK.credits = 0
    ∧ (creditS { PortSt.empty with c2 := [f2 0x01] }).hw.fld (portBase 0) Fld.PORT_LINK.credits ≠ 0
    ∧ ((creditS { PortSt.empty with c2 := [f2 0x01] }).hw.port 0) = { PortSt.empty with c2 := [f2 0x01] }
    ∧ ((creditS { PortSt.empty with resending := [f2 0x01] }).hw.port 0).resending = [f2 0x01] := by decide +kernel

theorem witness_training_sends : ((sendS { PortSt.empty with c3 := [f3 0x20] }).hw.setFld (portBase 0) Fld.PORT_STATUS.state 3).portState 0 = 3
    ∧ ((sendS { PortSt.empty with c3 := [f3 0x20] }).hw.setFld (portBase 0) Fld.PORT_STATUS.state 3).freeSlot 0 = some 10 := by decide +kernel

theorem test_class2_takes_credit : (after (.flitSlotTransmit 0) (creditS { PortSt.empty with c2 := [f2 0x01] })).hw.fld (portBase 0) Fld.PORT_LINK.credits = 0
    ∧ ((after (.flitSlotTransmit 0) (creditS { PortSt.empty with c2 := [f2 0x01] })).hw.port 0).nextSeq = 1 := by decide +kernel
theorem test_late_flit : (after (.flitSlotTransmit 0) (sendS { PortSt.empty with c1 := [tx 9] })).hw.fld (portBase 0)
    Fld.PORT_FLAGS.sched_late = 1 := by decide +kernel

/-- A WRITE of 8 bytes, last of its message, to an address. -/
def writeTo (cls : BitVec 2) (a : Nat) : Flit :=
  { flit0 with cls := cls, mtype := 0x01, job := 1, lseq := 0, len := 8, msg := BitVec.ofNat 96 a, data := 0x8877665544332211 }
def readAt (cls : BitVec 2) (a n : Nat) : Flit :=
  { flit0 with cls := cls, mtype := 0x02, job := 1, lseq := 0, msg := BitVec.ofNat 96 (a + n * 2 ^ 64) }

theorem witness_remote_write : Deliverable linkS.hw 0 (writeTo 2 tileMemBase) ∧ Deliverable linkS.hw 0 (writeTo 1 tileMemBase)
    ∧ Deliverable linkS.hw 0 { writeTo 2 tileMemBase with last := false } ∧ Deliverable linkS.hw 0 (writeTo 2 tileMemEnd)
    ∧ linkS.hw.remoteReach tileMemBase 8 = true ∧ linkS.hw.remoteClosed tileMemBase 8 = false
    ∧ linkS.hw.remoteReach tileMemEnd 8 = false ∧ linkS.hw.remoteReach (tileMemEnd - 8) 8 = true
    ∧ linkS.hw.remoteReach (tileMemEnd - 7) 8 = false ∧ (linkS.hw.port 0).failing = []
    ∧ bridgeLoses (portPoint 0) (linkS.hw.pointOf tileMemBase) .uncorrectable = false
    ∧ bridgeLoses (portPoint 12) (linkS.hw.pointOf tileMemBase) .uncorrectable = true :=
  ⟨deliverable_linkS (by decide +kernel), deliverable_linkS (by decide +kernel), deliverable_linkS (by decide +kernel),
    deliverable_linkS (by decide +kernel), by decide +kernel⟩

theorem witness_remote_read : Deliverable linkS.hw 0 (readAt 2 tileMemBase 225) ∧ Deliverable linkS.hw 0 (readAt 1 tileMemBase 8)
    ∧ Deliverable linkS.hw 0 (readAt 2 tileMemEnd 8) ∧ linkS.hw.remoteReach tileMemBase 225 = true ∧ ceilDiv 225 224 = 2
    ∧ linkS.hw.job = some job0 ∧ (linkS.hw.windowSlots 0 0)[job0.respSent.get 0 (0 * 256 + 0) + 0]? = some 200 :=
  ⟨deliverable_linkS (by decide +kernel), deliverable_linkS (by decide +kernel), deliverable_linkS (by decide +kernel), by decide +kernel⟩

theorem test_remote_write : (after (.write 0 (writeTo 2 tileMemBase) [] .clean) linkS).hw.readNat tileMemBase 8 = 0x8877665544332211
    ∧ ((after (.write 0 (writeTo 2 tileMemBase) [] .clean) linkS).hw.port 0).c2.map (fun g => g.mtype) = [0x05] := by decide +kernel
theorem test_remote_hole_rejected : (after (.write 0 (writeTo 2 tileMemEnd) [] .clean) linkS).hw.fld (portBase 0) Fld.PORT_FLAGS.rejected = 1 := by
  decide +kernel

/-- A receive ring of 2 entries in tile memory, empty or full. -/
def ringS (head : Nat) : State :=
  onHw0 (linkS.hw.setFlds (portBase 0) [(Fld.PORT_UR_BASE.base, tileMemBase), (Fld.PORT_UR_BASE.size, 1), (Fld.PORT_UR_PTR.head, head)])

theorem witness_rings : (ringS 0).hw.ringFull 0 = false ∧ (ringS 1).hw.ringFull 0 = true ∧ ((ringS 0).hw.port 0).rxHeld = []
    ∧ (linkS.hw.now ≤ msgBits { f2 0x16 with msg := 10 } 63 0)
    ∧ Deliverable linkS.hw 0 (f2 0x03) ∧ Deliverable linkS.hw 0 (f2 0x05) ∧ Deliverable linkS.hw 0 (f2 0x30)
    ∧ Deliverable linkS.hw 0 { f2 0x16 with msg := 10 } :=
  ⟨by decide +kernel, by decide +kernel, by decide +kernel, by decide +kernel, deliverable_linkS (by decide +kernel),
    deliverable_linkS (by decide +kernel), deliverable_linkS (by decide +kernel), deliverable_linkS (by decide +kernel)⟩

def ringHeldS : State := onHw0 ((ringS 1).hw.setPort 0 { PortSt.empty with rxHeld := [f2 0x30] })
theorem witness_ring_head : (ringHeldS.hw.port 0).rxHeld = [f2 0x30]
    ∧ (ringHeldS.hw.fld (portBase 0) Fld.PORT_UR_PTR.tail + 1) % 2 ^ ringHeldS.hw.fld (portBase 0) Fld.PORT_UR_BASE.size
      ≠ (0 : Half).toNat % 2 ^ ringHeldS.hw.fld (portBase 0) Fld.PORT_UR_BASE.size := by decide +kernel

theorem test_full_ring_holds : ((after (.mgmt 0 (f2 0x30)) (ringS 1)).hw.port 0).rxHeld = [f2 0x30] := by decide +kernel

/-- An RREAD of message 3 that waits for 8 bytes. -/
def rreadHw : Hw :=
  linkS.hw.setTile 0 ((tileHw.tile 0).setRuns 0
    [{ Running.start cmd0 5 0 false with reqs := [(0, ⟨0, BitVec.ofNat 48 tileMemBase, 8, .issued 9⟩)], region := 3 }])
def rspF (status : Nat) : Flit :=
  { f1 0x03 with len := 8, msg := BitVec.ofNat 96 (3 * 2 ^ 48 + status * 2 ^ 80), data := 0x8877665544332211 }

theorem witness_read_response : Deliverable rreadHw 0 (rspF 0) ∧ Deliverable rreadHw 0 (rspF 3)
    ∧ (rreadHw.rreadOf (msgBits (rspF 0) 63 48)).map (fun x => (x.1, x.2.1, (x.2.2.answered (rspF 0)).length)) = some (0, 0, 1)
    ∧ msgBits (rspF 0) 83 80 = 0 ∧ msgBits (rspF 3) 83 80 ≠ 0 ∧ spaceOf (BitVec.ofNat 48 tileMemBase).toNat ≠ .tiered
    ∧ bridgeLoses (portPoint 0) (tilePoint 0) .uncorrectable = false ∧ bridgeLoses (portPoint 0) (tilePoint 256) .uncorrectable = true := by
  refine ⟨⟨?_, ?_, ?_, ?_⟩, ⟨?_, ?_, ?_, ?_⟩, ?_, ?_, ?_, ?_, ?_, ?_⟩ <;> decide +kernel

theorem test_read_response : (after (.readRsp 0 (rspF 0) .clean) (onHw0 rreadHw)).hw.readNat tileMemBase 8 = 0x8877665544332211 := by decide +kernel

def accLink : Hw := { linkS.hw with job := some job1 }
def accLink20 : Hw := accLink.setFld (portBase 0) Fld.PORT_VER.domain 0x20

theorem witness_received_contribution : Deliverable accLink 0 accF ∧ accLink.job = some job1
    ∧ job1.img.staging.slots[(contribution accF).slot]? = some slotE ∧ Accepted accLink job1 slotE accF ∧ accF.mtype = 0x04
    ∧ Deliverable accLink 0 { accF with cls := 2, lseq := 0 }
    ∧ Deliverable accLink20 0 { accF with gen := 1, last := false } ∧ 0x20 ≤ accLink20.domainVer
    ∧ ({ accF with gen := 1 }).gen.toNat ≠ accLink20.fld inflBase Fld.INFL_COMMIT_STATE.layout_gen := by
  refine ⟨⟨?_, ?_, ?_, ?_⟩, ?_, ?_, ⟨?_, ?_, ?_, ?_, ?_⟩, ?_, ⟨?_, ?_, ?_, ?_⟩, ⟨?_, ?_, ?_, ?_⟩, ?_, ?_⟩ <;> decide +kernel

/-- One flit unacknowledged, sent once at tick 5, or eight times. -/
def replayS (sends : Nat) (tick : Word) : State :=
  onHw0 { linkS.hw.setPort 0 { PortSt.empty with replay := [⟨f2 0x01, sends, 5⟩] } with tense0 := tick, tense1 := tick }
def tallyS (n : Nat) : State :=
  let h := linkS.hw.setPort 0 { PortSt.empty with counts := [(0, n)] }
  onHw0 { h with tense0 := 2176, tense1 := 2176, job := some { job0 with img := { img0 with tallies := [(0, 0, [2])] } } }

theorem witness_recovery : (((replayS 1 10).hw.port 0).replay.findIdx? (fun u => decide (u.flit.lseq = BitVec.ofNat 16 (msgBits (f3 0x23) 15 0)))) = some 0
    ∧ ((replayS 1 10).hw.port 0).replay = [⟨f2 0x01, 1, 5⟩] ∧ (5 : Word).toNat + 2048 ≤ (replayS 1 2053).hw.now
    ∧ (replayS 1 2052).hw.now < (5 : Word).toNat + 2048 ∧ (1 < 8 ∧ 8 ≤ ((replayS 8 10).hw.port 0).replay.foldl (fun n x => n + x.sends) 0)
    ∧ Config.tallyLag + 128 ≤ (tallyS 1).hw.now := by decide +kernel

theorem witness_retry_deliverable : Deliverable (replayS 1 10).hw 0 (f3 0x23) ∧ acknowledge (replayS 1 10).hw.tense0 0xFFFF
    ((replayS 1 10).hw.port 0).replay = ((replayS 1 10).hw.port 0).replay := by
  refine ⟨⟨?_, ?_, ?_, ?_⟩, ?_⟩ <;> decide +kernel

/-- The coarse stage locks framing again; every link stays up there. -/
theorem witness_relocking : (linkS.hw.setFld clkBase Fld.TNS_ALIGN.state 2).relocking = true ∧ linkS.hw.relocking = false
    ∧ linkS.hw.linkUp 1 = false := by decide +kernel

/-- R221: codeword 0 holds the marker and 3 slots (Table 6.1). -/
theorem test_codeword_returns_credits :
    ((after (.corruptFlit 0 (.codeword 0 [true, false, true])) linkS).hw.port 0).owed = 2
    ∧ ((after (.corruptFlit 0 (.codeword 0 [true, false, true])) linkS).hw.port 0).badMarker = some 0 := by decide +kernel

theorem witness_tally : (tallyS 2).hw.job.map (fun j => (tallyS 2).hw.tallyFor j 0 ((2176 - Config.tallyLag) / 128 - 1)) = some (some 2)
    ∧ ((tallyS 2).hw.port 0).counts.get 0 0 = 2 ∧ ((tallyS 1).hw.port 0).counts.get 0 0 ≠ 2 := by decide +kernel

theorem test_eight_sends_lose_link : (after (.retryTimeout 0) (replayS 8 2053)).hw.portState 0 = 5
    ∧ (after (.retryTimeout 0) (replayS 7 2053)).hw.portState 0 = 4 := by decide +kernel
theorem test_tally_mismatch : (after (.tallyClose 0) (tallyS 1)).hw.fld (portBase 0) Fld.PORT_FLAGS.sched_loss = 1 := by decide +kernel

def stageS (st : TrainStage) (attempts : Nat) : State :=
  onHw0 ((Hw.reset.setPort 0 { PortSt.empty with stage := st }).setFlds (portBase 0) [(Fld.PORT_TRAIN.attempts, attempts), (Fld.PORT_STATUS.state, 3)])
def verF (vmin vmax : Nat) : Flit := { f3 0x20 with msg := BitVec.ofNat 96 (vmax + vmin * 2 ^ 8) }

/-- Port 0 enabled. -/
def enabledS : State := onHw0 (hwWith [(portBase 0, Fld.PORT_TRAIN.enable, 1)])

theorem witness_training : enabledS.hw.clocked = true ∧ enabledS.hw.flag (portBase 0) Fld.PORT_TRAIN.enable = true
    ∧ (hwWith [(portBase 0, Fld.PORT_TRAIN.enable, 0)]).flag (portBase 0) Fld.PORT_TRAIN.enable = false ∧ linkS.hw.clocked = true
    ∧ State.reset.hw.job = none ∧ linkS.hw.job = some job0 ∧ ((State.reset.hw.port 0).stage.active) = false
    ∧ [TrainStage.laneCheck, .training, .framing].all (fun st => ((stageS st 1).hw.port 0).stage.active) = true
    ∧ (stageS .laneCheck 1).hw.fld (portBase 0) Fld.PORT_TRAIN.attempts < 2 ∧ 2 ≤ (stageS .laneCheck 2).hw.fld (portBase 0) Fld.PORT_TRAIN.attempts
    ∧ (stageS .version 0).hw.portState 0 = 3
    ∧ Nat.max (msgBits (verF 0x10 0x20) 15 8) 0x10 ≤ Nat.min (msgBits (verF 0x10 0x20) 7 0) (stageS .version 0).hw.clk.vmax
    ∧ Nat.min (msgBits (verF 0x22 0x23) 7 0) (stageS .version 0).hw.clk.vmax < Nat.max (msgBits (verF 0x22 0x23) 15 8) 0x10 := by decide +kernel

theorem test_common_version : (after (.trainVer 0 (verF 0x10 0x20)) (stageS .version 0)).hw.fld (portBase 0) Fld.PORT_VER.link = 0x20 := by
  decide +kernel
theorem test_third_failure_ends : (after (.trainingStageEnd 0 .failed) (stageS .training 2)).hw.portState 0 = 5
    ∧ (after (.trainingStageEnd 0 .failed) (stageS .training 1)).hw.portState 0 = 1 := by decide +kernel

/-! Clocks -/

theorem witness_tense_latch : onS.hw.clocked = true ∧ onS.hw.clk.latch.find? (requesterKey .debug) = none := by decide +kernel
def bigTense : State := onHw0 { hwWith [] with tense0 := 0x5FFFFFFFF, tense1 := 0x5FFFFFFFF }
theorem test_tense_latch : (after (.tnsNowRead .debug 2) (onHw0 { (after (.tnsNowRead .debug 1) bigTense).hw with tense0 := 0x600000000 })).resp
    = Resp.ok 5 ∧ (after (.tnsNowRead .debug 1) bigTense).resp = Resp.ok 0xFFFFFFFF := by decide +kernel

/-- Alignment in a state, parent plane 0, its link up. -/
def alignS (state : Nat) (clk : ClkSt) : State :=
  onHw0 { (upPort onS 0).hw.setFld clkBase Fld.TNS_ALIGN.state state with clk := clk }
def aligned8 : ClkSt := { ClkSt.empty with pings := [(64, 5), (64, 4), (64, 6), (64, 4), (64, 4), (64, 4), (64, 4), (64, 4)], sent := List.replicate 16 0 }
def doneF (digest : Nat) : Flit := { flit0 with cls := 1, mtype := 0x11, msg := BitVec.ofNat 96 (2 ^ 64 - 1), data := BitVec.ofNat 1792 (digest + 0xDE * 2 ^ 64) }

theorem witness_alignment : (alignS 0 ClkSt.empty).hw.mayArm = true ∧ (alignS 0 ClkSt.empty).hw.clocked = true ∧ onS.hw.mayArm = false
    ∧ onS.hw.clocked = true
    ∧ (alignS 1 ClkSt.empty).hw.fld clkBase Fld.TNS_ALIGN.state = 1 ∧ State.reset.hw.fld clkBase Fld.TNS_ALIGN.state ≠ 1
    ∧ (alignS 3 aligned8).hw.fineStage = true ∧ 16 ≤ (alignS 3 aligned8).hw.clk.sent.length ∧ 8 ≤ (alignS 3 aligned8).hw.clk.pings.length
    ∧ (bestExchange (alignS 3 aligned8).hw.clk.pings).isSome = true
    ∧ (alignS 3 { aligned8 with completing := true }).hw.alignState = 3 ∧ isCompletion (doneF 0) = true
    ∧ (partWord (doneF 0).data 0).toNat = (alignS 3 aligned8).hw.clk.domain
    ∧ (partWord (doneF 1).data 0).toNat ≠ (alignS 3 aligned8).hw.clk.domain
    ∧ ((alignS 1 ClkSt.empty).hw.alignState, (alignS 1 ClkSt.empty).hw.clk.completing, (alignS 1 ClkSt.empty).hw.clk.pings.isEmpty) = (1, false, true)
    ∧ ((alignS 3 { aligned8 with completing := true }).hw.alignState, true, aligned8.pings.isEmpty) = (3, true, false) := by decide +kernel

/-- An echo of the first ping sent. -/
def echoF : Flit := { f3 0x22 with msg := 7, data := BitVec.ofNat 1792 (2 ^ 128) }
theorem witness_echo : (alignS 3 { ClkSt.empty with sent := [7, 9] }).hw.fineStage = true
    ∧ (alignS 3 { ClkSt.empty with sent := [7, 9] }).hw.clk.sent.contains (BitVec.ofNat 64 (msgBits echoF 63 0)) = true
    ∧ (alignS 3 { ClkSt.empty with sent := [7, 9] }).hw.fld clkBase Fld.TNS_ALIGN.plane = (0 : Port).val
    ∧ decide (echoF.data.toNat / 2 ^ 128 % 2 = 1) = true := by decide +kernel
theorem test_echo_counts : (after (.alignEcho 0 echoF 11) (alignS 3 { ClkSt.empty with sent := [7, 9] })).hw.clk.pings.length = 1
    ∧ (after (.alignEcho 0 echoF 11) (alignS 3 { ClkSt.empty with sent := [9] })).hw.clk.pings = [] := by decide +kernel

theorem witness_align_messages : Deliverable (alignS 3 ClkSt.empty).hw 0 (f3 0x21) ∧ Deliverable (alignS 3 ClkSt.empty).hw 0 (f3 0x22)
    ∧ Deliverable (alignS 3 { aligned8 with completing := true }).hw 0 (doneF 0) := by
  refine ⟨⟨?_, ?_, ?_, ?_⟩, ⟨?_, ?_, ?_, ?_⟩, ⟨?_, ?_, ?_, ?_⟩⟩ <;> decide +kernel

theorem test_sync_pulse_loads : (after .syncPulse (onHw0 ((alignS 1 ClkSt.empty).hw.setReg (clkBase + Fld.TNS_SYNC.value.off) 0x1234))).hw.tense1
    = 0x1234 := by decide +kernel
theorem test_fine_correction : (after .fineCorrection (alignS 3 aligned8)).hw.tense0 = 2 := by decide +kernel

def clockS : State := onHw0 (hwWith [(clkBase, Fld.CLK_STATUS.xtal, 1), (clkBase, Fld.CLK_STATUS.root, 1)])
def markerS (state : Nat) (b : Option Int) : State :=
  onHw0 ((alignS state { ClkSt.empty with aligned := true }).hw.setPort 0 { PortSt.empty with baseline := b })

theorem witness_clock_faults : clockS.hw.flag clkBase Fld.CLK_STATUS.xtal = true ∧ clockS.hw.flag clkBase Fld.CLK_STATUS.root = true
    ∧ [4088, 4104].all goodWindow = true ∧ [4087, 4105].any goodWindow = false
    ∧ (markerS 4 none).hw.linkUp (0 : Port) = true ∧ (markerS 4 none).hw.alignState = 4 ∧ ((markerS 4 none).hw.port 0).baseline = none
    ∧ ((markerS 4 (some 5)).hw.port 0).baseline = some 5 ∧ ((21 : BitVec 16).toInt - 5).natAbs ≤ 16 ∧ 16 < ((22 : BitVec 16).toInt - 5).natAbs
    ∧ (markerS 2 none).hw.alignState = 2 ∧ (markerS 0 (some 5)).hw.clk.aligned = true ∧ clockS.hw.monitored = true
    ∧ (hwWith [(clkBase, Fld.CLK_STATUS.xtal, 1), (clkBase, Fld.CLK_STATUS.root, 0)]).monitored = false
    ∧ ((markerS 4 none).hw.port 0).badMarker ≠ some ((markerS 4 none).hw.now / 128)
    ∧ ({ PortSt.empty with badMarker := some 0 }).badMarker = some ((markerS 4 none).hw.now / 128)
    ∧ (List.range 24).all (fun q => !(markerS 2 none).hw.linkUp q || decide (q = 0)) = true := by decide +kernel

theorem test_marker_drift : (after (.intervalMarker 0 22 0) (markerS 4 (some 5))).hw.alignState = 0
    ∧ (after (.intervalMarker 0 21 0) (markerS 4 (some 5))).hw.alignState = 4 := by decide +kernel
/-- R273: a marker is measured however far alignment has come once Tense has been aligned; each brings its corrected symbols. -/
theorem test_marker_after_drift : (after (.intervalMarker 0 40 9) (markerS 0 (some 5))).hw.fld clkBase Fld.TNS_DRIFT.sixteenths = 35
    ∧ (after (.intervalMarker 0 40 9) (markerS 0 (some 5))).hw.fld (portBase 0) Fld.PORT_FEC_CORR.symbols = 9 := by decide +kernel
theorem test_bad_window : (after (.refWindow 4087) clockS).hw.fld clkBase Fld.CLK_FLAGS.ref_lost = 1
    ∧ (after (.refWindow 4088) clockS).hw.fld clkBase Fld.CLK_FLAGS.ref_lost = 0 := by decide +kernel

/-- The clock sequence runs: crystal and reference stand, two good windows seen. -/
def seqS : State :=
  { State.reset with hw := { hwWith [(clkBase, Fld.CLK_STATUS.root, 0), (pwrBase, Fld.PWR_STATUS.state, 3), (clkBase, Fld.CLK_STATUS.xtal, 1), (clkBase, Fld.CLK_STATUS.ref, 1)] with
      clk := { ClkSt.empty with goodWindows := 2 } } }
def offS : State := onHw0 (hwWith [(pwrBase, Fld.PWR_STATUS.state, 1)])

/-- The module after a holdover: the crystal feeds the root PLL, the core clocks wait for its release, or run again. -/
def holdS (stopped : Bool) : State :=
  { seqS with stalled := if stopped then [.tnsNowRead .debug 0] else [], hw := { seqS.hw.setFld clkBase Fld.CLK_STATUS.root 1 with
      clk := { ClkSt.empty with goodWindows := 2, fromCrystal := true, coresStopped := stopped } } }

theorem witness_holdover_release : (holdS true).sequencing = true ∧ (holdS true).hw.flag clkBase Fld.CLK_STATUS.root = true
    ∧ (holdS true).hw.clk.coresStopped = true ∧ (holdS true).stalled = [.tnsNowRead .debug 0]
    ∧ (Instr.tnsNowRead .debug 0).accesses State.reset = true ∧ (holdS false).hw.clk.coresStopped = false
    ∧ (holdS false).hw.clk.fromCrystal = true ∧ 2 ≤ (holdS false).hw.clk.goodWindows ∧ (holdS false).sequencing = true
    ∧ (holdS false).stalled = [] := by decide +kernel
theorem test_stalled_access_served : (after (.clockRelease .rootPll none []) (holdS true)).stalled = []
    ∧ (after (.clockRelease .rootPll none []) (holdS true)).resp = Resp.ok 0 := by decide +kernel

theorem witness_clock_release : offS.sequencing = false ∧ seqS.sequencing = true ∧ seqS.hw.flag clkBase Fld.CLK_STATUS.xtal = true
    ∧ 2 ≤ seqS.hw.clk.goodWindows ∧ seqS.stalled = [] ∧ seqS.powered = true ∧ seqS.hw.flag clkBase Fld.CLK_STATUS.ref = true
    ∧ seqS.hw.flag clkBase Fld.CLK_STATUS.root = false
    ∧ ({ seqS.mgmt.bcr with lanes := 15 }).lanes / 2 ^ 3 % 2 = 1 := by decide +kernel

def ingestS (filled : Nat) : State :=
  onHw0 { hwWith [(clkBase, Fld.TNS_INGEST.filled, filled)] with job := some { job0 with img := { img0 with ingestK := 2 } } }
theorem witness_ingest : (ingestS 1).hw.clocked = true ∧ onS.hw.job = none ∧ (ingestS 1).hw.fld clkBase Fld.TNS_INGEST.filled + (ingestS 1).hw.fld clkBase Fld.TNS_INGEST.holding < 2
    ∧ 2 ≤ (ingestS 2).hw.fld clkBase Fld.TNS_INGEST.filled + (ingestS 2).hw.fld clkBase Fld.TNS_INGEST.holding
    ∧ (ingestS 1).hw.job.map (fun j => j.img.ingestK) = some 2 ∧ (ingestS 1).hw.fld clkBase Fld.TNS_INGEST.filled < 31 := by decide +kernel

theorem test_ingest_full : (after .ingestFill (ingestS 2)).resp = Resp.bus
    ∧ (after .ingestFill (ingestS 1)).hw.fld clkBase Fld.TNS_INGEST.filled = 2 := by decide +kernel

/-! #### Registers and management -/

def stkAt (o : Nat) : Addr := BitVec.ofNat 48 (stackBase 11 + o)
def ctlAddr (o : Nat) : Addr := BitVec.ofNat 48 (0x0F0000000000 + o)

/-- An address outside the control space, a hole in it, a misaligned one, registers of a plain window, and a reserved offset. -/
theorem witness_register_write : spaceOf 0 ≠ .control ∧ locate (ctlAddr 0x31010000).toNat = none
    ∧ locate (ctlAddr 0x3100FFF8).toNat = some (Win.lpd, 0, 0xFFF8) ∧ regWidth (stkAt 4).toNat 8 = false ∧ regWidth (stkAt 4).toNat 4 = true
    ∧ bootMemory (stkAt 4).toNat = false ∧ locate (stkAt 8).toNat = some (Win.stack, 11, 8) ∧ (regAt Win.stack 8).isSome = true
    ∧ locate pwrBase = some (Win.power, 0, 0) ∧ regAt Win.stack 0xFFF8 = none := by decide +kernel

/-- A register of a tile and one of a slice met with a width no register has; what the machine asks of every access. -/
theorem witness_register_bus_errors : onS.hw.clocked = true ∧ tileS.hw.clocked = true
    ∧ locate (tileBase 0 + 2) = some (Win.tile, 0, 2) ∧ regWidth (tileBase 0 + 2) 4 = false ∧ spaceOf (tileBase 0 + 2) = .control
    ∧ locate (sliceBase 3 + 4) = some (Win.slice, 3, 4) ∧ regWidth (sliceBase 3 + 4) 8 = false ∧ bootMemory (sliceBase 3 + 4) = false
    ∧ (after (.registerWrite .debug (BitVec.ofNat 48 (tileBase 0 + 2)) false 1) onS).hw.fld (tileBase 0) Fld.TILE_CNT_E.bus_err = 1 := by
  decide +kernel
theorem witness_inflection_takes : tileS.hw.job = some job0 ∧ State.reset.hw.job = none
    ∧ tileS.hw.infl.stagedGen ≤ tileS.hw.infl.committed.gen
    ∧ ({ InflSt.empty with stagedGen := 1 } : InflSt).committed.gen < ({ InflSt.empty with stagedGen := 1 } : InflSt).stagedGen := by
  decide +kernel

/-- Staged and installed tables of one layer, pinned or not. -/
def tableS (pinned : Nat) : State :=
  let e : Word := BitVec.ofNat 64 (pinned * 2 ^ 14)
  onHw0 { tileHw with infl := { InflSt.empty with entries := [e], stagedE := [e], stagedP := [0, 0] } }
theorem witness_staged_table : (tableS 1).hw.infl.stagedE[(0 : BitVec 10).toNat]? = (tableS 1).hw.infl.entries[(0 : BitVec 10).toNat]?
    ∧ [tableS 0, tableS 1].all (fun s => (s.hw.infl.entries[0]?).isSome) = true ∧ (1 : BitVec 10).toNat < (tableS 0).hw.infl.stagedP.length
    ∧ ((List.range 16).any (fun k => entryPinned (BitVec.ofNat 64 (2 ^ k)))) = true ∧ entryPinned 0 = false := by decide +kernel

theorem test_register_misaligned : (after (.registerWrite .management (stkAt 4) true 1) onS).resp = Resp.bus := by decide +kernel
theorem test_write_store_fault : ((after (.registerWrite (.store 3) (ctlAddr 0x31010000) true 1) onS).fliuf.harts.get HartSt.reset 3).mcause
    = 7 := by decide +kernel
theorem test_firmware_hold_shrinks : (after (.fwHoldWrite 1023) (after (.fwHoldWrite 0) onS)).hw.fld sysBase Fld.SYS_FW_HOLD.segments
    = 0 := by decide +kernel

/-- A session of version 1.1, with its last seq, serving in stage 3 or 4. -/
def session0 (auth : Bool) (last : Option Word) : Session := ⟨auth, 0x11, 1192, last, 0, [7], 0, 0, 0, 0, 0, 0⟩
def servesS (stage : Nat) (x : Session) : State :=
  { State.reset with
    hw := hwWith [(sysBase, Fld.SYS_STATUS.stage, stage), (clkBase, Fld.CLK_STATUS.root, 1)], mgmt := { MgmtSt.empty with sessions := [(1, x)] } }
def hdr (seq : Word) (tagged right : Bool) : MmpHeader := ⟨1, seq, tagged, right⟩
def authS : State := servesS 3 (session0 true none)
def hdrT : MmpHeader := hdr 1 true true

/-- R413, R414: what each clause asks of the request and its session. -/
theorem witness_session_order : (Instr.status (hdr 5 false false)).mmp = some (rowAnyR, hdr 5 false false) ∧ State.reset.serves = false
    ∧ authS.serves = true ∧ authS.session? 2 = none ∧ authS.session? 1 = some (session0 true none)
    ∧ tagFails (hdr 5 true false) (session0 false none) = true ∧ tagFails (hdr 5 false false) (session0 true none) = true
    ∧ tagFails (hdr 5 false false) (session0 false none) = false ∧ (session0 false (some 5)).lastSeq = some (hdr 5 false false).seq
    ∧ (hdr 4 false false).seq.toNat < (5 : Word).toNat := by decide +kernel

/-- Table 11.14: at most 128 registers. -/
theorem test_register_lists : (after (.regRead hdrT (List.replicate 129 0)) authS).resp.status = 2
    ∧ (after (.regWrite hdrT [(0, 0)]) (servesS 3 { session0 true none with limit := 15 })).resp.status = 9 := by decide +kernel

/-- R409: fe80::211:22ff:fe33:4455 of 00:11:22:33:44:55. -/
theorem test_link_local : linkLocal 0x001122334455#48 = 0xFE80_0000_0000_0000_0211_22FF_FE33_4455#128
    ∧ (servesS 4 (session0 true none)).portAddresses 0 = [linkLocal 0] ∧ (authS.portAddresses 0) = [] := by decide +kernel

/-- R414: 60 s are 48,000,000,000 ticks. -/
def silentS (mtime : Word) : State := { authS with fliuf := { FliufSt.empty with mtime := mtime } }
theorem test_session_closes_after_60_s : (after (.sessionTimeout 1) (silentS 48000000000)).session? 1 = none
    ∧ ((after (.sessionTimeout 1) (silentS 47999999999)).session? 1).isSome = true := by decide +kernel

theorem fresh_one {s : State} {h : MmpHeader} {x : Session} (a : (s.serves && decide (s.session? h.session = some x) && !tagFails h x
    && decide (x.lastSeq = none)) = true) : Fresh s h x := by
  simp only [Bool.and_eq_true, decide_eq_true_eq, Bool.not_eq_true'] at a
  exact ⟨a.1.1.1, a.1.1.2, a.1.2, fun n hn => by rw [a.2] at hn; cases hn⟩

theorem witness_fresh_refusals : Fresh (servesS 4 (session0 true none)) hdrT (session0 true none) ∧ (servesS 4 (session0 true none)).inRecovery = true
    ∧ rowAuth.recovery = false ∧ Fresh (servesS 3 (session0 false none)) (hdr 1 false false) (session0 false none)
    ∧ (servesS 3 (session0 false none)).inRecovery = false ∧ rowAuth.authorised = true
    ∧ Fresh (servesS 3 { session0 true none with version := 0x10 }) hdrT { session0 true none with version := 0x10 }
    ∧ (0x10 : Nat) < rowAuth11.version :=
  ⟨fresh_one (by decide +kernel), by decide +kernel, by decide, fresh_one (by decide +kernel), by decide +kernel, by decide,
    fresh_one (by decide +kernel), by decide⟩

/-- Every row lets an authorised session of version 1.1 through outside recovery mode. -/
theorem witness_admissible (row : MmpRow) (hv : row.version ≤ 0x11) : Admissible authS row hdrT (session0 true none) :=
  ⟨fresh_one (by decide +kernel), fun h => absurd h (by decide +kernel), fun _ => ⟨fun _ => rfl, hv⟩⟩

theorem witness_rows : rowAnyR.version ≤ 0x11 ∧ rowAny.version ≤ 0x11 ∧ rowAuth.version ≤ 0x11 ∧ rowAuthR.version ≤ 0x11 ∧ rowAuth11.version ≤ 0x11 := by
  decide

/-- Eight sessions open. -/
def crowdedS : State := { authS with mgmt := { authS.mgmt with sessions := (List.range 8).map (fun n => (n + 1, session0 true none)) } }
theorem witness_hello : authS.serves = true ∧ Nat.min (0x0F : Byte).toNat 0x11 < Nat.max (0x0F : Byte).toNat 0x10
    ∧ Nat.max (0x10 : Byte).toNat 0x10 ≤ Nat.min (0x21 : Byte).toNat 0x11 ∧ crowdedS.serves = true ∧ 8 ≤ crowdedS.mgmt.sessions.length
    ∧ authS.mgmt.sessions.length < 8 := by decide +kernel

theorem witness_reads : [stkAt 0, stkAt 8].all (fun a => decide (a.toNat % 8 = 0)) = true ∧ locate (stkAt 8).toNat = some (Win.stack, 11, 8)
    ∧ [Win.fliuf, .clk, .power].contains Win.stack = false ∧ (session0 true none).limit < (1193 : Half).toNat ∧ (1192 : Half).toNat ≤ (session0 true none).limit
    ∧ sameSpace tileMemBase 1192 = true ∧ spaceOf tileMemBase = .tileMem ∧ sameSpace (tileMemEnd - 4) 8 = false ∧ spaceOf tileMemEnd = .outside := by
  decide +kernel

/-- A page in an exchange, which a message of an authorised session addresses. -/
def heldAuthS : State := { authS with hw := authS.hw.setBusyPage 5 true }
theorem witness_held_messages : heldAuthS.hw.heldUp (5 * 0x200000) 8 = true ∧ heldAuthS.hw.tier.waiting = []
    ∧ heldAuthS.serves = true ∧ heldAuthS.session? 1 = some (session0 true none) ∧ authS.hw.heldUp tileMemBase 8 = false
    ∧ authS.hw.writeClosed tileMemBase 8 = false
    ∧ ({ authS.hw with job := closedS.hw.job } : Hw).writeClosed tileMemBase 8 = true := by decide +kernel
theorem witness_held_admissible : Admissible heldAuthS rowAuth hdrT (session0 true none) :=
  ⟨fresh_one (by decide +kernel), fun h => absurd h (by decide +kernel), fun _ => ⟨fun _ => rfl, by decide⟩⟩

theorem test_hello_refused : (after (.hello 0x12 0x20 0 0) authS).resp = ⟨false, 1, 0, [0x10, 0x11]⟩ := by decide +kernel
theorem test_repeat_cached : (after (.status (hdr 5 true true)) (servesS 3 (session0 true (some 5)))).resp = ⟨false, 0, 0, [7]⟩ := by decide +kernel
theorem test_read_register : (after (.regRead hdrT [stkAt 0x7FFF]) authS).resp.status = 7 := by decide +kernel

/-! The states of the Job Status Word. -/

def jswS (state : Nat) : State := { authS with hw := (authS.hw.setFld sysBase Fld.SYS_JSW.state state) }
def jobS (j : Job) (state : Nat) : State := { jswS state with hw := { (jswS state).hw with job := some j } }

theorem admissible_jsw (row : MmpRow) (hv : row.version ≤ 0x11) (n : Nat) (hn : n < 16) :
    Admissible (jswS n) row hdrT (session0 true none) := by
  refine ⟨fresh_one ?_, fun h => absurd h ?_, fun _ => ⟨fun _ => rfl, hv⟩⟩ <;> (revert n; decide +kernel)

theorem witness_steering : ([0, 1, 2, 3, 4, 5, 6, 7, 8].all (fun n => decide ((jswS n).hw.jswState = n))) = true
    ∧ (8000 : Word).toNat < (jswS 2).hw.now + 8001 ∧ (7999 : Word).toNat < (jswS 2).hw.now + 8000 ∧ (jswS 2).hw.now + 8000 ≤ (8001 : Word).toNat
    ∧ (8001 : Word).toNat % 128 ≠ 0 ∧ (8064 : Word).toNat % 128 = 0 ∧ (jswS 2).hw.job = none
    ∧ (jobS { job0 with sharePending := true } 4).hw.job.map (fun j => j.sharePending) = some true ∧ job0.sharePending = false
    ∧ (jobS job0 4).hw.admittedAs 1 = true ∧ (jobS job0 4).hw.admittedAs 2 = false ∧ authS.mgmt.successorOp = false
    ∧ authS.mgmt.stagingSpace < authS.mgmt.stagingSpace + 1 := by decide +kernel

theorem test_start_early : (after (.start hdrT 7999 0 0 0) (jswS 2)).resp = ⟨false, 8, 0, [1]⟩ := by decide +kernel
theorem test_start_off_interval : (after (.start hdrT 8001 0 0 0) (jswS 2)).resp = ⟨false, 8, 0, [2]⟩ := by decide +kernel
theorem test_admit_busy : (after (.admitJob hdrT) (jswS 1)).resp.status = 4 ∧ (after (.admitJob hdrT) (jswS 4)).resp.status = 6 := by decide +kernel
theorem test_release_state : (after (.release hdrT) (jswS 4)).resp.status = 6 ∧ (after (.release hdrT) (jswS 5)).hw.jswState = 8 := by decide +kernel

def dumpS (d : DumpSlot) : State := { authS with hw := { authS.hw with dbg := { DebugSt.empty with dump0 := d } } }
theorem witness_dumps : [0, 2, 5, 6, 7].all (fun n => decide ((jswS n).hw.jswState ∈ [0, 2, 5, 6, 7])) = true
    ∧ authS.hw.flag dbgBase Fld.DBG_STATUS.held = false
    ∧ ((dumpS { DumpSlot.empty with building := true }).hw.dbg.slot (0 : Fin 2).val).building = true
    ∧ ((dumpS { DumpSlot.empty with ready := true }).hw.dbg.slot (0 : Fin 2).val).ready = true
    ∧ (authS.hw.dbg.slot (1 : Fin 2).val).ready = false ∧ (session0 true none).limit < (1177 : Word32).toNat + 16
    ∧ (1176 : Word32).toNat + 16 ≤ (session0 true none).limit := by decide +kernel

/-- Nothing staged is no firmware that any signature check accepts. -/
theorem witness_flash : authS.mgmt.flashWindow = none ∧ authS.mgmt.flashTarget = none
    ∧ ({ MgmtSt.empty with flashWindow := some true }).flashWindow = some true ∧ (0x1100000 : Nat) < (0x1100000 : Word32).toNat + 1
    ∧ authS.inRecovery = false ∧ (servesS 4 (session0 true none)).inRecovery = true
    ∧ ({ MgmtSt.empty with flashTarget := some false }).flashTarget = some false := by decide +kernel

theorem witness_provision_proxy : authS.xof.owner = none ∧ ({ authS.xof with owner := some 5 }).owner.isSome = true
    ∧ (List.range 24).all (fun p => !authS.hw.linkUp p) = true ∧ (upPort State.reset 23).hw.linkUp 23 = true
    ∧ (List.range 23).all (fun p => !(upPort State.reset 23).hw.linkUp p) = true := by decide +kernel

theorem witness_datagrams : authS.serves = true ∧ State.reset.serves = false
    ∧ (hwWith [(clkBase, Fld.CLK_PERI_EN.uart, 0)]).periOn 99 = false ∧ (after (.peripheralEnable 0x6000) onS).hw.periOn (periEth 0) = true
    ∧ (hwWith [(clkBase, Fld.CLK_STATUS.lanes, 2)]).fld clkBase Fld.CLK_STATUS.lanes / 2 % 2 = 1 := by decide +kernel

theorem test_dump_read_empty : (after (.dumpRead hdrT 0 0 16) authS).resp.status = 6 := by decide +kernel
theorem test_dump_read_long : (after (.dumpRead hdrT 0 0 1177) (dumpS { DumpSlot.empty with ready := true })).resp.status = 9 := by decide +kernel
theorem test_quota_message : (after (.quota hdrT 9 0x4000) authS).hw.tier.quota.get 0 9 = 0x4000 := by decide +kernel

/-! Xofisel -/

def xofBusy : State := onHw0 (hwWith [(xofBase, Fld.XOF_CMD_STATUS.busy, 1)])
def xofRuns (r : XofRun) : State := { onS with xof := { XofSt.blank with running := some r } }

theorem witness_xofisel : (Instr.random 512).xofRun State.reset ≠ none ∧ (Instr.random 513).xofRun State.reset = some ⟨12, 3, [], none⟩
    ∧ (Instr.sessionKey 0 0).xofRun State.reset = some ⟨4, 2, [], none⟩ ∧ (Instr.raiseSvn).xofRun State.reset = some ⟨10, 0, [], none⟩
    ∧ (Instr.clear 2).xofRun { State.reset with xof := { XofSt.blank with locked := true } } = some ⟨8, 2, [], none⟩
    ∧ (Instr.clear 3).xofRun { State.reset with xof := { XofSt.blank with locked := true } } = some ⟨8, 0, [], none⟩
    ∧ (Instr.flashOpen true).xofRun State.reset = some ⟨9, 1, [], none⟩
    ∧ (Instr.xofProvision 1).xofRun State.reset = some ⟨11, 0, [], none⟩
    ∧ State.reset.xofFree = true ∧ xofBusy.xofFree = false ∧ State.reset.xof.running = none
    ∧ (xofRuns ⟨7, 0, [1, 2, 3], some (3, ⟨4, 0, 0, 0⟩)⟩).xof.running.map (fun r => r.out.length) = some 3
    ∧ (xofRuns ⟨2, 1, [], none⟩).xof.running = some ⟨2, 1, [], none⟩ := by decide +kernel

theorem test_xofisel_busy : (after (.clear 3) xofBusy).resp = Resp.bus := by decide +kernel
theorem test_xofisel_result : (after .xofCommandDone (xofRuns ⟨2, 1, [], none⟩)).hw.fld xofBase Fld.XOF_CMD_STATUS.result = 1
    ∧ (after .xofCommandDone (xofRuns ⟨2, 1, [], none⟩)).hw.fld xofBase Fld.XOF_FLAGS.verify_fail = 1 := by decide +kernel
theorem test_provision_once : (after (.xofProvision 6) { onS with xof := { XofSt.blank with owner := some 5 } }).xof.owner = some 5 := by
  decide +kernel

/-! #### Fliuf's peripherals -/

/-- Every peripheral clock on (CLK_PERI_EN), with fields set; at reset every one is off. -/
def periS (fs : List (Nat × Fld × Nat)) : State :=
  onHw0 (fs.foldl (fun h e => h.setFld e.1 e.2.1 e.2.2) ((hwWith []).setReg (clkBase + Fld.CLK_PERI_EN.uart.off) 0xFFFF))
def offPeri : State := onHw0 ((hwWith []).setReg (clkBase + Fld.CLK_PERI_EN.uart.off) 0)
def fliufAt (o : Nat) : Addr := BitVec.ofNat 48 (fliufBase + o)

theorem witness_gated : (List.range 16).all (fun b => !offPeri.hw.periOn b) = true
    ∧ locate (fliufAt 0x413FF8).toNat = some (Win.fliuf, 0, 0x413FF8) ∧ enableBit 0x413FF8 = some 3 ∧ enableBit 0x463FF8 = some 12
    ∧ enableBit 0x414000 = none ∧ locate (fliufAt 0x4A0000).toNat = some (Win.fliuf, 0, 0x4A0000) ∧ (fliufAt 0x4A0000).toNat % 8 = 0
    ∧ locate (fliufAt 0x40FFF8).toNat = some (Win.fliuf, 0, 0x40FFF8) := by decide +kernel

theorem witness_gated_accesses : offPeri.hw.clocked = true ∧ offPeri.hw.periOn 13 = false ∧ offPeri.hw.periOn 15 = false
    ∧ offPeri.source 25 = false ∧ [(0x40FFF8 : Nat), 0x4A0000, 0x800000, 0x900000].all (fun o =>
      decide (locate (fliufAt o).toNat = some (Win.fliuf, 0, o) ∧ (fliufAt o).toNat % 8 = 0)) = true := by decide +kernel
theorem test_gated_uart : (after (.uartDataRead 3) offPeri).resp = Resp.bus
    ∧ (after (.registerWrite .management (fliufAt 0x413000) true 1) offPeri).resp = Resp.bus := by decide +kernel

def uartS (fs : List (Nat × Fld × Nat)) (x : Uart) : State :=
  { periS fs with fliuf := { FliufSt.empty with uarts := FliufSt.empty.uarts.set Uart.empty 0 x } }
def rxOn : List (Nat × Fld × Nat) := [(uartBase 0, Fld.UART_CTL.rx_en, 1), (uartBase 0, Fld.UART_CTL.parity, 1)]

theorem witness_uart : (periS []).hw.periOn (0 : Fin 4).val = true ∧ ((periS []).uart (0 : Fin 4).val).rx = []
    ∧ ((uartS rxOn { Uart.empty with rx := [9] }).uart 0).rx = [9]
    ∧ (periS []).hw.flag (uartBase 0) Fld.UART_CTL.rx_en = false ∧ (periS rxOn).hw.flag (uartBase 0) Fld.UART_CTL.rx_en = true
    ∧ (periS rxOn).hw.flag (uartBase 0) Fld.UART_CTL.loop = false ∧ true ≠ parityBit ((periS rxOn).hw.flag (uartBase 0) Fld.UART_CTL.odd) 3
    ∧ 64 ≤ ((uartS rxOn { Uart.empty with rx := List.replicate 64 0 }).uart 0).rx.length
    ∧ ((uartS rxOn { Uart.empty with rx := List.replicate 63 0 }).uart 0).rx.length < 64
    ∧ (periS []).hw.flag (uartBase 0) Fld.UART_CTL.tx_en = false
    ∧ (periS [(uartBase 0, Fld.UART_CTL.tx_en, 1)]).hw.flag (uartBase 0) Fld.UART_CTL.tx_en = true := by decide +kernel

theorem test_uart_overrun : (after (.uartReceive 0 5 false true false) (uartS rxOn { Uart.empty with rx := List.replicate 64 0 })).hw.fld
    (uartBase 0) Fld.UART_STATUS.overrun = 1 := by decide +kernel
theorem test_uart_read : (after (.uartDataRead 0) (uartS rxOn { Uart.empty with rx := [9, 8] })).resp = Resp.ok 9 := by decide +kernel

def i2cOn : List (Nat × Fld × Nat) := [(i2cBase 0, Fld.I2C_CTL.ctl, 1)]
theorem witness_i2c : (periS []).hw.periOn (4 + (0 : Fin 4).val) = true ∧ (periS []).hw.flag (i2cBase 0) Fld.I2C_CTL.ctl = false
    ∧ (periS i2cOn).hw.flag (i2cBase 0) Fld.I2C_CTL.ctl = true ∧ (periS []).hw.flag (i2cBase 0) Fld.I2C_STATUS.busy = false
    ∧ (after (.i2cStart 0) (periS i2cOn)).hw.flag (i2cBase 0) Fld.I2C_STATUS.busy = true
    ∧ ((after (.i2cStart 0) (periS i2cOn)).i2c 0).addressing = true
    ∧ ((after (.i2cByte 0 true false true 0) (after (.i2cStart 0) (periS i2cOn))).i2c 0).addressing = false
    ∧ (periS [(i2cBase 0, Fld.I2C_CTL.tgt, 1), (i2cBase 0, Fld.I2C_CTL.pec, 1)]).hw.flag (i2cBase 0) Fld.I2C_CTL.tgt = true
    ∧ (periS []).hw.flag (i2cBase 0) Fld.I2C_CTL.tgt = false := by decide +kernel

/-- A transfer of the controller under way: an address, a byte to send, a byte to read, or none of them. -/
def i2cRun (rd : Nat) (x : I2c) : State :=
  { periS [(i2cBase 0, Fld.I2C_CTL.ctl, 1), (i2cBase 0, Fld.I2C_STATUS.busy, 1), (i2cBase 0, Fld.I2C_ADDR.read, rd)] with
    fliuf := { FliufSt.empty with i2cs := [(0, x)] } }
theorem witness_i2c_stops : (i2cRun 1 ⟨none, false, false⟩).hw.flag (i2cBase 0) Fld.I2C_ADDR.read = true
    ∧ ((i2cRun 0 ⟨none, true, false⟩).i2c 0).stopAsked = true ∧ (i2cRun 0 ⟨none, false, false⟩).hw.flag (i2cBase 0) Fld.I2C_ADDR.read = false
    ∧ (i2cRun 0 ⟨none, false, false⟩).hw.flag (i2cBase 0) Fld.I2C_STATUS.busy = true ∧ (periS []).hw.clocked = true := by decide +kernel
theorem test_i2c_nack : (after (.i2cByte 0 false false true 0) (after (.i2cStart 0) (periS i2cOn))).hw.fld (i2cBase 0) Fld.I2C_STATUS.nack = 1 := by
  decide +kernel

theorem witness_spi_gpio_timers : (periS []).hw.periOn (8 + (1 : Fin 2).val) = true ∧ (1 : Fin 2).val ∉ (periS []).fliuf.spiBusy
    ∧ (1 : Fin 2).val ∈ (after (.spiExchange 1) (periS [])).fliuf.spiBusy
    ∧ (11 : BitVec 5).toNat < 12 ∧ 12 ≤ (12 : BitVec 5).toNat ∧ (periS []).fliuf.gpioLevel.getLsbD 11 = false ∧ (periS []).hw.periOn 10 = true
    ∧ offPeri.hw.periOn 10 = false ∧ (periS []).hw.periOn 11 = true ∧ (periS []).timerRuns 0 = false
    ∧ (periS [(tmrBase 0, Fld.TMR_CTL.run, 1)]).timerRuns 0 = true
    ∧ (periS [(tmrBase 0, Fld.TMR_CTL.run, 1)]).timerLeft 0 = 0 := by decide +kernel

/-- Timer 0 with a period of 3 set running through TMR_CTL; it counts one tick, and at zero it expires and reloads. -/
def timerS : State := (periS [(tmrBase 0, Fld.TMR_LOAD.ticks, 3)]).writeReg .debug (tmrBase 0 + 8) 8 1
theorem test_timer_counts : timerS.timerLeft 0 = 3 ∧ (timerS.onHw (fun h => h.setFld clkBase Fld.CLK_STATUS.root 1)).tick.timerLeft 0 = 2
    ∧ (after (.timerExpiry 0) timerS) = timerS
    ∧ (after (.timerExpiry 0) { timerS with fliuf := { timerS.fliuf with tmrLeft := [] } }).timerLeft 0 = 3 := by decide +kernel

/-- Timer 0's expiry, source 38, enabled for context 4 at priority 3. -/
def claimS : State :=
  let s := after (.timerExpiry 0) (periS [(tmrBase 0, Fld.TMR_CTL.run, 1)])
  { s with fliuf := { s.fliuf with plicEnable := s.fliuf.plicEnable.set 0 4 0xFFFFFFFFFFFFFFFE, plicPriority := [(38, 3)] } }

theorem witness_claim : claimS.claimable 4 38 = true ∧ claimS.priorityOf 38 = 3 ∧ State.reset.claimable 4 38 = false := by decide +kernel
theorem test_claim : (after (.plicClaim 4) claimS).resp = Resp.ok 38 ∧ (after (.plicClaim 5) claimS).resp = Resp.ok 0 := by decide +kernel

/-- Watchdog 0 enabled with an action and a period of 0, so that its count stands at zero. -/
def dogS (a : Nat) : State := periS [(wdtBase 0, Fld.WDT_CTL.enable, 1), (wdtBase 0, Fld.WDT_CTL.action, a), (wdtBase 0, Fld.WDT_CTL.period, 0)]

theorem witness_watchdog : (periS []).hw.periOn 12 = true ∧ (periS []).watchdogRuns 0 = false ∧ (0x5B : Byte) ≠ 0x5A
    ∧ [0, 1, 2, 3].all (fun a => (dogS a).watchdogRuns 0 && decide ((dogS a).watchdogLeft 0 = 0)
        && decide ((after (.watchdogExpiry 0) (dogS a)).fliuf.wdtFirst = [0])
        && (after (.watchdogExpiry 0) (dogS a)).watchdogRuns 0
        && decide ((after (.watchdogExpiry 0) (dogS a)).watchdogLeft 0 = 0)) = true
    ∧ (0 : Fin 4).val ∉ (dogS 0).fliuf.wdtFirst := by decide +kernel

/-- Enabled with the reset period of 3,052 units of 2^18 ticks (R397, Table 11.5), it does not expire before its count ends. -/
theorem test_watchdog_counts :
    let s := (periS []).writeReg .debug (wdtBase 0) 4 1
    (s.watchdogLeft 0).toNat = 3052 * 262144 ∧ (after (.watchdogExpiry 0) s).fliuf.wdtFirst = [] := by decide +kernel

theorem test_watchdog_kick : (after (.wdtKick 0 0x5B) (periS [])).hw.fld (wdtBase 0) Fld.WDT_STATUS.bad_kicks = 1
    ∧ (after (.wdtKick 0 0x5A) (periS [])).hw.fld (wdtBase 0) Fld.WDT_STATUS.bad_kicks = 0 := by decide +kernel
theorem test_gpio_edge : (after (.gpioEdge 11 true) (periS [])).fliuf.gpioLevel.getLsbD 11 = true
    ∧ (after (.gpioEdge 12 true) (periS [])).fliuf.gpioLevel.getLsbD 12 = false := by decide +kernel

/-- R395: whatever the PMP setting. -/
theorem test_internal_block_by_mode : (after (.nonscheduledAccess (.load 2) 0x0F0070470000 8 .read (some userAll) .clean) (periS [])).resp = Resp.bus := by
  decide +kernel
theorem witness_plic_clocked : claimS.hw.clocked = true ∧ (dogS 0).hw.clocked = true ∧ (periS []).hw.periOn 4 = true := by decide +kernel

/-! #### The debug unit, resets and power -/

def heldCopies : State := onHw0 (hwWith [(dbgBase, Fld.DBG_STATUS.held, 1)])
def debugS : State := { onS with xof := { XofSt.blank with debugOpen := true } }

theorem witness_debug : heldCopies.hw.flag dbgBase Fld.DBG_STATUS.held = true ∧ State.reset.hw.flag dbgBase Fld.DBG_STATUS.held = false
    ∧ (((Hw.reset.event (ringPort 3) 0x46 0).ring (ringPort 3)).queue ≠ []) ∧ ringPort 3 ≠ ringModule
    ∧ job0.img.collector = linkS.hw.rank ∧ linkS.hw.job = some job0 ∧ debugS.xof.debugOpen = true ∧ State.reset.xof.debugOpen = false
    ∧ tileS.hw.job.isSome = true ∧ (0x1F : BitVec 5).getLsbD 3 = true ∧ (0x17 : BitVec 5).getLsbD 3 = false := by decide +kernel

theorem witness_fault_report : Deliverable linkS.hw 0 (f1 0x15) ∧ (f1 0x15).mtype = 0x15
    ∧ ({ job0 with img := { img0 with collector := 1 } } : Job).img.collector ≠ linkS.hw.rank :=
  ⟨deliverable_linkS (by decide +kernel), by decide, by decide +kernel⟩

theorem witness_debug_access : debugS.hw.clocked = true ∧ debugS.hw.heldUp 0 8 = false
    ∧ (heldAuthS.hw).clocked = true ∧ ({ debugS with hw := heldAuthS.hw }).xof.debugOpen = true
    ∧ heldAuthS.hw.heldUp (5 * 0x200000) 8 = true ∧ onS.hw.job = none ∧ linkS.hw.fld dbgBase Fld.FLT_STAT.next = 0
    ∧ (hwWith [(dbgBase, Fld.FLT_STAT.next, 255)]).fld dbgBase Fld.FLT_STAT.next = 255 := by decide +kernel
theorem test_capture_refused : (after .captureRequest heldCopies).hw.fld dbgBase Fld.DBG_FLAGS.cap_refused = 1
    ∧ (after .captureRequest onS).hw.dbg.asked = true ∧ (after .captureRequest onS).tick.hw.fld dbgBase Fld.DBG_STATUS.trigger = 5 := by
  decide +kernel
theorem test_report_collected : (after (.faultDeliver 0 (f1 0x15)) linkS).hw.fld dbgBase Fld.FLT_STAT.next = 1 := by decide +kernel
theorem witness_capture_due : ({ onS with hw := { onS.hw with dbg := { onS.hw.dbg with asked := true } } }).hw.dbg.asked = true
    ∧ onS.hw.clocked = true ∧ onS.hw.tiles = [] ∧ onS.hw.commandsEnded = true ∧ (updS 6000).hw.commandsEnded = true
    ∧ ((updS 6000).hw.setUpe 0 { UpeSt.empty with running := some 0 }).commandsEnded = false := by decide +kernel

/-- Begin records of one tick stand in the order of the engines (R438, Table 12.8). -/
theorem test_trace_order : (queueTrace ⟨BitVec.ofNat 64 (9 + 1 * 2 ^ 60), 0⟩ [⟨8, 0⟩, ⟨BitVec.ofNat 64 (9 + 2 * 2 ^ 60), 0⟩]).map EventRec.place
    = [0, 16, 32] := by decide +kernel
theorem test_debug_fuse : (after (.debugBusAccess 0 8 none .clean) onS).resp = Resp.bus
    ∧ (after (.debugModuleAccess (.halt 3)) debugS).fliuf.harts.get HartSt.reset 3 = { HartSt.reset with run := .halted } := by decide +kernel

def resetAt (a : Option Word) (tick : Word) : State :=
  onHw0 { linkS.hw with clk := { ClkSt.empty with resetAt := a }, tense0 := tick, tense1 := tick }
def lateReset : Flit := { f2 0x16 with msg := 9 }
def verifiedS : State := { onHw0 (hwWith [(sysBase, Fld.SYS_STATUS.stage, 2)]) with xof := { XofSt.blank with locked := true } }

theorem witness_resets : (resetAt none 10).hw.clk.resetAt = none ∧ (resetAt (some 11) 10).hw.now < (11 : Word).toNat
    ∧ (resetAt (some 10) 10).hw.clk.resetAt = some 10 ∧ (10 : Word).toNat ≤ (resetAt (some 10) 10).hw.now
    ∧ msgBits lateReset 63 0 < linkS.hw.now ∧ State.reset.mayEnter = false ∧ verifiedS.mayEnter = true := by decide +kernel

/-- Verified firmware, the lanes of the stacks running, stack 0 untrained. -/
def enterS : State := { verifiedS with hw := verifiedS.hw.setFld clkBase Fld.CLK_STATUS.lanes 4 }
theorem witness_memory_training : enterS.mayEnter = true ∧ enterS.hw.fld clkBase Fld.CLK_STATUS.lanes / 2 ^ 2 % 2 = 1 ∧ enterS.hw.ctlState 0 = 0
    ∧ enterS.hw.fld clkBase Fld.CLK_STATUS.lanes / 2 ^ 3 % 2 = 0 := by decide +kernel
theorem test_training_fails : (after (.firmwareEntry [3]) enterS).hw.ctlState 3 = 3 ∧ (after (.firmwareEntry [3]) enterS).hw.ctlState 0 = 1 := by
  decide +kernel
theorem test_flash_error_recovers : (after (.globalReset (some 0)) (resetAt (some 10) 10)).hw.fld sysBase Fld.SYS_STATUS.reason = 6 := by
  decide +kernel

theorem witness_late_reset : Deliverable linkS.hw 0 lateReset := deliverable_linkS (by decide +kernel)

theorem test_reset_at_tick : (after (.globalReset (some 0)) (resetAt (some 10) 10)).hw.job.isNone = true
    ∧ (after (.globalReset (some 0)) (resetAt (some 10) 9)).hw.job.isSome = true := by decide +kernel

/-- The module on, powering up, off, or without supply. -/
def powerS (state : Nat) (x : PowerSt) : State := { onHw0 (hwWith [(pwrBase, Fld.PWR_STATUS.state, state)]) with power := x }
def reading (mv ma : Nat) : PowerReading := ⟨BitVec.ofNat 17 mv, BitVec.ofNat 17 mv, BitVec.ofNat 17 ma, false, none, none, none⟩
def sampledBy (r : PowerReading) : PowerSt := PowerSt.on.sampled r

theorem witness_power_samples : (powerS 0 PowerSt.on).powerState = 0 ∧ State.reset.powerState = 3
    ∧ inputCauses (sampledBy (reading 48000 1000)) (reading 48000 1000) (inputMv (sampledBy (reading 48000 1000)) (reading 48000 1000)) = []
    ∧ (inputCauses (sampledBy (reading 48001 1000)) (reading 48001 1000)
        (inputMv (sampledBy (reading 48001 1000)) (reading 48001 1000))).map (fun d => d.cause) = [1]
    ∧ 48000 < inputMv (sampledBy (reading 48001 1000)) (reading 48001 1000)
    ∧ inputMv (sampledBy (reading 48000 1000)) (reading 48000 1000) ≤ 48000 ∧ ({ reading 40000 1000 with hotSwapLimit := true }).hotSwapLimit = true
    ∧ (powerS 2 PowerSt.on).powerState = 2 ∧ (sampledBy (reading 34999 1000)).meanAbove 10 2600 = false
    ∧ (sampledBy (reading 34999 1000)).meanAbove 1000 2200 = false
    ∧ inputMv (sampledBy (reading 34999 1000)) (reading 34999 1000) < 35000 := by decide +kernel

theorem test_overvoltage : (after (.powerSample (reading 48001 1000)) State.reset).power.offCause = 1
    ∧ (after (.powerSample (reading 48000 1000)) State.reset).power.offCause = 0 := by decide +kernel

theorem witness_rails_and_sensors : (powerS 4 PowerSt.on).powerState = 4 ∧ 2 ≤ PowerSt.on.groupsOn ∧ ({ PowerSt.on with groupsOn := 1 }).groupsOn ≤ 1
    ∧ State.reset.powerState ≠ 4 ∧ State.reset.powered = true ∧ (powerS 1 PowerSt.on).powered = false ∧ (57 : Nat) ∉ PowerSt.on.invalid
    ∧ validReading none = none ∧ validReading (some 2400) = some 2400 ∧ validReading (some 2401) = none ∧ validReading (some (-640)) = some (-640)
    ∧ zoneOf 0 < 6 ∧ warnLimit (zoneOf 0) * 16 < 1521 ∧ ¬ warnLimit (zoneOf 0) * 16 < 1520
    ∧ tempCauses PowerSt.on = [] ∧ (tempCauses { PowerSt.on with hot := [(0, 2)] }).map (fun d => d.cause) = [8] := by decide +kernel

theorem test_open_sensor : (after (.temperatureSample (none :: List.replicate 57 (some 400))) State.reset).power.invalid = [0] := by decide +kernel

def waitS (cause : Nat) (latched : Bool) (enLow : Nat) (high : Bool) : State :=
  powerS 1 { PowerSt.on with stage := 0, groupsOn := 0, offCause := cause, latched := latched, enLow := enLow, enHigh := high }
def goodInput (n : Nat) (s : State) : State := s.withPower (fun x => { x with goodRun := n })

theorem witness_power_up : (waitS 10 false 0 false).power.enHigh ≠ true ∧ (waitS 3 true 9999 false).power.enLow < 10000
    ∧ 10000 ≤ (waitS 3 true 10000 false).power.enLow ∧ (waitS 10 false 0 false).power.waits = false ∧ (waitS 1 false 0 true).power.waits = true
    ∧ (waitS 10 false 0 true).power.enHigh = true ∧ (waitS 10 false 0 true).power.stage = 0 ∧ (waitS 10 false 0 true).powerState = 1
    ∧ 100000 ≤ (goodInput 100000 (waitS 1 false 0 true)).power.goodRun ∧ (waitS 1 false 0 true).power.goodRun < 100000
    ∧ 10000 ≤ (goodInput 10000 (powerS 2 { PowerSt.on with stage := 2 })).power.goodRun
    ∧ [1, 2, 3, 4, 5, 8, 9].all (fun n => decide ((powerS 2 { PowerSt.on with stage := n }).power.stage = n)) = true
    ∧ State.reset.hw.flag clkBase Fld.CLK_STATUS.ref = false ∧ seqS.hw.flag clkBase Fld.CLK_STATUS.ref = true
    ∧ State.reset.powered = true ∧ (waitS 1 false 0 true).powered = false := by decide +kernel

theorem test_enable_ends_latch : (after (.pwrEnChange true) (waitS 3 true 10000 false)).power.stage = 2
    ∧ (after (.pwrEnChange true) (waitS 3 true 9999 false)).power.stage = 0 := by decide +kernel
theorem test_debounce : (after .powerUpStage (goodInput 10000 (powerS 1 { PowerSt.on with stage := 2 }))).powerState = 2
    ∧ (after .powerUpStage (goodInput 9999 (powerS 1 { PowerSt.on with stage := 2 }))).powerState = 1 := by decide +kernel
theorem test_reset_pin : (after (.resetN false) tileS).hw.fld sysBase Fld.SYS_RESET_CAUSE.cause = 2 := by decide +kernel

theorem witness_sideband : (powerS 0 PowerSt.on).powerState = 0 ∧ State.reset.powerState ≠ 0 ∧ PowerSt.on.hottestDie.isSome = true
    ∧ ({ PowerSt.on with invalid := List.range 32 }).hottestDie = none ∧ PowerSt.on.coolantSensor = some 56
    ∧ ({ PowerSt.on with invalid := [52, 56, 57] }).coolantSensor = none ∧ State.reset.hw.periOn 4 = false ∧ (periS []).hw.periOn 4 = true := by
  decide +kernel

theorem test_status_byte : (after .statusInput { State.reset with power := { PowerSt.on with status := 0x1000 } }).resp = Resp.ok 0x10 := by decide +kernel

/-! #### Every run -/

theorem witness_every_step : step { onS with pending := [.plicComplete 0 0] } = .next { onS with resp := Resp.ok 0 } ∧ Sound onS := by
  refine ⟨rfl, ?_, ?_⟩ <;> decide +kernel

/-! #### An image that is admitted -/

def dirBytes (type variant offset length : Nat) : List Byte :=
  leBytes 2 type ++ leBytes 1 variant ++ leBytes 1 0 ++ leBytes 2 0 ++ leBytes 2 0 ++ leBytes 8 offset ++ leBytes 8 length ++ leBytes 8 0
def pad (n : Nat) (bs : List Byte) : List Byte := bs ++ List.replicate (n - bs.length) 0

/-- The header's first 48 bytes: version 1.0, job 1 of rank 0 in a domain of 1, one level, one plane, one variant, one micro-batch, two
ingest buffers. -/
def imgHead (feature gen : Nat) : List Byte :=
  leBytes 4 0x4F4E4155 ++ leBytes 2 0x0100 ++ leBytes 1 feature ++ leBytes 1 0 ++ leBytes 8 2048 ++ leBytes 8 0 ++ leBytes 2 0 ++ leBytes 2 1
    ++ leBytes 1 1 ++ leBytes 1 1 ++ leBytes 1 0 ++ leBytes 1 1 ++ leBytes 2 0 ++ leBytes 2 gen ++ leBytes 1 1 ++ leBytes 1 1
    ++ leBytes 1 1 ++ leBytes 1 2 ++ leBytes 2 11 ++ leBytes 6 0
def imgDir : List Byte :=
  [dirBytes 0x01 0xFF 448 32, dirBytes 0x02 0 512 24, dirBytes 0x07 0xFF 576 0, dirBytes 0x08 0xFF 576 24, dirBytes 0x09 0xFF 640 0,
   dirBytes 0x0A 0xFF 640 1152, dirBytes 0x0C 0xFF 1792 16, dirBytes 0x0D 0xFF 1856 0, dirBytes 0x0F 0xFF 1856 64,
   dirBytes 0x10 0xFF 1920 0, dirBytes 0x7FFF 0xFF 1920 128].flatten
/-- Eight counts and limits of one are the least that a profile may hold. -/
def imgProfile : List Byte := List.replicate 32 0 ++ [1, 0, 1, 0, 1, 0, 1, 0] ++ List.replicate 24 0
def imgSections (switch : Nat) : List Byte :=
  pad 64 (leBytes 4 16384 ++ leBytes 4 8192 ++ leBytes 4 12288 ++ leBytes 4 16000 ++ leBytes 2 2)
    ++ pad 64 (leBytes 1 0 ++ leBytes 1 0 ++ leBytes 2 1 ++ List.replicate 12 0 ++ leBytes 1 0) ++ pad 64 []
    ++ pad 1152 (pad 64 (leBytes 2 1 ++ leBytes 1 1) ++ (List.replicate 16 imgProfile).flatten) ++ pad 64 [] ++ pad 64 (List.replicate 12 0 ++ leBytes 2 0xFFFF ++ leBytes 2 0 ++ leBytes 8 switch)
def minTail (switch : Nat) : List Byte := List.replicate 8 0 ++ pad 384 imgDir ++ imgSections switch
/-- The bytes under the domain digest of R280. -/
def digestBody (bs : List Byte) : List Byte :=
  sub bs 16 8 ++ sub bs 26 14 ++ [0, 0] ++ sub bs 42 6 ++ sectionBody bs 0x0001 ++ (sectionsOf bs 0x0002).flatMap (fun x => x.2)
    ++ sectionBody bs 0x0009 ++ sectionBody bs 0x000A
/-- The image with its digest left out. -/
def rawImage (feature gen switch : Nat) : List Byte := imgHead feature gen ++ leBytes 8 0 ++ minTail switch
def imgDigest (feature gen switch : Nat) : List Byte := (digestBytes (Config.sha384 (digestBody (rawImage feature gen switch)))).take 8
/-- What is signed, the signature of the owner's key, and the image. -/
def signedPart (feature gen switch : Nat) : List Byte := imgHead feature gen ++ imgDigest feature gen switch ++ minTail switch
def imgSignature (signed : List Byte) : List Byte := beBytes 96 (Config.ecdsaSign 0 (Config.sha384 signed)).toNat
def imgSec (signed : List Byte) : List Byte := keyId (Config.publicKey 0) ++ imgSignature signed ++ List.replicate 24 0
def signedImage (signed : List Byte) : List Byte := signed ++ imgSec signed
def minImage : List Byte := signedImage (signedPart 0x10 0 0)
/-- Its successor at step 9, of generation 1 and version 2.0. -/
def nextImage : List Byte := signedImage (signedPart 0x20 1 9)
def evalS : State :=
  { State.reset with
    hw := { hwWith [(clkBase, Fld.TNS_ALIGN.state, 4), (portBase 0, Fld.PORT_VER.domain, 0x10)] with clk := { ClkSt.empty with domain := 1 } }
    xof := { XofSt.blank with owned := true } }


/-- The image as IMAGE_PUT left it. -/
def putBytes : Nat → List Byte → SMap Byte
  | _, [] => []
  | k, b :: bs => (k, b) :: putBytes (k + 1) bs

/-- A module whose owner's key signed the image, asked to admit it, its clocks aligned at version 1.0. -/
def admitOk : State :=
  { State.reset with
    hw := { hwWith [(clkBase, Fld.TNS_ALIGN.state, 4), (portBase 0, Fld.PORT_VER.domain, 0x10), (sysBase, Fld.SYS_JSW.state, 1)] with
        clk := { ClkSt.empty with domain := 1 } }
    xof := { XofSt.blank with owned := true }
    mgmt := { MgmtSt.empty with image := putBytes 0 minImage, imageLen := 2048, bcr := { Bcr.blank with ownerKey := Config.publicKey 0 } } }

theorem putBytes_below (bs : List Byte) : ∀ k a, a < k → (putBytes k bs).get 0 a = 0 := by
  induction bs with
  | nil => intro k a _; rfl
  | cons b bs ih =>
    intro k a h
    simp only [putBytes, SMap.get, SMap.find?] at ih ⊢
    have hk : k ≠ a := by omega
    simpa [hk] using ih (k + 1) a (by omega)

theorem putBytes_get (bs : List Byte) : ∀ k i, (putBytes k bs).get 0 (k + i) = (bs[i]?).getD 0 := by
  induction bs with
  | nil => intro k i; rfl
  | cons b bs ih =>
    intro k i
    cases i with
    | zero => simp [putBytes, SMap.get, SMap.find?]
    | succ i =>
      have h := ih (k + 1) i
      have e : k + 1 + i = k + (i + 1) := by omega
      rw [e] at h
      simpa [putBytes, SMap.get, SMap.find?] using h

theorem min_length : minImage.length = 2048 := by decide +kernel
theorem next_length : nextImage.length = 2048 := by decide +kernel

theorem staged_of_put (m : MgmtSt) (bs : List Byte) (hi : m.image = putBytes 0 bs) (hn : m.imageLen = bs.length)
    (h8 : leAt bs 8 8 = bs.length) (h16 : 16 ≤ bs.length) : m.staged = bs := by
  have g : ∀ i, m.image.get 0 i = (bs[i]?).getD 0 := fun i => by
    have g := putBytes_get bs 0 i
    rw [Nat.zero_add] at g
    rw [hi, g]
  have e : (List.range 8).map (fun i => m.image.get 0 (8 + i)) = sub bs 8 8 := by
    refine List.ext_getElem (by simp [sub]; omega) (fun i h1 h2 => ?_)
    simp only [List.length_map, List.length_range] at h1
    simp only [List.getElem_map, List.getElem_range, g, sub, List.getElem_take, List.getElem_drop]
    rw [List.getElem?_eq_getElem (by omega), Option.getD_some]
  have n : leNat ((List.range 8).map (fun i => m.image.get 0 (8 + i))) = bs.length := by rw [e]; exact h8
  show (List.range (Nat.min (leNat ((List.range 8).map (fun i => m.image.get 0 (8 + i)))) m.imageLen)).map
    (fun i => m.image.get 0 i) = bs
  rw [n, hn]
  refine List.ext_getElem (by simp) (fun i h1 h2 => ?_)
  rw [List.getElem_map, List.getElem_range, g, List.getElem?_eq_getElem h2, Option.getD_some]

theorem digest_domain (bs : List Byte) : domainDigest bs = leNat ((digestBytes (Config.sha384 (digestBody bs))).take 8) := by
  simp [domainDigest, digestBody, List.append_assoc]
theorem min_digest : leAt minImage 48 8 = domainDigest minImage := by
  rw [digest_domain, show digestBody minImage = digestBody (rawImage 0x10 0 0) by decide +kernel]; rfl
theorem next_digest : leAt nextImage 48 8 = domainDigest nextImage := by
  rw [digest_domain, show digestBody nextImage = digestBody (rawImage 0x20 1 9) by decide +kernel]; rfl

theorem earliest_some (l : List (Option Finding)) (f : Finding) : (l.foldl (fun best f => match best, f with
    | none, f => f
    | some b, none => some b
    | some b, some f => if f.place < b.place then some f else some b) (some f)).isSome = true := by
  induction l generalizing f with
  | nil => rfl
  | cons x l ih =>
    cases x with
    | none => exact ih f
    | some g => simp only [List.foldl_cons]; split <;> exact ih _

theorem earliest_cons (x : Option Finding) (l : List (Option Finding)) : earliest (x :: l) = none ↔ x = none ∧ earliest l = none := by
  cases x with
  | none => simp [earliest]
  | some f =>
    have h : (earliest (some f :: l)).isSome = true := earliest_some l f
    refine ⟨fun e => ?_, fun e => absurd e.1 (by simp)⟩
    rw [e] at h
    simp at h

theorem min_format : checkFormat minImage = none := by
  unfold checkFormat
  simp only [List.cons_append, earliest_cons]
  exact ⟨by rw [min_digest, decide_eq_true rfl, Bool.and_true]; decide +kernel, by decide +kernel⟩
theorem next_format : checkFormat nextImage = none := by
  unfold checkFormat
  simp only [List.cons_append, earliest_cons]
  exact ⟨by rw [next_digest, decide_eq_true rfl, Bool.and_true]; decide +kernel, by decide +kernel⟩

/-! A device record that holds no coefficients models no energy, and no window of it is above its limit. -/

theorem sumOf_zero {α : Type} (f : α → Nat) (hf : ∀ x, f x = 0) (l : List α) : sumOf l f = 0 := by
  have z : ∀ l : List α, ∀ n, (l.map f).foldl (· + ·) n = n := by
    intro l
    induction l with
    | nil => intro n; rfl
    | cons x l ih => intro n; simp only [List.map_cons, List.foldl_cons, hf, Nat.add_zero]; exact ih n
  exact z l 0

theorem firstOver_zero (limit : Nat) (l : List (Nat × Nat)) (hl : ∀ x ∈ l, x = (0, 0)) : ∀ t, firstOver limit t 0 l = none := by
  induction l with
  | nil => intro t; rfl
  | cons x l ih =>
    intro t
    rw [firstOver, if_neg (Nat.not_lt_zero _), hl x List.mem_cons_self]
    exact ih (fun y hy => hl y (List.mem_cons_of_mem _ hy)) (t + 1)

theorem tickEnergy_zero (h : Hw) (i : Image) (m : Model) (t : Nat) : h.tickEnergy i [] m t = 0 := by
  have c : ∀ k, coefficient [] k = 0 := fun k => by simp [coefficient]
  simp [Hw.tickEnergy, c, ceilDiv]

theorem profile_zero (h : Hw) (ms : List Model) (i : Image) : h.profile ms i [] = List.replicate i.slot 0 := by
  have c : ∀ k, coefficient [] k = 0 := fun k => by simp [coefficient]
  have m : ∀ (l : List Model) (t : Nat), (l.map (fun m => h.tickEnergy i [] m t)).foldl Nat.max 0 = 0 := by
    intro l t
    induction l with
    | nil => rfl
    | cons x l ih => simpa [tickEnergy_zero] using ih
  have e : ∀ t, h.idleEnergy i [] t = 0 := fun t => by simp [Hw.idleEnergy, Hw.staticEnergy, c, ceilDiv]
  refine List.ext_getElem (by simp [Hw.profile]) (fun k h1 h2 => ?_)
  simp only [Hw.profile, List.getElem_map, e, m, List.getElem_replicate]

theorem overWindow_zero (n w p : Nat) : overWindow (List.replicate n 0) w p = none := by
  have s : ∀ k, sumOf (List.replicate k 0) id = 0 := by
    intro k
    induction k with
    | zero => rfl
    | succ k ih => simpa [sumOf, List.replicate_succ] using ih
  simp only [overWindow, List.take_replicate, List.drop_replicate, s, Nat.mul_zero, Nat.zero_add]
  refine firstOver_zero _ _ (fun x hx => ?_) 0
  rw [List.replicate_append_replicate] at hx
  obtain ⟨a, b⟩ := x
  have := List.of_mem_zip hx
  rw [List.eq_of_mem_replicate this.1, List.eq_of_mem_replicate this.2]

theorem no_energy (h : Hw) (ms : List Model) (i : Image) : firstOf (h.checkEnergy ms i []) = none := by
  simp [Hw.checkEnergy, profile_zero, overWindow_zero, firstOf]

/-- The checks from 0x05 on refuse nothing when none of them does, without coefficients of energy. -/
theorem rest_none (h : Hw) (bs : List Byte) (i : Image) (map : BitVec 4096) (h1 : h.checkEncoding bs i = none)
    (h2 : checkArrays bs map = none) (h3 : [earliest (checkSequence bs i ++ sequenceFindings (h.schedule bs i) i), checkFrame bs i, checkKeys bs i,
      checkPlans bs i, h.checkQuota bs i] = List.replicate 5 none)
    (h4 : earliest (h.checkBuffers bs i ++ bufferFindings (h.schedule bs i) i) = none)
    (h5 : earliest (deadlineFindings (h.schedule bs i) i ++ updTiming bs i) = none) (h6 : h.checkPorts bs i = none)
    (h7 : earliest (checkCalendars bs i h.rank ++ h.portFindings (h.schedule bs i) bs i) = none)
    (h8 : earliest (h.checkMigrations bs i ++ h.bankFindings (h.schedule bs i) bs i ++ h.updateTraffic (h.schedule bs i) bs i
      ++ h.exchangeFindings (h.schedule bs i) bs i) = none)
    (h9 : earliest (checkSlack bs i ++ slackFindings (h.schedule bs i) i) = none) : h.checkRest bs i map [] = none := by
  simp only [List.replicate_succ, List.replicate_zero, List.cons.injEq, and_true] at h3
  obtain ⟨a, b, c, d, e⟩ := h3
  simp [Hw.checkRest, Hw.checkSchedule, firstOf, h1, h2, h4, h5, h6, h7, h9, a, b, c, d, e]
  exact ⟨by simpa using h8, by simpa [firstOf] using no_energy h (h.schedule bs i) i⟩

theorem min_rest : checkSwitch minImage (imageOf minImage) = none ∧ admitOk.hw.checkDomain (imageOf minImage) = none
    ∧ checkFeature minImage (imageOf minImage) admitOk.hw.domainVer = none
    ∧ admitOk.hw.checkRest minImage (imageOf minImage) admitOk.mgmt.record.map admitOk.mgmt.record.energy = none := by
  refine ⟨by decide +kernel, by decide +kernel, by decide +kernel, rest_none _ _ _ _ ?_ ?_ ?_ ?_ ?_ ?_ ?_ ?_ ?_⟩ <;> decide +kernel

/-- A signature section that its key verifies. -/
theorem signed_accepted (s : State) (signed : List Byte) (ho : s.xof.owned = true) (hk : s.mgmt.bcr.imageKeys = [Config.publicKey 0])
    (hv : Config.ecdsaVerify (Config.publicKey 0) (Config.sha384 signed) (sigOf (imgSignature signed)) = true) :
    s.checkSignature (signedImage signed) = none := by
  have hl : signed.length = (signedImage signed).length - 128 := by
    have e : (imgSec signed).length = 128 := rfl
    rw [signedImage, List.length_append, e]; omega
  have e1 : sub (imgSec signed) 8 96 = imgSignature signed := rfl
  have e2 : sub (imgSec signed) 0 8 = keyId (Config.publicKey 0) := rfl
  have e4 : (decide ((imgSec signed).length = 128) && (sub (imgSec signed) 104 24).all (fun b => b == 0)) = true := rfl
  have e6 : (signedImage signed).take ((signedImage signed).length - 128) = signed := List.take_left' hl
  have e7 : (signedImage signed).drop ((signedImage signed).length - 128) = imgSec signed := List.drop_left' hl
  rw [State.checkSignature, sigOk, e6, e7, e4, hk, ho]
  simp only [List.any_cons, List.any_nil, e1, e2, decide_true, hv, Bool.and_true, Bool.or_false, need, if_true]

/-- If the signature verifies (assumption 5), the image is admitted. -/
theorem witness_admission_accepts
    (hv : Config.ecdsaVerify (Config.publicKey 0) (Config.sha384 (signedPart 0x10 0 0)) (sigOf (imgSignature (signedPart 0x10 0 0))) = true) :
    admitOk.mgmt.successorOp = false ∧ admitOk.hw.jswState = 1 ∧ admitOk.admissionFinding admitOk.mgmt.staged = none := by
  refine ⟨rfl, by decide +kernel, ?_⟩
  rw [staged_of_put admitOk.mgmt minImage rfl (by rw [min_length]; rfl) (by rw [min_length]; decide +kernel) (by rw [min_length]; decide)]
  simp [State.admissionFinding, firstOf, min_format, min_rest,
    show admitOk.checkSignature minImage = none from signed_accepted admitOk _ rfl rfl hv]

/-- The job of the first image, asked to admit the second. -/
def runningJob : Job := { job0 with img := imageOf minImage }
def succOk : State :=
  { admitOk with
    hw := { admitOk.hw.setFld (portBase 0) Fld.PORT_VER.domain 0x20 with job := some runningJob }
    mgmt := { admitOk.mgmt with image := putBytes 0 nextImage, successorOp := true } }

theorem next_rest : succOk.hw.checkSuccessorStep nextImage (imageOf nextImage) = none
    ∧ succOk.hw.checkSuccessorDomain runningJob (imageOf nextImage) = none ∧ 0x20 ≤ succOk.hw.domainVer
    ∧ checkFeature nextImage (imageOf nextImage) succOk.hw.domainVer = none
    ∧ succOk.hw.checkRest nextImage (imageOf nextImage) succOk.mgmt.record.map succOk.mgmt.record.energy = none
    ∧ checkSuccessorRegions nextImage runningJob (imageOf nextImage) = none ∧ checkSuccessorPlans nextImage runningJob (imageOf nextImage) = none
    ∧ succOk.hw.checkUnion nextImage runningJob (imageOf nextImage) = none := by
  refine ⟨by decide +kernel, by decide +kernel, by decide +kernel, by decide +kernel, rest_none _ _ _ _ ?_ ?_ ?_ ?_ ?_ ?_ ?_ ?_ ?_,
    by decide +kernel, by decide +kernel, by decide +kernel⟩ <;> decide +kernel

theorem witness_successor_accepts
    (hv : Config.ecdsaVerify (Config.publicKey 0) (Config.sha384 (signedPart 0x20 1 9)) (sigOf (imgSignature (signedPart 0x20 1 9))) = true) :
    succOk.mgmt.successorOp = true ∧ succOk.hw.job = some runningJob ∧ runningJob.result ≠ some .halt
      ∧ succOk.successorFinding runningJob succOk.mgmt.staged = none := by
  refine ⟨rfl, rfl, by decide, ?_⟩
  rw [staged_of_put succOk.mgmt nextImage rfl (by rw [next_length]; rfl) (by rw [next_length]; decide +kernel) (by rw [next_length]; decide)]
  simp [State.successorFinding, lowestOf, next_format, next_rest,
    show succOk.checkSignature nextImage = none from signed_accepted succOk _ rfl rfl hv]

/-! A share that restores. -/

def shareParts : List Section :=
  [⟨0x20, 0, leBytes 8 5 ++ List.replicate 16 0⟩, ⟨0x21, 0, []⟩, ⟨0x22, 0, []⟩] ++ (List.range 12).map (fun d => ⟨0x23, d, []⟩)
def restoreHw : Hw := (stopS restoreJob 10).hw
def shareHead : List Byte := restoreHw.containerHead 0 shareMagic 3 0 512 0 15
def shareBody : List Byte := directory 488 shareParts ++ shareParts.flatMap (fun s => pad8 s.bytes)
def shareBytes : List Byte := shareHead ++ beBytes 48 (Config.sha384 (shareHead ++ List.replicate 48 0 ++ shareBody)).toNat ++ shareBody
def restoreS : State := onHw0 { restoreHw with mem := putBytes 0 shareBytes }

theorem share_read : restoreS.hw.read 0 (restoreS.hw.readNat 8 8) = shareBytes := by
  have b : ∀ i, restoreS.hw.byte i = (shareBytes[i]?).getD 0 := fun i => by
    have g := putBytes_get shareBytes 0 i
    rw [Nat.zero_add] at g
    exact g
  have n : restoreS.hw.readNat 8 8 = shareBytes.length := by
    simp only [Hw.readNat, Hw.read, b]
    decide +kernel
  rw [n]
  refine List.ext_getElem (by simp [Hw.read]) (fun i h1 h2 => ?_)
  simp only [Hw.read, List.getElem_map, List.getElem_range, Nat.zero_add, b]
  rw [List.getElem?_eq_getElem h2, Option.getD_some]

theorem witness_share_right : restoreS.hw.job = some restoreJob
    ∧ restoreS.hw.shareRight restoreJob (restoreS.hw.read (0 : Addr).toNat (restoreS.hw.readNat ((0 : Addr).toNat + 8) 8)) = true := by
  refine ⟨by decide +kernel, ?_⟩
  rw [show (0 : Addr).toNat = 0 from rfl, Nat.zero_add, share_read]
  have z : shareBytes.take 80 ++ List.replicate 48 0 ++ shareBytes.drop 128 = shareHead ++ List.replicate 48 0 ++ shareBody := by decide +kernel
  have d : sub shareBytes 80 48 = beBytes 48 (Config.sha384 (shareHead ++ List.replicate 48 0 ++ shareBody)).toNat := rfl
  unfold Hw.shareRight
  rw [z, d]
  simp only [decide_true, Bool.and_true, Bool.and_eq_true]
  refine ⟨⟨⟨⟨⟨⟨⟨⟨⟨?_, ?_⟩, ?_⟩, ?_⟩, ?_⟩, ?_⟩, ?_⟩, ?_⟩, ?_⟩, ?_⟩ <;> decide +kernel

/-! Certificates and staged firmware, on the condition that their signatures verify (assumption 5). -/

def cert2 : Cert := ⟨Config.publicKey 1, 2, 7, 0⟩

theorem witness_auth (hc : certSigned cert2 (Config.publicKey 0) = true) (hv : Config.ecdsaVerify (Config.publicKey 1) 0 0 = true) :
    (!authS.inRecovery && ({ Bcr.blank with ownerKey := Config.publicKey 0 }).accepts cert2 2 && Config.ecdsaVerify cert2.key (session0 true none).digest 0)
      = true ∧ ({ Bcr.blank with ownerKey := Config.publicKey 0 }).accepts { cert2 with role := 1 } 2 = false := by
  have r : authS.inRecovery = false := by decide +kernel
  refine ⟨?_, by decide +kernel⟩
  rw [r, show Bcr.accepts { Bcr.blank with ownerKey := Config.publicKey 0 } cert2 2 = certSigned cert2 (Config.publicKey 0) from rfl, hc,
    show Config.ecdsaVerify cert2.key (session0 true none).digest 0 = Config.ecdsaVerify (Config.publicKey 1) 0 0 from rfl, hv]
  rfl

/-- A firmware image of 8 bytes under one of Morruna's keys, on an unowned module. -/
def fwBody : List Byte :=
  leBytes 4 0x57464D57 ++ leBytes 2 0x0100 ++ leBytes 2 0 ++ leBytes 8 0 ++ leBytes 4 8 ++ leBytes 4 0 ++ leBytes 8 0
    ++ keyBytes (Config.publicKey 0) ++ List.replicate 127 0 ++ List.replicate 8 0
def fwImage : List Byte := fwBody ++ imgSec fwBody ++ imgSec fwBody
def flashS : State :=
  { authS with mgmt := { authS.mgmt with flashTarget := some true, flashStage := putBytes 0 fwImage, flashLen := 520 } }

set_option exponentiation.threshold 800 in
theorem key_back (k : BitVec 776) : BitVec.ofNat 776 (beNat (keyBytes k)) = k := by
  have h : beNat (beBytes 97 k.toNat) = k.toNat % 2 ^ (8 * 97) := by
    rw [beNat, beBytes, List.reverse_reverse, leNat_leBytes]
  rw [keyBytes, h]
  apply BitVec.eq_of_toNat_eq
  rw [BitVec.toNat_ofNat, Nat.mod_mod, Nat.mod_eq_of_lt k.isLt]

theorem witness_flash_good (hk : Config.morrunaKeys.contains (Config.publicKey 0) = true)
    (hv : Config.ecdsaVerify (Config.publicKey 0) (Config.sha384 fwBody) (sigOf (imgSignature fwBody)) = true) :
    flashS.mgmt.flashWindow = none ∧ flashS.mgmt.flashTarget = some true ∧ flashS.stageGood true = true := by
  have e : (List.range 520).map (fun i => (putBytes 0 fwImage).get 0 i) = fwImage := by
    refine List.ext_getElem (by decide +kernel) (fun i h1 h2 => ?_)
    have g := putBytes_get fwImage 0 i
    rw [Nat.zero_add] at g
    rw [List.getElem_map, List.getElem_range, g, List.getElem?_eq_getElem h2, Option.getD_some]
  have k : fwMorruna fwImage = Config.publicKey 0 := by
    rw [fwMorruna, show sub fwImage 32 97 = keyBytes (Config.publicKey 0) from rfl, key_back]
  have n : fwLength fwImage = 8 := by decide +kernel
  have b : sub fwImage 0 264 = fwBody := by
    rw [sub, fwImage, List.append_assoc, List.drop_zero, List.take_left' (by decide +kernel)]
  have s1 : sub fwImage 264 128 = imgSec fwBody := by
    rw [sub, fwImage, List.append_assoc, List.drop_left' (by decide +kernel)]; exact List.take_left' (by decide +kernel)
  have s2 : sub fwImage 392 128 = imgSec fwBody := by
    rw [sub, fwImage, List.drop_left' (by decide +kernel)]; rfl
  have o : sigOk [Config.publicKey 0] fwBody (imgSec fwBody) = true := by
    have e1 : sub (imgSec fwBody) 8 96 = imgSignature fwBody := rfl
    have e2 : sub (imgSec fwBody) 0 8 = keyId (Config.publicKey 0) := rfl
    have e4 : (decide ((imgSec fwBody).length = 128) && (sub (imgSec fwBody) 104 24).all (fun b => b == 0)) = true := by decide +kernel
    rw [sigOk, e4]
    simp only [List.any_cons, List.any_nil, e1, e2, decide_true, hv, Bool.and_true, Bool.or_false]
  have hh : fwHeaderOk fwImage = true := by decide +kernel
  refine ⟨rfl, rfl, ?_⟩
  have l : flashS.mgmt.flashLen = 520 := by simp only [flashS]
  have f : flashS.mgmt.flashStage = putBytes 0 fwImage := by simp only [flashS]
  rw [State.stageGood, l, f, e]
  rw [show (if flashS.xof.owner.isSome = true then some (bcrOf flashS.mgmt.bcrImage).ownerKey else none) = none from rfl, fwSigned, k, n, hh, hk, b, s1, s2]
  simp only [Option.getD_none, o, Bool.true_and, if_true]
  decide +kernel

end Sys2Proof.Tests
end

section
/-!
SUPPORT. Staging deadlines (R353, R354): the check of a slot as its four stages (the open values of blocks that nobody sent,
the pool freed, the incomplete block noted, the non-finite block noted), with what each stage writes and what it leaves.
-/
namespace Sys2Proof.Machine

variable {β : Type} {W : Nat → Prop} {P : Hw → β}

/-! ### What a setting event of a flag writes, R20 -/

/-- Two fields of one unit share no bit. -/
abbrev Fld.Apart (f g : Fld) : Prop := g.off ≠ f.off ∨ f.hi < g.lo ∨ g.hi < f.lo

/-- The record of a setting event is no register. -/
theorem Hw.fld_raise (h : Hw) (base base' : Nat) (f c g : Fld) (r k d : Nat) :
    (h.raise base f c r k d).fld base' g = ((h.setFld base f 1).count base c 1).fld base' g :=
  Hw.event_keeps (R := fun _ => True) (P := fun h => h.fld base' g) (fun _ _ _ _ => rfl) _ _ _ _ trivial

/-- The flag of a setting event is set, whatever it held. -/
theorem Hw.fld_raise_flag {h : Hw} {base : Nat} {f c : Fld} {r k d : Nat} (h64 : f.hi < 64) (hc : c.off ≠ f.off) :
    (h.raise base f c r k d).fld base f = 1 % 2 ^ (f.hi + 1 - f.lo) := by
  rw [Hw.fld_raise, Hw.count, Hw.fld_setFld_apart _ _ _ _ _ _ (by omega), Hw.fld_setFld_same _ _ _ _ h64]

/-- Its counter is one higher, modulo its width. -/
theorem Hw.fld_raise_count {h : Hw} {base : Nat} {f c : Fld} {r k d : Nat} (h64 : c.hi < 64) (hc : c.off ≠ f.off) :
    (h.raise base f c r k d).fld base c = (h.fld base c + 1) % 2 ^ (c.hi + 1 - c.lo) := by
  rw [Hw.fld_raise, Hw.count, Hw.fld_setFld_same _ _ _ _ h64, Hw.fld_setFld_apart _ _ _ _ _ _ (by omega)]

/-- A field that shares no bit with the flag and none with the counter stands. -/
theorem Hw.fld_raise_ne {h : Hw} {base : Nat} {f c g : Fld} {r k d : Nat} (h64 : g.hi < 64)
    (hf : f.Apart g) (hc : c.Apart g) : (h.raise base f c r k d).fld base g = h.fld base g := by
  rw [Hw.fld_raise, Hw.count, Hw.fld_setFld_ne _ _ _ _ _ h64 hc, Hw.fld_setFld_ne _ _ _ _ _ h64 hf]

/-- While a job is admitted, a signal joins those on their way to inflection control (R480). -/
theorem Hw.signal_signals (h : Hw) (b : Nat) (x : Option (Rank × Nat)) (hj : h.job ≠ none) :
    (h.signal b x).infl.signals = h.infl.signals ++ [⟨false, b, h.tense0, x⟩] := by
  unfold Hw.signal
  split
  · contradiction
  · rfl

/-! ### Readers that a slice's events leave alone -/

/-- `P` reads nothing that an event changes whose flag and counter lie in `W`. -/
structure EventOk (W : Nat → Prop) (P : Hw → β) : Prop where
  regs : RegsOk W P
  dbg : DebugOk P
  signals : SignalsOk P

theorem EventOk.reg (a : Nat) : EventOk (fun b => b ≠ a) (fun h => h.reg a) :=
  ⟨RegsOk.reg a, fun _ _ => rfl, fun _ _ => rfl⟩

theorem EventOk.mem : EventOk (fun _ => True) Hw.mem := ⟨fun _ _ _ _ => rfl, fun _ _ => rfl, fun _ _ => rfl⟩
theorem EventOk.slices : EventOk (fun _ => True) Hw.slices := ⟨fun _ _ _ _ => rfl, fun _ _ => rfl, fun _ _ => rfl⟩
theorem EventOk.job : EventOk (fun _ => True) Hw.job := ⟨fun _ _ _ _ => rfl, fun _ _ => rfl, fun _ _ => rfl⟩
theorem EventOk.tense0 : EventOk (fun _ => True) Hw.tense0 := ⟨fun _ _ _ _ => rfl, fun _ _ => rfl, fun _ _ => rfl⟩

/-! ### A staging event that a slice raises and signals, Table 9.7 -/

/-- A setting event of a slice with its ring record and its signal to inflection control. -/
def Hw.stagingEvent (h : Hw) (sl : Nat) (flag cnt : Fld) (code detail bit : Nat) (suspect : Option (Rank × Nat)) : Hw :=
  (h.raise (sliceBase sl) flag cnt (ringSlice sl) code detail).signal bit suspect

section
variable {h : Hw} {sl : Nat} {f c : Fld} {code detail bit : Nat} {suspect : Option (Rank × Nat)}

theorem Hw.stagingEvent_keeps (ok : EventOk W P) (hf : W (sliceBase sl + f.off)) (hc : W (sliceBase sl + c.off)) :
    P (h.stagingEvent sl f c code detail bit suspect) = P h :=
  (Hw.signal_keeps ok.signals _ _ _).trans
    (Hw.raise_keeps ok.regs (ok.dbg.rings fun _ => True) _ _ _ _ _ _ _ hf hc trivial)

theorem Hw.fld_stagingEvent {base : Nat} {g : Fld} : (h.stagingEvent sl f c code detail bit suspect).fld base g
    = (h.raise (sliceBase sl) f c (ringSlice sl) code detail).fld base g :=
  Hw.signal_keeps (P := fun h => h.fld base g) (fun _ _ => rfl) _ _ _

theorem Hw.stagingEvent_signals (hj : h.job ≠ none) : (h.stagingEvent sl f c code detail bit suspect).infl.signals
    = h.infl.signals ++ [⟨false, bit, h.tense0, suspect⟩] :=
  Hw.signal_signals (h.raise (sliceBase sl) f c (ringSlice sl) code detail) bit suspect hj

/-- A signal that was on its way stays on its way. -/
theorem Hw.mem_signals_stagingEvent (hj : h.job ≠ none) {x : Signal} (hx : x ∈ h.infl.signals) :
    x ∈ (h.stagingEvent sl f c code detail bit suspect).infl.signals := by
  rw [Hw.stagingEvent_signals hj]
  exact List.mem_append_left _ hx
end

/-! ### The four stages of the deadline check -/

/-- Values the spec leaves open go to memory, and to nothing else but the count of free values. -/
theorem Hw.blankUntouched_keeps (hm : NoMem P) (hf : FreeOk P) (h : Hw) (e : SlotEntry) :
    P (h.blankUntouched e) = P h := by
  have word : ∀ (g : Hw) (a : Nat), P (g.freeWord.2.writeNat a 8 g.freeWord.1.toNat) = P g := fun g _ =>
    (MemFn.keeps hm (MemFn.writeNat _ _ _) _).trans (hf g _)
  unfold Hw.blankUntouched
  split
  · refine foldl_keeps P _ _ (fun g b _ => ?_) _
    split
    · rfl
    · exact foldl_keeps P _ _ (fun g _ _ => word g _) _
  · rfl

/-- Every accumulator of a dense slot is defined. -/
theorem Hw.blankUntouched_dense (h : Hw) (e : SlotEntry) (hs : e.sparse = false) : h.blankUntouched e = h := by
  simp [Hw.blankUntouched, hs]

theorem Hw.setPool_keeps (hr : RegsOk W P) (hs : SlicesOk P) (h : Hw) (sl : Nat) (p : List (Nat × Nat))
    (hw : W (sliceBase sl + Fld.SLC_STG_STATUS.pool.off)) : P (h.setPool sl p) = P h := by
  have peak : W (sliceBase sl + Fld.SLC_STG_STATUS.peak.off) := hw
  rw [Hw.setPool, Hw.peak_keeps hr _ _ _ _ peak, Hw.setFld_keeps hr _ _ _ _ hw]
  exact hs h _

theorem Hw.setPool_pool (h : Hw) (sl : Nat) (p : List (Nat × Nat)) : ((h.setPool sl p).slice sl).pool = p := by
  have regs : RegsOk (fun _ => True) Hw.slices := EventOk.slices.regs
  rw [Hw.slice, Hw.setPool, Hw.peak_keeps regs _ _ _ _ trivial, Hw.setFld_keeps regs _ _ _ _ trivial]
  exact congrArg SliceSt.pool (Hw.slice_setSlice_same h sl _)

/-- The slot's entries of its slice's pool are free. -/
def Hw.freeSlotPool (h : Hw) (slot : Nat) (e : SlotEntry) : Hw :=
  h.setPool (sliceOf e.base) ((h.slice (sliceOf e.base)).pool.filter (fun p => decide (p.1 ≠ slot)))

/-- R353: the lowest incomplete block, noted with the contributor it waits for. -/
def Hw.noteIncomplete (h : Hw) (slot : Nat) (e : SlotEntry) : Option (Nat × Nat) → Hw
  | none => h
  | some (b, i) =>
    let rank := (e.contributors[i]?).getD 0
    h.stagingEvent (sliceOf e.base) Fld.SLC_STG_FLAGS.incomplete Fld.SLC_STG_CNT_D.incomplete 0x2E
      (slot + rank * 2 ^ 12 + b * 2 ^ 26) 13 (some (BitVec.ofNat 14 rank, 0))

/-- R354: the lowest complete block that holds a non-finite value, noted. -/
def Hw.noteNonFinite (h : Hw) (slot : Nat) (e : SlotEntry) : Option Nat → Hw
  | none => h
  | some b => h.stagingEvent (sliceOf e.base) Fld.SLC_STG_FLAGS.nonfinite Fld.SLC_STG_CNT_D.nonfinite 0x2F
      (slot + b * 2 ^ 26) 3 none

/-- The block that the check for non-finite values finds: in a watched slot alone, open values included. -/
def Hw.badBlock (h : Hw) (slot : Nat) (e : SlotEntry) : Option Nat :=
  if e.watched then (h.blankUntouched e).nonFiniteBlock slot e else none

/-- The deadline check up to the check for non-finite values. -/
def Hw.checkedComplete (h : Hw) (slot : Nat) (e : SlotEntry) : Hw :=
  ((h.blankUntouched e).freeSlotPool slot e).noteIncomplete slot e (h.incomplete slot e)

theorem Hw.stagingDeadline_eq (h : Hw) (slot : Nat) (e : SlotEntry) :
    h.stagingDeadline slot e = (h.checkedComplete slot e).noteNonFinite slot e (h.badBlock slot e) := rfl

section
variable (h : Hw) (slot : Nat) (e : SlotEntry)

theorem Hw.freeSlotPool_pool : ∀ p ∈ ((h.freeSlotPool slot e).slice (sliceOf e.base)).pool, p.1 ≠ slot := by
  intro p hp
  rw [Hw.freeSlotPool, Hw.setPool_pool] at hp
  exact of_decide_eq_true (List.mem_filter.mp hp).2

theorem Hw.noteIncomplete_keeps (ok : EventOk W P) (low : Option (Nat × Nat))
    (hw : Within W (sliceBase (sliceOf e.base)) 0x10000) : P (h.noteIncomplete slot e low) = P h := by
  cases low with
  | none => rfl
  | some x => exact Hw.stagingEvent_keeps ok (hw _ (by decide)) (hw _ (by decide))

theorem Hw.noteNonFinite_keeps (ok : EventOk W P) (bad : Option Nat)
    (hw : Within W (sliceBase (sliceOf e.base)) 0x10000) : P (h.noteNonFinite slot e bad) = P h := by
  cases bad with
  | none => rfl
  | some b => exact Hw.stagingEvent_keeps ok (hw _ (by decide)) (hw _ (by decide))

/-- The check for non-finite values writes its flag and its counter alone. -/
theorem Hw.fld_noteNonFinite_ne (bad : Option Nat) (g : Fld) (h64 : g.hi < 64)
    (hf : Fld.SLC_STG_FLAGS.nonfinite.Apart g) (hc : Fld.SLC_STG_CNT_D.nonfinite.Apart g) :
    (h.noteNonFinite slot e bad).fld (sliceBase (sliceOf e.base)) g = h.fld (sliceBase (sliceOf e.base)) g := by
  cases bad with
  | none => rfl
  | some b => exact Hw.fld_stagingEvent.trans (Hw.fld_raise_ne h64 hf hc)

/-- What was on its way to inflection control before the check for non-finite values stays on its way. -/
theorem Hw.mem_signals_noteNonFinite (bad : Option Nat) (hj : h.job ≠ none) {x : Signal} (hx : x ∈ h.infl.signals) :
    x ∈ (h.noteNonFinite slot e bad).infl.signals := by
  cases bad with
  | none => exact hx
  | some b => exact Hw.mem_signals_stagingEvent hj hx

/-! ### What the whole check leaves as it was -/

/-- The freed pool is seen by no reader of another register that reads no slice. -/
theorem Hw.freedBlank_keeps (hr : RegsOk W P) (hs : SlicesOk P) (hb : P (h.blankUntouched e) = P h)
    (hw : W (sliceBase (sliceOf e.base) + Fld.SLC_STG_STATUS.pool.off)) : P ((h.blankUntouched e).freeSlotPool slot e) = P h :=
  (Hw.setPool_keeps hr hs _ _ _ hw).trans hb

theorem Hw.checkedComplete_keeps (ok : EventOk W P) (hs : SlicesOk P) (hb : P (h.blankUntouched e) = P h)
    (hw : Within W (sliceBase (sliceOf e.base)) 0x10000) : P (h.checkedComplete slot e) = P h :=
  (Hw.noteIncomplete_keeps _ _ _ ok _ hw).trans (Hw.freedBlank_keeps _ _ _ ok.regs hs hb (hw _ (by decide)))

theorem Hw.stagingDeadline_keeps (ok : EventOk W P) (hs : SlicesOk P) (hb : P (h.blankUntouched e) = P h)
    (hw : Within W (sliceBase (sliceOf e.base)) 0x10000) : P (h.stagingDeadline slot e) = P h :=
  (Hw.noteNonFinite_keeps _ _ _ ok _ hw).trans (Hw.checkedComplete_keeps _ _ _ ok hs hb hw)

theorem Hw.stagingDeadline_mem_dense (hs : e.sparse = false) : (h.stagingDeadline slot e).mem = h.mem :=
  Hw.stagingDeadline_keeps _ _ _ EventOk.mem (fun _ _ => rfl) (congrArg Hw.mem (Hw.blankUntouched_dense h e hs))
    (fun _ _ => trivial)

theorem Hw.stagingDeadline_regs : SameRegsOutside (sliceBase (sliceOf e.base)) 0x10000 h (h.stagingDeadline slot e) :=
  fun a ha => Hw.stagingDeadline_keeps _ _ _ (EventOk.reg a) (fun _ _ => rfl)
    (Hw.blankUntouched_keeps (P := fun h => h.reg a) (fun _ _ => rfl) (fun _ _ => rfl) h e) (fun o ho => by omega)

theorem Hw.freedBlank_job : ((h.blankUntouched e).freeSlotPool slot e).job = h.job :=
  Hw.freedBlank_keeps _ _ _ EventOk.job.regs (fun _ _ => rfl)
    (Hw.blankUntouched_keeps (fun _ _ => rfl) (fun _ _ => rfl) h e) trivial

theorem Hw.freedBlank_tense0 : ((h.blankUntouched e).freeSlotPool slot e).tense0 = h.tense0 :=
  Hw.freedBlank_keeps _ _ _ EventOk.tense0.regs (fun _ _ => rfl)
    (Hw.blankUntouched_keeps (fun _ _ => rfl) (fun _ _ => rfl) h e) trivial

/-- A field in another register than the pool's status. -/
theorem Hw.freedBlank_fld (g : Fld) (hg : g.off ≠ Fld.SLC_STG_STATUS.pool.off) :
    ((h.blankUntouched e).freeSlotPool slot e).fld (sliceBase (sliceOf e.base)) g = h.fld (sliceBase (sliceOf e.base)) g :=
  Hw.freedBlank_keeps _ _ _ (RegsOk.fld _ g) (fun _ _ => rfl)
    (Hw.blankUntouched_keeps (P := fun h => h.fld _ g) (fun _ _ => rfl) (fun _ _ => rfl) h e) (by omega)

theorem Hw.checkedComplete_job : (h.checkedComplete slot e).job = h.job :=
  (Hw.noteIncomplete_keeps _ _ _ EventOk.job _ (fun _ _ => trivial)).trans (Hw.freedBlank_job h slot e)

theorem Hw.checkedComplete_tense0 : (h.checkedComplete slot e).tense0 = h.tense0 :=
  (Hw.noteIncomplete_keeps _ _ _ EventOk.tense0 _ (fun _ _ => trivial)).trans (Hw.freedBlank_tense0 h slot e)

/-! ### What the check finds -/

theorem Hw.stagingDeadline_pool :
    ∀ p ∈ ((h.stagingDeadline slot e).slice (sliceOf e.base)).pool, p.1 ≠ slot := by
  have slices : (h.stagingDeadline slot e).slices = ((h.blankUntouched e).freeSlotPool slot e).slices :=
    (Hw.noteNonFinite_keeps _ _ _ EventOk.slices _ (fun _ _ => trivial)).trans
      (Hw.noteIncomplete_keeps _ _ _ EventOk.slices _ (fun _ _ => trivial))
  rw [Hw.slice, slices]
  exact Hw.freeSlotPool_pool _ _ _

/-- The fields of R353 are settled before the check for non-finite values. -/
theorem Hw.stagingDeadline_fld (g : Fld) (h64 : g.hi < 64) (hf : Fld.SLC_STG_FLAGS.nonfinite.Apart g)
    (hc : Fld.SLC_STG_CNT_D.nonfinite.Apart g) : (h.stagingDeadline slot e).fld (sliceBase (sliceOf e.base)) g
      = (h.checkedComplete slot e).fld (sliceBase (sliceOf e.base)) g :=
  Hw.fld_noteNonFinite_ne _ _ _ _ _ h64 hf hc

/-- R353: an incomplete slot is flagged and counted. -/
theorem Hw.stagingDeadline_incomplete {b i : Nat} (hlow : h.incomplete slot e = some (b, i)) :
    let base := sliceBase (sliceOf e.base)
    (h.stagingDeadline slot e).fld base Fld.SLC_STG_FLAGS.incomplete = 1 ∧
    (h.stagingDeadline slot e).fld base Fld.SLC_STG_CNT_D.incomplete
      = (h.fld base Fld.SLC_STG_CNT_D.incomplete + 1) % 2 ^ 32 := by
  intro base
  constructor <;> rw [Hw.stagingDeadline_fld _ _ _ _ (by decide) (by decide) (by decide), Hw.checkedComplete, hlow]
  · exact Hw.fld_stagingEvent.trans (Hw.fld_raise_flag (by decide) (by decide))
  · rw [← Hw.freedBlank_fld h slot e _ (by decide)]
    exact Hw.fld_stagingEvent.trans (Hw.fld_raise_count (by decide) (by decide))

/-- R353: a complete slot leaves the flag as it stood. -/
theorem Hw.stagingDeadline_complete (hlow : h.incomplete slot e = none) :
    (h.stagingDeadline slot e).fld (sliceBase (sliceOf e.base)) Fld.SLC_STG_FLAGS.incomplete
      = h.fld (sliceBase (sliceOf e.base)) Fld.SLC_STG_FLAGS.incomplete := by
  rw [Hw.stagingDeadline_fld _ _ _ _ (by decide) (by decide) (by decide), Hw.checkedComplete, hlow]
  exact Hw.freedBlank_fld _ _ _ _ (by decide)

/-- R353: an incomplete slot is signalled with the contributor it waits for. -/
theorem Hw.stagingDeadline_suspect {b i : Nat} (hj : h.job ≠ none) (hlow : h.incomplete slot e = some (b, i)) :
    (⟨false, 13, h.tense0, some (BitVec.ofNat 14 ((e.contributors[i]?).getD 0), 0)⟩ : Signal)
      ∈ (h.stagingDeadline slot e).infl.signals := by
  have job : (h.checkedComplete slot e).job ≠ none := Hw.checkedComplete_job h slot e ▸ hj
  refine Hw.mem_signals_noteNonFinite _ _ _ _ job ?_
  rw [Hw.checkedComplete, hlow, Hw.noteIncomplete,
    Hw.stagingEvent_signals (Hw.freedBlank_job h slot e ▸ hj), Hw.freedBlank_tense0]
  exact List.mem_append_right _ List.mem_cons_self

/-- R354: a non-finite value in a complete block of a watched slot is flagged and signalled. -/
theorem Hw.stagingDeadline_nonfinite (hj : h.job ≠ none) (hbad : h.badBlock slot e ≠ none) :
    (h.stagingDeadline slot e).fld (sliceBase (sliceOf e.base)) Fld.SLC_STG_FLAGS.nonfinite = 1 ∧
    (⟨false, 3, h.tense0, none⟩ : Signal) ∈ (h.stagingDeadline slot e).infl.signals := by
  obtain ⟨b, hb⟩ := Option.ne_none_iff_exists'.mp hbad
  have job : (h.checkedComplete slot e).job ≠ none := Hw.checkedComplete_job h slot e ▸ hj
  rw [Hw.stagingDeadline_eq, hb, ← Hw.checkedComplete_tense0 h slot e]
  constructor
  · exact Hw.fld_stagingEvent.trans (Hw.fld_raise_flag (by decide) (by decide))
  · rw [Hw.noteNonFinite, Hw.stagingEvent_signals job]
    exact List.mem_append_right _ List.mem_cons_self
end

/-- R353, R354: at its deadline tick a slot of a rank that runs a step or a replay is checked. -/
theorem exec_stagingDeadline_due (s : State) (slot : BitVec 12) (j : Job) (e : SlotEntry) (hj : s.hw.job = some j)
    (he : j.img.staging.slots[slot.toNat]? = some e) (hrun : j.running = true) (hsteps : j.steps = true)
    (hhalt : j.halted = false) (hdue : s.hw.reached e.deadline = true) :
    exec (.stagingDeadline slot) s = .next { s with hw := s.hw.stagingDeadline slot.toNat e } := by
  simp [exec, execStagingDeadline, State.onHw, hj, he, hrun, hsteps, hhalt, hdue]

end Sys2Proof.Machine

namespace Sys2Proof

open Machine

/-- Settles O28: the check runs as its four stages, and each clause is what one stage writes and the later ones keep. -/
theorem stagingDeadlineChecksItsSlot : Obligations.StagingDeadlineChecksItsSlot := by
  unfold Obligations.StagingDeadlineChecksItsSlot
  intro s slot j e hj he hrun hsteps hhalt hdue b
  have job : s.hw.job ≠ none := by simp [hj]
  refine ⟨_, exec_stagingDeadline_due s slot j e hj he hrun hsteps hhalt hdue, rfl, Hw.stagingDeadline_mem_dense _ _ _,
    Hw.stagingDeadline_regs _ _ _, Hw.stagingDeadline_pool _ _ _, fun x i hlow => ?_, Hw.stagingDeadline_complete _ _ _,
    fun hwatch hbad => ?_⟩
  · obtain ⟨flag, count⟩ := Hw.stagingDeadline_incomplete _ _ _ hlow
    exact ⟨flag, count, Hw.stagingDeadline_suspect _ _ _ job hlow⟩
  · exact Hw.stagingDeadline_nonfinite _ _ _ job (by rwa [Hw.badBlock, if_pos hwatch])

end Sys2Proof
end

section
/-!
SUPPORT. Blocks of the peripheral window whose clock is off (R263, R394): where such a block lies, what its commands, events and
sources do, and what an access of its window leaves as it was; the reads of the window that no enable bit gates.
-/
namespace Sys2Proof.Machine

/-! ### Commands and events of a gated block -/

theorem State.gated_off {s : State} {b : Nat} (off : s.hw.periOn b = false) (body : State → State) :
    s.gated b body = s.answer Resp.bus := by
  simp [State.gated, off]

theorem State.ifClocked_off {s : State} {b : Nat} (off : s.hw.periOn b = false) (body : State → State) :
    s.ifClocked b body = s := by
  simp [State.ifClocked, off]

/-- A command that a block's clock gates meets a bus error. -/
theorem exec_gated_off {s : State} {x : Instr} {b : Nat} {body : State → State}
    (hx : exec x s = .next (s.onAccess x (fun t => t.gated b body))) (clocked : s.hw.clocked = true)
    (off : s.hw.periOn b = false) : exec x s = .next { s with resp := Resp.bus } := by
  rw [hx, State.onAccess_clocked _ _ _ clocked, State.gated_off off]
  rfl

/-- An event that a block's clock gates does nothing. -/
theorem exec_ifClocked_off {s : State} {x : Instr} {b : Nat} {body : State → State}
    (hx : exec x s = .next (s.ifClocked b body)) (off : s.hw.periOn b = false) : exec x s = .next s := by
  rw [hx, State.ifClocked_off off]

/-! ### Sources of the PLIC, Table 11.2 -/

/-- The enable bit of the block that asserts source 25 to 46. -/
def sourceBlock (n : Nat) : Nat :=
  if n ≤ 26 then periEth (n - 25)
  else if n ≤ 30 then periUart (n - 27)
  else if n ≤ 34 then periI2c (n - 31)
  else if n ≤ 36 then periSpi (n - 35)
  else if n = 37 then periGpio
  else if n ≤ 41 then periTimer
  else if n ≤ 45 then periWdt
  else periQspi

/-- One arm of a case list whose arms are each gated by the bit that another list gives in the same case. -/
theorem ite_gated {c : Prop} [Decidable c] {on asserted on' rest : Bool} (off : (if c then on else on') = false)
    (next : on' = false → rest = false) : (if c then on && asserted else rest) = false := by
  split_ifs at off ⊢
  · rw [off, Bool.false_and]
  · exact next off

theorem State.source_gated {s : State} {n : Nat} (low : 25 ≤ n) (high : n ≤ 46) (off : s.hw.periOn (sourceBlock n) = false) :
    s.source n = false := by
  simp only [sourceBlock, apply_ite s.hw.periOn] at off
  unfold State.source
  rw [if_neg (by omega), if_neg (by omega)]
  refine ite_gated off fun off => ite_gated off fun off => ite_gated off fun off => ite_gated off fun off =>
    ite_gated off fun off => ite_gated off fun off => ?_
  by_cases watchdog : n ≤ 45
  · rw [if_pos watchdog] at off ⊢
    rw [off, Bool.false_and]
  · rw [if_neg watchdog] at off ⊢
    rw [if_pos (by omega), off, Bool.false_and]

/-- A source and the enable bit that gates it. -/
def sourceRow (e : Nat × Nat) : Bool := decide (25 ≤ e.1 ∧ e.1 ≤ 46 ∧ sourceBlock e.1 = e.2)

theorem State.source_gated_of_rows {s : State} {rows : List (Nat × Nat)} (right : rows.all sourceRow = true) {n b : Nat}
    (row : (n, b) ∈ rows) (off : s.hw.periOn b = false) : s.source n = false := by
  obtain ⟨low, high, rfl⟩ : 25 ≤ n ∧ n ≤ 46 ∧ sourceBlock n = b := of_decide_eq_true (List.all_eq_true.mp right _ row)
  exact s.source_gated low high off

/-! ### The peripheral window -/

theorem locate_fliufBase_add {o : Nat} (ho : o < 0x1000000) : locate (fliufBase + o) = some (.fliuf, 0, o) := by
  have from_window : fliufBase + o - 0x0F0000000000 = 0x70000000 + o := by unfold fliufBase; omega
  simp only [locate, Bool.and_eq_true, decide_eq_true_eq, from_window]
  rw [if_neg (by unfold fliufBase; omega)]
  repeat rw [if_neg (by omega)]
  rw [if_pos (by omega), Nat.add_sub_cancel_left]

theorem range_of_window_fliuf {a : Nat} (win : (locate a).map Prod.fst = some .fliuf) :
    fliufBase ≤ a ∧ a < fliufBase + 0x1000000 := by
  simp only [locate, apply_ite (Option.map Prod.fst), Option.map_some, Option.map_none, ite_eq_iff, Option.some.injEq, reduceCtorEq,
    and_false, and_true, false_or, or_false, Bool.and_eq_true, decide_eq_true_eq] at win
  unfold fliufBase
  omega

theorem locate_fliuf_iff {a o : Nat} : locate a = some (.fliuf, 0, o) ↔ a = fliufBase + o ∧ o < 0x1000000 := by
  constructor
  · intro loc
    obtain ⟨low, high⟩ := range_of_window_fliuf (a := a) (by rw [loc]; rfl)
    obtain ⟨k, rfl⟩ := Nat.exists_eq_add_of_le low
    rw [locate_fliufBase_add (by omega)] at loc
    cases loc
    exact ⟨rfl, by omega⟩
  · rintro ⟨rfl, ho⟩
    exact locate_fliufBase_add ho

theorem spaceOf_fliufBase_add {o : Nat} (ho : o < 0x1000000) : spaceOf (fliufBase + o) = .control := by
  simp only [spaceOf, Bool.and_eq_true, decide_eq_true_eq]
  unfold fliufBase tieredEnd sharedBase sharedEnd tileMemBase tileMemEnd
  repeat rw [if_neg (by omega)]
  rw [if_pos (by omega)]

theorem bootMemory_fliufBase_add (o : Nat) : bootMemory (fliufBase + o) = (romAt o || sramAt o) := by
  simp [bootMemory]

/-- The blocks with an enable bit lie between the interrupt devices and the system block, Table 11.3. -/
theorem enableBit_range {o b : Nat} (bit : enableBit o = some b) : 0x410000 ≤ o ∧ o < 0x4A0000 := by
  unfold enableBit at bit
  split_ifs at bit <;> omega

/-- A block holds whole registers. -/
theorem enableBit_align (o : Nat) : enableBit (o / 8 * 8) = enableBit o := by
  have lt (n : Nat) (hn : n % 8 = 0) : (o / 8 * 8 < n) = (o < n) := by
    rw [eq_iff_iff]; omega
  have le (n : Nat) (hn : n % 8 = 0) : (n ≤ o / 8 * 8) = (n ≤ o) := by
    rw [eq_iff_iff]; omega
  have unit (n d : Nat) (hn : n % 8 = 0) (hd : d % 8 = 0) : (o / 8 * 8 - n) / d = (o - n) / d := by
    obtain ⟨e, rfl⟩ := Nat.dvd_of_mod_eq_zero hd
    rw [← Nat.div_div_eq_div_mul, ← Nat.div_div_eq_div_mul]
    congr 1
    omega
  simp only [enableBit, lt, le, unit]

theorem Hw.countBusError_fliuf {a o : Nat} (h : Hw) (write : Bool) (loc : locate a = some (.fliuf, 0, o)) :
    h.countBusError a write = h := by
  obtain ⟨rfl, ho⟩ := locate_fliuf_iff.mp loc
  simp only [Hw.countBusError, spaceOf_fliufBase_add ho, loc]

theorem Hw.heldUp_control {a : Nat} (h : Hw) (n : Nat) (ctl : spaceOf a = .control) : h.heldUp a n = false := by
  simp [Hw.heldUp, ctl]

/-! ### A window whose block is gated -/

/-- The address lies in a block of the peripheral window whose clock is off. -/
def Hw.GatedAt (h : Hw) (a : Nat) : Prop := ∃ o b, locate a = some (.fliuf, 0, o) ∧ enableBit o = some b ∧ h.periOn b = false

theorem Hw.GatedAt.align {h : Hw} {a : Nat} (ga : h.GatedAt a) : h.GatedAt (a / 8 * 8) := by
  obtain ⟨o, b, loc, bit, off⟩ := ga
  obtain ⟨rfl, ho⟩ := locate_fliuf_iff.mp loc
  refine ⟨o / 8 * 8, b, locate_fliuf_iff.mpr ?_, by rwa [enableBit_align], off⟩
  unfold fliufBase
  omega

theorem Hw.GatedAt.control {h : Hw} {a : Nat} (ga : h.GatedAt a) : spaceOf a = .control := by
  obtain ⟨o, b, loc, -, -⟩ := ga
  obtain ⟨rfl, ho⟩ := locate_fliuf_iff.mp loc
  exact spaceOf_fliufBase_add ho

theorem Hw.GatedAt.not_bootMemory {h : Hw} {a : Nat} (ga : h.GatedAt a) : bootMemory a = false := by
  obtain ⟨o, b, loc, bit, -⟩ := ga
  obtain ⟨rfl, -⟩ := locate_fliuf_iff.mp loc
  obtain ⟨low, high⟩ := enableBit_range bit
  simp only [bootMemory_fliufBase_add, romAt, sramAt, Bool.or_eq_false_iff, decide_eq_false_iff_not]
  omega

theorem Hw.GatedAt.countBusError {h : Hw} {a : Nat} (ga : h.GatedAt a) (write : Bool) : h.countBusError a write = h := by
  obtain ⟨o, b, loc, -, -⟩ := ga
  exact h.countBusError_fliuf write loc

section
variable {s : State} {a : Nat} (ga : s.hw.GatedAt a) (r : Outsider) (n : Nat) (found : Ecc)
include ga

theorem State.badWidth_gated (write : Bool) : s.badWidth a write = s.answer Resp.bus := by
  simp [State.badWidth, State.onHw, ga.countBusError]

theorem State.refuse_gated (write : Bool) : s.refuse a write = s.answer Resp.bus := s.badWidth_gated ga write

theorem State.writeWord_gated (m v : Word) : s.writeWord r a m v = s.answer Resp.bus := by
  obtain ⟨o, b, loc, bit, off⟩ := ga
  simp [State.writeWord, loc, State.blockOpen, bit, off]

theorem State.writeReg_gated (v : Word) : s.writeReg r a n v = s.answer Resp.bus := by
  unfold State.writeReg
  rw [ga.not_bootMemory, if_neg Bool.false_ne_true]
  split
  · exact s.writeWord_gated ga.align r _ _
  · exact s.badWidth_gated ga true

theorem State.readReg_gated : s.readReg r a n = s.answer Resp.bus := by
  unfold State.readReg
  rw [ga.not_bootMemory, if_neg Bool.false_ne_true]
  split
  · obtain ⟨o, b, loc, bit, off⟩ := ga
    simp [loc, State.blockOpen, bit, off]
  · exact s.badWidth_gated ga false

theorem State.physRead_gated : s.physRead r a n found = s.answer Resp.bus := by
  unfold State.physRead
  split
  · rfl
  · simp [ga.control, ga.not_bootMemory, s.readReg_gated ga]

theorem State.physWrite_gated (bs : List Byte) : s.physWrite r a bs found = s.answer Resp.bus := by
  unfold State.physWrite
  split
  · rfl
  · split
    · exact s.refuse_gated ga true
    · simp [ga.control, ga.not_bootMemory, s.writeReg_gated ga]

/-- No core cache holds a register: a core's read or write of the block goes past its caches. -/
theorem State.coreAccess_gated {op : AccessOp} (plain : op = .read ∨ ∃ v, op = .write v) :
    s.coreAccess r a n op found = (s.answer Resp.bus, .done) := by
  have uncached : s.hw.coreCached a = false := by simp [Hw.coreCached, ga.control, ga.not_bootMemory]
  obtain rfl | ⟨v, rfl⟩ := plain
  · simp [State.coreAccess, uncached, s.physRead_gated ga]
  · simp [State.coreAccess, uncached, ga.not_bootMemory, s.physWrite_gated ga]
end

/-! ### A bus error and its access fault, R391 -/

/-- The requester gets a bus error; of the rest, the harts alone may differ (an access fault, or what a hart's software had set
before its access). -/
def State.BusErrorOnly (s u : State) : Prop := u = { s with fliuf := { s.fliuf with harts := u.fliuf.harts }, resp := Resp.bus }

theorem State.busErrorOnly_answer (s : State) : s.BusErrorOnly (s.answer Resp.bus) := rfl

theorem State.BusErrorOnly.deny {s u : State} (h : s.BusErrorOnly u) (r : Outsider) (a : Nat) (write : Bool) :
    s.BusErrorOnly (u.deny r a write) := by
  unfold State.BusErrorOnly at h
  rw [h]
  cases r <;> rfl

theorem State.BusErrorOnly.denied {s u : State} (h : s.BusErrorOnly u) (r : Outsider) (a : Nat) (write : Bool) :
    s.BusErrorOnly (u.denied r a write) := by
  unfold State.denied
  split
  · exact h.deny r a write
  · exact h

/-- The same, seen from before the hart's software set its view. -/
theorem State.BusErrorOnly.of_asHart {s u : State} {k : Hart} {paging : Option Paging}
    (h : (s.asHart k paging).BusErrorOnly u) : s.BusErrorOnly u := by
  cases paging with
  | none => exact h
  | some p => exact h

theorem State.deny_busErrorOnly (s : State) (r : Outsider) (a : Nat) (write : Bool) : s.BusErrorOnly (s.deny r a write) := by
  cases r <;> rfl

/-! ### Accesses of a gated block -/

/-- A physical address as a core names it. -/
theorem toNat_addrWord (addr : Addr) : (BitVec.ofNat 64 addr.toNat).toNat = addr.toNat := by
  rw [BitVec.toNat_ofNat]
  exact Nat.mod_eq_of_lt (by omega)

theorem State.translate_physical {p : Paging} (phys : p.root = none ∨ p.mode = 3) (s : State) (r : Outsider) (x : Intent) (a : Nat) :
    s.translate r p x a = (s, .to a) := by
  unfold State.translate
  obtain root | mode := phys
  · rw [root]
  · split
    · rfl
    · rw [if_pos mode]

section
variable {s : State} {a : Nat} (ga : s.hw.GatedAt a) (n : Nat) (found : Ecc) {op : AccessOp}
  (plain : op = .read ∨ ∃ v, op = .write v)
include ga plain

theorem State.plainAccess_gated (r : Outsider) :
    ∃ u, s.plainAccess r a n op found = (u, .done) ∧ s.BusErrorOnly u := by
  have free : s.hw.heldUp a n = false := s.hw.heldUp_control n ga.control
  obtain rfl | ⟨v, rfl⟩ := plain
  · refine ⟨s.outsideRead r a n found, by simp [State.plainAccess, free], ?_⟩
    rw [State.outsideRead, s.physRead_gated ga]
    exact s.busErrorOnly_answer.denied r a false
  · refine ⟨s.outsideWrite r a (leBytes n v.toNat) found, by simp [State.plainAccess, free], ?_⟩
    rw [State.outsideWrite, s.physWrite_gated ga]
    exact s.busErrorOnly_answer.denied r a true

theorem State.hartAccess_gated (k : Hart) (r : Outsider) (paging : Option Paging)
    (phys : ((s.asHart k paging).hart k).view.root = none ∨ ((s.asHart k paging).hart k).view.mode = 3) :
    ∃ u, s.hartAccess k r a n op paging found = (u, .done) ∧ s.BusErrorOnly u := by
  have gq : (s.asHart k paging).hw.GatedAt a := by rwa [State.asHart_hw]
  simp only [State.hartAccess, State.translate_physical phys, State.coreAccess_gated gq r n found plain]
  split
  · exact ⟨_, rfl, ((s.asHart k paging).deny_busErrorOnly r a _).of_asHart⟩
  · exact ⟨_, rfl, ((s.asHart k paging).busErrorOnly_answer.denied r a _).of_asHart⟩

theorem State.nonscheduled_gated {addr : Word} (at_a : addr.toNat = a) (r : Outsider) (width : BitVec 4) (paging : Option Paging)
    (phys : s.physicalFor r paging) : s.BusErrorOnly (s.nonscheduled r addr width op paging found) := by
  subst at_a
  unfold State.nonscheduled
  cases hr : hartOf r with
  | none =>
    obtain ⟨u, acc, only⟩ := s.plainAccess_gated ga width.toNat found plain r
    simpa only [acc] using only
  | some k =>
    obtain ⟨u, acc, only⟩ := s.hartAccess_gated ga width.toNat found plain k r paging (phys k hr)
    simpa only [acc] using only
end

theorem exec_nonscheduledAccess_gated {s : State} {addr : Addr} (ga : s.hw.GatedAt addr.toNat) (clocked : s.hw.clocked = true)
    {op : AccessOp} (plain : op = .read ∨ ∃ v, op = .write v) (r : Outsider) (width : BitVec 4) (paging : Option Paging) (found : Ecc)
    (phys : s.physicalFor r paging) :
    ∃ u, exec (.nonscheduledAccess r (BitVec.ofNat 64 addr.toNat) width op paging found) s = .next u ∧ s.BusErrorOnly u := by
  exact ⟨_, congrArg Host.Outcome.next (s.onAccess_clocked _ _ clocked),
    s.nonscheduled_gated ga found plain (toNat_addrWord addr) r width paging phys⟩

theorem exec_registerWrite_gated {s : State} {addr : Addr} (ga : s.hw.GatedAt addr.toNat) (clocked : s.hw.clocked = true)
    (r : Outsider) (wide : Bool) (v : Word) : ∃ u, exec (.registerWrite r addr wide v) s = .next u ∧ s.BusErrorOnly u := by
  refine ⟨_, congrArg Host.Outcome.next (s.onAccess_clocked _ _ clocked), ?_⟩
  rw [if_pos ga.control, s.writeReg_gated ga]
  exact s.busErrorOnly_answer.denied r addr.toNat true

/-! ### What has no enable bit answers -/

theorem State.uartTake_answers (s : State) (i : Nat) : (s.uartTake i).resp.busError = false := by
  cases rx : (s.uart i).rx <;> simp only [State.uartTake, rx, State.answer_resp] <;> rfl

/-- A register of the peripheral window whose block is open always answers a read. -/
theorem State.fliufRead_answers (s : State) (o a n : Nat) : (s.fliufRead o a n).resp.busError = false := by
  unfold State.fliufRead
  split_ifs
  · rfl
  · exact s.uartTake_answers _
  · rfl
  · rfl
  · rfl

/-- Below the first gated block, and above the last one, no enable bit stands. -/
theorem State.blockOpen_ungated (s : State) (r : Outsider) {o : Nat} (ho : o < 0x410000 ∨ 0x4A0000 ≤ o) : s.blockOpen r o = true := by
  have bit : enableBit o = none := by
    rw [Option.eq_none_iff_forall_ne_some]
    intro b bit
    have := enableBit_range bit
    omega
  have outer : internalBlock o = false := by
    simp only [internalBlock, decide_eq_false_iff_not]
    omega
  simp [State.blockOpen, bit, outer]

theorem State.readReg_ungated_answers (s : State) (r : Outsider) {o : Nat} (ho : o < 0x410000 ∨ 0x4A0000 ≤ o ∧ o < 0x4B0000)
    (aligned : (fliufBase + o) % 8 = 0) : (s.readReg r (fliufBase + o) 8).resp.busError = false := by
  have noBoot : bootMemory (fliufBase + o) = false := by
    simp only [bootMemory_fliufBase_add, romAt, sramAt, Bool.or_eq_false_iff, decide_eq_false_iff_not]
    omega
  have width : regWidth (fliufBase + o) 8 = true := by simp [regWidth, aligned]
  have block := s.blockOpen_ungated r (o := o) (by omega)
  simp [State.readReg, noBoot, width, locate_fliufBase_add (show o < 0x1000000 by omega), block, s.fliufRead_answers]

theorem State.physRead_ungated_answers (s : State) (r : Outsider) {o : Nat} (found : Ecc) (aligned : (fliufBase + o) % 8 = 0)
    (ho : o < 0x410000 ∨ 0x4A0000 ≤ o ∧ o < 0x4B0000 ∨ 0x800000 ≤ o ∧ o < 0x840000 ∨ 0x900000 ≤ o ∧ o < 0xA00000) :
    (s.physRead r (fliufBase + o) 8 found).resp.busError = false := by
  have last : o + 7 < 0x1000000 := by unfold fliufBase at aligned; omega
  have ctl : spaceOf (fliufBase + o) = .control := spaceOf_fliufBase_add (by omega)
  have same : sameSpace (fliufBase + o) 8 = true := decide_eq_true ((spaceOf_fliufBase_add last).trans ctl.symm)
  unfold State.physRead
  simp only [same, ctl, Bool.not_true, Bool.false_eq_true, if_false]
  split
  · rfl
  · next notBoot =>
    refine s.readReg_ungated_answers r ?_ aligned
    simp only [show fliufBase + o + 8 - 1 = fliufBase + (o + 7) from rfl, bootMemory_fliufBase_add, romAt, sramAt, Bool.and_eq_true,
      Bool.or_eq_true, decide_eq_true_eq] at notBoot
    unfold fliufBase at aligned
    omega

theorem exec_management_read_ungated {s : State} {addr : Addr} {o : Nat} (loc : locate addr.toNat = some (.fliuf, 0, o))
    (aligned : addr.toNat % 8 = 0) (clocked : s.hw.clocked = true)
    (ho : o < 0x410000 ∨ 0x4A0000 ≤ o ∧ o < 0x4B0000 ∨ 0x800000 ≤ o ∧ o < 0x840000 ∨ 0x900000 ≤ o ∧ o < 0xA00000) :
    ∃ u, exec (.nonscheduledAccess .management (BitVec.ofNat 64 addr.toNat) 8 .read none .clean) s = .next u ∧
      u.resp.busError = false := by
  obtain ⟨at_o, inside⟩ := locate_fliuf_iff.mp loc
  have at_addr : (BitVec.ofNat 64 addr.toNat).toNat = fliufBase + o := (toNat_addrWord addr).trans at_o
  have answers := s.physRead_ungated_answers .management .clean (at_o ▸ aligned) ho
  refine ⟨_, congrArg Host.Outcome.next (s.onAccess_clocked _ _ clocked), ?_⟩
  simp only [State.nonscheduled, hartOf, State.plainAccess, at_addr, s.hw.heldUp_control _ (spaceOf_fliufBase_add inside),
    Bool.false_eq_true, if_false, State.outsideRead, State.denied]
  rw [show (8 : BitVec 4).toNat = 8 from rfl, answers]
  exact answers

end Sys2Proof.Machine

namespace Sys2Proof

open Machine

/-- Settles O53: a gated block's commands, events and sources go by its enable bit, and an access of its window ends in the bus
error of `State.BusErrorOnly`. -/
theorem gatedBlocksAnswerWithBusErrors : Obligations.GatedBlocksAnswerWithBusErrors := by
  unfold Obligations.GatedBlocksAnswerWithBusErrors
  refine ⟨fun s i k v x b command clocked off => ?_, fun s i k v p q r d x b event off => ?_,
    fun s r addr o b wide v width paging found x phys access clocked loc bit off => ?_, fun s n b source off => ?_,
    fun s addr o loc aligned ungated clocked => ?_⟩
  · simp only [List.mem_cons, Prod.mk.injEq, List.not_mem_nil, or_false] at command
    obtain ⟨rfl, rfl⟩ | ⟨rfl, rfl⟩ | ⟨rfl, rfl⟩ | ⟨rfl, rfl⟩ | ⟨rfl, rfl⟩ | ⟨rfl, rfl⟩ := command <;>
      exact exec_gated_off rfl clocked off
  · simp only [List.mem_cons, Prod.mk.injEq, List.not_mem_nil, or_false] at event
    obtain ⟨rfl, rfl⟩ | ⟨rfl, rfl⟩ | ⟨rfl, rfl⟩ | ⟨rfl, rfl⟩ | ⟨rfl, rfl⟩ | ⟨rfl, rfl⟩ := event <;>
      exact exec_ifClocked_off rfl off
  · have ga : s.hw.GatedAt addr.toNat := ⟨o, b, loc, bit, off⟩
    simp only [List.mem_cons, List.not_mem_nil, or_false] at access
    obtain rfl | rfl | rfl := access
    · exact exec_registerWrite_gated ga clocked r wide v
    · exact exec_nonscheduledAccess_gated ga clocked (.inl rfl) r width paging found phys
    · exact exec_nonscheduledAccess_gated ga clocked (.inr ⟨v, rfl⟩) r width paging found phys
  · exact State.source_gated_of_rows (by decide) source off
  · exact exec_management_read_ungated loc aligned clocked ungated

end Sys2Proof
end
